-- ==== Sys2Proof/Config.lean ====
section
/-! DEFINITION. The free values of the environment: what the peer does to the two lines at an instant for which
nothing in the state says it (spec/20_memory.md R48, spec/92 D33, spec/93 U5; notes/assumptions/2.md). The block has
no other parameter that an implementation fixes: clock read-back is given at run time with `INIT` (R4), and
pull-ups are present (R48, D8; notes/assumptions/10.md). -/

namespace Sys2Proof

/-- DESIGN CHOICE (log 2), safe: `PEER_SCL` on the line pair `bus` at its `n`-th micro-operation; true when no peer pulls
the clock line low. A free value: nothing in Lean can say what it is, nor that two line pairs agree. -/
opaque Config.peerScl (bus n : Nat) : Bool

/-- DESIGN CHOICE (log 2), safe: `PEER_SDA` on the line pair `bus` at its `n`-th micro-operation. -/
opaque Config.peerSda (bus n : Nat) : Bool

/-- DESIGN CHOICE (log 3), safe: `PEER_SCL` on the line pair `bus` at its `n`-th step that issues no micro-operation. -/
opaque Config.restScl (bus n : Nat) : Bool

/-- DESIGN CHOICE (log 3), safe: `PEER_SDA` on the line pair `bus` at its `n`-th step that issues no micro-operation. -/
opaque Config.restSda (bus n : Nat) : Bool

end Sys2Proof
end

