-- ==== Sys2Proof/Word.lean ====
section
/-! DEFINITION. The word types of the block (spec/00_scope.md R4, R5): every quantity is unsigned, bit 0 is the
least significant bit. -/

namespace Sys2Proof

/-- A data byte, a register address or a header byte. -/
abbrev Byte := BitVec 8

/-- A 7-bit slave address (R4). -/
abbrev SlaveAddr := BitVec 7

/-- A transfer length, a byte index into `BUF` or a byte count (R4). -/
abbrev Count := BitVec 16

/-- A command word `CMD[63:0]` (R60). -/
abbrev CmdWord := BitVec 64

/-- A response word `RSP[31:0]` (R67). -/
abbrev RspWord := BitVec 32

end Sys2Proof
end

