-- ==== Sys2Proof/Syntax.lean ====
section
/-! DEFINITION. The fourteen routines of spec/opcode_table.json (spec/30_encoding.md R64), one constructor a row, each with
the operands its rule gives it. The nine commands come first, the five internal routines after them. -/

namespace Sys2Proof

/-- One routine with its operands. -/
inductive Instr where
  /-- `INIT halcap, freq` (R80). -/
  | init (halcap : BitVec 5) (freq : BitVec 32)
  /-- `DEINIT` (R81). -/
  | deinit
  /-- `START` (R110). -/
  | start
  /-- `STOP` (R111). -/
  | stop
  /-- `CONNECT addr, w` (R113); `w` is `is_write`. -/
  | connect (addr : SlaveAddr) (w : Bool)
  /-- `WRITE addr, n` (R120). -/
  | write (addr : SlaveAddr) (n : Count)
  /-- `READ addr, n` (R121). -/
  | read (addr : SlaveAddr) (n : Count)
  /-- `WRITE_REG addr, reg, n` (R122). -/
  | writeReg (addr : SlaveAddr) (reg : Byte) (n : Count)
  /-- `READ_REG addr, reg, n` (R123). -/
  | readReg (addr : SlaveAddr) (reg : Byte) (n : Count)
  /-- `RESTART` (R112), internal. -/
  | restart
  /-- `WRITE_BYTE(d)` (R100), internal. -/
  | writeByte (d : Byte)
  /-- `READ_BYTE(final)` (R101), internal. -/
  | readByte (final : Bool)
  /-- `WRITE_BIT(v)` (R90), internal. -/
  | writeBit (v : Bool)
  /-- `READ_BIT()` (R91), internal. -/
  | readBit
deriving DecidableEq, Repr

/-- The 4-bit routine code (R64). -/
def Instr.code : Instr → BitVec 4
  | .init _ _ => 0x0
  | .deinit => 0x1
  | .start => 0x2
  | .stop => 0x3
  | .connect _ _ => 0x4
  | .write _ _ => 0x5
  | .read _ _ => 0x6
  | .writeReg _ _ _ => 0x7
  | .readReg _ _ _ => 0x8
  | .restart => 0x9
  | .writeByte _ => 0xA
  | .readByte _ => 0xB
  | .writeBit _ => 0xC
  | .readBit => 0xD

end Sys2Proof
end

