-- ==== Sys2Proof/WellFormed.lean ====
section
/-! DEFINITION. Which instructions have a command word of their own. Every operand field is as wide as its type, so the only
check left is the "issuable" column of spec/30_encoding.md R64: the five internal routines are no commands (R66). -/

namespace Sys2Proof

/-- The routine can be issued at the command port (R64, column "issuable"). -/
def Instr.issuable : Instr → Bool
  | .init _ _ | .deinit | .start | .stop | .connect _ _ => true
  | .write _ _ | .read _ _ | .writeReg _ _ _ | .readReg _ _ _ => true
  | .restart | .writeByte _ | .readByte _ | .writeBit _ | .readBit => false

/-- A well-formed command: one that the host can write as a command word (R64, R66). -/
def Instr.wf (i : Instr) : Bool := i.issuable

end Sys2Proof
end

