-- ==== Sys2Proof/Decode.lean ====
section
/-! DEFINITION. The decoder of the command port and the encoder (spec/30_encoding.md R60 to R66, R75). Decoding is total:
a word that selects no row is refused under the name of what is wrong with it. -/

namespace Sys2Proof

/-- Why a command word is illegal (R66; spec/93 U14, U15, U16). -/
inductive Illegal where
  /-- Opcode 0x9 to 0xD: the code of an internal routine. -/
  | internalCode
  /-- Opcode 0xE or 0xF: reserved. -/
  | reservedCode
  /-- A must-be-zero bit of the command's format is 1. -/
  | mustBeZero
deriving DecidableEq, Repr

/-- `OPC = CMD[3:0]` (R60). -/
def fieldOpc (w : CmdWord) : BitVec 4 := w.extractLsb' 0 4
/-- `ADDR = CMD[10:4]` (R65). -/
def fieldAddr (w : CmdWord) : SlaveAddr := w.extractLsb' 4 7
/-- `W = CMD[11]` (R65). -/
def fieldW (w : CmdWord) : Bool := w.getLsbD 11
/-- `REG = CMD[19:12]` (R65). -/
def fieldReg (w : CmdWord) : Byte := w.extractLsb' 12 8
/-- `LEN = CMD[35:20]` (R65). -/
def fieldLen (w : CmdWord) : Count := w.extractLsb' 20 16
/-- `HALCAP = CMD[8:4]` (R65). -/
def fieldHalcap (w : CmdWord) : BitVec 5 := w.extractLsb' 4 5
/-- `FREQ = CMD[63:32]` (R65). -/
def fieldFreq (w : CmdWord) : BitVec 32 := w.extractLsb' 32 32

/-- A word selects the row `(value, mask)` when `(CMD & mask) = match` (R65); the row then reads as `i`. -/
def selectRow (value mask : CmdWord) (i : Instr) (w : CmdWord) : Except Illegal Instr :=
  if w &&& mask = value then .ok i else .error .mustBeZero

/-- The decoder of the command port (R65): the nine issuable rows with their match and mask; everything else is
illegal (R66). -/
def decode (w : CmdWord) : Except Illegal Instr :=
  match (fieldOpc w).toNat with
  | 0x0 => selectRow 0x0 0x00000000FFFFFE0F (.init (fieldHalcap w) (fieldFreq w)) w
  | 0x1 => selectRow 0x1 0xFFFFFFFFFFFFFFFF .deinit w
  | 0x2 => selectRow 0x2 0xFFFFFFFFFFFFFFFF .start w
  | 0x3 => selectRow 0x3 0xFFFFFFFFFFFFFFFF .stop w
  | 0x4 => selectRow 0x4 0xFFFFFFFFFFFFF00F (.connect (fieldAddr w) (fieldW w)) w
  | 0x5 => selectRow 0x5 0xFFFFFFF0000FF80F (.write (fieldAddr w) (fieldLen w)) w
  | 0x6 => selectRow 0x6 0xFFFFFFF0000FF80F (.read (fieldAddr w) (fieldLen w)) w
  | 0x7 => selectRow 0x7 0xFFFFFFF00000080F (.writeReg (fieldAddr w) (fieldReg w) (fieldLen w)) w
  | 0x8 => selectRow 0x8 0xFFFFFFF00000080F (.readReg (fieldAddr w) (fieldReg w) (fieldLen w)) w
  | 0x9 | 0xA | 0xB | 0xC | 0xD => .error .internalCode
  | _ => .error .reservedCode

/-- The internal routine a frame code 0x9 to 0xD names (R64, R65: "for `SEQ` frames only"). Its argument is passed by the
caller and not encoded: here it is 0 (DESIGN CHOICE, log 12, safe: no command word reaches this). -/
def routineOfCode (c : BitVec 4) : Option Instr :=
  match c.toNat with
  | 0x9 => some .restart
  | 0xA => some (.writeByte 0)
  | 0xB => some (.readByte false)
  | 0xC => some (.writeBit false)
  | 0xD => some .readBit
  | _ => none

/-- A field of `k` bits put at bit `lo` of a command word. -/
def atBit {k : Nat} (lo : Nat) (v : BitVec k) : CmdWord := v.setWidth 64 <<< lo

/-- The command word of a well-formed instruction, from the formats N, C and T (R61, R62, R63); for an internal routine its
4-bit code alone, which is no command word (R65). -/
def encode : Instr → CmdWord
  | .init h f => 0x0 ||| atBit 4 h ||| atBit 32 f
  | .deinit => 0x1
  | .start => 0x2
  | .stop => 0x3
  | .connect a w => 0x4 ||| atBit 4 a ||| atBit 11 (BitVec.ofBool w)
  | .write a n => 0x5 ||| atBit 4 a ||| atBit 20 n
  | .read a n => 0x6 ||| atBit 4 a ||| atBit 20 n
  | .writeReg a r n => 0x7 ||| atBit 4 a ||| atBit 12 r ||| atBit 20 n
  | .readReg a r n => 0x8 ||| atBit 4 a ||| atBit 12 r ||| atBit 20 n
  | .restart => 0x9
  | .writeByte _ => 0xA
  | .readByte _ => 0xB
  | .writeBit _ => 0xC
  | .readBit => 0xD

/-- The instruction of an opcode-table word of `nbits` bits: a command word reads as the command port reads it, a word
whose opcode is an internal code reads as that `SEQ` frame code (R65; log 12). The word is one 64-bit value with no byte
order (R60). -/
def decodeTableWord (nbits w : Nat) : Option Instr :=
  match decode (BitVec.ofNat 64 (w % 2 ^ nbits)) with
  | .ok i => some i
  | .error .internalCode => routineOfCode (fieldOpc (BitVec.ofNat 64 (w % 2 ^ nbits)))
  | .error _ => none

end Sys2Proof
end

