-- ==== Sys2Proof/Machine/State.lean ====
section
/-! DEFINITION. The state of one controller instance with its ports, its two lines and the buffer it is lent
(spec/10_state.md R10 to R26, spec/20_memory.md R40 to R48), as plain data. -/

namespace Sys2Proof.Machine

/-- The two bus lines (R40). -/
inductive Line where
  | scl
  | sda
deriving DecidableEq, Repr

/-- The five micro-operations (R7); a read carries what it returned. -/
inductive MicroOp where
  /-- `LineWrite(L, b)` (R46): 0 drives low, 1 releases. -/
  | lineWrite (l : Line) (b : Bool)
  /-- `LineRead(L)` that returned `b` (R47). -/
  | lineRead (l : Line) (b : Bool)
  /-- `Delay(n)` (R49). -/
  | delay (n : BitVec 19)
  /-- `MemRead(i, 1)` that returned `v` (R42). -/
  | memRead (i : Count) (v : Byte)
  /-- `MemWrite(i, 1, v)` (R43). -/
  | memWrite (i : Count) (v : Byte)
deriving DecidableEq, Repr

/-- The levels of the two lines at one instant (R48). -/
structure Levels where
  scl : Bool
  sda : Bool
deriving DecidableEq, Repr

/-- One micro-operation as an observer of the HAL boundary and of the lines sees it: `pre` are the levels just before it (the
peer has already moved), `post` the levels just after it (R51; log 3, log 17). -/
structure Event where
  op : MicroOp
  pre : Levels
  post : Levels
deriving DecidableEq, Repr

/-- A frame of `SEQ` (R21): a routine and the number of a line of its listing. The bottom frame is the command in progress
(`callee = none`: its code is `OPC` and its operands are the latches); every other frame holds the called routine with its
arguments (R133). `loop` is the line of `TXLOOP` or `RXLOOP` inside the line of the caller's listing that runs it, 0 outside. -/
structure Frame where
  callee : Option Instr
  line : Nat
  loop : Nat
deriving DecidableEq, Repr

/-- The buffer `BUF` (R41): the bytes that differ from what an unlisted index reads as, indices strictly rising. -/
abbrev Memory := List Host.Cell

/-- Why the model stops. None of these is an outcome of the controller: its error outcomes are response words. -/
inductive Fault where
  /-- Raised by `MemRead` and `MemWrite` (and by the host's buffer access) at an index outside 0 to 65534 (R41, spec/93 U25).
  Safe: the spec calls the access a fault of the model; no run from reset raises it. -/
  | bufIndex (i : Nat)
  /-- Raised by every meaning, and by `step`, when the top frame of `SEQ` shows a line its routine's listing does not have, or
  `SEQ` is empty while `BUSY = 1`: positions R21 does not know (DESIGN CHOICE, log 22). Safe; no run from reset raises it. -/
  | seqPosition
  /-- Raised by the return line of an internal routine that has no caller (R133; log 13). Safe; no run from reset raises it. -/
  | returnNoCaller
  /-- Raised by a host action that changes the lent part of `BUF` during a command, or reads what a receiving command will write
  there (R55, R174, spec/93 U13; log 15). Safe: the spec asks a model to treat it as a race. -/
  | bufRace (i : Nat)
deriving DecidableEq, Repr

/-- Why the model declines an instruction. -/
inductive Refusal where
  /-- Raised by `exec` for a row of the opcode table that has no meaning yet. Safe. -/
  | notModelled (mnemonic : String)
deriving DecidableEq, Repr

/-- The state. Registers first (R10), then the ports (spec/92 D1), the environment and the model's own fields. -/
structure State where
  /-- `VALID` (R11). -/
  valid : Bool
  /-- `HALCAP` (R12). -/
  halcap : BitVec 5
  /-- `FREQ` (R13). -/
  freq : BitVec 32
  /-- `HALF` (R14). -/
  half : BitVec 19
  /-- `STARTED` (R15). -/
  started : Bool
  /-- `SCL_O` (R17). -/
  sclO : Bool
  /-- `SDA_O` (R17). -/
  sdaO : Bool
  /-- `BUSY` (R19). -/
  busy : Bool
  /-- `ACKL` (R19). -/
  ackl : Bool
  /-- `FLT` (R19). -/
  flt : Bool
  /-- `FAULT` (R19). -/
  fault : Bool
  /-- `OPC` (R20). -/
  opc : BitVec 4
  /-- `ADDR` (R20). -/
  addr : SlaveAddr
  /-- `W` (R20). -/
  w : Bool
  /-- `REG` (R20). -/
  reg : Byte
  /-- `LEN` (R20). -/
  len : Count
  /-- `IDX` (R20). -/
  idx : Count
  /-- `CNT` (R20). -/
  cnt : Count
  /-- `SHREG` (R20). -/
  shreg : Byte
  /-- `BITK` (R20). -/
  bitk : BitVec 3
  /-- `SEQ` (R21), top frame first. -/
  seq : List Frame
  /-- `RSP` (R18). -/
  rsp : RspWord
  /-- The response port shows `RSP` as valid (R136). -/
  rspValid : Bool
  /-- The accepted command word, latched whole (R56, R130). -/
  cmd : CmdWord
  /-- The bit a listing variable last received from a return or a `LineRead` (R133; the model's own, log 7). -/
  res : Bool
  /-- The listing variable `d` of `TXLOOP` (R124; the model's own, log 7). -/
  dat : Byte
  /-- The command port: the word the host presents, if any (R130). -/
  cmdIn : Option CmdWord
  /-- The reset input is asserted (R160). -/
  rstIn : Bool
  /-- `PEER_SCL` (R22, R48): false when a peer pulls the clock line low. -/
  peerScl : Bool
  /-- `PEER_SDA` (R22, R48). -/
  peerSda : Bool
  /-- The peer's drive (`PEER_SCL`, `PEER_SDA`) at the coming micro-operations (the model's own, log 2). -/
  peerScript : List (Bool × Bool)
  /-- How many micro-operations there have been: an argument of the free values (the model's own, log 2). -/
  peerTime : Nat
  /-- How many steps without a micro-operation there have been: an argument of the free values (the model's own, log 3). -/
  restTime : Nat
  /-- The line pair the controller is bound to (R57): an argument of the free values (the model's own, log 2, log 20). -/
  bus : Nat
  /-- `BUF` (R41). -/
  buf : Memory
  /-- The micro-operations so far, newest first (the model's own, log 17). -/
  trace : List Event
deriving DecidableEq, Repr

/-- The state right after reset (R26, R160). `FLT`, the working registers, the model's own fields, the environment and the
contents of `BUF` have no reset value in the spec: DESIGN CHOICE (log 2, 3, 4, 5, 6, 7, 8, 14, 17), unsafe. -/
def State.reset : State where
  valid := false
  halcap := 0
  freq := 0
  half := 0
  started := false
  sclO := true
  sdaO := true
  busy := false
  ackl := false
  flt := false
  fault := false
  opc := 0
  addr := 0
  w := false
  reg := 0
  len := 0
  idx := 0
  cnt := 0
  shreg := 0
  bitk := 0
  seq := []
  rsp := 0
  rspValid := false
  cmd := 0
  res := false
  dat := 0
  cmdIn := none
  rstIn := false
  peerScl := true
  peerSda := true
  peerScript := []
  peerTime := 0
  restTime := 0
  bus := 0
  buf := []
  trace := []

/-- The three outcomes of a meaning. -/
abbrev Out := Host.Outcome State Fault Refusal

end Sys2Proof.Machine
end

