-- ==== Sys2Proof/Machine/Flags.lean ====
section
/-! DEFINITION. The flag computations (spec/10_state.md R19; spec/42_byte_engine.md R100 to R102). There are no arithmetic
condition codes. -/

namespace Sys2Proof.Machine

/-- `ACKL <- (a = 0)`: electrically low is ACK (R71, R100 step 5). -/
def ackOf (sample : Bool) : Bool := !sample

/-- `FLT <- (r != final)`: the driven ninth bit did not read back (R101 step 6, R102). -/
def fltOf (sample final : Bool) : Bool := sample != final

end Sys2Proof.Machine
end

