-- ==== Sys2Proof/Machine/Mem.lean ====
section
/-! DEFINITION. The buffer `BUF` (spec/20_memory.md R41 to R45): 65535 bytes, one byte an access, in one canonical form. -/

namespace Sys2Proof.Machine

/-- The number of bytes of `BUF` (R4, R41): the indices are 0 to 65534. -/
def bufSize : Nat := 65535

/-- What a byte that is not listed reads as. DESIGN CHOICE (log 6), unsafe: the spec gives the contents of the host's buffer no
value. -/
def bufDefault : Byte := 0

/-- `BUF[i]` (R42). -/
def Memory.read : Memory → Nat → Byte
  | [], _ => bufDefault
  | (a, v) :: m, i => if a = i then v else Memory.read m i

/-- `BUF[i] <- v` (R43), keeping the canonical form. -/
def Memory.write : Memory → Nat → Byte → Memory
  | [], i, v => if v = bufDefault then [] else [(i, v)]
  | (a, b) :: m, i, v =>
    if i < a then (if v = bufDefault then (a, b) :: m else (i, v) :: (a, b) :: m)
    else if i = a then (if v = bufDefault then m else (i, v) :: m)
    else (a, b) :: Memory.write m i v

/-- The entries are at strictly rising indices from `lo` on, inside `BUF`, and none equals the default. -/
def Memory.wfFrom : Nat → Memory → Bool
  | _, [] => true
  | lo, (a, v) :: m => decide (lo ≤ a) && decide (a < bufSize) && decide (v ≠ bufDefault) && Memory.wfFrom (a + 1) m

/-- The canonical form of `BUF`. -/
def Memory.wf (m : Memory) : Bool := Memory.wfFrom 0 m

end Sys2Proof.Machine
end

