-- ==== Sys2Proof/Machine/Operands.lean ====
section
/-! DEFINITION. Operand forms and the arithmetic on them: the capability mask (spec/10_state.md R12, spec/30_encoding.md R72), the
half-period (spec/40_config.md R82), the header byte (R69), the bit order of a byte (R44, R103), the last-byte test (R125,
R138) and the response word (R67, R68). -/

namespace Sys2Proof.Machine

/-- `HALCAP.WR_SCL`, bit 0 (R72). -/
def halWrScl (h : BitVec 5) : Bool := h.getLsbD 0
/-- `HALCAP.WR_SDA`, bit 1 (R72). -/
def halWrSda (h : BitVec 5) : Bool := h.getLsbD 1
/-- `HALCAP.RD_SCL`, bit 2 (R72): clock read-back, hence clock stretching. -/
def halRdScl (h : BitVec 5) : Bool := h.getLsbD 2
/-- `HALCAP.RD_SDA`, bit 3 (R72). -/
def halRdSda (h : BitVec 5) : Bool := h.getLsbD 3
/-- `HALCAP.DELAY`, bit 4 (R72). -/
def halDelay (h : BitVec 5) : Bool := h.getLsbD 4

/-- `REQ = 0b11011`: the required functions, everything but `RD_SCL` (R72). -/
def halRequired : BitVec 5 := 0x1B

/-- No required HAL function is missing (R80 step 2). -/
def halComplete (h : BitVec 5) : Bool := h &&& halRequired = halRequired

/-- `HALF = (500000 + (FREQ >> 1)) div FREQ` (R82): round half up of 500000 / FREQ. -/
def halfPeriod (freq : BitVec 32) : BitVec 19 :=
  BitVec.ofNat 19 ((500000 + (freq >>> 1).toNat) / freq.toNat)

/-- `hdr = {addr[6:0], 1 - w}` (R69). -/
def header (addr : SlaveAddr) (w : Bool) : Byte :=
  (addr.setWidth 8 <<< 1) ||| (if w then 0 else 1)

/-- Bit `k` of a byte (R5). -/
def byteBit (d : Byte) (k : BitVec 3) : Bool := d.getLsbD k.toNat

/-- `d[k] <- b` (R101 step 2). -/
def setByteBit (d : Byte) (k : BitVec 3) (b : Bool) : Byte :=
  if b then d ||| (1#8 <<< k.toNat) else d &&& ~~~(1#8 <<< k.toNat)

/-- `IDX = n - 1` (R125 step 3), evaluated only when `n >= 1` (R138). -/
def isLast (idx n : Count) : Bool := idx = n - 1

/-- The completion codes (R68). -/
inductive Code where
  | ok
  | configErr
  | notStarted
  | stateErr
  | illegalCmd
deriving DecidableEq, Repr

/-- The number of a completion code (R68). -/
def codeNum : Code → BitVec 3
  | .ok => 0
  | .configErr => 1
  | .notStarted => 2
  | .stateErr => 3
  | .illegalCmd => 4

/-- `{0[31:21], c[2:0], FAULT, ACKL, n[15:0]}` (R67, R136). -/
def packRsp (n : Count) (ack fault : Bool) (c : Code) : RspWord :=
  n.setWidth 32 ||| ((BitVec.ofBool ack).setWidth 32 <<< 16) ||| ((BitVec.ofBool fault).setWidth 32 <<< 17)
    ||| ((codeNum c).setWidth 32 <<< 18)

/-- `COUNT`, bits 15:0 of a response word (R67). -/
def rspCount (r : RspWord) : Count := r.extractLsb' 0 16
/-- `ACK`, bit 16 (R67). -/
def rspAck (r : RspWord) : Bool := r.getLsbD 16
/-- `FAULT`, bit 17 (R67). -/
def rspFault (r : RspWord) : Bool := r.getLsbD 17
/-- `CODE`, bits 20:18 (R67). -/
def rspCode (r : RspWord) : BitVec 3 := r.extractLsb' 18 3

/-- The four composite commands, the ones whose response carries a count (R68). -/
def isComposite (opc : BitVec 4) : Bool :=
  opc.toNat = 5 || opc.toNat = 6 || opc.toNat = 7 || opc.toNat = 8

/-- The commands that read `BUF` (R41): `WRITE`, `WRITE_REG`. -/
def isTransmit (opc : BitVec 4) : Bool := opc.toNat = 5 || opc.toNat = 7

/-- The commands that write `BUF` (R41): `READ`, `READ_REG`. -/
def isReceive (opc : BitVec 4) : Bool := opc.toNat = 6 || opc.toNat = 8

end Sys2Proof.Machine
end

