-- ==== Sys2Proof/Machine/Ops.lean ====
section
/-! DEFINITION. The named operations every routine is made of: the bus model and the five micro-operations
(spec/20_memory.md R42 to R49), the clock-stretch poll (spec/41_bit_engine.md R92), the moves of `SEQ` (spec/10_state.md R21,
spec/45_control_flow.md R132, R133), acceptance and response (R130, R136), raising an error (spec/60_exceptions.md R140) and
reset (spec/70_reset_and_hazards.md R160). -/

namespace Sys2Proof.Machine

/-! ### The bus -/

/-- `Level(L) = L_O & PEER_L` (R48); pull-ups are present (D8). -/
def level (l : Line) (s : State) : Bool :=
  match l with
  | .scl => s.sclO && s.peerScl
  | .sda => s.sdaO && s.peerSda

/-- The two levels now. -/
def levels (s : State) : Levels := ⟨level .scl s, level .sda s⟩

/-- What the peer drives at the next micro-operation: the script's head, a free value of this line pair when the script is used up
(log 2). -/
def peerNext (s : State) : Bool × Bool :=
  match s.peerScript with
  | p :: _ => p
  | [] => (Config.peerScl s.bus s.peerTime, Config.peerSda s.bus s.peerTime)

/-- The peer changes its drive, just before a micro-operation (R8, R45; log 3). -/
def peerMove (s : State) : State :=
  { s with
    peerScl := (peerNext s).1, peerSda := (peerNext s).2, peerScript := s.peerScript.tail, peerTime := s.peerTime + 1 }

/-- What the peer drives from the next step on if that step issues no micro-operation: a free value of this line pair (R48, log 3). -/
def restDrive (s : State) : Bool × Bool := (Config.restScl s.bus s.restTime, Config.restSda s.bus s.restTime)

/-- The peer changes its drive during a step that issues no micro-operation (R8, R48; log 3). -/
def peerRest (s : State) : State :=
  { s with peerScl := (restDrive s).1, peerSda := (restDrive s).2, restTime := s.restTime + 1 }

/-- The micro-operation `op` led from `before` to `after`: put it on the trace. -/
def record (op : MicroOp) (before after : State) : State :=
  { after with trace := ⟨op, levels before, levels after⟩ :: after.trace }

/-! ### The micro-operations -/

/-- The latch of `l` takes the value `b` (R17). -/
def setLatch (l : Line) (b : Bool) (s : State) : State :=
  match l with
  | .scl => { s with sclO := b }
  | .sda => { s with sdaO := b }

/-- `LineWrite(L, b)` (R46). -/
def lineWrite (l : Line) (b : Bool) (s : State) : State :=
  record (.lineWrite l b) (peerMove s) (setLatch l b (peerMove s))

/-- `LineRead(L)` (R47): the level at this instant, left in the listing variable. -/
def lineRead (l : Line) (s : State) : State :=
  record (.lineRead l (level l (peerMove s))) (peerMove s) { peerMove s with res := level l (peerMove s) }

/-- `Delay(HALF)` (R49): one step, always enabled (log 9). -/
def delay (s : State) : State := record (.delay s.half) (peerMove s) (peerMove s)

/-- `d <- MemRead(IDX, 1)` (R42), then `k`. Index 65535 does not exist (R41). -/
def memRead (s : State) (k : State → Out) : Out :=
  if s.idx.toNat < bufSize then
    k (record (.memRead s.idx (Memory.read s.buf s.idx.toNat)) (peerMove s)
      { peerMove s with dat := Memory.read s.buf s.idx.toNat })
  else .fault (.bufIndex s.idx.toNat)

/-- `MemWrite(IDX, 1, v)` (R43), then `k`. -/
def memWrite (v : Byte) (s : State) (k : State → Out) : Out :=
  if s.idx.toNat < bufSize then
    k (record (.memWrite s.idx v) (peerMove s) { peerMove s with buf := Memory.write s.buf s.idx.toNat v })
  else .fault (.bufIndex s.idx.toNat)

/-! ### Moves of the sequencer -/

/-- The top frame's line and loop line. -/
def withPos (s : State) (body : Nat → Nat → Out) : Out :=
  match s.seq with
  | [] => .fault .seqPosition
  | f :: _ => body f.line f.loop

/-- The top frame moves to a line of its listing. -/
def setPos (line loop : Nat) (s : State) : State :=
  { s with
    seq := match s.seq with
      | [] => []
      | f :: rest => ⟨f.callee, line, loop⟩ :: rest }

/-- The top frame moves to a line outside any loop. -/
def goto (line : Nat) (s : State) : State := setPos line 0 s

/-- `call R(args)` at a line of the caller (R133): the caller waits there, the callee starts at its step 1. -/
def callAt (line loop : Nat) (r : Instr) (s : State) : Out :=
  .next { peerRest (setPos line loop s) with seq := ⟨some r, 1, 0⟩ :: (setPos line loop s).seq }

/-- A waiting caller moves to its next line (R133). -/
def Frame.advance (f : Frame) : Frame :=
  if f.loop = 0 then ⟨f.callee, f.line + 1, 0⟩ else ⟨f.callee, f.line, f.loop + 1⟩

/-- `Stretch()` as a line of a listing (R92): one poll that stays while the clock reads low and moves on to `after` when it reads
high; no micro-operation, straight to `skip`, when the HAL cannot read the clock. -/
def stretch (after : Nat) (skip : State → Out) (s : State) : Out :=
  if halRdScl s.halcap then
    if (lineRead .scl s).res then .next (goto after (lineRead .scl s)) else .next (lineRead .scl s)
  else skip s

/-! ### Acceptance, response, errors, reset -/

/-- The word `w` is latched and its command begins at dispatch (R130). -/
def latchCommand (w : CmdWord) (s : State) : State :=
  { s with
    busy := true, ackl := false, fault := false, rspValid := false, cmd := w,
    opc := fieldOpc w, addr := fieldAddr w, w := fieldW w, reg := fieldReg w, len := fieldLen w,
    seq := [⟨none, 0, 0⟩] }

/-- Acceptance of the word on the command port (R130): it leaves the port. -/
def accept (w : CmdWord) (s : State) : State := { latchCommand w (peerRest s) with cmdIn := none }

/-- `COUNT` is 0 unless a composite command ended `OK` (R68, R136). -/
def countOf (c : Code) (s : State) : Count :=
  if c = .ok ∧ isComposite s.opc = true then s.cnt else 0

/-- `respond(CODE = c, COUNT)` (R136). -/
def respond (c : Code) (s : State) : State :=
  { peerRest s with rsp := packRsp (countOf c s) s.ackl s.fault c, rspValid := true, seq := [], busy := false }

/-- `raise <Error>` (R6, R131, R150): the command ends at once with its code; nothing is saved, there is no handler. -/
def raise (c : Code) (s : State) : Out := .next (respond c s)

/-- The end of a listing: a command responds `OK` (R136); a called routine returns to its caller's next line (R133). -/
def finish (s : State) : Out :=
  match s.seq with
  | [] => .fault .seqPosition
  | f :: rest =>
    match f.callee with
    | none => .next (respond .ok s)
    | some _ =>
      match rest with
      | [] => .fault .returnNoCaller
      | c :: below => .next { peerRest s with seq := c.advance :: below }

/-- A command at its dispatch step 0 (R131): a check that fails ends it, otherwise its listing begins at step 1 in the same
step (R132). At a later line the listing goes on. -/
def asCommand (check : Option Code) (body : Nat → Nat → Out) (s : State) : Out :=
  withPos s fun line loop =>
    match line with
    | 0 =>
      match check with
      | some c => raise c s
      | none => body 1 0
    | k + 1 => body (k + 1) loop

/-- Dispatch check (2) of every command but `INIT` (R131, R146). -/
def needsMaster (s : State) : Option Code := if s.valid then none else some .stateErr

/-- Reset (R160): every register at its reset value, both lines released, no micro-operation; `BUF`, the host's ports and the
history are not touched and the peer does what it likes (R161, R162). What the spec leaves unspecified takes the values of `State.reset` (log 4, 16). -/
def doReset (s : State) : State :=
  { State.reset with
    buf := s.buf, peerScl := (restDrive s).1, peerSda := (restDrive s).2, peerScript := s.peerScript, peerTime := s.peerTime,
    restTime := s.restTime + 1, bus := s.bus, trace := s.trace, cmdIn := s.cmdIn, rstIn := s.rstIn }

end Sys2Proof.Machine
end

