-- ==== Sys2Proof/Machine/BitEngine.lean ====
section
/-! DEFINITION. The bit-level engine: `WRITE_BIT` and `READ_BIT` (spec/41_bit_engine.md R90 to R94). The numbers are the step
numbers of the listings; a line that is only register work is done with the next line of the routine (R132, log 1). -/

namespace Sys2Proof.Machine

/-- The high phase of a bit cell and what follows it: `Delay(HALF)`, then line 7. -/
def highPhase (s : State) : Out := .next (goto 7 (delay s))

/-- `WRITE_BIT(v)` (R90). -/
def execWriteBit (v : Bool) (s : State) : Out :=
  withPos s fun line _ =>
    match line with
    | 1 => .next (goto 2 (lineWrite .scl false s))
    | 2 => .next (goto 3 (delay s))
    | 3 => .next (goto 4 (lineWrite .sda v s))
    | 4 => .next (goto 5 (lineWrite .scl true s))
    | 5 => stretch 6 highPhase s
    | 6 => highPhase s
    | 7 => finish s
    | _ => .fault .seqPosition

/-- `READ_BIT() -> b` (R91); `b` stands in `res` when the routine returns. -/
def execReadBit (s : State) : Out :=
  withPos s fun line _ =>
    match line with
    | 1 => .next (goto 2 (lineWrite .scl false s))
    | 2 => .next (goto 3 (lineWrite .sda true s))
    | 3 => .next (goto 4 (delay s))
    | 4 => .next (goto 5 (lineWrite .scl true s))
    | 5 => stretch 6 highPhase s
    | 6 => highPhase s
    | 7 => .next (goto 8 (lineRead .sda s))
    | 8 => finish s
    | _ => .fault .seqPosition

end Sys2Proof.Machine
end

