-- ==== Sys2Proof/Machine/ByteEngine.lean ====
section
/-! DEFINITION. The byte-level engine: `WRITE_BYTE` and `READ_BYTE` (spec/42_byte_engine.md R100 to R103). -/

namespace Sys2Proof.Machine

/-- `call WRITE_BIT(SHREG[BITK])` (R100 step 2). -/
def sendBit (s : State) : Out := callAt 2 0 (.writeBit (byteBit s.shreg s.bitk)) s

/-- `WRITE_BYTE(d) -> acked` (R100); `acked` stands in `ACKL` and in `res` when the routine returns. -/
def execWriteByte (d : Byte) (s : State) : Out :=
  withPos s fun line _ =>
    match line with
    | 1 => sendBit { s with shreg := d, bitk := 7 }
    | 2 => sendBit s
    | 3 => if s.bitk = 0 then callAt 4 0 .readBit s else sendBit { s with bitk := s.bitk - 1 }
    | 4 => callAt 4 0 .readBit s
    | 5 => finish { s with ackl := ackOf s.res, res := ackOf s.res }
    | 6 => finish { s with res := s.ackl }
    | _ => .fault .seqPosition

/-- `SHREG[BITK] <- b` (R101 step 2), `b` being what `READ_BIT` returned. -/
def storeBit (s : State) : State := { s with shreg := setByteBit s.shreg s.bitk s.res }

/-- `READ_BYTE(final) -> (value, flt)` (R101); the results stand in `SHREG` and `FLT` when the routine returns. -/
def execReadByte (final : Bool) (s : State) : Out :=
  withPos s fun line _ =>
    match line with
    | 1 => callAt 2 0 .readBit { s with bitk := 7 }
    | 2 => callAt 2 0 .readBit s
    | 3 =>
      if s.bitk = 0 then callAt 4 0 (.writeBit final) (storeBit s)
      else callAt 2 0 .readBit { storeBit s with bitk := s.bitk - 1 }
    | 4 => callAt 4 0 (.writeBit final) s
    | 5 => .next (goto 6 (lineRead .sda s))
    | 6 => finish { s with flt := fltOf s.res final }
    | 7 => finish s
    | _ => .fault .seqPosition

end Sys2Proof.Machine
end

