-- ==== Sys2Proof/Machine/Conditions.lean ====
section
/-! DEFINITION. The condition generator and addressing: `START`, `STOP`, `RESTART`, `CONNECT` (spec/43_conditions.md R110 to
R115). `START`, `STOP` and `CONNECT` are commands and called routines alike. -/

namespace Sys2Proof.Machine

/-- `START` (R110). -/
def execStart (s : State) : Out :=
  asCommand (needsMaster s) (fun line _ =>
    match line with
    | 1 => .next (goto 2 (lineWrite .sda true s))
    | 2 => .next (goto 3 (delay s))
    | 3 => .next (goto 4 (lineWrite .sda false s))
    | 4 => .next (goto 5 (delay s))
    | 5 => finish { s with started := true }
    | 6 => finish s
    | _ => .fault .seqPosition) s

/-- `STOP` (R111). -/
def execStop (s : State) : Out :=
  asCommand (needsMaster s) (fun line _ =>
    match line with
    | 1 => .next (goto 2 (lineWrite .scl false s))
    | 2 => .next (goto 3 (delay s))
    | 3 => .next (goto 4 (lineWrite .sda false s))
    | 4 => .next (goto 5 (delay s))
    | 5 => .next (goto 6 (lineWrite .scl true s))
    | 6 => stretch 7 (fun s => .next (goto 8 (delay s))) s
    | 7 => .next (goto 8 (delay s))
    | 8 => .next (goto 9 (lineWrite .sda true s))
    | 9 => .next (goto 10 (delay s))
    | 10 => finish { s with started := false }
    | 11 => finish s
    | _ => .fault .seqPosition) s

/-- `RESTART` (R112), internal. -/
def execRestart (s : State) : Out :=
  withPos s fun line _ =>
    match line with
    | 1 => .next (goto 2 (lineWrite .scl false s))
    | 2 => .next (goto 3 (delay s))
    | 3 => .next (goto 4 (lineWrite .sda true s))
    | 4 => .next (goto 5 (delay s))
    | 5 => .next (goto 6 (lineWrite .scl true s))
    | 6 => stretch 7 (fun s => .next (goto 8 (delay s))) s
    | 7 => .next (goto 8 (delay s))
    | 8 => .next (goto 9 (lineWrite .sda false s))
    | 9 => .next (goto 10 (delay s))
    | 10 => finish { s with started := true }
    | 11 => finish s
    | _ => .fault .seqPosition

/-- Dispatch checks (2) and (4) of `CONNECT` (R131, R145). -/
def connectCheck (s : State) : Option Code :=
  if s.valid then (if s.started then none else some .notStarted) else some .stateErr

/-- `return not_started` (R113 step 1): a command answers `NOT_STARTED`; a called `CONNECT` hands back a failed result (it
cannot happen there: DESIGN CHOICE, log 18, safe). -/
def connectNotStarted (s : State) : Out :=
  match s.seq with
  | ⟨none, _, _⟩ :: _ => raise .notStarted s
  | _ => finish { s with res := false }

/-- `CONNECT addr, w -> acked` (R113). -/
def execConnect (addr : SlaveAddr) (w : Bool) (s : State) : Out :=
  asCommand (connectCheck s) (fun line _ =>
    match line with
    | 1 => if s.started then callAt 3 0 (.writeByte (header addr w)) s else connectNotStarted s
    | 2 => callAt 3 0 (.writeByte (header addr w)) s
    | 3 => callAt 3 0 (.writeByte (header addr w)) s
    | 4 => finish s
    | _ => .fault .seqPosition) s

end Sys2Proof.Machine
end

