-- ==== Sys2Proof/Machine/Configuration.lean ====
section
/-! DEFINITION. Initialisation and teardown: `INIT` and `DEINIT` (spec/40_config.md R80 to R83). -/

namespace Sys2Proof.Machine

/-- Dispatch checks (2) and (3) of `INIT` (R80 steps 1 to 3, R131). -/
def initCheck (halcap : BitVec 5) (freq : BitVec 32) (s : State) : Option Code :=
  if s.valid then some .stateErr
  else if halComplete halcap = true ∧ freq ≠ 0 then none
  else some .configErr

/-- `INIT halcap, freq` (R80): its listing issues no micro-operation, so it is one step from dispatch to response. -/
def execInit (halcap : BitVec 5) (freq : BitVec 32) (s : State) : Out :=
  asCommand (initCheck halcap freq s) (fun line _ =>
    match line with
    | 1 =>
      .next (respond .ok
        { s with halcap := halcap, freq := freq, half := halfPeriod freq, started := false, valid := true })
    | _ => .fault .seqPosition) s

/-- Steps 3 to 5 of `DEINIT` (R81). -/
def tearDown (s : State) : Out :=
  .next (respond .ok { s with halcap := 0, freq := 0, half := 0, valid := false })

/-- `DEINIT` (R81). -/
def execDeinit (s : State) : Out :=
  asCommand (needsMaster s) (fun line _ =>
    match line with
    | 1 => if s.started then callAt 2 0 .stop s else tearDown s
    | 2 => if s.started then callAt 2 0 .stop s else tearDown s
    | 3 => tearDown s
    | _ => .fault .seqPosition) s

end Sys2Proof.Machine
end

