-- ==== Sys2Proof/Machine/Transactions.lean ====
section
/-! DEFINITION. The composite transactions: `WRITE`, `READ`, `WRITE_REG`, `READ_REG` and their loops `TXLOOP` and `RXLOOP`
(spec/44_transactions.md R120 to R127). A loop is part of its caller's listing: it runs inside the caller's line `line`, and
the caller's frame also holds the loop's line. -/

namespace Sys2Proof.Machine

/-- `call STOP()` at the line `out` of the caller: every path of a composite command ends there (R126). -/
def leaveToStop (out : Nat) (s : State) : Out := callAt out 0 .stop s

/-- Step 3 of `TXLOOP`: `d <- MemRead(IDX, 1)` (R124). -/
def txFetch (line : Nat) (s : State) : Out := memRead s fun s => .next (setPos line 4 s)

/-- Step 2 of `TXLOOP`: `if IDX = n: return CNT`, else step 3 (R124). -/
def txTest (line out : Nat) (n : Count) (s : State) : Out :=
  if s.idx = n then leaveToStop out s else txFetch line s

/-- `CNT <- CNT + 1 ; IDX <- IDX + 1` (R124 and R125 step 6). -/
def countByte (s : State) : State := { s with cnt := s.cnt + 1, idx := s.idx + 1 }

/-- `TXLOOP(n)` in the caller's line `line`; `out` is the caller's `call STOP()` line (R124). -/
def txLoop (line out : Nat) (n : Count) (loop : Nat) (s : State) : Out :=
  match loop with
  | 1 => txTest line out n { s with cnt := 0, idx := 0 }
  | 2 => txTest line out n s
  | 3 => txFetch line s
  | 4 => callAt line 4 (.writeByte s.dat) s
  | 5 => if s.res then txTest line out n (countByte s) else leaveToStop out s
  | 6 => txTest line out n (countByte s)
  | _ => .fault .seqPosition

/-- Step 3 of `RXLOOP`: `call READ_BYTE(IDX = n - 1)` (R125). -/
def rxReceive (line : Nat) (n : Count) (s : State) : Out := callAt line 3 (.readByte (isLast s.idx n)) s

/-- Step 2 of `RXLOOP` (R125). -/
def rxTest (line out : Nat) (n : Count) (s : State) : Out :=
  if s.idx = n then leaveToStop out s else rxReceive line n s

/-- `RXLOOP(n)` in the caller's line `line` (R125). -/
def rxLoop (line out : Nat) (n : Count) (loop : Nat) (s : State) : Out :=
  match loop with
  | 1 => rxTest line out n { s with cnt := 0, idx := 0 }
  | 2 => rxTest line out n s
  | 3 => rxReceive line n s
  | 4 => memWrite s.shreg s fun s => .next (setPos line 5 s)
  | 5 => if s.flt then leaveToStop out { s with fault := true } else rxTest line out n (countByte s)
  | 6 => rxTest line out n (countByte s)
  | _ => .fault .seqPosition

/-- `WRITE addr, n -> count` (R120). -/
def execWrite (addr : SlaveAddr) (n : Count) (s : State) : Out :=
  asCommand (needsMaster s) (fun line loop =>
    match line with
    | 1 => callAt 2 0 .start { s with cnt := 0 }
    | 2 => callAt 2 0 .start s
    | 3 => callAt 3 0 (.connect addr true) s
    | 4 =>
      if loop = 0 then (if s.res then txLoop 4 5 n 1 s else leaveToStop 5 s)
      else txLoop 4 5 n loop s
    | 5 => leaveToStop 5 s
    | 6 => .next (respond .ok s)
    | _ => .fault .seqPosition) s

/-- `READ addr, n -> count` (R121). -/
def execRead (addr : SlaveAddr) (n : Count) (s : State) : Out :=
  asCommand (needsMaster s) (fun line loop =>
    match line with
    | 1 => callAt 2 0 .start { s with cnt := 0 }
    | 2 => callAt 2 0 .start s
    | 3 => callAt 3 0 (.connect addr false) s
    | 4 =>
      if loop = 0 then (if s.res then rxLoop 4 5 n 1 s else leaveToStop 5 s)
      else rxLoop 4 5 n loop s
    | 5 => leaveToStop 5 s
    | 6 => .next (respond .ok s)
    | _ => .fault .seqPosition) s

/-- `WRITE_REG addr, reg, n -> count` (R122). -/
def execWriteReg (addr : SlaveAddr) (reg : Byte) (n : Count) (s : State) : Out :=
  asCommand (needsMaster s) (fun line loop =>
    match line with
    | 1 => callAt 2 0 .start { s with cnt := 0 }
    | 2 => callAt 2 0 .start s
    | 3 => callAt 3 0 (.connect addr true) s
    | 4 => if s.res then callAt 5 0 (.writeByte reg) s else leaveToStop 7 s
    | 5 => callAt 5 0 (.writeByte reg) s
    | 6 =>
      if loop = 0 then (if s.res then txLoop 6 7 n 1 s else leaveToStop 7 s)
      else txLoop 6 7 n loop s
    | 7 => leaveToStop 7 s
    | 8 => .next (respond .ok s)
    | _ => .fault .seqPosition) s

/-- `READ_REG addr, reg, n -> count` (R123). -/
def execReadReg (addr : SlaveAddr) (reg : Byte) (n : Count) (s : State) : Out :=
  asCommand (needsMaster s) (fun line loop =>
    match line with
    | 1 => callAt 2 0 .start { s with cnt := 0 }
    | 2 => callAt 2 0 .start s
    | 3 => callAt 3 0 (.connect addr true) s
    | 4 => if s.res then callAt 5 0 (.writeByte reg) s else leaveToStop 10 s
    | 5 => callAt 5 0 (.writeByte reg) s
    | 6 => if s.res then callAt 7 0 .restart s else leaveToStop 10 s
    | 7 => callAt 7 0 .restart s
    | 8 => callAt 8 0 (.connect addr false) s
    | 9 =>
      if loop = 0 then (if s.res then rxLoop 9 10 n 1 s else leaveToStop 10 s)
      else rxLoop 9 10 n loop s
    | 10 => leaveToStop 10 s
    | 11 => .next (respond .ok s)
    | _ => .fault .seqPosition) s

end Sys2Proof.Machine
end

