-- ==== Sys2Proof/Machine/Dispatch.lean ====
section
/-! DEFINITION. The meaning of every routine: what the sequencer does at the top frame of `SEQ` when that frame's
routine is `i` (spec/45_control_flow.md R132). -/

namespace Sys2Proof.Machine

def exec (i : Instr) (s : State) : Host.Outcome State Fault Refusal :=
  match i with
  -- 40_config.md
  | .init halcap freq => Sys2Proof.Machine.execInit halcap freq s
  | .deinit => Sys2Proof.Machine.execDeinit s
  -- 43_conditions.md
  | .start => Sys2Proof.Machine.execStart s
  | .stop => Sys2Proof.Machine.execStop s
  | .connect addr w => Sys2Proof.Machine.execConnect addr w s
  -- 44_transactions.md
  | .write addr n => Sys2Proof.Machine.execWrite addr n s
  | .read addr n => Sys2Proof.Machine.execRead addr n s
  | .writeReg addr reg n => Sys2Proof.Machine.execWriteReg addr reg n s
  | .readReg addr reg n => Sys2Proof.Machine.execReadReg addr reg n s
  -- the internal routines
  | .restart => Sys2Proof.Machine.execRestart s
  | .writeByte d => Sys2Proof.Machine.execWriteByte d s
  | .readByte final => Sys2Proof.Machine.execReadByte final s
  | .writeBit v => Sys2Proof.Machine.execWriteBit v s
  | .readBit => Sys2Proof.Machine.execReadBit s

end Sys2Proof.Machine
end

