-- ==== Sys2Proof/Machine/Fetch.lean ====
section
/-! DEFINITION. Which routine the sequencer performs next (spec/10_state.md R21; spec/45_control_flow.md R131 to R133), and how an
internal routine's frame is placed. There is no instruction memory: the command in progress stands in the operand latches, a
called routine in its frame. -/

namespace Sys2Proof.Machine

/-- The command the operand latches hold (R20, R65). -/
def latchedCommand (s : State) : Option Instr :=
  match s.opc.toNat with
  | 0 => some (.init (fieldHalcap s.cmd) (fieldFreq s.cmd))
  | 1 => some .deinit
  | 2 => some .start
  | 3 => some .stop
  | 4 => some (.connect s.addr s.w)
  | 5 => some (.write s.addr s.len)
  | 6 => some (.read s.addr s.len)
  | 7 => some (.writeReg s.addr s.reg s.len)
  | 8 => some (.readReg s.addr s.reg s.len)
  | _ => none

/-- The word at dispatch, read by the decoder of the command port (R131 check 1). -/
def dispatchedCommand (s : State) : Option Instr :=
  match decode s.cmd with
  | .ok i => some i
  | .error _ => none

/-- The routine of the frame `f`. -/
def frameInstr (f : Frame) (s : State) : Option Instr :=
  match f.callee with
  | some r => some r
  | none => if f.line = 0 then dispatchedCommand s else latchedCommand s

/-- The routine the sequencer is at, if it is at one. -/
def fetch (s : State) : Option Instr :=
  match s.seq with
  | [] => none
  | f :: _ => frameInstr f s

/-- The accepted word is waiting for dispatch. -/
def atDispatch (s : State) : Bool :=
  match s.seq with
  | ⟨none, 0, _⟩ :: _ => true
  | _ => false

/-- A step while `BUSY = 1` that finds no routine: an illegal word at dispatch ends with its code (R131 check 1, R147). -/
def noRoutine (s : State) : Out :=
  if atDispatch s then raise .illegalCmd s else .fault .seqPosition

/-- A step while `BUSY = 0`: a presented word is accepted (R130); otherwise the block is idle (R156). -/
def idleStep (s : State) : Out :=
  match s.cmdIn with
  | some w => .next (accept w s)
  | none => .next (peerRest s)

/-- `SEQ` holds the frame of an internal routine alone, at its step 1 (log 12): where the table's internal codes live (R65). -/
def beginRoutine (r : Instr) (s : State) : State :=
  { s with busy := true, rstIn := false, seq := [⟨some r, 1, 0⟩] }

/-- The command word `w` has been accepted and is about to be dispatched. -/
def beginCommand (w : CmdWord) (s : State) : State := { latchCommand w s with rstIn := false }

end Sys2Proof.Machine
end

