-- ==== Sys2Proof/Machine/Step.lean ====
section
/-! DEFINITION. One step of a controller: reset, else acceptance or idling while `BUSY = 0`, else the routine at the top of
`SEQ` (spec/45_control_flow.md R130 to R132; spec/70_reset_and_hazards.md R160, R162). -/

namespace Sys2Proof.Machine

/-- One step. -/
def step (s : State) : Host.Outcome State Fault Refusal :=
  if s.rstIn then .next (doReset s)
  else if s.busy then
    match fetch s with
    | some i => exec i s
    | none => noRoutine s
  else idleStep s

/-- `s` about to run the opcode-table word `w` of `nbits` bits: an accepted command word waits at dispatch; an internal code is
the frame of that routine on `SEQ` (R65; log 12, log 14). -/
def State.withFetchWord (s : State) (nbits w : Nat) : State :=
  match decode (BitVec.ofNat 64 (w % 2 ^ nbits)) with
  | .error .internalCode =>
    match routineOfCode (fieldOpc (BitVec.ofNat 64 (w % 2 ^ nbits))) with
    | some r => beginRoutine r s
    | none => beginCommand (BitVec.ofNat 64 (w % 2 ^ nbits)) s
  | _ => beginCommand (BitVec.ofNat 64 (w % 2 ^ nbits)) s

end Sys2Proof.Machine
end

