-- ==== Sys2Proof/Machine/HostPort.lean ====
section
/-! DEFINITION. What the outside world can do to a controller between two steps (spec/00_scope.md R8, spec/92 D1): present a word on
the command port, take the response, use `BUF`, drive the reset input, change what the peer drives on the lines; and runs in which
these actions and steps alternate. -/

namespace Sys2Proof.Machine

/-- The controller is ready for a word (R130). -/
def ready (s : State) : Bool := !s.busy

/-- The response port: `RSP` while it is valid (R136). -/
def response (s : State) : Option RspWord := if s.rspValid then some s.rsp else none

/-- `BUF[i]` is lent to a transmitting command in progress (R55, R174). DESIGN CHOICE (log 15), safe: from acceptance on the latched
opcode and length decide, also for a word that dispatch will refuse. -/
def lentForRead (s : State) (i : Nat) : Bool := s.busy && isTransmit s.opc && decide (i < s.len.toNat)

/-- `BUF[i]` is lent to a receiving command in progress (R55, R174); log 15 as for `lentForRead`. -/
def lentForWrite (s : State) (i : Nat) : Bool := s.busy && isReceive s.opc && decide (i < s.len.toNat)

/-- An action of the host. -/
inductive HostAct where
  /-- Present a word on the command port; it waits there while `BUSY = 1` (R130). -/
  | present (w : CmdWord)
  /-- Take the presented word off the port again. -/
  | withdraw
  /-- Assert or release the reset input (R160). -/
  | reset (on : Bool)
  /-- Write `BUF[i]`. -/
  | bufWrite (i : Nat) (v : Byte)
deriving DecidableEq, Repr

/-- The reset input is driven to `on`: asserting it and releasing it reset the controller at once, however short the pulse (R160,
R162); an input that stays released changes nothing. -/
def driveReset (on : Bool) (s : State) : State := if on || s.rstIn then { doReset s with rstIn := on } else s

/-- The effect of a host action (log 15). A write of a byte that is lent, to a transmitting or to a receiving command, is a race
(R55, spec/92 D29, spec/93 U13). -/
def hostAct (a : HostAct) (s : State) : Out :=
  match a with
  | .present w => .next { s with cmdIn := some w }
  | .withdraw => .next { s with cmdIn := none }
  | .reset on => .next (driveReset on s)
  | .bufWrite i v =>
    if i < bufSize then
      if lentForRead s i || lentForWrite s i then .fault (.bufRace i) else .next { s with buf := Memory.write s.buf i v }
    else .fault (.bufIndex i)

/-- The host reads `BUF[i]`: a race while the byte is lent to a receiving command (R55, R174). -/
def hostBufRead (i : Nat) (s : State) : Except Fault Byte :=
  if i < bufSize then
    if lentForWrite s i then .error (.bufRace i) else .ok (Memory.read s.buf i)
  else .error (.bufIndex i)

/-- `k` steps of the controller, stopping at the first fault. -/
def runSteps : Nat → State → Out
  | 0, s => .next s
  | k + 1, s =>
    match step s with
    | .next t => runSteps k t
    | .fault r => .fault r
    | .refused r => .refused r

/-- What the peer may do at any instant (R8, R48, spec/92 D33). -/
inductive PeerAct where
  /-- Pull each line low or release it, now: any level at any instant, pulses between two steps too. -/
  | drive (scl sda : Bool)
  /-- Settle what it will drive at the coming micro-operations (log 2). -/
  | plan (script : List (Bool × Bool))
deriving DecidableEq, Repr

/-- The effect of an action of the peer: always allowed, and on the peer's own fields alone. -/
def peerAct (a : PeerAct) (s : State) : State :=
  match a with
  | .drive scl sda => { s with peerScl := scl, peerSda := sda }
  | .plan script => { s with peerScript := script }

/-- What happens next to a controller: it steps, or the host acts, or the peer does. -/
inductive Move where
  | tick
  | host (a : HostAct)
  | peer (a : PeerAct)
deriving DecidableEq, Repr

/-- One move. -/
def move (m : Move) (s : State) : Out :=
  match m with
  | .tick => step s
  | .host a => hostAct a s
  | .peer a => .next (peerAct a s)

/-- A run: moves in turn, stopping at the first fault. -/
def runMoves : List Move → State → Out
  | [], s => .next s
  | m :: ms, s =>
    match move m s with
    | .next t => runMoves ms t
    | .fault r => .fault r
    | .refused r => .refused r

end Sys2Proof.Machine
end

