-- ==== Sys2Proof/Machine/Instances.lean ====
section
/-! DEFINITION. Several controllers on distinct line pairs (spec/20_memory.md R57, spec/60_exceptions.md R155): each has its own
copy of all state, they share nothing, and one of them steps at a time (DESIGN CHOICE, log 20). -/

namespace Sys2Proof.Machine

/-- `n` controllers right after reset, each on a line pair of its own: their peers' free values have nothing to do with each other
(R48, R57; log 2). -/
def instancesAtReset (n : Nat) : List State := (List.range n).map fun k => { State.reset with bus := k }

/-- No two controllers are bound to the same line pair: the only case the spec gives a meaning (R57). -/
def onDistinctBuses (ss : List State) : Bool := decide (ss.map (·.bus)).Nodup

/-- Controller `k` takes a step; the others stay as they are. -/
def stepInstance : Nat → List State → Host.Outcome (List State) Fault Refusal
  | _, [] => .next []
  | 0, s :: rest =>
    match step s with
    | .next t => .next (t :: rest)
    | .fault r => .fault r
    | .refused r => .refused r
  | k + 1, s :: rest =>
    match stepInstance k rest with
    | .next ts => .next (s :: ts)
    | .fault r => .fault r
    | .refused r => .refused r

end Sys2Proof.Machine
end

