-- ==== Sys2Proof/Safety.lean ====
section
/-! DEFINITION. The terms claims about the controller use: what an observer sees of a run, the bus conditions
(spec/20_memory.md R51), the wire formats as lists of micro-operations (spec/30_encoding.md R70; the waveforms of
spec/41_bit_engine.md to spec/44_transactions.md), the invariant of a safe run (spec/10_state.md R21, R25), and which lines the
listings have. Nothing here is used by the machine. -/

namespace Sys2Proof.Machine

/-! ### What an observer sees of a run -/

/-- The controller's side of the state: everything but the peer and the history. -/
def ctrl (s : State) : State :=
  { s with peerScl := true, peerSda := true, peerScript := [], peerTime := 0, restTime := 0, trace := [] }

/-- What the peer drives at the `k`-th coming micro-operation, counting from 0. -/
def driveAt (s : State) (k : Nat) : Bool × Bool :=
  match s.peerScript[k]? with
  | some p => p
  | none => (Config.peerScl s.bus (s.peerTime + k), Config.peerSda s.bus (s.peerTime + k))

/-- From `s` the run came to `t`: it issued exactly the micro-operations `ops`, in this order, and apart from the peer and the
history `t` is `u`. -/
structure Did (s : State) (ops : List MicroOp) (t u : State) : Prop where
  issued : ∃ es : List Event, t.trace = es ++ s.trace ∧ (es.map (·.op)).reverse = ops
  time : t.peerTime = s.peerTime + ops.length
  script : t.peerScript = s.peerScript.drop ops.length
  bus : t.bus = s.bus
  state : ctrl t = ctrl u

/-- One step of the routine `i` from `s`: `exec` answers a next state, having issued `ops`, and that state is `u` up to the peer and
the history. -/
def Answers (i : Instr) (s : State) (ops : List MicroOp) (u : State) : Prop := ∃ t, exec i s = .next t ∧ Did s ops t u

/-- One step of the controller from `s`, whatever the routine: it issues `ops` and comes to `u` up to the peer and the history. -/
def Steps (s : State) (ops : List MicroOp) (u : State) : Prop := ∃ t, step s = .next t ∧ Did s ops t u

/-- The controller runs from `s`, issues exactly `ops`, and comes to `u` up to the peer and the history. -/
def Runs (s : State) (ops : List MicroOp) (u : State) : Prop := ∃ k t, runSteps k s = .next t ∧ Did s ops t u

/-- The routine `i` has just been called and `caller` waits for it (R133). -/
structure Called (i : Instr) (caller : Frame) (below : List Frame) (s : State) : Prop where
  running : s.rstIn = false
  busy : s.busy = true
  seq : s.seq = ⟨some i, 1, 0⟩ :: caller :: below

/-- The word of the command `i` has just been accepted and waits for dispatch (R130). -/
structure Accepted (i : Instr) (s : State) : Prop where
  running : s.rstIn = false
  busy : s.busy = true
  seq : s.seq = [⟨none, 0, 0⟩]
  word : decode s.cmd = .ok i
  opc : s.opc = fieldOpc s.cmd
  addr : s.addr = fieldAddr s.cmd
  w : s.w = fieldW s.cmd
  reg : s.reg = fieldReg s.cmd
  len : s.len = fieldLen s.cmd
  ackl : s.ackl = false
  fault : s.fault = false

/-- `t` is what reset makes of `s`: every register to which R26 gives a reset value has it (R160); no micro-operation; `BUF` and what
the peer will do are as they were, and the peer drives the lines as it likes meanwhile (R161; log 3). That a word waiting on the command
port stays there (`port`) is the model's choice (log 16). -/
structure ResetFrom (s t : State) : Prop where
  master : t.valid = false ∧ t.halcap = 0 ∧ t.freq = 0 ∧ t.half = 0 ∧ t.started = false
  lines : t.sclO = true ∧ t.sdaO = true
  flags : t.busy = false ∧ t.ackl = false ∧ t.fault = false
  response : t.rsp = 0
  seq : t.seq = []
  silent : t.trace = s.trace
  buf : t.buf = s.buf
  port : t.cmdIn = s.cmdIn
  peer : (t.peerScl, t.peerSda) = restDrive s ∧ t.peerScript = s.peerScript ∧ t.peerTime = s.peerTime

/-- What a command refused with the code `c` leaves: the response and nothing else (R131, R136, R150). -/
def refusedWith (c : Code) (s : State) : State :=
  { s with rsp := packRsp 0 s.ackl s.fault c, rspValid := true, seq := [], busy := false }

/-- What a command that ended `OK` in the state `u` leaves (R136). -/
def completed (u : State) : State :=
  { u with
    rsp := packRsp (if isComposite u.opc = true then u.cnt else 0) u.ackl u.fault .ok, rspValid := true, seq := [], busy := false }

/-- The last line of the listing of `i`, from `s` and with the register work that makes `u` of it: a command (`callee = none`)
responds `OK`, a called routine returns to the next line of its caller (R133, R136), and a routine that nobody called stops
(log 13). -/
def Ends (i : Instr) (callee : Option Instr) (rest : List Frame) (s u : State) : Prop :=
  (callee = none → Answers i s [] (completed u)) ∧
  (∀ r c below, callee = some r → rest = c :: below → Answers i s [] { u with seq := c.advance :: below }) ∧
  (∀ r, callee = some r → rest = [] → exec i s = .fault .returnNoCaller)

/-- The line of `i` calls `r`, and the caller waits at `line` (loop line `loop`) (R133). -/
def Calls (i : Instr) (callee : Option Instr) (line loop : Nat) (rest : List Frame) (r : Instr) (s u : State) : Prop :=
  Answers i s [] { u with seq := ⟨some r, 1, 0⟩ :: ⟨callee, line, loop⟩ :: rest }

/-- `TXLOOP` step 3 in the line `line` of `i`, the register work before it having made `u` (R124): the byte is fetched; index 65535
stops (R41). -/
def TxFetch (i : Instr) (callee : Option Instr) (line : Nat) (rest : List Frame) (s u : State) : Prop :=
  (u.idx.toNat < bufSize →
    Answers i s [.memRead u.idx (Memory.read u.buf u.idx.toNat)]
      { u with dat := Memory.read u.buf u.idx.toNat, seq := ⟨callee, line, 4⟩ :: rest }) ∧
  (¬u.idx.toNat < bufSize → exec i s = .fault (.bufIndex u.idx.toNat))

/-- `TXLOOP` step 2 in the line `line` of `i`, the register work before it having made `u` (R124): the loop is over and `i` goes to
its `call STOP()` at `out`, or the loop goes on with step 3. -/
def TxTest (i : Instr) (callee : Option Instr) (line out : Nat) (n : Count) (rest : List Frame) (s u : State) : Prop :=
  (u.idx = n → Calls i callee out 0 rest .stop s u) ∧ (u.idx ≠ n → TxFetch i callee line rest s u)

/-- `TXLOOP(n)` inside the line `line` of `i`, whose `call STOP()` is line `out` (R124). -/
def TxLoop (i : Instr) (line out : Nat) (n : Count) : Prop :=
  ∀ (s : State) (callee : Option Instr) (rest : List Frame),
    (s.seq = ⟨callee, line, 1⟩ :: rest → TxTest i callee line out n rest s { s with cnt := 0, idx := 0 }) ∧
    (s.seq = ⟨callee, line, 2⟩ :: rest → TxTest i callee line out n rest s s) ∧
    (s.seq = ⟨callee, line, 3⟩ :: rest → TxFetch i callee line rest s s) ∧
    (s.seq = ⟨callee, line, 4⟩ :: rest → Calls i callee line 4 rest (.writeByte s.dat) s s) ∧
    (s.seq = ⟨callee, line, 5⟩ :: rest →
      (s.res = false → Calls i callee out 0 rest .stop s s) ∧
      (s.res = true → TxTest i callee line out n rest s { s with cnt := s.cnt + 1, idx := s.idx + 1 })) ∧
    (s.seq = ⟨callee, line, 6⟩ :: rest → TxTest i callee line out n rest s { s with cnt := s.cnt + 1, idx := s.idx + 1 })

/-- `RXLOOP` step 2 in the line `line` of `i` (R125): the loop is over, or the next byte is received, the last one as `final`. -/
def RxTest (i : Instr) (callee : Option Instr) (line out : Nat) (n : Count) (rest : List Frame) (s u : State) : Prop :=
  (u.idx = n → Calls i callee out 0 rest .stop s u) ∧
  (u.idx ≠ n → Calls i callee line 3 rest (.readByte (decide (u.idx = n - 1))) s u)

/-- `RXLOOP(n)` inside the line `line` of `i`, whose `call STOP()` is line `out` (R125). -/
def RxLoop (i : Instr) (line out : Nat) (n : Count) : Prop :=
  ∀ (s : State) (callee : Option Instr) (rest : List Frame),
    (s.seq = ⟨callee, line, 1⟩ :: rest → RxTest i callee line out n rest s { s with cnt := 0, idx := 0 }) ∧
    (s.seq = ⟨callee, line, 2⟩ :: rest → RxTest i callee line out n rest s s) ∧
    (s.seq = ⟨callee, line, 3⟩ :: rest → Calls i callee line 3 rest (.readByte (decide (s.idx = n - 1))) s s) ∧
    (s.seq = ⟨callee, line, 4⟩ :: rest →
      (s.idx.toNat < bufSize →
        Answers i s [.memWrite s.idx s.shreg]
          { s with buf := Memory.write s.buf s.idx.toNat s.shreg, seq := ⟨callee, line, 5⟩ :: rest }) ∧
      (¬s.idx.toNat < bufSize → exec i s = .fault (.bufIndex s.idx.toNat))) ∧
    (s.seq = ⟨callee, line, 5⟩ :: rest →
      (s.flt = true → Calls i callee out 0 rest .stop s { s with fault := true }) ∧
      (s.flt = false → RxTest i callee line out n rest s { s with cnt := s.cnt + 1, idx := s.idx + 1 })) ∧
    (s.seq = ⟨callee, line, 6⟩ :: rest → RxTest i callee line out n rest s { s with cnt := s.cnt + 1, idx := s.idx + 1 })

/-- The polls of a `Stretch()` line of `i` (R92) at `line`: while the clock reads low the line stays, when it reads high `SEQ` moves on
to the next line; a HAL that cannot read the clock goes straight on to the `Delay(HALF)` of that next line. -/
def StretchLine (i : Instr) (callee : Option Instr) (line loop : Nat) (rest : List Frame) (s : State) : Prop :=
  (halRdScl s.halcap = true → (s.sclO && (driveAt s 0).1) = false →
    Answers i s [.lineRead .scl false] { s with res := false, seq := ⟨callee, line, loop⟩ :: rest }) ∧
  (halRdScl s.halcap = true → (s.sclO && (driveAt s 0).1) = true →
    Answers i s [.lineRead .scl true] { s with res := true, seq := ⟨callee, line + 1, 0⟩ :: rest }) ∧
  (halRdScl s.halcap = false → Answers i s [.delay s.half] { s with seq := ⟨callee, line + 2, 0⟩ :: rest })

/-- A START condition between two instants (R51): `SDA` falls while `SCL` is high before and after. -/
def isStartCondition (p q : Levels) : Bool := p.scl && q.scl && p.sda && !q.sda

/-- A STOP condition between two instants (R51): `SDA` rises while `SCL` is high before and after. -/
def isStopCondition (p q : Levels) : Bool := p.scl && q.scl && !p.sda && q.sda

/-! ### The wire formats -/

/-- The polls of one `Stretch()` that finds the clock high at once: one `LineRead(SCL)` if the HAL can read the clock (R92). -/
def pollOps (rd : Bool) : List MicroOp := if rd then [.lineRead .scl true] else []

/-- The polls of a `Stretch()` that reads low `m` times, then high (R92). -/
def stretchOps (m : Nat) : List MicroOp := List.replicate m (.lineRead .scl false) ++ [.lineRead .scl true]

/-- The polls of a `Stretch()` that reads low `m` times, then high; none if the HAL cannot read the clock (R92). -/
def pollsOf (rd : Bool) (m : Nat) : List MicroOp := if rd then stretchOps m else []

/-- One bit cell of `WRITE_BIT(v)` (R90); `polls` are those of its `Stretch()`. -/
def writeBitOps (half : BitVec 19) (polls : List MicroOp) (v : Bool) : List MicroOp :=
  [.lineWrite .scl false, .delay half, .lineWrite .sda v, .lineWrite .scl true] ++ polls ++ [.delay half]

/-- One bit cell of `READ_BIT()` that sampled `b` (R91). -/
def readBitOps (half : BitVec 19) (polls : List MicroOp) (b : Bool) : List MicroOp :=
  [.lineWrite .scl false, .lineWrite .sda true, .delay half, .lineWrite .scl true] ++ polls
    ++ [.delay half, .lineRead .sda b]

/-- `START` (R110). -/
def startOps (half : BitVec 19) : List MicroOp :=
  [.lineWrite .sda true, .delay half, .lineWrite .sda false, .delay half]

/-- `STOP` (R111). -/
def stopOps (half : BitVec 19) (polls : List MicroOp) : List MicroOp :=
  [.lineWrite .scl false, .delay half, .lineWrite .sda false, .delay half, .lineWrite .scl true] ++ polls
    ++ [.delay half, .lineWrite .sda true, .delay half]

/-- `RESTART` (R112). -/
def restartOps (half : BitVec 19) (polls : List MicroOp) : List MicroOp :=
  [.lineWrite .scl false, .delay half, .lineWrite .sda true, .delay half, .lineWrite .scl true] ++ polls
    ++ [.delay half, .lineWrite .sda false, .delay half]

/-- The eight bits of a byte in wire order, most significant first (R44, R70, R103). -/
def wireBits (d : Byte) : List Bool :=
  [d.getLsbD 7, d.getLsbD 6, d.getLsbD 5, d.getLsbD 4, d.getLsbD 3, d.getLsbD 2, d.getLsbD 1, d.getLsbD 0]

/-- The frame of `WRITE_BYTE(d)` whose ninth bit sampled `a` (R100), the clock not being stretched. -/
def writeByteOps (half : BitVec 19) (rd : Bool) (d : Byte) (a : Bool) : List MicroOp :=
  (wireBits d).flatMap (writeBitOps half (pollOps rd)) ++ readBitOps half (pollOps rd) a

/-- The frame of `READ_BYTE(final)` that received `v` and read back `r` (R101), the clock not being stretched. -/
def readByteOps (half : BitVec 19) (rd : Bool) (v : Byte) (final r : Bool) : List MicroOp :=
  (wireBits v).flatMap (readBitOps half (pollOps rd)) ++ writeBitOps half (pollOps rd) final ++ [.lineRead .sda r]

/-- What the peer puts on `SDA` at a coming micro-operation. -/
abbrev Drive := Nat → Bool

/-- The number of micro-operations of `WRITE_BYTE` (R100): 46, and 9 polls when the clock can be read. -/
def writeByteLen (rd : Bool) : Nat := if rd then 55 else 46

/-- The number of micro-operations of `READ_BYTE` (R101): 54, and 9 polls. -/
def readByteLen (rd : Bool) : Nat := if rd then 63 else 54

/-- The number of micro-operations of one `READ_BIT`. -/
def readBitLen (rd : Bool) : Nat := if rd then 7 else 6

/-- The ninth bit a `WRITE_BYTE` that begins at micro-operation `p` samples: its last micro-operation. -/
def ackSample (rd : Bool) (sda : Drive) (p : Nat) : Bool := sda (p + writeByteLen rd - 1)

/-- Bit `k` of the byte a `READ_BYTE` that begins at micro-operation `p` samples: the last micro-operation of cell `8 - k`. -/
def bitSample (rd : Bool) (sda : Drive) (p k : Nat) : Bool := sda (p + (8 - k) * readBitLen rd - 1)

/-- The byte `{b1, …, b8}` a `READ_BYTE` that begins at micro-operation `p` receives (R103). -/
def byteSample (rd : Bool) (sda : Drive) (p : Nat) : Byte :=
  BitVec.ofNat 8 ((bitSample rd sda p 7).toNat * 128 + (bitSample rd sda p 6).toNat * 64 + (bitSample rd sda p 5).toNat * 32
    + (bitSample rd sda p 4).toNat * 16 + (bitSample rd sda p 3).toNat * 8 + (bitSample rd sda p 2).toNat * 4
    + (bitSample rd sda p 1).toNat * 2 + (bitSample rd sda p 0).toNat)

/-- What the read-back of the ninth bit of that `READ_BYTE` returns: low while the controller acknowledges, the peer's level
when it has released the line (R102). -/
def backSample (rd : Bool) (sda : Drive) (p : Nat) (final : Bool) : Bool := final && sda (p + readByteLen rd - 1)

/-- What a transfer did: its micro-operations, its count, the last acknowledge, the bus-fault flag, and the buffer. -/
structure Transfer where
  ops : List MicroOp
  count : Nat
  ack : Bool
  fault : Bool
  buf : Memory

/-- `TXLOOP` over the bytes `ds` of `BUF` from index `i` on, beginning at micro-operation `p` (R124). -/
def txTransfer (half : BitVec 19) (rd : Bool) (sda : Drive) (buf : Memory) : Nat → Nat → List Byte → Transfer
  | _, _, [] => ⟨[], 0, true, false, buf⟩
  | p, i, d :: ds =>
    let a := ackSample rd sda (p + 1)
    let here := MicroOp.memRead (BitVec.ofNat 16 i) d :: writeByteOps half rd d a
    if a then ⟨here, 0, false, false, buf⟩
    else
      let rest := txTransfer half rd sda buf (p + 1 + writeByteLen rd) (i + 1) ds
      ⟨here ++ rest.ops, rest.count + 1, rest.ack, rest.fault, rest.buf⟩

/-- `RXLOOP` of `n` more bytes to `BUF` from index `i` on, beginning at micro-operation `p` (R125). -/
def rxTransfer (half : BitVec 19) (rd : Bool) (sda : Drive) : Nat → Nat → Nat → Memory → Transfer
  | 0, _, _, buf => ⟨[], 0, true, false, buf⟩
  | n + 1, p, i, buf =>
    let final := decide (n = 0)
    let v := byteSample rd sda p
    let r := backSample rd sda p final
    let here := readByteOps half rd v final r ++ [MicroOp.memWrite (BitVec.ofNat 16 i) v]
    let buf' := Memory.write buf i v
    if r ≠ final then ⟨here, 0, true, true, buf'⟩
    else
      let rest := rxTransfer half rd sda n (p + readByteLen rd + 1) (i + 1) buf'
      ⟨here ++ rest.ops, rest.count + 1, rest.ack, rest.fault, rest.buf⟩

/-- A byte sent at micro-operation `p`, then `k` if it was acknowledged; otherwise the transfer is over. -/
def afterByte (half : BitVec 19) (rd : Bool) (sda : Drive) (buf : Memory) (d : Byte) (p : Nat) (k : Nat → Transfer) : Transfer :=
  let a := ackSample rd sda p
  if a then ⟨writeByteOps half rd d a, 0, false, false, buf⟩
  else { k (p + writeByteLen rd) with ops := writeByteOps half rd d a ++ (k (p + writeByteLen rd)).ops }

/-- `BUF[0 .. n-1]` as a list. -/
def bufBytes (buf : Memory) (n : Nat) : List Byte := (List.range n).map (Memory.read buf)

/-- A transfer between the START and the STOP of a composite command (R126), the clock not being stretched. -/
def framed (half : BitVec 19) (rd : Bool) (t : Transfer) : Transfer :=
  { t with ops := startOps half ++ t.ops ++ stopOps half (pollOps rd) }

/-- `WRITE addr, n` on the wire (R120). -/
def writeTransfer (half : BitVec 19) (rd : Bool) (sda : Drive) (buf : Memory) (addr : SlaveAddr) (n : Nat) : Transfer :=
  framed half rd
    (afterByte half rd sda buf (header addr true) 4 fun p => txTransfer half rd sda buf p 0 (bufBytes buf n))

/-- `READ addr, n` on the wire (R121). -/
def readTransfer (half : BitVec 19) (rd : Bool) (sda : Drive) (buf : Memory) (addr : SlaveAddr) (n : Nat) : Transfer :=
  framed half rd
    (afterByte half rd sda buf (header addr false) 4 fun p => rxTransfer half rd sda n p 0 buf)

/-- `WRITE_REG addr, reg, n` on the wire (R122). -/
def writeRegTransfer (half : BitVec 19) (rd : Bool) (sda : Drive) (buf : Memory) (addr : SlaveAddr) (reg : Byte) (n : Nat) :
    Transfer :=
  framed half rd
    (afterByte half rd sda buf (header addr true) 4 fun p =>
      afterByte half rd sda buf reg p fun p => txTransfer half rd sda buf p 0 (bufBytes buf n))

/-- `RESTART` and then `k`. -/
def afterRestart (half : BitVec 19) (rd : Bool) (p : Nat) (k : Nat → Transfer) : Transfer :=
  { k (p + (restartOps half (pollOps rd)).length) with
    ops := restartOps half (pollOps rd) ++ (k (p + (restartOps half (pollOps rd)).length)).ops }

/-- `READ_REG addr, reg, n` on the wire (R123). -/
def readRegTransfer (half : BitVec 19) (rd : Bool) (sda : Drive) (buf : Memory) (addr : SlaveAddr) (reg : Byte) (n : Nat) :
    Transfer :=
  framed half rd
    (afterByte half rd sda buf (header addr true) 4 fun p =>
      afterByte half rd sda buf reg p fun p =>
        afterRestart half rd p fun p =>
          afterByte half rd sda buf (header addr false) p fun p => rxTransfer half rd sda n p 0 buf)

/-! ### Where the clock is polled -/

/-- The sequencer is at a `Stretch()` line: `WRITE_BIT` or `READ_BIT` step 5, `STOP` or `RESTART` step 6 (R92, R143). -/
def atStretch (s : State) : Bool :=
  match s.seq with
  | [] => false
  | f :: _ =>
    match frameInstr f s with
    | some (.writeBit _) => f.line == 5
    | some .readBit => f.line == 5
    | some .stop => f.line == 6
    | some .restart => f.line == 6
    | _ => false

/-- The clock is not stretched during the coming `k` micro-operations, or the HAL cannot read it. -/
def noStretch (s : State) (k : Nat) : Prop := halRdScl s.halcap = true → ∀ j < k, (driveAt s j).1 = true

/-- The peer holds the clock low for `m` polls from the micro-operation `k` on, then releases it. -/
def holdsClock (s : State) (k m : Nat) : Prop :=
  halRdScl s.halcap = true → (∀ j < m, (driveAt s (k + j)).1 = false) ∧ (driveAt s (k + m)).1 = true

/-- The listing variable after a `Stretch()` that ended: the poll that read high, if there was one. -/
def polledRes (s : State) : Bool := halRdScl s.halcap || s.res

/-! ### The invariant of a safe run -/

/-- The master state (R25 (c), (d); R83): without a master everything of it is cleared, with one it is complete. -/
def masterOk (s : State) : Bool :=
  if s.valid then s.freq != 0 && s.half == halfPeriod s.freq && halComplete s.halcap
  else !s.started && s.halcap == 0 && s.freq == 0 && s.half == 0

/-- The response word: reserved bits zero, a code that is produced (R67, R68), and no bus fault without an acknowledged
header (R149). -/
def rspOk (s : State) : Bool :=
  s.rsp.extractLsb' 21 11 == 0 && decide ((rspCode s.rsp).toNat ≤ 4) && (!s.fault || s.ackl)

/-- The operand latches hold the fields of the accepted word (R130, R65). -/
def latchesOk (s : State) : Bool :=
  s.opc == fieldOpc s.cmd && s.addr == fieldAddr s.cmd && s.w == fieldW s.cmd && s.reg == fieldReg s.cmd
    && s.len == fieldLen s.cmd

/-- The bus as every command leaves it (R25 (a), (b)): the clock released, and the data line too unless a transaction is open. -/
def busReleased (s : State) : Bool := s.sclO && (s.started || s.sdaO)

/-- The loop of a composite command is at a byte of the transfer (R124, R125, R138). -/
def inLoop (n : Count) (s : State) : Bool := decide (s.idx.toNat < n.toNat) && s.cnt == s.idx

/-- Before the first data byte: nothing counted, no bus fault. -/
def beforeLoop (s : State) : Bool := s.cnt == 0 && !s.fault

/-- After the transfer of a receiving command: the count is at most `n`, and a bus fault is on the last byte (R125). -/
def afterLoop (n : Count) (s : State) : Bool :=
  decide (s.cnt.toNat ≤ n.toNat) && (!s.fault || decide (s.cnt.toNat + 1 = n.toNat))

/-- `WRITE_BIT(v)` is at `line` (R90). -/
def writeBitAt (v : Bool) (line : Nat) (s : State) : Bool :=
  match line with
  | 1 => s.sclO
  | 2 | 3 => !s.sclO
  | 4 => !s.sclO && s.sdaO == v
  | 5 | 6 | 7 => s.sclO && s.sdaO == v
  | _ => false

/-- `READ_BIT()` is at `line` (R91). -/
def readBitAt (line : Nat) (s : State) : Bool :=
  match line with
  | 1 => s.sclO
  | 2 => !s.sclO
  | 3 | 4 => !s.sclO && s.sdaO
  | 5 | 6 | 7 | 8 => s.sclO && s.sdaO
  | _ => false

/-- `WRITE_BYTE(d)` is at `line` (R100). -/
def writeByteAt (d : Byte) (line : Nat) (s : State) : Bool :=
  match line with
  | 1 => s.sclO
  | 3 => s.sclO && s.shreg == d
  | 5 => s.sclO && s.sdaO
  | _ => false

/-- `READ_BYTE(final)` is at `line` (R101); an acknowledged byte cannot read back wrong (R102). -/
def readByteAt (final : Bool) (line : Nat) (s : State) : Bool :=
  match line with
  | 1 => s.sclO
  | 3 => s.sclO && s.sdaO
  | 5 => s.sclO && s.sdaO == final
  | 6 => s.sclO && s.sdaO == final && (final || !s.res)
  | _ => false

/-- `START` is at `line` (R110). -/
def startAt (line : Nat) (s : State) : Bool :=
  match line with
  | 1 => s.sclO
  | 2 | 3 => s.sclO && s.sdaO
  | 4 | 5 => s.sclO && !s.sdaO
  | _ => false

/-- `STOP` is at `line` (R111). -/
def stopAt (line : Nat) (s : State) : Bool :=
  match line with
  | 1 => s.sclO
  | 2 | 3 => !s.sclO
  | 4 | 5 => !s.sclO && !s.sdaO
  | 6 | 7 | 8 => s.sclO && !s.sdaO
  | 9 | 10 => s.sclO && s.sdaO
  | _ => false

/-- `RESTART` is at `line` (R112). -/
def restartAt (line : Nat) (s : State) : Bool :=
  match line with
  | 1 => s.sclO
  | 2 | 3 => !s.sclO
  | 4 | 5 => !s.sclO && s.sdaO
  | 6 | 7 | 8 => s.sclO && s.sdaO
  | 9 | 10 => s.sclO && !s.sdaO
  | _ => false

/-- `CONNECT` is at `line` (R113). -/
def connectAt (line : Nat) (s : State) : Bool :=
  match line with
  | 1 => s.sclO && s.started && !s.fault
  | 4 => s.sclO && s.sdaO && s.started && !s.fault && s.res == s.ackl
  | _ => false

/-- A composite command between its START and its first data byte. -/
def openAt (s : State) : Bool := s.sclO && s.started && beforeLoop s

/-- `TXLOOP(n)` is at its step 4 or 5 (R124). -/
def txAt (n : Count) (loop : Nat) (s : State) : Bool :=
  (loop == 4 || loop == 5) && s.sclO && s.started && !s.fault && inLoop n s

/-- `RXLOOP(n)` is at its step 4 or 5 (R125); only the last byte can have read back wrong (R102). -/
def rxAt (n : Count) (loop : Nat) (s : State) : Bool :=
  (loop == 4 || loop == 5) && s.sclO && s.started && !s.fault && s.ackl && inLoop n s && (!s.flt || isLast s.idx n)

/-- The last line of a transmitting command (R126). -/
def sentAt (n : Count) (s : State) : Bool :=
  s.sclO && s.sdaO && !s.started && !s.fault && decide (s.cnt.toNat ≤ n.toNat)

/-- The last line of a receiving command (R126). -/
def receivedAt (n : Count) (s : State) : Bool := s.sclO && s.sdaO && !s.started && afterLoop n s

/-- `WRITE` is at `line`, in its loop at `loop` (R120). -/
def writeAt (n : Count) (line loop : Nat) (s : State) : Bool :=
  match line with
  | 3 => loop == 0 && openAt s
  | 4 => if loop = 0 then openAt s else txAt n loop s
  | 6 => loop == 0 && sentAt n s
  | _ => false

/-- `READ` is at `line`, in its loop at `loop` (R121). -/
def readAt (n : Count) (line loop : Nat) (s : State) : Bool :=
  match line with
  | 3 => loop == 0 && openAt s
  | 4 => if loop = 0 then openAt s && s.res == s.ackl else rxAt n loop s
  | 6 => loop == 0 && receivedAt n s
  | _ => false

/-- `WRITE_REG` is at `line`, in its loop at `loop` (R122). -/
def writeRegAt (n : Count) (line loop : Nat) (s : State) : Bool :=
  match line with
  | 3 | 4 => loop == 0 && openAt s
  | 6 => if loop = 0 then openAt s else txAt n loop s
  | 8 => loop == 0 && sentAt n s
  | _ => false

/-- `READ_REG` is at `line`, in its loop at `loop` (R123). -/
def readRegAt (n : Count) (line loop : Nat) (s : State) : Bool :=
  match line with
  | 3 | 4 | 6 | 8 => loop == 0 && openAt s
  | 9 => if loop = 0 then openAt s && s.res == s.ackl else rxAt n loop s
  | 11 => loop == 0 && receivedAt n s
  | _ => false

/-- The lines and latches when the top frame of `SEQ` is routine `i` at line `line` (loop line `loop`): the listings of R90 to
R125 read as assertions. A line no run rests at is false. -/
def topOk (i : Instr) (line loop : Nat) (s : State) : Bool :=
  match i with
  | .init _ _ => false
  | .deinit => line == 3 && loop == 0 && s.sclO && s.sdaO && !s.started
  | .start => loop == 0 && startAt line s
  | .stop => loop == 0 && stopAt line s
  | .connect _ _ => loop == 0 && connectAt line s
  | .write _ n => writeAt n line loop s
  | .read _ n => readAt n line loop s
  | .writeReg _ _ n => writeRegAt n line loop s
  | .readReg _ _ n => readRegAt n line loop s
  | .restart => loop == 0 && restartAt line s
  | .writeByte d => loop == 0 && writeByteAt d line s
  | .readByte final => loop == 0 && readByteAt final line s
  | .writeBit v => loop == 0 && writeBitAt v line s
  | .readBit => loop == 0 && readBitAt line s

/-- A byte of the transmit loop is being sent (R124 step 4). -/
def sending (n : Count) (d : Byte) (s : State) : Bool := d == s.dat && s.started && !s.fault && inLoop n s

/-- A byte of the receive loop is being received (R125 step 3). -/
def receiving (n : Count) (final : Bool) (s : State) : Bool :=
  final == isLast s.idx n && s.started && !s.fault && s.ackl && inLoop n s

/-- Routine `i` waits at line `line` (loop line `loop`) for the routine `callee` it called (R133): the call graph, the arguments, and
what still holds when the callee returns. -/
def waitOk (i : Instr) (line loop : Nat) (callee : Instr) (s : State) : Bool :=
  match i, callee with
  | .writeByte d, .writeBit v => line == 2 && loop == 0 && s.shreg == d && v == byteBit d s.bitk
  | .writeByte _, .readBit => line == 4 && loop == 0
  | .readByte _, .readBit => line == 2 && loop == 0
  | .readByte final, .writeBit v => line == 4 && loop == 0 && v == final
  | .connect a w, .writeByte d => line == 3 && loop == 0 && d == header a w && s.started && !s.fault
  | .deinit, .stop => line == 2 && loop == 0
  | .write _ _, .start | .read _ _, .start | .writeReg _ _ _, .start | .readReg _ _ _, .start =>
    line == 2 && loop == 0 && beforeLoop s
  | .write a _, .connect a' w | .writeReg a _ _, .connect a' w =>
    line == 3 && loop == 0 && a' == a && w && s.started && beforeLoop s
  | .read a _, .connect a' w => line == 3 && loop == 0 && a' == a && !w && s.started && beforeLoop s
  | .readReg a _ _, .connect a' w =>
    (if w then line == 3 else line == 8) && loop == 0 && a' == a && s.started && beforeLoop s
  | .writeReg _ r n, .writeByte d =>
    if line = 5 then loop == 0 && d == r && s.started && beforeLoop s else line == 6 && loop == 4 && sending n d s
  | .readReg _ r _, .writeByte d => line == 5 && loop == 0 && d == r && s.started && beforeLoop s
  | .readReg _ _ _, .restart => line == 7 && loop == 0 && s.started && beforeLoop s
  | .write _ n, .writeByte d => line == 4 && loop == 4 && sending n d s
  | .read _ n, .readByte final => line == 4 && loop == 3 && receiving n final s
  | .readReg _ _ n, .readByte final => line == 9 && loop == 3 && receiving n final s
  | .write _ n, .stop => line == 5 && loop == 0 && !s.fault && decide (s.cnt.toNat ≤ n.toNat)
  | .writeReg _ _ n, .stop => line == 7 && loop == 0 && !s.fault && decide (s.cnt.toNat ≤ n.toNat)
  | .read _ n, .stop => line == 5 && loop == 0 && afterLoop n s
  | .readReg _ _ n, .stop => line == 10 && loop == 0 && afterLoop n s
  | _, _ => false

/-- The frames below a routine `callee` are callers that wait for it, down to the command in progress (R21, R133). -/
def callersOk (s : State) : Instr → List Frame → Bool
  | _, [] => false
  | callee, ⟨some i, line, loop⟩ :: rest => waitOk i line loop callee s && callersOk s i rest
  | callee, ⟨none, line, loop⟩ :: rest =>
    rest.isEmpty && decide (line ≠ 0) && (latchedCommand s).any fun i => waitOk i line loop callee s

/-- The command in progress has passed dispatch: its word is legal and a master exists (R131). -/
def dispatched (s : State) : Bool := s.valid && (dispatchedCommand s).isSome

/-- `SEQ` is where the listings can be (R21), and empty exactly when `BUSY = 0`. -/
def seqOk (s : State) : Bool :=
  match s.seq with
  | [] => !s.busy && busReleased s
  | ⟨none, line, loop⟩ :: rest =>
    s.busy && rest.isEmpty && latchesOk s &&
      (if line = 0 then decide (loop = 0) && busReleased s && !s.ackl && !s.fault
       else dispatched s && (latchedCommand s).any fun i => topOk i line loop s)
  | ⟨some i, line, loop⟩ :: rest =>
    s.busy && latchesOk s && dispatched s && topOk i line loop s && callersOk s i rest

/-- The invariant of every state a run from reset can reach. -/
def inv (s : State) : Bool := masterOk s && rspOk s && Memory.wf s.buf && seqOk s

/-! ### Working registers -/

/-- The state without `FLT`, the working registers and the model's own variables: what must not depend on their values at reset
(R20; spec/93 U20). -/
def visible (s : State) : State :=
  { s with
    flt := false, opc := 0, addr := 0, w := false, reg := 0, len := 0, idx := 0, cnt := 0, shreg := 0, bitk := 0,
    cmd := 0, res := false, dat := 0 }

/-! ### The lines of the listings -/

/-- The last line of a routine's listing; `INIT`, whose listing issues no micro-operation, is one line (log 1). -/
def lastLine : Instr → Nat
  | .init _ _ => 1
  | .deinit => 3
  | .connect _ _ => 4
  | .start | .writeByte _ | .write _ _ | .read _ _ => 6
  | .readByte _ | .writeBit _ => 7
  | .readBit | .writeReg _ _ _ => 8
  | .stop | .restart | .readReg _ _ _ => 11

/-- The line that holds the transfer loop of a composite command. -/
def loopLine : Instr → Option Nat
  | .write _ _ | .read _ _ => some 4
  | .writeReg _ _ _ => some 6
  | .readReg _ _ _ => some 9
  | _ => none

/-! ### Whole transfers -/

/-- A composite command, from the accepted word to its response, did the transfer `T` (R120 to R123, R126): its micro-operations, its
count, acknowledge and fault in the response, `BUF` as `T` leaves it, the transaction closed, the bus released, and everything
else but the working registers as before. -/
def Transfers (s : State) (T : Transfer) : Prop :=
  ∃ k t, runSteps k s = .next t ∧ Did s T.ops t t ∧
    visible (ctrl t) =
      visible (ctrl
        { s with
          sclO := true, sdaO := true, started := false, ackl := T.ack, fault := T.fault,
          rsp := packRsp (BitVec.ofNat 16 T.count) T.ack T.fault .ok, rspValid := true, seq := [], busy := false,
          buf := T.buf })

end Sys2Proof.Machine
end

