-- ==== Sys2Proof/Certificates/Slice0/Obligations.lean ====
section
/-! DEFINITION. The statements for the provers, from the spec's numbered rules. Each docstring names the rule it formalises; a clause
that rests on a choice of the model names the log entry. The vocabulary (`Answers`, `Steps`, `Runs`, `Did`, `Calls`, `Ends`, the
wire formats, `inv`) is in Sys2Proof/Safety.lean. -/

open Sys2Proof
open Sys2Proof.Machine

/-! ### Encodings -/

/-- Decoding the word of a command gives the command back, with every operand at every value (R60 to R65). -/
def Obligations.DecodeOfEncode : Prop := ∀ i : Instr, i.wf = true → decode (encode i) = .ok i

/-- Every legal word is the encoding of exactly the command it reads as, and that command is issuable (R65, R66). -/
def Obligations.EncodeOfDecode : Prop := ∀ (w : CmdWord) (i : Instr), decode w = .ok i → encode i = w ∧ i.wf = true

/-- R66, R65: a word is illegal exactly when no issuable row of the opcode table has `(CMD & mask) = match`. -/
def Obligations.IllegalWords : Prop :=
  ∀ w : CmdWord,
    (∃ e, decode w = .error e) ↔
      ∀ r ∈ [((0x0 : CmdWord), (0x00000000FFFFFE0F : CmdWord)), (0x1, 0xFFFFFFFFFFFFFFFF), (0x2, 0xFFFFFFFFFFFFFFFF),
          (0x3, 0xFFFFFFFFFFFFFFFF), (0x4, 0xFFFFFFFFFFFFF00F), (0x5, 0xFFFFFFF0000FF80F), (0x6, 0xFFFFFFF0000FF80F),
          (0x7, 0xFFFFFFF00000080F), (0x8, 0xFFFFFFF00000080F)],
        w &&& r.2 ≠ r.1

/-- R65: every operand is the unsigned number that stands in its bits, in every legal word. -/
def Obligations.OperandFields : Prop :=
  ∀ (w : CmdWord) (i : Instr), decode w = .ok i →
    i.code = w.extractLsb' 0 4 ∧
      match i with
      | .init h f => h = w.extractLsb' 4 5 ∧ f = w.extractLsb' 32 32
      | .connect a x => a = w.extractLsb' 4 7 ∧ x = w.getLsbD 11
      | .write a n => a = w.extractLsb' 4 7 ∧ n = w.extractLsb' 20 16
      | .read a n => a = w.extractLsb' 4 7 ∧ n = w.extractLsb' 20 16
      | .writeReg a r n => a = w.extractLsb' 4 7 ∧ r = w.extractLsb' 12 8 ∧ n = w.extractLsb' 20 16
      | .readReg a r n => a = w.extractLsb' 4 7 ∧ r = w.extractLsb' 12 8 ∧ n = w.extractLsb' 20 16
      | _ => True

/-- R75: the example words of the spec decode as it says. -/
def Obligations.ExampleWords : Prop :=
  decode 0x00000064000001F0 = .ok (.init 0x1F 100) ∧ decode 0x000186A0000001B0 = .ok (.init 0x1B 100000) ∧
  decode 0x0000000000000001 = .ok .deinit ∧ decode 0x0000000000000002 = .ok .start ∧
  decode 0x0000000000000003 = .ok .stop ∧ decode 0x0000000000000D04 = .ok (.connect 0x50 true) ∧
  decode 0x0000000000000504 = .ok (.connect 0x50 false) ∧ decode 0x0000000000100505 = .ok (.write 0x50 1) ∧
  decode 0x0000000000200506 = .ok (.read 0x50 2) ∧ decode 0x000000000020E417 = .ok (.writeReg 0x41 0x0E 2) ∧
  decode 0x000000000020E418 = .ok (.readReg 0x41 0x0E 2) ∧ decode 0x0000000FFFF007F5 = .ok (.write 0x7F 65535) ∧
  decode 0x0000000000100D05 = .error .mustBeZero ∧ decode 0x0000000000000009 = .error .internalCode ∧
  decode 0x000000000000000F = .error .reservedCode ∧ decode 0x0000000000000012 = .error .mustBeZero

/-- R69: the header byte is the address in bits 7:1 and `1 - W` in bit 0, for every address and direction, with the spec's examples. -/
def Obligations.HeaderByte : Prop :=
  (∀ (a : SlaveAddr) (w : Bool), (header a w).extractLsb' 1 7 = a ∧ (header a w).getLsbD 0 = !w) ∧
  header 0x50 true = 0xA0 ∧ header 0x41 true = 0x82 ∧ header 0x41 false = 0x83

/-! ### Acceptance, dispatch, completion, reset -/

/-- R160, R26: the registers after reset, for every register to which the spec gives a reset value. From every state, also in the middle
of a command (R162), a step while the reset input is asserted sets exactly these, issues no micro-operation, and touches neither `BUF`
nor what the peer will do (R161; log 3); asserting the input and releasing it do the same at once, with no step needed between. That a word waiting on the
command port stays there, and that every pulse is taken at once, are the model's choices (log 16). -/
def Obligations.ResetStep : Prop :=
  (State.reset.valid = false ∧ State.reset.halcap = 0 ∧ State.reset.freq = 0 ∧ State.reset.half = 0 ∧
    State.reset.started = false ∧ State.reset.sclO = true ∧ State.reset.sdaO = true ∧ State.reset.busy = false ∧
    State.reset.ackl = false ∧ State.reset.fault = false ∧ State.reset.rsp = 0 ∧ State.reset.seq = []) ∧
  (∀ s : State, s.rstIn = true → ∃ t, step s = .next t ∧ ResetFrom s t ∧ t.rstIn = true) ∧
  (∀ (s : State) (on : Bool), on = true ∨ s.rstIn = true →
    ∃ t, hostAct (.reset on) s = .next t ∧ ResetFrom s t ∧ t.rstIn = on)

/-- R130, R20: with `BUSY = 0` a presented word is accepted in one step, with the latches loaded from its fields (R65), the fields of
`INIT` kept, and `SEQ` the single frame at dispatch; nothing else but the ports and the peer's drive (log 3) changes. With
`BUSY = 1` no step accepts a presented word or changes it, nor the latches. That the latches are loaded for an illegal word too, of
which R66 says that it changes no state but `BUSY`, `ACKL`, `FAULT` and `RSP`, is the model's reading of R130 (log 8). -/
def Obligations.Acceptance : Prop :=
  (∀ (s : State) (w : CmdWord), s.rstIn = false → s.busy = false → s.cmdIn = some w →
    ∃ t, step s = .next t ∧
      t = { s with
        busy := true, ackl := false, fault := false, opc := w.extractLsb' 0 4, addr := w.extractLsb' 4 7, w := w.getLsbD 11,
        reg := w.extractLsb' 12 8, len := w.extractLsb' 20 16, seq := [⟨none, 0, 0⟩], cmd := t.cmd, rspValid := t.rspValid,
        cmdIn := t.cmdIn, peerScl := t.peerScl, peerSda := t.peerSda, restTime := t.restTime } ∧
      t.cmd.extractLsb' 4 5 = w.extractLsb' 4 5 ∧ t.cmd.extractLsb' 32 32 = w.extractLsb' 32 32) ∧
  (∀ s t : State, s.rstIn = false → s.busy = true → step s = .next t →
    t.cmdIn = s.cmdIn ∧ t.cmd = s.cmd ∧ t.opc = s.opc ∧ t.addr = s.addr ∧ t.w = s.w ∧ t.reg = s.reg ∧ t.len = s.len)

/-- R156: with `BUSY = 0` and no word presented nothing but the peer changes. R56, R136 and the model's choices of log 8 and log 19: an accepted word
is kept whole and leaves the port, and the last response is no longer valid. -/
def Obligations.IdlePort : Prop :=
  ∀ s : State, s.rstIn = false → s.busy = false →
    (s.cmdIn = none → Steps s [] s) ∧
    (∀ w, s.cmdIn = some w → ∃ t, step s = .next t ∧ t.cmd = w ∧ t.cmdIn = none ∧ t.rspValid = false)

/-- R132: a step of a busy controller is `exec` of the routine at the top of `SEQ`: the routine of a called frame, the accepted word's
command at dispatch, the command in the operand latches at a later line of the bottom frame. -/
def Obligations.StepRunsRoutine : Prop :=
  ∀ (s : State) (i : Instr), s.rstIn = false → s.busy = true →
    (∀ line loop rest, s.seq = ⟨some i, line, loop⟩ :: rest → step s = exec i s) ∧
    (∀ loop rest, s.seq = ⟨none, 0, loop⟩ :: rest → decode s.cmd = .ok i → step s = exec i s) ∧
    (∀ line loop rest, s.seq = ⟨none, line + 1, loop⟩ :: rest → decode s.cmd = .ok i → s.opc = fieldOpc s.cmd →
      s.addr = fieldAddr s.cmd → s.w = fieldW s.cmd → s.reg = fieldReg s.cmd → s.len = fieldLen s.cmd → step s = exec i s)

/-- R131: the dispatch checks in their order, each ending the command with its code and no other effect; when all pass, the
command's listing begins at its step 1 (in the same step, log 1). -/
def Obligations.DispatchOrder : Prop :=
  ∀ s : State, s.rstIn = false → s.busy = true → s.seq = [⟨none, 0, 0⟩] →
    (∀ e, decode s.cmd = .error e → Steps s [] (refusedWith .illegalCmd s)) ∧
    (∀ i, decode s.cmd = .ok i →
      ((i.code ≠ 0 ∧ s.valid = false) ∨ (i.code = 0 ∧ s.valid = true) → Steps s [] (refusedWith .stateErr s)) ∧
      (∀ h f, i = .init h f → s.valid = false → h &&& 0b11011 ≠ 0b11011 ∨ f = 0 →
        Steps s [] (refusedWith .configErr s)) ∧
      (∀ a w, i = .connect a w → s.valid = true → s.started = false → Steps s [] (refusedWith .notStarted s)) ∧
      (((∃ h f, i = .init h f ∧ h &&& 0b11011 = 0b11011 ∧ f ≠ 0) ∧ s.valid = false) ∨
          (i.code ≠ 0 ∧ s.valid = true ∧ (i.code = 4 → s.started = true)) →
        step s = exec i { s with seq := [⟨none, 1, 0⟩] }))

/-- R141, R145, R146, R147: the four commands that are refused, right after acceptance: the response word, no micro-operation, and nothing
else of the controller changes but what R136 says of every response. -/
def Obligations.ErrorResponses : Prop :=
  ∀ s : State, s.rstIn = false → s.busy = true → s.seq = [⟨none, 0, 0⟩] → s.ackl = false → s.fault = false →
    ((∃ e, decode s.cmd = .error e) →
      Steps s [] { s with rsp := 0x00100000, rspValid := true, seq := [], busy := false }) ∧
    (∀ i, decode s.cmd = .ok i → (i.code ≠ 0 ∧ s.valid = false) ∨ (i.code = 0 ∧ s.valid = true) →
      Steps s [] { s with rsp := 0x000C0000, rspValid := true, seq := [], busy := false }) ∧
    (∀ h f, decode s.cmd = .ok (.init h f) → s.valid = false →
      h.getLsbD 0 = false ∨ h.getLsbD 1 = false ∨ h.getLsbD 3 = false ∨ h.getLsbD 4 = false ∨ f = 0 →
      Steps s [] { s with rsp := 0x00040000, rspValid := true, seq := [], busy := false }) ∧
    (∀ a w, decode s.cmd = .ok (.connect a w) → s.valid = true → s.started = false →
      Steps s [] { s with rsp := 0x00080000, rspValid := true, seq := [], busy := false })

/-- R18, R136, R67: `RSP` changes only when a command ends, and then `BUSY` falls, `SEQ` is empty, the response is valid, and the word holds
`COUNT`, `ACK`, `FAULT` and `CODE` in their fields with zeros above; it stays valid until the next acceptance. -/
def Obligations.ResponseWord : Prop :=
  ∀ s t : State, s.rstIn = false → step s = .next t →
    (t.rsp = s.rsp ∧ (s.busy = true → t.busy = true) ∧
      (t.rspValid = s.rspValid ∨ (s.busy = false ∧ s.cmdIn ≠ none ∧ t.rspValid = false))) ∨
    (s.busy = true ∧ t.busy = false ∧ t.seq = [] ∧ t.rspValid = true ∧ t.rsp.extractLsb' 21 11 = 0 ∧
      (t.rsp.extractLsb' 18 3).toNat ≤ 4 ∧ t.rsp.getLsbD 17 = t.fault ∧ t.rsp.getLsbD 16 = t.ackl ∧
      t.rsp.extractLsb' 0 16 =
        if t.rsp.extractLsb' 18 3 = 0 ∧ (t.opc = 5 ∨ t.opc = 6 ∨ t.opc = 7 ∨ t.opc = 8) then t.cnt else 0)

/-! ### Initialisation and teardown -/

/-- R80: `INIT` at dispatch, all of its outcomes. The checks of R80 steps 1 to 3 are made at dispatch and the rest of the listing is one
step (log 1): at line 1, where no run rests, it is past its checks. -/
def Obligations.InitListing : Prop :=
  ∀ (s : State) (h : BitVec 5) (f : BitVec 32) (c : Option Instr) (p : Nat) (rest : List Frame),
    (s.seq = ⟨c, 0, p⟩ :: rest → s.valid = true → Answers (.init h f) s [] (refusedWith .stateErr s)) ∧
    (s.seq = ⟨c, 0, p⟩ :: rest → s.valid = false → h &&& 0b11011 ≠ 0b11011 ∨ f = 0 →
      Answers (.init h f) s [] (refusedWith .configErr s)) ∧
    ((s.seq = ⟨c, 0, p⟩ :: rest ∧ s.valid = false ∧ h &&& 0b11011 = 0b11011 ∧ f ≠ 0) ∨ s.seq = ⟨c, 1, p⟩ :: rest →
      Answers (.init h f) s []
        { s with
          halcap := h, freq := f, half := BitVec.ofNat 19 ((500000 + f.toNat / 2) / f.toNat), started := false, valid := true,
          rsp := packRsp (if isComposite s.opc = true then s.cnt else 0) s.ackl s.fault .ok, rspValid := true, seq := [],
          busy := false })

/-- R82: the half-period is `(500000 + (FREQ >> 1)) div FREQ`, whose sum does not overflow, which fits its register and is the nearest
integer to `500000 / FREQ`, a tie going up; the ties are exactly the seven frequencies of the spec, with its seven results. -/
def Obligations.HalfPeriod : Prop :=
  (∀ f : BitVec 32, f ≠ 0 →
    500000 + (f >>> 1).toNat ≤ 500000 + 2147483647 ∧
    (halfPeriod f).toNat = (500000 + (f >>> 1).toNat) / f.toNat ∧ (halfPeriod f).toNat ≤ 500000 ∧
    2 * f.toNat * (halfPeriod f).toNat ≤ 1000000 + f.toNat ∧
    1000000 + f.toNat < 2 * f.toNat * ((halfPeriod f).toNat + 1) ∧
    (2 * f.toNat * (halfPeriod f).toNat = 1000000 + f.toNat ↔ f.toNat ∈ [64, 320, 1600, 8000, 40000, 200000, 1000000])) ∧
  halfPeriod 64 = 7813 ∧ halfPeriod 320 = 1563 ∧ halfPeriod 1600 = 313 ∧ halfPeriod 8000 = 63 ∧ halfPeriod 40000 = 13 ∧
  halfPeriod 200000 = 3 ∧ halfPeriod 1000000 = 1

/-- R81: `DEINIT` line by line: refused without a master, a `STOP` first when a transaction is open, then the master is gone. The check
of R81 step 1 is made at dispatch (log 1): at line 1, where no run rests, it is past it. -/
def Obligations.DeinitListing : Prop :=
  ∀ (s : State) (c : Option Instr) (p : Nat) (rest : List Frame),
    (s.seq = ⟨c, 0, p⟩ :: rest → s.valid = false → Answers .deinit s [] (refusedWith .stateErr s)) ∧
    ((s.seq = ⟨c, 0, p⟩ :: rest ∧ s.valid = true) ∨ s.seq = ⟨c, 1, p⟩ :: rest ∨ s.seq = ⟨c, 2, p⟩ :: rest →
      (s.started = true → Calls .deinit c 2 0 rest .stop s s) ∧
      (s.started = false →
        Answers .deinit s [] (completed { s with halcap := 0, freq := 0, half := 0, valid := false }))) ∧
    (s.seq = ⟨c, 3, p⟩ :: rest →
      Answers .deinit s [] (completed { s with halcap := 0, freq := 0, half := 0, valid := false }))

/-- R83: only `INIT`, `DEINIT` and reset write `VALID`, `HALCAP`, `FREQ`, `HALF`. -/
def Obligations.MasterLifetime : Prop :=
  ∀ s t : State, s.rstIn = false → step s = .next t →
    (t.valid = s.valid ∧ t.halcap = s.halcap ∧ t.freq = s.freq ∧ t.half = s.half) ∨
      fetch s = some .deinit ∨ ∃ h f, fetch s = some (.init h f)

/-! ### The bit engine -/

/-- R90: every line of `WRITE_BIT(v)`, with the whole state after it.
The return of a routine that nobody called is the named stop `returnNoCaller`, the model's choice (log 13). -/
def Obligations.WriteBitListing : Prop :=
  ∀ (v : Bool) (s : State) (c : Option Instr) (p : Nat) (rest : List Frame),
    (s.seq = ⟨c, 1, p⟩ :: rest →
      Answers (.writeBit v) s [.lineWrite .scl false] { s with sclO := false, seq := ⟨c, 2, 0⟩ :: rest }) ∧
    (s.seq = ⟨c, 2, p⟩ :: rest → Answers (.writeBit v) s [.delay s.half] { s with seq := ⟨c, 3, 0⟩ :: rest }) ∧
    (s.seq = ⟨c, 3, p⟩ :: rest →
      Answers (.writeBit v) s [.lineWrite .sda v] { s with sdaO := v, seq := ⟨c, 4, 0⟩ :: rest }) ∧
    (s.seq = ⟨c, 4, p⟩ :: rest →
      Answers (.writeBit v) s [.lineWrite .scl true] { s with sclO := true, seq := ⟨c, 5, 0⟩ :: rest }) ∧
    (s.seq = ⟨c, 5, p⟩ :: rest → StretchLine (.writeBit v) c 5 p rest s) ∧
    (s.seq = ⟨c, 6, p⟩ :: rest → Answers (.writeBit v) s [.delay s.half] { s with seq := ⟨c, 7, 0⟩ :: rest }) ∧
    (s.seq = ⟨c, 7, p⟩ :: rest → Ends (.writeBit v) c rest s s)

/-- R91: every line of `READ_BIT()`, with the whole state after it; the sample is `Level(SDA)` (R48).
The return of a routine that nobody called is the named stop `returnNoCaller`, the model's choice (log 13). -/
def Obligations.ReadBitListing : Prop :=
  ∀ (s : State) (c : Option Instr) (p : Nat) (rest : List Frame),
    (s.seq = ⟨c, 1, p⟩ :: rest →
      Answers .readBit s [.lineWrite .scl false] { s with sclO := false, seq := ⟨c, 2, 0⟩ :: rest }) ∧
    (s.seq = ⟨c, 2, p⟩ :: rest →
      Answers .readBit s [.lineWrite .sda true] { s with sdaO := true, seq := ⟨c, 3, 0⟩ :: rest }) ∧
    (s.seq = ⟨c, 3, p⟩ :: rest → Answers .readBit s [.delay s.half] { s with seq := ⟨c, 4, 0⟩ :: rest }) ∧
    (s.seq = ⟨c, 4, p⟩ :: rest →
      Answers .readBit s [.lineWrite .scl true] { s with sclO := true, seq := ⟨c, 5, 0⟩ :: rest }) ∧
    (s.seq = ⟨c, 5, p⟩ :: rest → StretchLine .readBit c 5 p rest s) ∧
    (s.seq = ⟨c, 6, p⟩ :: rest → Answers .readBit s [.delay s.half] { s with seq := ⟨c, 7, 0⟩ :: rest }) ∧
    (s.seq = ⟨c, 7, p⟩ :: rest →
      Answers .readBit s [.lineRead .sda (s.sdaO && (driveAt s 0).2)]
        { s with res := s.sdaO && (driveAt s 0).2, seq := ⟨c, 8, 0⟩ :: rest }) ∧
    (s.seq = ⟨c, 8, p⟩ :: rest → Ends .readBit c rest s s)

/-- R90, R92, R94: a called `WRITE_BIT(v)` whose clock the peer holds low for `m` polls runs as one bit cell, leaves the clock released
and the data line at `v`, and changes nothing else. -/
def Obligations.WriteBitCell : Prop :=
  ∀ (v : Bool) (m : Nat) (s : State) (caller : Frame) (below : List Frame), Called (.writeBit v) caller below s →
    holdsClock s 4 m →
    Runs s (writeBitOps s.half (pollsOf (halRdScl s.halcap) m) v)
      { s with sclO := true, sdaO := v, res := polledRes s, seq := caller.advance :: below }

/-- R91, R92, R94: the same for `READ_BIT()`; it returns what the peer makes of `SDA` at its last micro-operation. -/
def Obligations.ReadBitCell : Prop :=
  ∀ (m : Nat) (b : Bool) (s : State) (caller : Frame) (below : List Frame), Called .readBit caller below s → holdsClock s 4 m →
    b = (driveAt s ((readBitOps s.half (pollsOf (halRdScl s.halcap) m) b).length - 1)).2 →
    Runs s (readBitOps s.half (pollsOf (halRdScl s.halcap) m) b)
      { s with sclO := true, sdaO := true, res := b, seq := caller.advance :: below }

/-- R143: at every `Stretch()` line, while the HAL can read the clock and the clock reads low, the controller polls and does nothing else,
for as many steps as one likes: no response, no time out. -/
def Obligations.StretchHang : Prop :=
  ∀ (k : Nat) (s : State), s.rstIn = false → s.busy = true → atStretch s = true → halRdScl s.halcap = true →
    (∀ j < k, (driveAt s j).1 = false) →
    ∃ t, runSteps k s = .next t ∧
      Did s (List.replicate k (.lineRead .scl false)) t { s with res := if k = 0 then s.res else false }

/-- R93: no micro-operation of `WRITE_BIT` or `READ_BIT` makes a START or a STOP condition. -/
def Obligations.BitEngineMakesNoCondition : Prop :=
  ∀ (s t : State) (e : Event), inv s = true → s.rstIn = false → (fetch s = some .readBit ∨ ∃ v, fetch s = some (.writeBit v)) →
    step s = .next t → t.trace = e :: s.trace →
    isStartCondition e.pre e.post = false ∧ isStopCondition e.pre e.post = false

/-- R114: `SDA` is written while `SCL_O = 1` only by `START` steps 1 and 3, `STOP` step 8 and `RESTART` step 8, and the next line of these
is `Delay(HALF)`. -/
def Obligations.DataWrittenWhileClockHigh : Prop :=
  ∀ (s t : State) (e : Event) (b : Bool), inv s = true → s.rstIn = false → s.sclO = true → step s = .next t →
    t.trace = e :: s.trace → e.op = .lineWrite .sda b →
    (∃ c rest, (fetch s = some .start ∧ (t.seq = ⟨c, 2, 0⟩ :: rest ∧ b = true ∨ t.seq = ⟨c, 4, 0⟩ :: rest ∧ b = false)) ∨
      (fetch s = some .stop ∧ t.seq = ⟨c, 9, 0⟩ :: rest ∧ b = true) ∨
      (fetch s = some .restart ∧ t.seq = ⟨c, 9, 0⟩ :: rest ∧ b = false)) ∧
    (t.rstIn = false → ∃ u, step t = .next u ∧ Did t [.delay t.half] u { t with seq := u.seq })

/-! ### The byte engine -/

/-- R100: every line of `WRITE_BYTE(d)`, with the whole state after it.
The return of a routine that nobody called is the named stop `returnNoCaller`, the model's choice (log 13). -/
def Obligations.WriteByteListing : Prop :=
  ∀ (d : Byte) (s : State) (c : Option Instr) (p : Nat) (rest : List Frame),
    (s.seq = ⟨c, 1, p⟩ :: rest →
      Calls (.writeByte d) c 2 0 rest (.writeBit (d.getLsbD 7)) s { s with shreg := d, bitk := 7 }) ∧
    (s.seq = ⟨c, 2, p⟩ :: rest →
      Calls (.writeByte d) c 2 0 rest (.writeBit (s.shreg.getLsbD s.bitk.toNat)) s s) ∧
    (s.seq = ⟨c, 3, p⟩ :: rest →
      (0 < s.bitk.toNat →
        Calls (.writeByte d) c 2 0 rest (.writeBit (s.shreg.getLsbD (s.bitk.toNat - 1))) s { s with bitk := s.bitk - 1 }) ∧
      (s.bitk = 0 → Calls (.writeByte d) c 4 0 rest .readBit s s)) ∧
    (s.seq = ⟨c, 4, p⟩ :: rest → Calls (.writeByte d) c 4 0 rest .readBit s s) ∧
    (s.seq = ⟨c, 5, p⟩ :: rest → Ends (.writeByte d) c rest s { s with ackl := !s.res, res := !s.res }) ∧
    (s.seq = ⟨c, 6, p⟩ :: rest → Ends (.writeByte d) c rest s { s with res := s.ackl })

/-- R101: every line of `READ_BYTE(final)`, with the whole state after it.
The return of a routine that nobody called is the named stop `returnNoCaller`, the model's choice (log 13). -/
def Obligations.ReadByteListing : Prop :=
  ∀ (final : Bool) (s : State) (c : Option Instr) (p : Nat) (rest : List Frame),
    (s.seq = ⟨c, 1, p⟩ :: rest → Calls (.readByte final) c 2 0 rest .readBit s { s with bitk := 7 }) ∧
    (s.seq = ⟨c, 2, p⟩ :: rest → Calls (.readByte final) c 2 0 rest .readBit s s) ∧
    (s.seq = ⟨c, 3, p⟩ :: rest →
      ∃ v : Byte, (∀ k : Nat, v.getLsbD k = if k = s.bitk.toNat then s.res else s.shreg.getLsbD k) ∧
        (0 < s.bitk.toNat →
          Calls (.readByte final) c 2 0 rest .readBit s { s with shreg := v, bitk := s.bitk - 1 }) ∧
        (s.bitk = 0 → Calls (.readByte final) c 4 0 rest (.writeBit final) s { s with shreg := v })) ∧
    (s.seq = ⟨c, 4, p⟩ :: rest → Calls (.readByte final) c 4 0 rest (.writeBit final) s s) ∧
    (s.seq = ⟨c, 5, p⟩ :: rest →
      Answers (.readByte final) s [.lineRead .sda (s.sdaO && (driveAt s 0).2)]
        { s with res := s.sdaO && (driveAt s 0).2, seq := ⟨c, 6, 0⟩ :: rest }) ∧
    (s.seq = ⟨c, 6, p⟩ :: rest → Ends (.readByte final) c rest s { s with flt := s.res != final }) ∧
    (s.seq = ⟨c, 7, p⟩ :: rest → Ends (.readByte final) c rest s s)

/-- R100, R70, R71, R103: a called `WRITE_BYTE(d)`, the clock not being stretched, puts the eight bits of `d` on the wire, most significant
first, releases the data line for the ninth, and returns 1 exactly when the peer held `SDA` low at its last micro-operation. -/
def Obligations.WriteByteFrame : Prop :=
  ∀ (d : Byte) (a : Bool) (s : State) (caller : Frame) (below : List Frame), Called (.writeByte d) caller below s →
    noStretch s (writeByteLen (halRdScl s.halcap)) → a = (driveAt s (writeByteLen (halRdScl s.halcap) - 1)).2 →
    Runs s (writeByteOps s.half (halRdScl s.halcap) d a)
      { s with sclO := true, sdaO := true, shreg := d, bitk := 0, ackl := !a, res := !a, seq := caller.advance :: below }

/-- R101, R102, R103: a called `READ_BYTE(final)`, the clock not being stretched, samples eight bits, most significant first, into `SHREG`,
drives `final` as the ninth and reads it back into `FLT`; with `final = 0` the read-back is low whatever the peer does. -/
def Obligations.ReadByteFrame : Prop :=
  ∀ (final : Bool) (v : Byte) (r : Bool) (s : State) (caller : Frame) (below : List Frame),
    Called (.readByte final) caller below s → noStretch s (readByteLen (halRdScl s.halcap)) →
    (∀ j < 8, v.getLsbD (7 - j) = (driveAt s ((j + 1) * readBitLen (halRdScl s.halcap) - 1)).2) →
    r = (final && (driveAt s (readByteLen (halRdScl s.halcap) - 1)).2) →
    Runs s (readByteOps s.half (halRdScl s.halcap) v final r)
      { s with
        sclO := true, sdaO := final, shreg := v, bitk := 0, flt := r != final, res := r, seq := caller.advance :: below }

/-- R102, R144: an acknowledged byte never sets `FLT`; a last byte sets it exactly when the read-back of the NACK was low. -/
def Obligations.NinthBitReadBack : Prop :=
  ∀ (s t : State) (final : Bool) (p : Nat) (rest : List Frame), inv s = true → s.rstIn = false →
    s.seq = ⟨some (.readByte final), 6, p⟩ :: rest → step s = .next t → t.flt = (final && !s.res)

/-! ### Conditions and addressing -/

/-- R110: every line of `START`, with the whole state after it; at dispatch it needs a master (R131).
The return of a routine that nobody called is the named stop `returnNoCaller`, the model's choice (log 13). -/
def Obligations.StartListing : Prop :=
  ∀ (s : State) (c : Option Instr) (p : Nat) (rest : List Frame),
    (s.seq = ⟨c, 0, p⟩ :: rest → s.valid = false → Answers .start s [] (refusedWith .stateErr s)) ∧
    ((s.seq = ⟨c, 0, p⟩ :: rest ∧ s.valid = true) ∨ s.seq = ⟨c, 1, p⟩ :: rest →
      Answers .start s [.lineWrite .sda true] { s with sdaO := true, seq := ⟨c, 2, 0⟩ :: rest }) ∧
    (s.seq = ⟨c, 2, p⟩ :: rest → Answers .start s [.delay s.half] { s with seq := ⟨c, 3, 0⟩ :: rest }) ∧
    (s.seq = ⟨c, 3, p⟩ :: rest →
      Answers .start s [.lineWrite .sda false] { s with sdaO := false, seq := ⟨c, 4, 0⟩ :: rest }) ∧
    (s.seq = ⟨c, 4, p⟩ :: rest → Answers .start s [.delay s.half] { s with seq := ⟨c, 5, 0⟩ :: rest }) ∧
    (s.seq = ⟨c, 5, p⟩ :: rest → Ends .start c rest s { s with started := true }) ∧
    (s.seq = ⟨c, 6, p⟩ :: rest → Ends .start c rest s s)

/-- R111: every line of `STOP`, with the whole state after it.
The return of a routine that nobody called is the named stop `returnNoCaller`, the model's choice (log 13). -/
def Obligations.StopListing : Prop :=
  ∀ (s : State) (c : Option Instr) (p : Nat) (rest : List Frame),
    (s.seq = ⟨c, 0, p⟩ :: rest → s.valid = false → Answers .stop s [] (refusedWith .stateErr s)) ∧
    ((s.seq = ⟨c, 0, p⟩ :: rest ∧ s.valid = true) ∨ s.seq = ⟨c, 1, p⟩ :: rest →
      Answers .stop s [.lineWrite .scl false] { s with sclO := false, seq := ⟨c, 2, 0⟩ :: rest }) ∧
    (s.seq = ⟨c, 2, p⟩ :: rest → Answers .stop s [.delay s.half] { s with seq := ⟨c, 3, 0⟩ :: rest }) ∧
    (s.seq = ⟨c, 3, p⟩ :: rest →
      Answers .stop s [.lineWrite .sda false] { s with sdaO := false, seq := ⟨c, 4, 0⟩ :: rest }) ∧
    (s.seq = ⟨c, 4, p⟩ :: rest → Answers .stop s [.delay s.half] { s with seq := ⟨c, 5, 0⟩ :: rest }) ∧
    (s.seq = ⟨c, 5, p⟩ :: rest →
      Answers .stop s [.lineWrite .scl true] { s with sclO := true, seq := ⟨c, 6, 0⟩ :: rest }) ∧
    (s.seq = ⟨c, 6, p⟩ :: rest → StretchLine .stop c 6 p rest s) ∧
    (s.seq = ⟨c, 7, p⟩ :: rest → Answers .stop s [.delay s.half] { s with seq := ⟨c, 8, 0⟩ :: rest }) ∧
    (s.seq = ⟨c, 8, p⟩ :: rest →
      Answers .stop s [.lineWrite .sda true] { s with sdaO := true, seq := ⟨c, 9, 0⟩ :: rest }) ∧
    (s.seq = ⟨c, 9, p⟩ :: rest → Answers .stop s [.delay s.half] { s with seq := ⟨c, 10, 0⟩ :: rest }) ∧
    (s.seq = ⟨c, 10, p⟩ :: rest → Ends .stop c rest s { s with started := false }) ∧
    (s.seq = ⟨c, 11, p⟩ :: rest → Ends .stop c rest s s)

/-- R112: every line of `RESTART`, with the whole state after it.
The return of a routine that nobody called is the named stop `returnNoCaller`, the model's choice (log 13). -/
def Obligations.RestartListing : Prop :=
  ∀ (s : State) (c : Option Instr) (p : Nat) (rest : List Frame),
    (s.seq = ⟨c, 1, p⟩ :: rest →
      Answers .restart s [.lineWrite .scl false] { s with sclO := false, seq := ⟨c, 2, 0⟩ :: rest }) ∧
    (s.seq = ⟨c, 2, p⟩ :: rest → Answers .restart s [.delay s.half] { s with seq := ⟨c, 3, 0⟩ :: rest }) ∧
    (s.seq = ⟨c, 3, p⟩ :: rest →
      Answers .restart s [.lineWrite .sda true] { s with sdaO := true, seq := ⟨c, 4, 0⟩ :: rest }) ∧
    (s.seq = ⟨c, 4, p⟩ :: rest → Answers .restart s [.delay s.half] { s with seq := ⟨c, 5, 0⟩ :: rest }) ∧
    (s.seq = ⟨c, 5, p⟩ :: rest →
      Answers .restart s [.lineWrite .scl true] { s with sclO := true, seq := ⟨c, 6, 0⟩ :: rest }) ∧
    (s.seq = ⟨c, 6, p⟩ :: rest → StretchLine .restart c 6 p rest s) ∧
    (s.seq = ⟨c, 7, p⟩ :: rest → Answers .restart s [.delay s.half] { s with seq := ⟨c, 8, 0⟩ :: rest }) ∧
    (s.seq = ⟨c, 8, p⟩ :: rest →
      Answers .restart s [.lineWrite .sda false] { s with sdaO := false, seq := ⟨c, 9, 0⟩ :: rest }) ∧
    (s.seq = ⟨c, 9, p⟩ :: rest → Answers .restart s [.delay s.half] { s with seq := ⟨c, 10, 0⟩ :: rest }) ∧
    (s.seq = ⟨c, 10, p⟩ :: rest → Ends .restart c rest s { s with started := true }) ∧
    (s.seq = ⟨c, 11, p⟩ :: rest → Ends .restart c rest s s)

/-- R113, R69, R145: every line of `CONNECT addr, w`: refused without a master or without an open transaction, otherwise the header byte
`{addr, 1 - w}` is sent and its acknowledge is the result. What a called `CONNECT` without an open transaction returns is the model's
choice (log 18), and so is the named stop `returnNoCaller` at the return of a `CONNECT` that nobody called (log 13). -/
def Obligations.ConnectListing : Prop :=
  ∀ (a : SlaveAddr) (w : Bool) (s : State) (c : Option Instr) (p : Nat) (rest : List Frame) (hdr : Byte),
    hdr.extractLsb' 1 7 = a → hdr.getLsbD 0 = !w →
    (s.seq = ⟨c, 0, p⟩ :: rest → s.valid = false → Answers (.connect a w) s [] (refusedWith .stateErr s)) ∧
    (s.seq = ⟨c, 0, p⟩ :: rest → s.valid = true → s.started = false →
      Answers (.connect a w) s [] (refusedWith .notStarted s)) ∧
    ((s.seq = ⟨c, 0, p⟩ :: rest ∧ s.valid = true) ∨ s.seq = ⟨c, 1, p⟩ :: rest → s.started = true →
      Calls (.connect a w) c 3 0 rest (.writeByte hdr) s s) ∧
    (s.seq = ⟨none, 1, p⟩ :: rest → s.started = false → Answers (.connect a w) s [] (refusedWith .notStarted s)) ∧
    (∀ r caller below, s.seq = ⟨some r, 1, p⟩ :: caller :: below → s.started = false →
      Answers (.connect a w) s [] { s with res := false, seq := caller.advance :: below }) ∧
    (s.seq = ⟨c, 2, p⟩ :: rest ∨ s.seq = ⟨c, 3, p⟩ :: rest → Calls (.connect a w) c 3 0 rest (.writeByte hdr) s s) ∧
    (s.seq = ⟨c, 4, p⟩ :: rest → Ends (.connect a w) c rest s s)

/-- R110, R180: a called `START` runs `D1 T D0 T` and leaves the data line low and `STARTED = 1`; as a command it also responds `OK`. It
changes nothing else, whatever `STARTED` was (R115). -/
def Obligations.StartRun : Prop :=
  (∀ (s : State) (caller : Frame) (below : List Frame), Called .start caller below s →
    Runs s (startOps s.half) { s with sdaO := false, started := true, seq := caller.advance :: below }) ∧
  (∀ s : State, Accepted .start s → s.valid = true →
    Runs s (startOps s.half)
      { s with sdaO := false, started := true, rsp := 0, rspValid := true, seq := [], busy := false })

/-- R111, R92, R180: a called `STOP` whose clock the peer holds low for `m` polls runs its listing, leaves both latches released and
`STARTED = 0`; as a command it also responds `OK`. It changes nothing else, whatever `STARTED` was (R115). -/
def Obligations.StopRun : Prop :=
  (∀ (m : Nat) (s : State) (caller : Frame) (below : List Frame), Called .stop caller below s → holdsClock s 5 m →
    Runs s (stopOps s.half (pollsOf (halRdScl s.halcap) m))
      { s with sclO := true, sdaO := true, started := false, res := polledRes s, seq := caller.advance :: below }) ∧
  (∀ (m : Nat) (s : State), Accepted .stop s → s.valid = true → holdsClock s 5 m →
    Runs s (stopOps s.half (pollsOf (halRdScl s.halcap) m))
      { s with
        sclO := true, sdaO := true, started := false, res := polledRes s, rsp := 0, rspValid := true, seq := [],
        busy := false })

/-- R112, R92, R180: a called `RESTART` whose clock the peer holds low for `m` polls runs its listing and leaves the clock released, the
data line low and `STARTED = 1`. -/
def Obligations.RestartRun : Prop :=
  ∀ (m : Nat) (s : State) (caller : Frame) (below : List Frame), Called .restart caller below s → holdsClock s 5 m →
    Runs s (restartOps s.half (pollsOf (halRdScl s.halcap) m))
      { s with sclO := true, sdaO := false, started := true, res := polledRes s, seq := caller.advance :: below }

/-- R113: the command `CONNECT addr, w` in an open transaction, the clock not being stretched, sends the header byte and responds `OK` with
the acknowledge in `ACK`. -/
def Obligations.ConnectRun : Prop :=
  ∀ (addr : SlaveAddr) (w a : Bool) (s : State), Accepted (.connect addr w) s → s.valid = true → s.started = true →
    noStretch s (writeByteLen (halRdScl s.halcap)) → a = (driveAt s (writeByteLen (halRdScl s.halcap) - 1)).2 →
    Runs s (writeByteOps s.half (halRdScl s.halcap) (header addr w) a)
      { s with
        sclO := true, sdaO := true, shreg := header addr w, bitk := 0, ackl := !a, res := !a,
        rsp := packRsp 0 (!a) false .ok, rspValid := true, seq := [], busy := false }

/-- R81, R111: the command `DEINIT` in an open transaction stops first, then the master is gone and the bus is released; with no open
transaction it issues no micro-operation and leaves the latches alone. -/
def Obligations.DeinitRun : Prop :=
  (∀ (m : Nat) (s : State), Accepted .deinit s → s.valid = true → s.started = true → holdsClock s 5 m →
    Runs s (stopOps s.half (pollsOf (halRdScl s.halcap) m))
      { s with
        sclO := true, sdaO := true, started := false, res := polledRes s, halcap := 0, freq := 0, half := 0, valid := false,
        rsp := 0, rspValid := true, seq := [], busy := false }) ∧
  (∀ s : State, Accepted .deinit s → s.valid = true → s.started = false →
    Runs s []
      { s with
        halcap := 0, freq := 0, half := 0, valid := false, rsp := 0, rspValid := true, seq := [], busy := false })

/-! ### Composite transactions -/

/-- R120, R124: every line of `WRITE addr, n`, with the whole state after it. -/
def Obligations.WriteListing : Prop :=
  ∀ (a : SlaveAddr) (n : Count),
    TxLoop (.write a n) 4 5 n ∧
    ∀ (s : State) (c : Option Instr) (p : Nat) (rest : List Frame),
      (s.seq = ⟨c, 0, p⟩ :: rest → s.valid = false → Answers (.write a n) s [] (refusedWith .stateErr s)) ∧
      ((s.seq = ⟨c, 0, p⟩ :: rest ∧ s.valid = true) ∨ s.seq = ⟨c, 1, p⟩ :: rest →
        Calls (.write a n) c 2 0 rest .start s { s with cnt := 0 }) ∧
      (s.seq = ⟨c, 2, p⟩ :: rest → Calls (.write a n) c 2 0 rest .start s s) ∧
      (s.seq = ⟨c, 3, p⟩ :: rest → Calls (.write a n) c 3 0 rest (.connect a true) s s) ∧
      (s.seq = ⟨c, 4, 0⟩ :: rest →
        (s.res = true → TxTest (.write a n) c 4 5 n rest s { s with cnt := 0, idx := 0 }) ∧
        (s.res = false → Calls (.write a n) c 5 0 rest .stop s s)) ∧
      (s.seq = ⟨c, 5, p⟩ :: rest → Calls (.write a n) c 5 0 rest .stop s s) ∧
      (s.seq = ⟨c, 6, p⟩ :: rest → Answers (.write a n) s [] (completed s))

/-- R121, R125: every line of `READ addr, n`, with the whole state after it. -/
def Obligations.ReadListing : Prop :=
  ∀ (a : SlaveAddr) (n : Count),
    RxLoop (.read a n) 4 5 n ∧
    ∀ (s : State) (c : Option Instr) (p : Nat) (rest : List Frame),
      (s.seq = ⟨c, 0, p⟩ :: rest → s.valid = false → Answers (.read a n) s [] (refusedWith .stateErr s)) ∧
      ((s.seq = ⟨c, 0, p⟩ :: rest ∧ s.valid = true) ∨ s.seq = ⟨c, 1, p⟩ :: rest →
        Calls (.read a n) c 2 0 rest .start s { s with cnt := 0 }) ∧
      (s.seq = ⟨c, 2, p⟩ :: rest → Calls (.read a n) c 2 0 rest .start s s) ∧
      (s.seq = ⟨c, 3, p⟩ :: rest → Calls (.read a n) c 3 0 rest (.connect a false) s s) ∧
      (s.seq = ⟨c, 4, 0⟩ :: rest →
        (s.res = true → RxTest (.read a n) c 4 5 n rest s { s with cnt := 0, idx := 0 }) ∧
        (s.res = false → Calls (.read a n) c 5 0 rest .stop s s)) ∧
      (s.seq = ⟨c, 5, p⟩ :: rest → Calls (.read a n) c 5 0 rest .stop s s) ∧
      (s.seq = ⟨c, 6, p⟩ :: rest → Answers (.read a n) s [] (completed s))

/-- R122, R124: every line of `WRITE_REG addr, reg, n`, with the whole state after it. -/
def Obligations.WriteRegListing : Prop :=
  ∀ (a : SlaveAddr) (r : Byte) (n : Count),
    TxLoop (.writeReg a r n) 6 7 n ∧
    ∀ (s : State) (c : Option Instr) (p : Nat) (rest : List Frame),
      (s.seq = ⟨c, 0, p⟩ :: rest → s.valid = false → Answers (.writeReg a r n) s [] (refusedWith .stateErr s)) ∧
      ((s.seq = ⟨c, 0, p⟩ :: rest ∧ s.valid = true) ∨ s.seq = ⟨c, 1, p⟩ :: rest →
        Calls (.writeReg a r n) c 2 0 rest .start s { s with cnt := 0 }) ∧
      (s.seq = ⟨c, 2, p⟩ :: rest → Calls (.writeReg a r n) c 2 0 rest .start s s) ∧
      (s.seq = ⟨c, 3, p⟩ :: rest → Calls (.writeReg a r n) c 3 0 rest (.connect a true) s s) ∧
      (s.seq = ⟨c, 4, p⟩ :: rest →
        (s.res = true → Calls (.writeReg a r n) c 5 0 rest (.writeByte r) s s) ∧
        (s.res = false → Calls (.writeReg a r n) c 7 0 rest .stop s s)) ∧
      (s.seq = ⟨c, 5, p⟩ :: rest → Calls (.writeReg a r n) c 5 0 rest (.writeByte r) s s) ∧
      (s.seq = ⟨c, 6, 0⟩ :: rest →
        (s.res = true → TxTest (.writeReg a r n) c 6 7 n rest s { s with cnt := 0, idx := 0 }) ∧
        (s.res = false → Calls (.writeReg a r n) c 7 0 rest .stop s s)) ∧
      (s.seq = ⟨c, 7, p⟩ :: rest → Calls (.writeReg a r n) c 7 0 rest .stop s s) ∧
      (s.seq = ⟨c, 8, p⟩ :: rest → Answers (.writeReg a r n) s [] (completed s))

/-- R123, R125: every line of `READ_REG addr, reg, n`, with the whole state after it. -/
def Obligations.ReadRegListing : Prop :=
  ∀ (a : SlaveAddr) (r : Byte) (n : Count),
    RxLoop (.readReg a r n) 9 10 n ∧
    ∀ (s : State) (c : Option Instr) (p : Nat) (rest : List Frame),
      (s.seq = ⟨c, 0, p⟩ :: rest → s.valid = false → Answers (.readReg a r n) s [] (refusedWith .stateErr s)) ∧
      ((s.seq = ⟨c, 0, p⟩ :: rest ∧ s.valid = true) ∨ s.seq = ⟨c, 1, p⟩ :: rest →
        Calls (.readReg a r n) c 2 0 rest .start s { s with cnt := 0 }) ∧
      (s.seq = ⟨c, 2, p⟩ :: rest → Calls (.readReg a r n) c 2 0 rest .start s s) ∧
      (s.seq = ⟨c, 3, p⟩ :: rest → Calls (.readReg a r n) c 3 0 rest (.connect a true) s s) ∧
      (s.seq = ⟨c, 4, p⟩ :: rest →
        (s.res = true → Calls (.readReg a r n) c 5 0 rest (.writeByte r) s s) ∧
        (s.res = false → Calls (.readReg a r n) c 10 0 rest .stop s s)) ∧
      (s.seq = ⟨c, 5, p⟩ :: rest → Calls (.readReg a r n) c 5 0 rest (.writeByte r) s s) ∧
      (s.seq = ⟨c, 6, p⟩ :: rest →
        (s.res = true → Calls (.readReg a r n) c 7 0 rest .restart s s) ∧
        (s.res = false → Calls (.readReg a r n) c 10 0 rest .stop s s)) ∧
      (s.seq = ⟨c, 7, p⟩ :: rest → Calls (.readReg a r n) c 7 0 rest .restart s s) ∧
      (s.seq = ⟨c, 8, p⟩ :: rest → Calls (.readReg a r n) c 8 0 rest (.connect a false) s s) ∧
      (s.seq = ⟨c, 9, 0⟩ :: rest →
        (s.res = true → RxTest (.readReg a r n) c 9 10 n rest s { s with cnt := 0, idx := 0 }) ∧
        (s.res = false → Calls (.readReg a r n) c 10 0 rest .stop s s)) ∧
      (s.seq = ⟨c, 10, p⟩ :: rest → Calls (.readReg a r n) c 10 0 rest .stop s s) ∧
      (s.seq = ⟨c, 11, p⟩ :: rest → Answers (.readReg a r n) s [] (completed s))

/-- R120, R124, R126, R127: an accepted `WRITE addr, n`, the clock not being stretched, puts the transfer of the spec on the wire, fetches
exactly the bytes it sends, leaves `BUF` as it was and the bus released, and responds with the count of acknowledged bytes,
whatever the peer does on the data line. -/
def Obligations.WriteTransfer : Prop :=
  ∀ (addr : SlaveAddr) (n : Count) (s : State) (T : Transfer), Accepted (.write addr n) s → s.valid = true →
    T = writeTransfer s.half (halRdScl s.halcap) (fun k => (driveAt s k).2) s.buf addr n.toNat →
    noStretch s T.ops.length → T.buf = s.buf ∧ Transfers s T

/-- R121, R125, R126, R127: an accepted `READ addr, n`, the clock not being stretched, puts the transfer of the spec on the wire, stores the
bytes as they were received, leaves the bus released, and responds with the count of received bytes. -/
def Obligations.ReadTransfer : Prop :=
  ∀ (addr : SlaveAddr) (n : Count) (s : State) (T : Transfer), Accepted (.read addr n) s → s.valid = true →
    T = readTransfer s.half (halRdScl s.halcap) (fun k => (driveAt s k).2) s.buf addr n.toNat →
    noStretch s T.ops.length → Transfers s T

/-- R122, R124, R126, R127: the same for `WRITE_REG addr, reg, n`: the register byte goes out after the header and is not counted. -/
def Obligations.WriteRegTransfer : Prop :=
  ∀ (addr : SlaveAddr) (reg : Byte) (n : Count) (s : State) (T : Transfer), Accepted (.writeReg addr reg n) s → s.valid = true →
    T = writeRegTransfer s.half (halRdScl s.halcap) (fun k => (driveAt s k).2) s.buf addr reg n.toNat →
    noStretch s T.ops.length → T.buf = s.buf ∧ Transfers s T

/-- R123, R125, R126, R127: the same for `READ_REG addr, reg, n`: header for writing, register byte, repeated START, header for reading,
then the received bytes. -/
def Obligations.ReadRegTransfer : Prop :=
  ∀ (addr : SlaveAddr) (reg : Byte) (n : Count) (s : State) (T : Transfer), Accepted (.readReg addr reg n) s → s.valid = true →
    T = readRegTransfer s.half (halRdScl s.halcap) (fun k => (driveAt s k).2) s.buf addr reg n.toNat →
    noStretch s T.ops.length → Transfers s T

/-- R126, R142, R144, R149: when a composite command ends `OK` the transaction is closed and the bus released, the count is at most the
length, a bus fault comes with an acknowledge, only on a receiving command, and with a count of all bytes but one. -/
def Obligations.CompositeEnds : Prop :=
  ∀ s t : State, inv s = true → s.rstIn = false → s.busy = true → step s = .next t → t.busy = false →
    5 ≤ s.opc.toNat → s.opc.toNat ≤ 8 → rspCode t.rsp = 0 →
    t.started = false ∧ t.sclO = true ∧ t.sdaO = true ∧ (rspCount t.rsp).toNat ≤ s.len.toNat ∧
      (rspFault t.rsp = true →
        rspAck t.rsp = true ∧ (s.opc = 6 ∨ s.opc = 8) ∧ (rspCount t.rsp).toNat + 1 = s.len.toNat)

/-! ### The whole machine -/

/-- R21, spec/92 D32: the listings have no other lines. That a position outside them, or a frame stack without a frame, is the named
stop `seqPosition` is the model's choice (log 22): the spec says which positions there are. So no line is missing from the listings
above. -/
def Obligations.NoOtherLines : Prop :=
  ∀ (i : Instr) (s : State),
    (s.seq = [] → exec i s = .fault .seqPosition) ∧
    (∀ c line loop rest, s.seq = ⟨c, line, loop⟩ :: rest → lastLine i < line → exec i s = .fault .seqPosition) ∧
    (∀ c loop rest, s.seq = ⟨c, 0, loop⟩ :: rest → i.issuable = false → exec i s = .fault .seqPosition) ∧
    (∀ c line loop rest, s.seq = ⟨c, line, loop⟩ :: rest → loopLine i = some line → 6 < loop →
      exec i s = .fault .seqPosition)

/-- The state after reset meets the invariant (R26; the values of log 4 and log 6 with it). -/
def Obligations.InvAtReset : Prop := inv State.reset = true

/-- From every state that meets the invariant, a step answers a next state that meets it: the master is complete or absent, the response
word well formed, `BUF` in canonical form, `SEQ` a position of the listings with the latches as there, the call chain legal
(R21, R25, R67, R133), and nothing stops the controller. -/
def Obligations.InvKept : Prop := ∀ s : State, inv s = true → ∃ t, step s = .next t ∧ inv t = true

/-- What the host and the peer do between two steps keeps the invariant (R8, R48). -/
def Obligations.InvKeptByHost : Prop :=
  ∀ s : State, inv s = true →
    (∀ (a : HostAct) (t : State), hostAct a s = .next t → inv t = true) ∧ ∀ a : PeerAct, inv (peerAct a s) = true

/-- R25: in every run from reset, whatever words the host presents and whatever the peer does, between commands the clock is released, an
idle bus is released, and the master is absent with everything cleared or complete with the half-period of its frequency. -/
def Obligations.BetweenCommands : Prop :=
  ∀ (ms : List Move) (s : State), runMoves ms State.reset = .next s → s.busy = false →
    s.sclO = true ∧ (s.started = false → s.sdaO = true) ∧
    (s.valid = false → s.started = false ∧ s.halcap = 0 ∧ s.freq = 0 ∧ s.half = 0) ∧
    (s.valid = true →
      1 ≤ s.freq.toNat ∧ s.half.toNat = (500000 + (s.freq >>> 1).toNat) / s.freq.toNat ∧ s.halcap &&& 0b11011 = 0b11011)

/-- R7, R54, R46, R47, R48, R49, R42, R43: a step without reset issues at most one micro-operation and keeps the history. In a step
without one only the peer drives the lines anew; just before one the peer takes its new drive (log 3), and the effect is exactly that
micro-operation's, on levels that are the wired-AND of the latch and the peer. -/
def Obligations.OneMicroOperation : Prop :=
  ∀ s t : State, s.rstIn = false → step s = .next t →
    (t.trace = s.trace ∧ t.sclO = s.sclO ∧ t.sdaO = s.sdaO ∧ t.buf = s.buf ∧ (t.peerScl, t.peerSda) = restDrive s ∧
      t.restTime = s.restTime + 1 ∧ t.peerScript = s.peerScript ∧ t.peerTime = s.peerTime) ∨
    (∃ e : Event, t.trace = e :: s.trace ∧ (t.peerScl, t.peerSda) = driveAt s 0 ∧ t.peerTime = s.peerTime + 1 ∧
      t.restTime = s.restTime ∧ t.peerScript = s.peerScript.tail ∧ e.pre = ⟨s.sclO && t.peerScl, s.sdaO && t.peerSda⟩ ∧
      e.post = ⟨t.sclO && t.peerScl, t.sdaO && t.peerSda⟩ ∧
      match e.op with
      | .lineWrite .scl b => t.sclO = b ∧ t.sdaO = s.sdaO ∧ t.buf = s.buf
      | .lineWrite .sda b => t.sdaO = b ∧ t.sclO = s.sclO ∧ t.buf = s.buf
      | .lineRead .scl b => b = e.pre.scl ∧ t.sclO = s.sclO ∧ t.sdaO = s.sdaO ∧ t.buf = s.buf
      | .lineRead .sda b => b = e.pre.sda ∧ t.sclO = s.sclO ∧ t.sdaO = s.sdaO ∧ t.buf = s.buf
      | .delay n => n = s.half ∧ t.sclO = s.sclO ∧ t.sdaO = s.sdaO ∧ t.buf = s.buf
      | .memRead i v => v = Memory.read s.buf i.toNat ∧ t.sclO = s.sclO ∧ t.sdaO = s.sdaO ∧ t.buf = s.buf
      | .memWrite i v => t.buf = Memory.write s.buf i.toNat v ∧ t.sclO = s.sclO ∧ t.sdaO = s.sdaO)

/-- R15, R19: which routine sets `STARTED` and which clears it. -/
def Obligations.StartedWriters : Prop :=
  ∀ s t : State, s.rstIn = false → step s = .next t →
    t.started = s.started ∨
      (t.started = true ∧ (fetch s = some .start ∨ fetch s = some .restart)) ∨
      (t.started = false ∧ (fetch s = some .stop ∨ ∃ h f, fetch s = some (.init h f)))

/-- R19: `ACKL` changes at acceptance (to 0) and by `WRITE_BYTE`; `FLT` only by `READ_BYTE`; `FAULT` at acceptance (to 0) and in the receive
loop (to 1). -/
def Obligations.FlagWriters : Prop :=
  ∀ s t : State, s.rstIn = false → step s = .next t →
    (t.ackl = s.ackl ∨ (s.busy = false ∧ t.ackl = false) ∨ ∃ d, fetch s = some (.writeByte d)) ∧
    (t.flt = s.flt ∨ ∃ final, fetch s = some (.readByte final)) ∧
    (t.fault = s.fault ∨ (s.busy = false ∧ t.fault = false) ∨
      (t.fault = true ∧ s.flt = true ∧
        ((∃ a n, fetch s = some (.read a n)) ∨ ∃ a r n, fetch s = some (.readReg a r n))))

/-- R41, R43, R52, R55, R174: a byte of `BUF` changes only when a receiving command stores the byte it has just received, at the index it
is at, inside the first `LEN` bytes; every other byte reads as before; and a byte is fetched only by a transmitting command,
inside the first `LEN` bytes. -/
def Obligations.BufferAccess : Prop :=
  ∀ s t : State, inv s = true → s.rstIn = false → step s = .next t →
    (∀ i : Nat, Memory.read t.buf i = Memory.read s.buf i ∨
      (s.busy = true ∧ (s.opc = 6 ∨ s.opc = 8) ∧ i = s.idx.toNat ∧ i < s.len.toNat ∧ Memory.read t.buf i = s.shreg)) ∧
    (∀ (e : Event) (i : Count) (v : Byte), t.trace = e :: s.trace → e.op = .memRead i v →
      (s.opc = 5 ∨ s.opc = 7) ∧ i.toNat < s.len.toNat ∧ v = Memory.read s.buf i.toNat ∧ t.dat = v)

/-- R55, R174, spec/93 U13: the host's own accesses to `BUF`: a write of a byte lent to a transmitting or a receiving command in progress
is a race, as is a read of a byte that a receiving command will write (the latches decide, log 15); any other access inside `BUF`
works and touches that byte alone. -/
def Obligations.HostBuffer : Prop :=
  ∀ (s : State) (i : Nat) (v : Byte), Memory.wf s.buf = true → i < bufSize →
    (s.busy = true → (s.opc = 5 ∨ s.opc = 6 ∨ s.opc = 7 ∨ s.opc = 8) → i < s.len.toNat →
      hostAct (.bufWrite i v) s = .fault (.bufRace i)) ∧
    (s.busy = false ∨ (s.opc ≠ 5 ∧ s.opc ≠ 6 ∧ s.opc ≠ 7 ∧ s.opc ≠ 8) ∨ s.len.toNat ≤ i →
      ∃ m, hostAct (.bufWrite i v) s = .next { s with buf := m } ∧ Memory.wf m = true ∧
        ∀ j, Memory.read m j = if j = i then v else Memory.read s.buf j) ∧
    (s.busy = true → (s.opc = 6 ∨ s.opc = 8) → i < s.len.toNat → hostBufRead i s = .error (.bufRace i)) ∧
    (s.busy = false ∨ (s.opc ≠ 6 ∧ s.opc ≠ 8) ∨ s.len.toNat ≤ i → hostBufRead i s = .ok (Memory.read s.buf i))

/-- R20, spec/93 U20: what `FLT`, the working registers, the latched word `CMD` and the listing variables hold between commands never
matters: two controllers that agree on everything else run alike, through any moves of the host and the peer. -/
def Obligations.WorkingRegistersNeverMatter : Prop :=
  ∀ (ms : List Move) (s s' t : State), inv s = true → s.busy = false → visible s' = visible s → runMoves ms s = .next t →
    ∃ t', runMoves ms s' = .next t' ∧ visible t' = visible t

/-- R134: a command whose clock is never held low comes to its response, from every state of the invariant. -/
def Obligations.CommandsEnd : Prop :=
  ∀ s : State, inv s = true → s.rstIn = false → (halRdScl s.halcap = true → ∀ j, (driveAt s j).1 = true) →
    ∃ k t, runSteps k s = .next t ∧ t.busy = false

/-- R57, R155: of several controllers, a step of one changes that one alone, and steps of two of them commute. That they are a list of
states of which one steps at a time is the model's choice (log 20), and the statement is about `stepInstance` alone. -/
def Obligations.ControllersIndependent : Prop :=
  ∀ (j k : Nat) (ss : List State) (s t u v : State), j ≠ k → ss[j]? = some s → ss[k]? = some u → step s = .next t → step u = .next v →
    stepInstance j ss = .next (ss.set j t) ∧ stepInstance k (ss.set j t) = .next ((ss.set j t).set k v) ∧
      stepInstance j (ss.set k v) = .next ((ss.set j t).set k v)
end

