-- ==== Sys2Proof/Laws/Mem.lean ====
section
/-! SUPPORT. The laws of `BUF`: read after write, every other byte kept, the canonical form kept. -/

namespace Sys2Proof.Machine

theorem Memory.wf_nil : Memory.wf [] = true := rfl

theorem Memory.wf_reset : Memory.wf State.reset.buf = true := rfl

/-- A canonical memory from `lo` on is one from any lower bound on. -/
theorem Memory.wfFrom_mono {lo lo' : Nat} (m : Memory) (h : lo' ≤ lo) (hm : Memory.wfFrom lo m = true) :
    Memory.wfFrom lo' m = true := by
  cases m with
  | nil => rfl
  | cons c m =>
    simp only [Memory.wfFrom, Bool.and_eq_true, decide_eq_true_eq] at hm ⊢
    exact ⟨⟨⟨by omega, hm.1.1.2⟩, hm.1.2⟩, hm.2⟩

/-- Below the first listed index everything reads as the default. -/
theorem Memory.read_below {lo i : Nat} (m : Memory) (hm : Memory.wfFrom lo m = true) (h : i < lo) :
    Memory.read m i = bufDefault := by
  induction m generalizing lo with
  | nil => rfl
  | cons c m ih =>
    simp only [Memory.wfFrom, Bool.and_eq_true, decide_eq_true_eq] at hm
    rw [Memory.read, if_neg (by omega)]
    exact ih hm.2 (by omega)

/-- A write inside `BUF` keeps the canonical form. -/
theorem Memory.wfFrom_write {lo i : Nat} (m : Memory) (v : Byte) (hm : Memory.wfFrom lo m = true) (hlo : lo ≤ i)
    (hi : i < bufSize) : Memory.wfFrom lo (Memory.write m i v) = true := by
  induction m generalizing lo with
  | nil =>
    rw [Memory.write]
    split
    · rfl
    · simp_all [Memory.wfFrom]
  | cons c m ih =>
    obtain ⟨a, b⟩ := c
    simp only [Memory.wfFrom, Bool.and_eq_true, decide_eq_true_eq] at hm
    rw [Memory.write]
    split
    · split <;> simp_all [Memory.wfFrom]
    · split
      · split
        · exact Memory.wfFrom_mono m (by omega) hm.2
        · simp_all [Memory.wfFrom]
      · simp only [Memory.wfFrom, Bool.and_eq_true, decide_eq_true_eq]
        exact ⟨hm.1, ih hm.2 (by omega)⟩

theorem Memory.wf_write {i : Nat} (m : Memory) (v : Byte) (hm : Memory.wf m = true) (hi : i < bufSize) :
    Memory.wf (Memory.write m i v) = true :=
  Memory.wfFrom_write m v hm (Nat.zero_le i) hi

/-- Read after write, at the same index and at any other (R43). -/
theorem Memory.read_write_from {lo : Nat} (m : Memory) (i j : Nat) (v : Byte) (hm : Memory.wfFrom lo m = true) :
    Memory.read (Memory.write m i v) j = if j = i then v else Memory.read m j := by
  induction m generalizing lo with
  | nil =>
    rw [Memory.write]
    by_cases hv : v = bufDefault
    · rw [if_pos hv, Memory.read]
      split
      · exact hv.symm
      · rfl
    · rw [if_neg hv, Memory.read, Memory.read]
      exact if_congr eq_comm rfl rfl
  | cons c m ih =>
    obtain ⟨a, b⟩ := c
    simp only [Memory.wfFrom, Bool.and_eq_true, decide_eq_true_eq] at hm
    have below : ∀ k, k ≤ a → Memory.read m k = bufDefault := fun k hk => Memory.read_below m hm.2 (by omega)
    rw [Memory.write]
    by_cases h1 : i < a
    · rw [if_pos h1]
      by_cases hv : v = bufDefault
      · rw [if_pos hv]
        by_cases hj : j = i
        · rw [if_pos hj, hj, Memory.read, if_neg (by omega), below i (by omega), hv]
        · rw [if_neg hj]
      · rw [if_neg hv]
        by_cases hj : j = i
        · rw [if_pos hj, hj, Memory.read, if_pos rfl]
        · rw [if_neg hj, Memory.read, if_neg (Ne.symm hj)]
    · rw [if_neg h1]
      by_cases h2 : i = a
      · rw [if_pos h2]
        by_cases hv : v = bufDefault
        · rw [if_pos hv]
          by_cases hj : j = i
          · rw [if_pos hj, hj, h2, below a (Nat.le_refl a), hv]
          · rw [if_neg hj, Memory.read, if_neg (by omega)]
        · rw [if_neg hv]
          by_cases hj : j = i
          · rw [if_pos hj, hj, Memory.read, if_pos rfl]
          · rw [if_neg hj, Memory.read, if_neg (Ne.symm hj), Memory.read, if_neg (by omega)]
      · rw [if_neg h2]
        by_cases hj : a = j
        · rw [Memory.read, if_pos hj, if_neg (by omega), Memory.read, if_pos hj]
        · rw [Memory.read, if_neg hj, Memory.read, if_neg hj]
          exact ih hm.2

theorem Memory.read_write {m : Memory} (i j : Nat) (v : Byte) (hm : Memory.wf m = true) :
    Memory.read (Memory.write m i v) j = if j = i then v else Memory.read m j :=
  Memory.read_write_from m i j v hm

theorem Memory.read_write_same {m : Memory} (i : Nat) (v : Byte) (hm : Memory.wf m = true) :
    Memory.read (Memory.write m i v) i = v := by
  rw [Memory.read_write i i v hm, if_pos rfl]

theorem Memory.read_write_other {m : Memory} {i j : Nat} (v : Byte) (hm : Memory.wf m = true) (h : j ≠ i) :
    Memory.read (Memory.write m i v) j = Memory.read m j := by
  rw [Memory.read_write i j v hm, if_neg h]

end Sys2Proof.Machine
end

