-- ==== Sys2Proof/Laws/State.lean ====
section
/-! SUPPORT. One lemma per field per named update of the state, each true by unfolding the update once, so that no later proof
unfolds one. -/

namespace Sys2Proof.Machine

/-! ### `peerMove` -/

@[simp] theorem peerMove_valid (s : State) : (peerMove s).valid = s.valid := rfl
@[simp] theorem peerMove_halcap (s : State) : (peerMove s).halcap = s.halcap := rfl
@[simp] theorem peerMove_freq (s : State) : (peerMove s).freq = s.freq := rfl
@[simp] theorem peerMove_half (s : State) : (peerMove s).half = s.half := rfl
@[simp] theorem peerMove_started (s : State) : (peerMove s).started = s.started := rfl
@[simp] theorem peerMove_sclO (s : State) : (peerMove s).sclO = s.sclO := rfl
@[simp] theorem peerMove_sdaO (s : State) : (peerMove s).sdaO = s.sdaO := rfl
@[simp] theorem peerMove_busy (s : State) : (peerMove s).busy = s.busy := rfl
@[simp] theorem peerMove_ackl (s : State) : (peerMove s).ackl = s.ackl := rfl
@[simp] theorem peerMove_flt (s : State) : (peerMove s).flt = s.flt := rfl
@[simp] theorem peerMove_fault (s : State) : (peerMove s).fault = s.fault := rfl
@[simp] theorem peerMove_opc (s : State) : (peerMove s).opc = s.opc := rfl
@[simp] theorem peerMove_addr (s : State) : (peerMove s).addr = s.addr := rfl
@[simp] theorem peerMove_w (s : State) : (peerMove s).w = s.w := rfl
@[simp] theorem peerMove_reg (s : State) : (peerMove s).reg = s.reg := rfl
@[simp] theorem peerMove_len (s : State) : (peerMove s).len = s.len := rfl
@[simp] theorem peerMove_idx (s : State) : (peerMove s).idx = s.idx := rfl
@[simp] theorem peerMove_cnt (s : State) : (peerMove s).cnt = s.cnt := rfl
@[simp] theorem peerMove_shreg (s : State) : (peerMove s).shreg = s.shreg := rfl
@[simp] theorem peerMove_bitk (s : State) : (peerMove s).bitk = s.bitk := rfl
@[simp] theorem peerMove_seq (s : State) : (peerMove s).seq = s.seq := rfl
@[simp] theorem peerMove_rsp (s : State) : (peerMove s).rsp = s.rsp := rfl
@[simp] theorem peerMove_rspValid (s : State) : (peerMove s).rspValid = s.rspValid := rfl
@[simp] theorem peerMove_cmd (s : State) : (peerMove s).cmd = s.cmd := rfl
@[simp] theorem peerMove_res (s : State) : (peerMove s).res = s.res := rfl
@[simp] theorem peerMove_dat (s : State) : (peerMove s).dat = s.dat := rfl
@[simp] theorem peerMove_cmdIn (s : State) : (peerMove s).cmdIn = s.cmdIn := rfl
@[simp] theorem peerMove_rstIn (s : State) : (peerMove s).rstIn = s.rstIn := rfl
@[simp] theorem peerMove_peerScl (s : State) : (peerMove s).peerScl = (peerNext s).1 := rfl
@[simp] theorem peerMove_peerSda (s : State) : (peerMove s).peerSda = (peerNext s).2 := rfl
@[simp] theorem peerMove_peerScript (s : State) : (peerMove s).peerScript = s.peerScript.tail := rfl
@[simp] theorem peerMove_peerTime (s : State) : (peerMove s).peerTime = s.peerTime + 1 := rfl
@[simp] theorem peerMove_restTime (s : State) : (peerMove s).restTime = s.restTime := rfl
@[simp] theorem peerMove_bus (s : State) : (peerMove s).bus = s.bus := rfl
@[simp] theorem peerMove_buf (s : State) : (peerMove s).buf = s.buf := rfl
@[simp] theorem peerMove_trace (s : State) : (peerMove s).trace = s.trace := rfl

/-! ### `peerRest` -/

@[simp] theorem peerRest_valid (s : State) : (peerRest s).valid = s.valid := rfl
@[simp] theorem peerRest_halcap (s : State) : (peerRest s).halcap = s.halcap := rfl
@[simp] theorem peerRest_freq (s : State) : (peerRest s).freq = s.freq := rfl
@[simp] theorem peerRest_half (s : State) : (peerRest s).half = s.half := rfl
@[simp] theorem peerRest_started (s : State) : (peerRest s).started = s.started := rfl
@[simp] theorem peerRest_sclO (s : State) : (peerRest s).sclO = s.sclO := rfl
@[simp] theorem peerRest_sdaO (s : State) : (peerRest s).sdaO = s.sdaO := rfl
@[simp] theorem peerRest_busy (s : State) : (peerRest s).busy = s.busy := rfl
@[simp] theorem peerRest_ackl (s : State) : (peerRest s).ackl = s.ackl := rfl
@[simp] theorem peerRest_flt (s : State) : (peerRest s).flt = s.flt := rfl
@[simp] theorem peerRest_fault (s : State) : (peerRest s).fault = s.fault := rfl
@[simp] theorem peerRest_opc (s : State) : (peerRest s).opc = s.opc := rfl
@[simp] theorem peerRest_addr (s : State) : (peerRest s).addr = s.addr := rfl
@[simp] theorem peerRest_w (s : State) : (peerRest s).w = s.w := rfl
@[simp] theorem peerRest_reg (s : State) : (peerRest s).reg = s.reg := rfl
@[simp] theorem peerRest_len (s : State) : (peerRest s).len = s.len := rfl
@[simp] theorem peerRest_idx (s : State) : (peerRest s).idx = s.idx := rfl
@[simp] theorem peerRest_cnt (s : State) : (peerRest s).cnt = s.cnt := rfl
@[simp] theorem peerRest_shreg (s : State) : (peerRest s).shreg = s.shreg := rfl
@[simp] theorem peerRest_bitk (s : State) : (peerRest s).bitk = s.bitk := rfl
@[simp] theorem peerRest_seq (s : State) : (peerRest s).seq = s.seq := rfl
@[simp] theorem peerRest_rsp (s : State) : (peerRest s).rsp = s.rsp := rfl
@[simp] theorem peerRest_rspValid (s : State) : (peerRest s).rspValid = s.rspValid := rfl
@[simp] theorem peerRest_cmd (s : State) : (peerRest s).cmd = s.cmd := rfl
@[simp] theorem peerRest_res (s : State) : (peerRest s).res = s.res := rfl
@[simp] theorem peerRest_dat (s : State) : (peerRest s).dat = s.dat := rfl
@[simp] theorem peerRest_cmdIn (s : State) : (peerRest s).cmdIn = s.cmdIn := rfl
@[simp] theorem peerRest_rstIn (s : State) : (peerRest s).rstIn = s.rstIn := rfl
@[simp] theorem peerRest_peerScl (s : State) : (peerRest s).peerScl = (restDrive s).1 := rfl
@[simp] theorem peerRest_peerSda (s : State) : (peerRest s).peerSda = (restDrive s).2 := rfl
@[simp] theorem peerRest_peerScript (s : State) : (peerRest s).peerScript = s.peerScript := rfl
@[simp] theorem peerRest_peerTime (s : State) : (peerRest s).peerTime = s.peerTime := rfl
@[simp] theorem peerRest_restTime (s : State) : (peerRest s).restTime = s.restTime + 1 := rfl
@[simp] theorem peerRest_bus (s : State) : (peerRest s).bus = s.bus := rfl
@[simp] theorem peerRest_buf (s : State) : (peerRest s).buf = s.buf := rfl
@[simp] theorem peerRest_trace (s : State) : (peerRest s).trace = s.trace := rfl

/-! ### `record` -/

@[simp] theorem record_valid (o : MicroOp) (b a : State) : (record o b a).valid = a.valid := rfl
@[simp] theorem record_halcap (o : MicroOp) (b a : State) : (record o b a).halcap = a.halcap := rfl
@[simp] theorem record_freq (o : MicroOp) (b a : State) : (record o b a).freq = a.freq := rfl
@[simp] theorem record_half (o : MicroOp) (b a : State) : (record o b a).half = a.half := rfl
@[simp] theorem record_started (o : MicroOp) (b a : State) : (record o b a).started = a.started := rfl
@[simp] theorem record_sclO (o : MicroOp) (b a : State) : (record o b a).sclO = a.sclO := rfl
@[simp] theorem record_sdaO (o : MicroOp) (b a : State) : (record o b a).sdaO = a.sdaO := rfl
@[simp] theorem record_busy (o : MicroOp) (b a : State) : (record o b a).busy = a.busy := rfl
@[simp] theorem record_ackl (o : MicroOp) (b a : State) : (record o b a).ackl = a.ackl := rfl
@[simp] theorem record_flt (o : MicroOp) (b a : State) : (record o b a).flt = a.flt := rfl
@[simp] theorem record_fault (o : MicroOp) (b a : State) : (record o b a).fault = a.fault := rfl
@[simp] theorem record_opc (o : MicroOp) (b a : State) : (record o b a).opc = a.opc := rfl
@[simp] theorem record_addr (o : MicroOp) (b a : State) : (record o b a).addr = a.addr := rfl
@[simp] theorem record_w (o : MicroOp) (b a : State) : (record o b a).w = a.w := rfl
@[simp] theorem record_reg (o : MicroOp) (b a : State) : (record o b a).reg = a.reg := rfl
@[simp] theorem record_len (o : MicroOp) (b a : State) : (record o b a).len = a.len := rfl
@[simp] theorem record_idx (o : MicroOp) (b a : State) : (record o b a).idx = a.idx := rfl
@[simp] theorem record_cnt (o : MicroOp) (b a : State) : (record o b a).cnt = a.cnt := rfl
@[simp] theorem record_shreg (o : MicroOp) (b a : State) : (record o b a).shreg = a.shreg := rfl
@[simp] theorem record_bitk (o : MicroOp) (b a : State) : (record o b a).bitk = a.bitk := rfl
@[simp] theorem record_seq (o : MicroOp) (b a : State) : (record o b a).seq = a.seq := rfl
@[simp] theorem record_rsp (o : MicroOp) (b a : State) : (record o b a).rsp = a.rsp := rfl
@[simp] theorem record_rspValid (o : MicroOp) (b a : State) : (record o b a).rspValid = a.rspValid := rfl
@[simp] theorem record_cmd (o : MicroOp) (b a : State) : (record o b a).cmd = a.cmd := rfl
@[simp] theorem record_res (o : MicroOp) (b a : State) : (record o b a).res = a.res := rfl
@[simp] theorem record_dat (o : MicroOp) (b a : State) : (record o b a).dat = a.dat := rfl
@[simp] theorem record_cmdIn (o : MicroOp) (b a : State) : (record o b a).cmdIn = a.cmdIn := rfl
@[simp] theorem record_rstIn (o : MicroOp) (b a : State) : (record o b a).rstIn = a.rstIn := rfl
@[simp] theorem record_peerScl (o : MicroOp) (b a : State) : (record o b a).peerScl = a.peerScl := rfl
@[simp] theorem record_peerSda (o : MicroOp) (b a : State) : (record o b a).peerSda = a.peerSda := rfl
@[simp] theorem record_peerScript (o : MicroOp) (b a : State) : (record o b a).peerScript = a.peerScript := rfl
@[simp] theorem record_peerTime (o : MicroOp) (b a : State) : (record o b a).peerTime = a.peerTime := rfl
@[simp] theorem record_restTime (o : MicroOp) (b a : State) : (record o b a).restTime = a.restTime := rfl
@[simp] theorem record_bus (o : MicroOp) (b a : State) : (record o b a).bus = a.bus := rfl
@[simp] theorem record_buf (o : MicroOp) (b a : State) : (record o b a).buf = a.buf := rfl
@[simp] theorem record_trace (o : MicroOp) (b a : State) : (record o b a).trace = ⟨o, levels b, levels a⟩ :: a.trace := rfl

/-! ### `setLatch` -/

@[simp] theorem setLatch_valid (l : Line) (b : Bool) (s : State) : (setLatch l b s).valid = s.valid := by cases l <;> rfl
@[simp] theorem setLatch_halcap (l : Line) (b : Bool) (s : State) : (setLatch l b s).halcap = s.halcap := by cases l <;> rfl
@[simp] theorem setLatch_freq (l : Line) (b : Bool) (s : State) : (setLatch l b s).freq = s.freq := by cases l <;> rfl
@[simp] theorem setLatch_half (l : Line) (b : Bool) (s : State) : (setLatch l b s).half = s.half := by cases l <;> rfl
@[simp] theorem setLatch_started (l : Line) (b : Bool) (s : State) : (setLatch l b s).started = s.started := by cases l <;> rfl
@[simp] theorem setLatch_busy (l : Line) (b : Bool) (s : State) : (setLatch l b s).busy = s.busy := by cases l <;> rfl
@[simp] theorem setLatch_ackl (l : Line) (b : Bool) (s : State) : (setLatch l b s).ackl = s.ackl := by cases l <;> rfl
@[simp] theorem setLatch_flt (l : Line) (b : Bool) (s : State) : (setLatch l b s).flt = s.flt := by cases l <;> rfl
@[simp] theorem setLatch_fault (l : Line) (b : Bool) (s : State) : (setLatch l b s).fault = s.fault := by cases l <;> rfl
@[simp] theorem setLatch_opc (l : Line) (b : Bool) (s : State) : (setLatch l b s).opc = s.opc := by cases l <;> rfl
@[simp] theorem setLatch_addr (l : Line) (b : Bool) (s : State) : (setLatch l b s).addr = s.addr := by cases l <;> rfl
@[simp] theorem setLatch_w (l : Line) (b : Bool) (s : State) : (setLatch l b s).w = s.w := by cases l <;> rfl
@[simp] theorem setLatch_reg (l : Line) (b : Bool) (s : State) : (setLatch l b s).reg = s.reg := by cases l <;> rfl
@[simp] theorem setLatch_len (l : Line) (b : Bool) (s : State) : (setLatch l b s).len = s.len := by cases l <;> rfl
@[simp] theorem setLatch_idx (l : Line) (b : Bool) (s : State) : (setLatch l b s).idx = s.idx := by cases l <;> rfl
@[simp] theorem setLatch_cnt (l : Line) (b : Bool) (s : State) : (setLatch l b s).cnt = s.cnt := by cases l <;> rfl
@[simp] theorem setLatch_shreg (l : Line) (b : Bool) (s : State) : (setLatch l b s).shreg = s.shreg := by cases l <;> rfl
@[simp] theorem setLatch_bitk (l : Line) (b : Bool) (s : State) : (setLatch l b s).bitk = s.bitk := by cases l <;> rfl
@[simp] theorem setLatch_seq (l : Line) (b : Bool) (s : State) : (setLatch l b s).seq = s.seq := by cases l <;> rfl
@[simp] theorem setLatch_rsp (l : Line) (b : Bool) (s : State) : (setLatch l b s).rsp = s.rsp := by cases l <;> rfl
@[simp] theorem setLatch_rspValid (l : Line) (b : Bool) (s : State) : (setLatch l b s).rspValid = s.rspValid := by cases l <;> rfl
@[simp] theorem setLatch_cmd (l : Line) (b : Bool) (s : State) : (setLatch l b s).cmd = s.cmd := by cases l <;> rfl
@[simp] theorem setLatch_res (l : Line) (b : Bool) (s : State) : (setLatch l b s).res = s.res := by cases l <;> rfl
@[simp] theorem setLatch_dat (l : Line) (b : Bool) (s : State) : (setLatch l b s).dat = s.dat := by cases l <;> rfl
@[simp] theorem setLatch_cmdIn (l : Line) (b : Bool) (s : State) : (setLatch l b s).cmdIn = s.cmdIn := by cases l <;> rfl
@[simp] theorem setLatch_rstIn (l : Line) (b : Bool) (s : State) : (setLatch l b s).rstIn = s.rstIn := by cases l <;> rfl
@[simp] theorem setLatch_peerScl (l : Line) (b : Bool) (s : State) : (setLatch l b s).peerScl = s.peerScl := by cases l <;> rfl
@[simp] theorem setLatch_peerSda (l : Line) (b : Bool) (s : State) : (setLatch l b s).peerSda = s.peerSda := by cases l <;> rfl
@[simp] theorem setLatch_peerScript (l : Line) (b : Bool) (s : State) : (setLatch l b s).peerScript = s.peerScript := by cases l <;> rfl
@[simp] theorem setLatch_peerTime (l : Line) (b : Bool) (s : State) : (setLatch l b s).peerTime = s.peerTime := by cases l <;> rfl
@[simp] theorem setLatch_restTime (l : Line) (b : Bool) (s : State) : (setLatch l b s).restTime = s.restTime := by cases l <;> rfl
@[simp] theorem setLatch_bus (l : Line) (b : Bool) (s : State) : (setLatch l b s).bus = s.bus := by cases l <;> rfl
@[simp] theorem setLatch_buf (l : Line) (b : Bool) (s : State) : (setLatch l b s).buf = s.buf := by cases l <;> rfl
@[simp] theorem setLatch_trace (l : Line) (b : Bool) (s : State) : (setLatch l b s).trace = s.trace := by cases l <;> rfl

@[simp] theorem setLatch_scl_sclO (b : Bool) (s : State) : (setLatch .scl b s).sclO = b := rfl
@[simp] theorem setLatch_scl_sdaO (b : Bool) (s : State) : (setLatch .scl b s).sdaO = s.sdaO := rfl
@[simp] theorem setLatch_sda_sclO (b : Bool) (s : State) : (setLatch .sda b s).sclO = s.sclO := rfl
@[simp] theorem setLatch_sda_sdaO (b : Bool) (s : State) : (setLatch .sda b s).sdaO = b := rfl

/-! ### `lineWrite` -/

@[simp] theorem lineWrite_valid (l : Line) (b : Bool) (s : State) : (lineWrite l b s).valid = s.valid := by cases l <;> rfl
@[simp] theorem lineWrite_halcap (l : Line) (b : Bool) (s : State) : (lineWrite l b s).halcap = s.halcap := by cases l <;> rfl
@[simp] theorem lineWrite_freq (l : Line) (b : Bool) (s : State) : (lineWrite l b s).freq = s.freq := by cases l <;> rfl
@[simp] theorem lineWrite_half (l : Line) (b : Bool) (s : State) : (lineWrite l b s).half = s.half := by cases l <;> rfl
@[simp] theorem lineWrite_started (l : Line) (b : Bool) (s : State) : (lineWrite l b s).started = s.started := by cases l <;> rfl
@[simp] theorem lineWrite_busy (l : Line) (b : Bool) (s : State) : (lineWrite l b s).busy = s.busy := by cases l <;> rfl
@[simp] theorem lineWrite_ackl (l : Line) (b : Bool) (s : State) : (lineWrite l b s).ackl = s.ackl := by cases l <;> rfl
@[simp] theorem lineWrite_flt (l : Line) (b : Bool) (s : State) : (lineWrite l b s).flt = s.flt := by cases l <;> rfl
@[simp] theorem lineWrite_fault (l : Line) (b : Bool) (s : State) : (lineWrite l b s).fault = s.fault := by cases l <;> rfl
@[simp] theorem lineWrite_opc (l : Line) (b : Bool) (s : State) : (lineWrite l b s).opc = s.opc := by cases l <;> rfl
@[simp] theorem lineWrite_addr (l : Line) (b : Bool) (s : State) : (lineWrite l b s).addr = s.addr := by cases l <;> rfl
@[simp] theorem lineWrite_w (l : Line) (b : Bool) (s : State) : (lineWrite l b s).w = s.w := by cases l <;> rfl
@[simp] theorem lineWrite_reg (l : Line) (b : Bool) (s : State) : (lineWrite l b s).reg = s.reg := by cases l <;> rfl
@[simp] theorem lineWrite_len (l : Line) (b : Bool) (s : State) : (lineWrite l b s).len = s.len := by cases l <;> rfl
@[simp] theorem lineWrite_idx (l : Line) (b : Bool) (s : State) : (lineWrite l b s).idx = s.idx := by cases l <;> rfl
@[simp] theorem lineWrite_cnt (l : Line) (b : Bool) (s : State) : (lineWrite l b s).cnt = s.cnt := by cases l <;> rfl
@[simp] theorem lineWrite_shreg (l : Line) (b : Bool) (s : State) : (lineWrite l b s).shreg = s.shreg := by cases l <;> rfl
@[simp] theorem lineWrite_bitk (l : Line) (b : Bool) (s : State) : (lineWrite l b s).bitk = s.bitk := by cases l <;> rfl
@[simp] theorem lineWrite_seq (l : Line) (b : Bool) (s : State) : (lineWrite l b s).seq = s.seq := by cases l <;> rfl
@[simp] theorem lineWrite_rsp (l : Line) (b : Bool) (s : State) : (lineWrite l b s).rsp = s.rsp := by cases l <;> rfl
@[simp] theorem lineWrite_rspValid (l : Line) (b : Bool) (s : State) : (lineWrite l b s).rspValid = s.rspValid := by cases l <;> rfl
@[simp] theorem lineWrite_cmd (l : Line) (b : Bool) (s : State) : (lineWrite l b s).cmd = s.cmd := by cases l <;> rfl
@[simp] theorem lineWrite_res (l : Line) (b : Bool) (s : State) : (lineWrite l b s).res = s.res := by cases l <;> rfl
@[simp] theorem lineWrite_dat (l : Line) (b : Bool) (s : State) : (lineWrite l b s).dat = s.dat := by cases l <;> rfl
@[simp] theorem lineWrite_cmdIn (l : Line) (b : Bool) (s : State) : (lineWrite l b s).cmdIn = s.cmdIn := by cases l <;> rfl
@[simp] theorem lineWrite_rstIn (l : Line) (b : Bool) (s : State) : (lineWrite l b s).rstIn = s.rstIn := by cases l <;> rfl
@[simp] theorem lineWrite_restTime (l : Line) (b : Bool) (s : State) : (lineWrite l b s).restTime = s.restTime := by cases l <;> rfl
@[simp] theorem lineWrite_bus (l : Line) (b : Bool) (s : State) : (lineWrite l b s).bus = s.bus := by cases l <;> rfl
@[simp] theorem lineWrite_buf (l : Line) (b : Bool) (s : State) : (lineWrite l b s).buf = s.buf := by cases l <;> rfl

@[simp] theorem lineWrite_scl_sclO (b : Bool) (s : State) : (lineWrite .scl b s).sclO = b := rfl
@[simp] theorem lineWrite_scl_sdaO (b : Bool) (s : State) : (lineWrite .scl b s).sdaO = s.sdaO := rfl
@[simp] theorem lineWrite_sda_sclO (b : Bool) (s : State) : (lineWrite .sda b s).sclO = s.sclO := rfl
@[simp] theorem lineWrite_sda_sdaO (b : Bool) (s : State) : (lineWrite .sda b s).sdaO = b := rfl
@[simp] theorem lineWrite_peerScl (l : Line) (b : Bool) (s : State) : (lineWrite l b s).peerScl = (peerNext s).1 := by cases l <;> rfl
@[simp] theorem lineWrite_peerSda (l : Line) (b : Bool) (s : State) : (lineWrite l b s).peerSda = (peerNext s).2 := by cases l <;> rfl
@[simp] theorem lineWrite_peerScript (l : Line) (b : Bool) (s : State) : (lineWrite l b s).peerScript = s.peerScript.tail := by cases l <;> rfl
@[simp] theorem lineWrite_peerTime (l : Line) (b : Bool) (s : State) : (lineWrite l b s).peerTime = s.peerTime + 1 := by cases l <;> rfl
@[simp] theorem lineWrite_trace (l : Line) (b : Bool) (s : State) :
    (lineWrite l b s).trace = ⟨.lineWrite l b, levels (peerMove s), levels (setLatch l b (peerMove s))⟩ :: s.trace := by
  cases l <;> rfl

/-! ### `lineRead` -/

@[simp] theorem lineRead_valid (l : Line) (s : State) : (lineRead l s).valid = s.valid := rfl
@[simp] theorem lineRead_halcap (l : Line) (s : State) : (lineRead l s).halcap = s.halcap := rfl
@[simp] theorem lineRead_freq (l : Line) (s : State) : (lineRead l s).freq = s.freq := rfl
@[simp] theorem lineRead_half (l : Line) (s : State) : (lineRead l s).half = s.half := rfl
@[simp] theorem lineRead_started (l : Line) (s : State) : (lineRead l s).started = s.started := rfl
@[simp] theorem lineRead_sclO (l : Line) (s : State) : (lineRead l s).sclO = s.sclO := rfl
@[simp] theorem lineRead_sdaO (l : Line) (s : State) : (lineRead l s).sdaO = s.sdaO := rfl
@[simp] theorem lineRead_busy (l : Line) (s : State) : (lineRead l s).busy = s.busy := rfl
@[simp] theorem lineRead_ackl (l : Line) (s : State) : (lineRead l s).ackl = s.ackl := rfl
@[simp] theorem lineRead_flt (l : Line) (s : State) : (lineRead l s).flt = s.flt := rfl
@[simp] theorem lineRead_fault (l : Line) (s : State) : (lineRead l s).fault = s.fault := rfl
@[simp] theorem lineRead_opc (l : Line) (s : State) : (lineRead l s).opc = s.opc := rfl
@[simp] theorem lineRead_addr (l : Line) (s : State) : (lineRead l s).addr = s.addr := rfl
@[simp] theorem lineRead_w (l : Line) (s : State) : (lineRead l s).w = s.w := rfl
@[simp] theorem lineRead_reg (l : Line) (s : State) : (lineRead l s).reg = s.reg := rfl
@[simp] theorem lineRead_len (l : Line) (s : State) : (lineRead l s).len = s.len := rfl
@[simp] theorem lineRead_idx (l : Line) (s : State) : (lineRead l s).idx = s.idx := rfl
@[simp] theorem lineRead_cnt (l : Line) (s : State) : (lineRead l s).cnt = s.cnt := rfl
@[simp] theorem lineRead_shreg (l : Line) (s : State) : (lineRead l s).shreg = s.shreg := rfl
@[simp] theorem lineRead_bitk (l : Line) (s : State) : (lineRead l s).bitk = s.bitk := rfl
@[simp] theorem lineRead_seq (l : Line) (s : State) : (lineRead l s).seq = s.seq := rfl
@[simp] theorem lineRead_rsp (l : Line) (s : State) : (lineRead l s).rsp = s.rsp := rfl
@[simp] theorem lineRead_rspValid (l : Line) (s : State) : (lineRead l s).rspValid = s.rspValid := rfl
@[simp] theorem lineRead_cmd (l : Line) (s : State) : (lineRead l s).cmd = s.cmd := rfl
@[simp] theorem lineRead_res (l : Line) (s : State) : (lineRead l s).res = level l (peerMove s) := rfl
@[simp] theorem lineRead_dat (l : Line) (s : State) : (lineRead l s).dat = s.dat := rfl
@[simp] theorem lineRead_cmdIn (l : Line) (s : State) : (lineRead l s).cmdIn = s.cmdIn := rfl
@[simp] theorem lineRead_rstIn (l : Line) (s : State) : (lineRead l s).rstIn = s.rstIn := rfl
@[simp] theorem lineRead_peerScl (l : Line) (s : State) : (lineRead l s).peerScl = (peerNext s).1 := rfl
@[simp] theorem lineRead_peerSda (l : Line) (s : State) : (lineRead l s).peerSda = (peerNext s).2 := rfl
@[simp] theorem lineRead_peerScript (l : Line) (s : State) : (lineRead l s).peerScript = s.peerScript.tail := rfl
@[simp] theorem lineRead_peerTime (l : Line) (s : State) : (lineRead l s).peerTime = s.peerTime + 1 := rfl
@[simp] theorem lineRead_restTime (l : Line) (s : State) : (lineRead l s).restTime = s.restTime := rfl
@[simp] theorem lineRead_bus (l : Line) (s : State) : (lineRead l s).bus = s.bus := rfl
@[simp] theorem lineRead_buf (l : Line) (s : State) : (lineRead l s).buf = s.buf := rfl
@[simp] theorem lineRead_trace (l : Line) (s : State) : (lineRead l s).trace = ⟨.lineRead l (level l (peerMove s)), levels (peerMove s), levels (peerMove s)⟩ :: s.trace := rfl

/-! ### `delay` -/

@[simp] theorem delay_valid (s : State) : (delay s).valid = s.valid := rfl
@[simp] theorem delay_halcap (s : State) : (delay s).halcap = s.halcap := rfl
@[simp] theorem delay_freq (s : State) : (delay s).freq = s.freq := rfl
@[simp] theorem delay_half (s : State) : (delay s).half = s.half := rfl
@[simp] theorem delay_started (s : State) : (delay s).started = s.started := rfl
@[simp] theorem delay_sclO (s : State) : (delay s).sclO = s.sclO := rfl
@[simp] theorem delay_sdaO (s : State) : (delay s).sdaO = s.sdaO := rfl
@[simp] theorem delay_busy (s : State) : (delay s).busy = s.busy := rfl
@[simp] theorem delay_ackl (s : State) : (delay s).ackl = s.ackl := rfl
@[simp] theorem delay_flt (s : State) : (delay s).flt = s.flt := rfl
@[simp] theorem delay_fault (s : State) : (delay s).fault = s.fault := rfl
@[simp] theorem delay_opc (s : State) : (delay s).opc = s.opc := rfl
@[simp] theorem delay_addr (s : State) : (delay s).addr = s.addr := rfl
@[simp] theorem delay_w (s : State) : (delay s).w = s.w := rfl
@[simp] theorem delay_reg (s : State) : (delay s).reg = s.reg := rfl
@[simp] theorem delay_len (s : State) : (delay s).len = s.len := rfl
@[simp] theorem delay_idx (s : State) : (delay s).idx = s.idx := rfl
@[simp] theorem delay_cnt (s : State) : (delay s).cnt = s.cnt := rfl
@[simp] theorem delay_shreg (s : State) : (delay s).shreg = s.shreg := rfl
@[simp] theorem delay_bitk (s : State) : (delay s).bitk = s.bitk := rfl
@[simp] theorem delay_seq (s : State) : (delay s).seq = s.seq := rfl
@[simp] theorem delay_rsp (s : State) : (delay s).rsp = s.rsp := rfl
@[simp] theorem delay_rspValid (s : State) : (delay s).rspValid = s.rspValid := rfl
@[simp] theorem delay_cmd (s : State) : (delay s).cmd = s.cmd := rfl
@[simp] theorem delay_res (s : State) : (delay s).res = s.res := rfl
@[simp] theorem delay_dat (s : State) : (delay s).dat = s.dat := rfl
@[simp] theorem delay_cmdIn (s : State) : (delay s).cmdIn = s.cmdIn := rfl
@[simp] theorem delay_rstIn (s : State) : (delay s).rstIn = s.rstIn := rfl
@[simp] theorem delay_peerScl (s : State) : (delay s).peerScl = (peerNext s).1 := rfl
@[simp] theorem delay_peerSda (s : State) : (delay s).peerSda = (peerNext s).2 := rfl
@[simp] theorem delay_peerScript (s : State) : (delay s).peerScript = s.peerScript.tail := rfl
@[simp] theorem delay_peerTime (s : State) : (delay s).peerTime = s.peerTime + 1 := rfl
@[simp] theorem delay_restTime (s : State) : (delay s).restTime = s.restTime := rfl
@[simp] theorem delay_bus (s : State) : (delay s).bus = s.bus := rfl
@[simp] theorem delay_buf (s : State) : (delay s).buf = s.buf := rfl
@[simp] theorem delay_trace (s : State) : (delay s).trace = ⟨.delay s.half, levels (peerMove s), levels (peerMove s)⟩ :: s.trace := rfl

/-! ### `setPos` -/

@[simp] theorem setPos_valid (line loop : Nat) (s : State) : (setPos line loop s).valid = s.valid := rfl
@[simp] theorem setPos_halcap (line loop : Nat) (s : State) : (setPos line loop s).halcap = s.halcap := rfl
@[simp] theorem setPos_freq (line loop : Nat) (s : State) : (setPos line loop s).freq = s.freq := rfl
@[simp] theorem setPos_half (line loop : Nat) (s : State) : (setPos line loop s).half = s.half := rfl
@[simp] theorem setPos_started (line loop : Nat) (s : State) : (setPos line loop s).started = s.started := rfl
@[simp] theorem setPos_sclO (line loop : Nat) (s : State) : (setPos line loop s).sclO = s.sclO := rfl
@[simp] theorem setPos_sdaO (line loop : Nat) (s : State) : (setPos line loop s).sdaO = s.sdaO := rfl
@[simp] theorem setPos_busy (line loop : Nat) (s : State) : (setPos line loop s).busy = s.busy := rfl
@[simp] theorem setPos_ackl (line loop : Nat) (s : State) : (setPos line loop s).ackl = s.ackl := rfl
@[simp] theorem setPos_flt (line loop : Nat) (s : State) : (setPos line loop s).flt = s.flt := rfl
@[simp] theorem setPos_fault (line loop : Nat) (s : State) : (setPos line loop s).fault = s.fault := rfl
@[simp] theorem setPos_opc (line loop : Nat) (s : State) : (setPos line loop s).opc = s.opc := rfl
@[simp] theorem setPos_addr (line loop : Nat) (s : State) : (setPos line loop s).addr = s.addr := rfl
@[simp] theorem setPos_w (line loop : Nat) (s : State) : (setPos line loop s).w = s.w := rfl
@[simp] theorem setPos_reg (line loop : Nat) (s : State) : (setPos line loop s).reg = s.reg := rfl
@[simp] theorem setPos_len (line loop : Nat) (s : State) : (setPos line loop s).len = s.len := rfl
@[simp] theorem setPos_idx (line loop : Nat) (s : State) : (setPos line loop s).idx = s.idx := rfl
@[simp] theorem setPos_cnt (line loop : Nat) (s : State) : (setPos line loop s).cnt = s.cnt := rfl
@[simp] theorem setPos_shreg (line loop : Nat) (s : State) : (setPos line loop s).shreg = s.shreg := rfl
@[simp] theorem setPos_bitk (line loop : Nat) (s : State) : (setPos line loop s).bitk = s.bitk := rfl
@[simp] theorem setPos_rsp (line loop : Nat) (s : State) : (setPos line loop s).rsp = s.rsp := rfl
@[simp] theorem setPos_rspValid (line loop : Nat) (s : State) : (setPos line loop s).rspValid = s.rspValid := rfl
@[simp] theorem setPos_cmd (line loop : Nat) (s : State) : (setPos line loop s).cmd = s.cmd := rfl
@[simp] theorem setPos_res (line loop : Nat) (s : State) : (setPos line loop s).res = s.res := rfl
@[simp] theorem setPos_dat (line loop : Nat) (s : State) : (setPos line loop s).dat = s.dat := rfl
@[simp] theorem setPos_cmdIn (line loop : Nat) (s : State) : (setPos line loop s).cmdIn = s.cmdIn := rfl
@[simp] theorem setPos_rstIn (line loop : Nat) (s : State) : (setPos line loop s).rstIn = s.rstIn := rfl
@[simp] theorem setPos_peerScl (line loop : Nat) (s : State) : (setPos line loop s).peerScl = s.peerScl := rfl
@[simp] theorem setPos_peerSda (line loop : Nat) (s : State) : (setPos line loop s).peerSda = s.peerSda := rfl
@[simp] theorem setPos_peerScript (line loop : Nat) (s : State) : (setPos line loop s).peerScript = s.peerScript := rfl
@[simp] theorem setPos_peerTime (line loop : Nat) (s : State) : (setPos line loop s).peerTime = s.peerTime := rfl
@[simp] theorem setPos_restTime (line loop : Nat) (s : State) : (setPos line loop s).restTime = s.restTime := rfl
@[simp] theorem setPos_bus (line loop : Nat) (s : State) : (setPos line loop s).bus = s.bus := rfl
@[simp] theorem setPos_buf (line loop : Nat) (s : State) : (setPos line loop s).buf = s.buf := rfl
@[simp] theorem setPos_trace (line loop : Nat) (s : State) : (setPos line loop s).trace = s.trace := rfl

@[simp] theorem setPos_seq_cons (line loop : Nat) (s : State) (f : Frame) (rest : List Frame) (h : s.seq = f :: rest) :
    (setPos line loop s).seq = ⟨f.callee, line, loop⟩ :: rest := by
  simp [setPos, h]

theorem goto_eq (line : Nat) (s : State) : goto line s = setPos line 0 s := rfl

/-! ### `goto` -/

@[simp] theorem goto_valid (line : Nat) (s : State) : (goto line s).valid = s.valid := rfl
@[simp] theorem goto_halcap (line : Nat) (s : State) : (goto line s).halcap = s.halcap := rfl
@[simp] theorem goto_freq (line : Nat) (s : State) : (goto line s).freq = s.freq := rfl
@[simp] theorem goto_half (line : Nat) (s : State) : (goto line s).half = s.half := rfl
@[simp] theorem goto_started (line : Nat) (s : State) : (goto line s).started = s.started := rfl
@[simp] theorem goto_sclO (line : Nat) (s : State) : (goto line s).sclO = s.sclO := rfl
@[simp] theorem goto_sdaO (line : Nat) (s : State) : (goto line s).sdaO = s.sdaO := rfl
@[simp] theorem goto_busy (line : Nat) (s : State) : (goto line s).busy = s.busy := rfl
@[simp] theorem goto_ackl (line : Nat) (s : State) : (goto line s).ackl = s.ackl := rfl
@[simp] theorem goto_flt (line : Nat) (s : State) : (goto line s).flt = s.flt := rfl
@[simp] theorem goto_fault (line : Nat) (s : State) : (goto line s).fault = s.fault := rfl
@[simp] theorem goto_opc (line : Nat) (s : State) : (goto line s).opc = s.opc := rfl
@[simp] theorem goto_addr (line : Nat) (s : State) : (goto line s).addr = s.addr := rfl
@[simp] theorem goto_w (line : Nat) (s : State) : (goto line s).w = s.w := rfl
@[simp] theorem goto_reg (line : Nat) (s : State) : (goto line s).reg = s.reg := rfl
@[simp] theorem goto_len (line : Nat) (s : State) : (goto line s).len = s.len := rfl
@[simp] theorem goto_idx (line : Nat) (s : State) : (goto line s).idx = s.idx := rfl
@[simp] theorem goto_cnt (line : Nat) (s : State) : (goto line s).cnt = s.cnt := rfl
@[simp] theorem goto_shreg (line : Nat) (s : State) : (goto line s).shreg = s.shreg := rfl
@[simp] theorem goto_bitk (line : Nat) (s : State) : (goto line s).bitk = s.bitk := rfl
@[simp] theorem goto_rsp (line : Nat) (s : State) : (goto line s).rsp = s.rsp := rfl
@[simp] theorem goto_rspValid (line : Nat) (s : State) : (goto line s).rspValid = s.rspValid := rfl
@[simp] theorem goto_cmd (line : Nat) (s : State) : (goto line s).cmd = s.cmd := rfl
@[simp] theorem goto_res (line : Nat) (s : State) : (goto line s).res = s.res := rfl
@[simp] theorem goto_dat (line : Nat) (s : State) : (goto line s).dat = s.dat := rfl
@[simp] theorem goto_cmdIn (line : Nat) (s : State) : (goto line s).cmdIn = s.cmdIn := rfl
@[simp] theorem goto_rstIn (line : Nat) (s : State) : (goto line s).rstIn = s.rstIn := rfl
@[simp] theorem goto_peerScl (line : Nat) (s : State) : (goto line s).peerScl = s.peerScl := rfl
@[simp] theorem goto_peerSda (line : Nat) (s : State) : (goto line s).peerSda = s.peerSda := rfl
@[simp] theorem goto_peerScript (line : Nat) (s : State) : (goto line s).peerScript = s.peerScript := rfl
@[simp] theorem goto_peerTime (line : Nat) (s : State) : (goto line s).peerTime = s.peerTime := rfl
@[simp] theorem goto_restTime (line : Nat) (s : State) : (goto line s).restTime = s.restTime := rfl
@[simp] theorem goto_bus (line : Nat) (s : State) : (goto line s).bus = s.bus := rfl
@[simp] theorem goto_buf (line : Nat) (s : State) : (goto line s).buf = s.buf := rfl
@[simp] theorem goto_trace (line : Nat) (s : State) : (goto line s).trace = s.trace := rfl

@[simp] theorem goto_seq_cons (line : Nat) (s : State) (f : Frame) (rest : List Frame) (h : s.seq = f :: rest) :
    (goto line s).seq = ⟨f.callee, line, 0⟩ :: rest := by
  rw [goto_eq, setPos_seq_cons line 0 s f rest h]

/-! ### `latchCommand` -/

@[simp] theorem latchCommand_valid (c : CmdWord) (s : State) : (latchCommand c s).valid = s.valid := rfl
@[simp] theorem latchCommand_halcap (c : CmdWord) (s : State) : (latchCommand c s).halcap = s.halcap := rfl
@[simp] theorem latchCommand_freq (c : CmdWord) (s : State) : (latchCommand c s).freq = s.freq := rfl
@[simp] theorem latchCommand_half (c : CmdWord) (s : State) : (latchCommand c s).half = s.half := rfl
@[simp] theorem latchCommand_started (c : CmdWord) (s : State) : (latchCommand c s).started = s.started := rfl
@[simp] theorem latchCommand_sclO (c : CmdWord) (s : State) : (latchCommand c s).sclO = s.sclO := rfl
@[simp] theorem latchCommand_sdaO (c : CmdWord) (s : State) : (latchCommand c s).sdaO = s.sdaO := rfl
@[simp] theorem latchCommand_busy (c : CmdWord) (s : State) : (latchCommand c s).busy = true := rfl
@[simp] theorem latchCommand_ackl (c : CmdWord) (s : State) : (latchCommand c s).ackl = false := rfl
@[simp] theorem latchCommand_flt (c : CmdWord) (s : State) : (latchCommand c s).flt = s.flt := rfl
@[simp] theorem latchCommand_fault (c : CmdWord) (s : State) : (latchCommand c s).fault = false := rfl
@[simp] theorem latchCommand_opc (c : CmdWord) (s : State) : (latchCommand c s).opc = fieldOpc c := rfl
@[simp] theorem latchCommand_addr (c : CmdWord) (s : State) : (latchCommand c s).addr = fieldAddr c := rfl
@[simp] theorem latchCommand_w (c : CmdWord) (s : State) : (latchCommand c s).w = fieldW c := rfl
@[simp] theorem latchCommand_reg (c : CmdWord) (s : State) : (latchCommand c s).reg = fieldReg c := rfl
@[simp] theorem latchCommand_len (c : CmdWord) (s : State) : (latchCommand c s).len = fieldLen c := rfl
@[simp] theorem latchCommand_idx (c : CmdWord) (s : State) : (latchCommand c s).idx = s.idx := rfl
@[simp] theorem latchCommand_cnt (c : CmdWord) (s : State) : (latchCommand c s).cnt = s.cnt := rfl
@[simp] theorem latchCommand_shreg (c : CmdWord) (s : State) : (latchCommand c s).shreg = s.shreg := rfl
@[simp] theorem latchCommand_bitk (c : CmdWord) (s : State) : (latchCommand c s).bitk = s.bitk := rfl
@[simp] theorem latchCommand_seq (c : CmdWord) (s : State) : (latchCommand c s).seq = [⟨none, 0, 0⟩] := rfl
@[simp] theorem latchCommand_rsp (c : CmdWord) (s : State) : (latchCommand c s).rsp = s.rsp := rfl
@[simp] theorem latchCommand_rspValid (c : CmdWord) (s : State) : (latchCommand c s).rspValid = false := rfl
@[simp] theorem latchCommand_cmd (c : CmdWord) (s : State) : (latchCommand c s).cmd = c := rfl
@[simp] theorem latchCommand_res (c : CmdWord) (s : State) : (latchCommand c s).res = s.res := rfl
@[simp] theorem latchCommand_dat (c : CmdWord) (s : State) : (latchCommand c s).dat = s.dat := rfl
@[simp] theorem latchCommand_cmdIn (c : CmdWord) (s : State) : (latchCommand c s).cmdIn = s.cmdIn := rfl
@[simp] theorem latchCommand_rstIn (c : CmdWord) (s : State) : (latchCommand c s).rstIn = s.rstIn := rfl
@[simp] theorem latchCommand_peerScl (c : CmdWord) (s : State) : (latchCommand c s).peerScl = s.peerScl := rfl
@[simp] theorem latchCommand_peerSda (c : CmdWord) (s : State) : (latchCommand c s).peerSda = s.peerSda := rfl
@[simp] theorem latchCommand_peerScript (c : CmdWord) (s : State) : (latchCommand c s).peerScript = s.peerScript := rfl
@[simp] theorem latchCommand_peerTime (c : CmdWord) (s : State) : (latchCommand c s).peerTime = s.peerTime := rfl
@[simp] theorem latchCommand_restTime (c : CmdWord) (s : State) : (latchCommand c s).restTime = s.restTime := rfl
@[simp] theorem latchCommand_bus (c : CmdWord) (s : State) : (latchCommand c s).bus = s.bus := rfl
@[simp] theorem latchCommand_buf (c : CmdWord) (s : State) : (latchCommand c s).buf = s.buf := rfl
@[simp] theorem latchCommand_trace (c : CmdWord) (s : State) : (latchCommand c s).trace = s.trace := rfl

/-! ### `accept` -/

@[simp] theorem accept_valid (c : CmdWord) (s : State) : (accept c s).valid = s.valid := rfl
@[simp] theorem accept_halcap (c : CmdWord) (s : State) : (accept c s).halcap = s.halcap := rfl
@[simp] theorem accept_freq (c : CmdWord) (s : State) : (accept c s).freq = s.freq := rfl
@[simp] theorem accept_half (c : CmdWord) (s : State) : (accept c s).half = s.half := rfl
@[simp] theorem accept_started (c : CmdWord) (s : State) : (accept c s).started = s.started := rfl
@[simp] theorem accept_sclO (c : CmdWord) (s : State) : (accept c s).sclO = s.sclO := rfl
@[simp] theorem accept_sdaO (c : CmdWord) (s : State) : (accept c s).sdaO = s.sdaO := rfl
@[simp] theorem accept_busy (c : CmdWord) (s : State) : (accept c s).busy = true := rfl
@[simp] theorem accept_ackl (c : CmdWord) (s : State) : (accept c s).ackl = false := rfl
@[simp] theorem accept_flt (c : CmdWord) (s : State) : (accept c s).flt = s.flt := rfl
@[simp] theorem accept_fault (c : CmdWord) (s : State) : (accept c s).fault = false := rfl
@[simp] theorem accept_opc (c : CmdWord) (s : State) : (accept c s).opc = fieldOpc c := rfl
@[simp] theorem accept_addr (c : CmdWord) (s : State) : (accept c s).addr = fieldAddr c := rfl
@[simp] theorem accept_w (c : CmdWord) (s : State) : (accept c s).w = fieldW c := rfl
@[simp] theorem accept_reg (c : CmdWord) (s : State) : (accept c s).reg = fieldReg c := rfl
@[simp] theorem accept_len (c : CmdWord) (s : State) : (accept c s).len = fieldLen c := rfl
@[simp] theorem accept_idx (c : CmdWord) (s : State) : (accept c s).idx = s.idx := rfl
@[simp] theorem accept_cnt (c : CmdWord) (s : State) : (accept c s).cnt = s.cnt := rfl
@[simp] theorem accept_shreg (c : CmdWord) (s : State) : (accept c s).shreg = s.shreg := rfl
@[simp] theorem accept_bitk (c : CmdWord) (s : State) : (accept c s).bitk = s.bitk := rfl
@[simp] theorem accept_seq (c : CmdWord) (s : State) : (accept c s).seq = [⟨none, 0, 0⟩] := rfl
@[simp] theorem accept_rsp (c : CmdWord) (s : State) : (accept c s).rsp = s.rsp := rfl
@[simp] theorem accept_rspValid (c : CmdWord) (s : State) : (accept c s).rspValid = false := rfl
@[simp] theorem accept_cmd (c : CmdWord) (s : State) : (accept c s).cmd = c := rfl
@[simp] theorem accept_res (c : CmdWord) (s : State) : (accept c s).res = s.res := rfl
@[simp] theorem accept_dat (c : CmdWord) (s : State) : (accept c s).dat = s.dat := rfl
@[simp] theorem accept_cmdIn (c : CmdWord) (s : State) : (accept c s).cmdIn = none := rfl
@[simp] theorem accept_rstIn (c : CmdWord) (s : State) : (accept c s).rstIn = s.rstIn := rfl
@[simp] theorem accept_peerScl (c : CmdWord) (s : State) : (accept c s).peerScl = (restDrive s).1 := rfl
@[simp] theorem accept_peerSda (c : CmdWord) (s : State) : (accept c s).peerSda = (restDrive s).2 := rfl
@[simp] theorem accept_peerScript (c : CmdWord) (s : State) : (accept c s).peerScript = s.peerScript := rfl
@[simp] theorem accept_peerTime (c : CmdWord) (s : State) : (accept c s).peerTime = s.peerTime := rfl
@[simp] theorem accept_restTime (c : CmdWord) (s : State) : (accept c s).restTime = s.restTime + 1 := rfl
@[simp] theorem accept_bus (c : CmdWord) (s : State) : (accept c s).bus = s.bus := rfl
@[simp] theorem accept_buf (c : CmdWord) (s : State) : (accept c s).buf = s.buf := rfl
@[simp] theorem accept_trace (c : CmdWord) (s : State) : (accept c s).trace = s.trace := rfl

/-! ### `respond` -/

@[simp] theorem respond_valid (c : Code) (s : State) : (respond c s).valid = s.valid := rfl
@[simp] theorem respond_halcap (c : Code) (s : State) : (respond c s).halcap = s.halcap := rfl
@[simp] theorem respond_freq (c : Code) (s : State) : (respond c s).freq = s.freq := rfl
@[simp] theorem respond_half (c : Code) (s : State) : (respond c s).half = s.half := rfl
@[simp] theorem respond_started (c : Code) (s : State) : (respond c s).started = s.started := rfl
@[simp] theorem respond_sclO (c : Code) (s : State) : (respond c s).sclO = s.sclO := rfl
@[simp] theorem respond_sdaO (c : Code) (s : State) : (respond c s).sdaO = s.sdaO := rfl
@[simp] theorem respond_busy (c : Code) (s : State) : (respond c s).busy = false := rfl
@[simp] theorem respond_ackl (c : Code) (s : State) : (respond c s).ackl = s.ackl := rfl
@[simp] theorem respond_flt (c : Code) (s : State) : (respond c s).flt = s.flt := rfl
@[simp] theorem respond_fault (c : Code) (s : State) : (respond c s).fault = s.fault := rfl
@[simp] theorem respond_opc (c : Code) (s : State) : (respond c s).opc = s.opc := rfl
@[simp] theorem respond_addr (c : Code) (s : State) : (respond c s).addr = s.addr := rfl
@[simp] theorem respond_w (c : Code) (s : State) : (respond c s).w = s.w := rfl
@[simp] theorem respond_reg (c : Code) (s : State) : (respond c s).reg = s.reg := rfl
@[simp] theorem respond_len (c : Code) (s : State) : (respond c s).len = s.len := rfl
@[simp] theorem respond_idx (c : Code) (s : State) : (respond c s).idx = s.idx := rfl
@[simp] theorem respond_cnt (c : Code) (s : State) : (respond c s).cnt = s.cnt := rfl
@[simp] theorem respond_shreg (c : Code) (s : State) : (respond c s).shreg = s.shreg := rfl
@[simp] theorem respond_bitk (c : Code) (s : State) : (respond c s).bitk = s.bitk := rfl
@[simp] theorem respond_seq (c : Code) (s : State) : (respond c s).seq = [] := rfl
@[simp] theorem respond_rsp (c : Code) (s : State) : (respond c s).rsp = packRsp (countOf c s) s.ackl s.fault c := rfl
@[simp] theorem respond_rspValid (c : Code) (s : State) : (respond c s).rspValid = true := rfl
@[simp] theorem respond_cmd (c : Code) (s : State) : (respond c s).cmd = s.cmd := rfl
@[simp] theorem respond_res (c : Code) (s : State) : (respond c s).res = s.res := rfl
@[simp] theorem respond_dat (c : Code) (s : State) : (respond c s).dat = s.dat := rfl
@[simp] theorem respond_cmdIn (c : Code) (s : State) : (respond c s).cmdIn = s.cmdIn := rfl
@[simp] theorem respond_rstIn (c : Code) (s : State) : (respond c s).rstIn = s.rstIn := rfl
@[simp] theorem respond_peerScl (c : Code) (s : State) : (respond c s).peerScl = (restDrive s).1 := rfl
@[simp] theorem respond_peerSda (c : Code) (s : State) : (respond c s).peerSda = (restDrive s).2 := rfl
@[simp] theorem respond_peerScript (c : Code) (s : State) : (respond c s).peerScript = s.peerScript := rfl
@[simp] theorem respond_peerTime (c : Code) (s : State) : (respond c s).peerTime = s.peerTime := rfl
@[simp] theorem respond_restTime (c : Code) (s : State) : (respond c s).restTime = s.restTime + 1 := rfl
@[simp] theorem respond_bus (c : Code) (s : State) : (respond c s).bus = s.bus := rfl
@[simp] theorem respond_buf (c : Code) (s : State) : (respond c s).buf = s.buf := rfl
@[simp] theorem respond_trace (c : Code) (s : State) : (respond c s).trace = s.trace := rfl

/-! ### `doReset` -/

@[simp] theorem doReset_valid (s : State) : (doReset s).valid = false := rfl
@[simp] theorem doReset_halcap (s : State) : (doReset s).halcap = 0 := rfl
@[simp] theorem doReset_freq (s : State) : (doReset s).freq = 0 := rfl
@[simp] theorem doReset_half (s : State) : (doReset s).half = 0 := rfl
@[simp] theorem doReset_started (s : State) : (doReset s).started = false := rfl
@[simp] theorem doReset_sclO (s : State) : (doReset s).sclO = true := rfl
@[simp] theorem doReset_sdaO (s : State) : (doReset s).sdaO = true := rfl
@[simp] theorem doReset_busy (s : State) : (doReset s).busy = false := rfl
@[simp] theorem doReset_ackl (s : State) : (doReset s).ackl = false := rfl
@[simp] theorem doReset_flt (s : State) : (doReset s).flt = false := rfl
@[simp] theorem doReset_fault (s : State) : (doReset s).fault = false := rfl
@[simp] theorem doReset_opc (s : State) : (doReset s).opc = 0 := rfl
@[simp] theorem doReset_addr (s : State) : (doReset s).addr = 0 := rfl
@[simp] theorem doReset_w (s : State) : (doReset s).w = false := rfl
@[simp] theorem doReset_reg (s : State) : (doReset s).reg = 0 := rfl
@[simp] theorem doReset_len (s : State) : (doReset s).len = 0 := rfl
@[simp] theorem doReset_idx (s : State) : (doReset s).idx = 0 := rfl
@[simp] theorem doReset_cnt (s : State) : (doReset s).cnt = 0 := rfl
@[simp] theorem doReset_shreg (s : State) : (doReset s).shreg = 0 := rfl
@[simp] theorem doReset_bitk (s : State) : (doReset s).bitk = 0 := rfl
@[simp] theorem doReset_seq (s : State) : (doReset s).seq = [] := rfl
@[simp] theorem doReset_rsp (s : State) : (doReset s).rsp = 0 := rfl
@[simp] theorem doReset_rspValid (s : State) : (doReset s).rspValid = false := rfl
@[simp] theorem doReset_cmd (s : State) : (doReset s).cmd = 0 := rfl
@[simp] theorem doReset_res (s : State) : (doReset s).res = false := rfl
@[simp] theorem doReset_dat (s : State) : (doReset s).dat = 0 := rfl
@[simp] theorem doReset_cmdIn (s : State) : (doReset s).cmdIn = s.cmdIn := rfl
@[simp] theorem doReset_rstIn (s : State) : (doReset s).rstIn = s.rstIn := rfl
@[simp] theorem doReset_peerScl (s : State) : (doReset s).peerScl = (restDrive s).1 := rfl
@[simp] theorem doReset_peerSda (s : State) : (doReset s).peerSda = (restDrive s).2 := rfl
@[simp] theorem doReset_peerScript (s : State) : (doReset s).peerScript = s.peerScript := rfl
@[simp] theorem doReset_peerTime (s : State) : (doReset s).peerTime = s.peerTime := rfl
@[simp] theorem doReset_restTime (s : State) : (doReset s).restTime = s.restTime + 1 := rfl
@[simp] theorem doReset_bus (s : State) : (doReset s).bus = s.bus := rfl
@[simp] theorem doReset_buf (s : State) : (doReset s).buf = s.buf := rfl
@[simp] theorem doReset_trace (s : State) : (doReset s).trace = s.trace := rfl

/-! ### `storeBit` -/

@[simp] theorem storeBit_valid (s : State) : (storeBit s).valid = s.valid := rfl
@[simp] theorem storeBit_halcap (s : State) : (storeBit s).halcap = s.halcap := rfl
@[simp] theorem storeBit_freq (s : State) : (storeBit s).freq = s.freq := rfl
@[simp] theorem storeBit_half (s : State) : (storeBit s).half = s.half := rfl
@[simp] theorem storeBit_started (s : State) : (storeBit s).started = s.started := rfl
@[simp] theorem storeBit_sclO (s : State) : (storeBit s).sclO = s.sclO := rfl
@[simp] theorem storeBit_sdaO (s : State) : (storeBit s).sdaO = s.sdaO := rfl
@[simp] theorem storeBit_busy (s : State) : (storeBit s).busy = s.busy := rfl
@[simp] theorem storeBit_ackl (s : State) : (storeBit s).ackl = s.ackl := rfl
@[simp] theorem storeBit_flt (s : State) : (storeBit s).flt = s.flt := rfl
@[simp] theorem storeBit_fault (s : State) : (storeBit s).fault = s.fault := rfl
@[simp] theorem storeBit_opc (s : State) : (storeBit s).opc = s.opc := rfl
@[simp] theorem storeBit_addr (s : State) : (storeBit s).addr = s.addr := rfl
@[simp] theorem storeBit_w (s : State) : (storeBit s).w = s.w := rfl
@[simp] theorem storeBit_reg (s : State) : (storeBit s).reg = s.reg := rfl
@[simp] theorem storeBit_len (s : State) : (storeBit s).len = s.len := rfl
@[simp] theorem storeBit_idx (s : State) : (storeBit s).idx = s.idx := rfl
@[simp] theorem storeBit_cnt (s : State) : (storeBit s).cnt = s.cnt := rfl
@[simp] theorem storeBit_shreg (s : State) : (storeBit s).shreg = setByteBit s.shreg s.bitk s.res := rfl
@[simp] theorem storeBit_bitk (s : State) : (storeBit s).bitk = s.bitk := rfl
@[simp] theorem storeBit_seq (s : State) : (storeBit s).seq = s.seq := rfl
@[simp] theorem storeBit_rsp (s : State) : (storeBit s).rsp = s.rsp := rfl
@[simp] theorem storeBit_rspValid (s : State) : (storeBit s).rspValid = s.rspValid := rfl
@[simp] theorem storeBit_cmd (s : State) : (storeBit s).cmd = s.cmd := rfl
@[simp] theorem storeBit_res (s : State) : (storeBit s).res = s.res := rfl
@[simp] theorem storeBit_dat (s : State) : (storeBit s).dat = s.dat := rfl
@[simp] theorem storeBit_cmdIn (s : State) : (storeBit s).cmdIn = s.cmdIn := rfl
@[simp] theorem storeBit_rstIn (s : State) : (storeBit s).rstIn = s.rstIn := rfl
@[simp] theorem storeBit_peerScl (s : State) : (storeBit s).peerScl = s.peerScl := rfl
@[simp] theorem storeBit_peerSda (s : State) : (storeBit s).peerSda = s.peerSda := rfl
@[simp] theorem storeBit_peerScript (s : State) : (storeBit s).peerScript = s.peerScript := rfl
@[simp] theorem storeBit_peerTime (s : State) : (storeBit s).peerTime = s.peerTime := rfl
@[simp] theorem storeBit_restTime (s : State) : (storeBit s).restTime = s.restTime := rfl
@[simp] theorem storeBit_bus (s : State) : (storeBit s).bus = s.bus := rfl
@[simp] theorem storeBit_buf (s : State) : (storeBit s).buf = s.buf := rfl
@[simp] theorem storeBit_trace (s : State) : (storeBit s).trace = s.trace := rfl

/-! ### `countByte` -/

@[simp] theorem countByte_valid (s : State) : (countByte s).valid = s.valid := rfl
@[simp] theorem countByte_halcap (s : State) : (countByte s).halcap = s.halcap := rfl
@[simp] theorem countByte_freq (s : State) : (countByte s).freq = s.freq := rfl
@[simp] theorem countByte_half (s : State) : (countByte s).half = s.half := rfl
@[simp] theorem countByte_started (s : State) : (countByte s).started = s.started := rfl
@[simp] theorem countByte_sclO (s : State) : (countByte s).sclO = s.sclO := rfl
@[simp] theorem countByte_sdaO (s : State) : (countByte s).sdaO = s.sdaO := rfl
@[simp] theorem countByte_busy (s : State) : (countByte s).busy = s.busy := rfl
@[simp] theorem countByte_ackl (s : State) : (countByte s).ackl = s.ackl := rfl
@[simp] theorem countByte_flt (s : State) : (countByte s).flt = s.flt := rfl
@[simp] theorem countByte_fault (s : State) : (countByte s).fault = s.fault := rfl
@[simp] theorem countByte_opc (s : State) : (countByte s).opc = s.opc := rfl
@[simp] theorem countByte_addr (s : State) : (countByte s).addr = s.addr := rfl
@[simp] theorem countByte_w (s : State) : (countByte s).w = s.w := rfl
@[simp] theorem countByte_reg (s : State) : (countByte s).reg = s.reg := rfl
@[simp] theorem countByte_len (s : State) : (countByte s).len = s.len := rfl
@[simp] theorem countByte_idx (s : State) : (countByte s).idx = s.idx + 1 := rfl
@[simp] theorem countByte_cnt (s : State) : (countByte s).cnt = s.cnt + 1 := rfl
@[simp] theorem countByte_shreg (s : State) : (countByte s).shreg = s.shreg := rfl
@[simp] theorem countByte_bitk (s : State) : (countByte s).bitk = s.bitk := rfl
@[simp] theorem countByte_seq (s : State) : (countByte s).seq = s.seq := rfl
@[simp] theorem countByte_rsp (s : State) : (countByte s).rsp = s.rsp := rfl
@[simp] theorem countByte_rspValid (s : State) : (countByte s).rspValid = s.rspValid := rfl
@[simp] theorem countByte_cmd (s : State) : (countByte s).cmd = s.cmd := rfl
@[simp] theorem countByte_res (s : State) : (countByte s).res = s.res := rfl
@[simp] theorem countByte_dat (s : State) : (countByte s).dat = s.dat := rfl
@[simp] theorem countByte_cmdIn (s : State) : (countByte s).cmdIn = s.cmdIn := rfl
@[simp] theorem countByte_rstIn (s : State) : (countByte s).rstIn = s.rstIn := rfl
@[simp] theorem countByte_peerScl (s : State) : (countByte s).peerScl = s.peerScl := rfl
@[simp] theorem countByte_peerSda (s : State) : (countByte s).peerSda = s.peerSda := rfl
@[simp] theorem countByte_peerScript (s : State) : (countByte s).peerScript = s.peerScript := rfl
@[simp] theorem countByte_peerTime (s : State) : (countByte s).peerTime = s.peerTime := rfl
@[simp] theorem countByte_restTime (s : State) : (countByte s).restTime = s.restTime := rfl
@[simp] theorem countByte_bus (s : State) : (countByte s).bus = s.bus := rfl
@[simp] theorem countByte_buf (s : State) : (countByte s).buf = s.buf := rfl
@[simp] theorem countByte_trace (s : State) : (countByte s).trace = s.trace := rfl

/-! ### `beginRoutine` -/

@[simp] theorem beginRoutine_valid (r : Instr) (s : State) : (beginRoutine r s).valid = s.valid := rfl
@[simp] theorem beginRoutine_halcap (r : Instr) (s : State) : (beginRoutine r s).halcap = s.halcap := rfl
@[simp] theorem beginRoutine_freq (r : Instr) (s : State) : (beginRoutine r s).freq = s.freq := rfl
@[simp] theorem beginRoutine_half (r : Instr) (s : State) : (beginRoutine r s).half = s.half := rfl
@[simp] theorem beginRoutine_started (r : Instr) (s : State) : (beginRoutine r s).started = s.started := rfl
@[simp] theorem beginRoutine_sclO (r : Instr) (s : State) : (beginRoutine r s).sclO = s.sclO := rfl
@[simp] theorem beginRoutine_sdaO (r : Instr) (s : State) : (beginRoutine r s).sdaO = s.sdaO := rfl
@[simp] theorem beginRoutine_busy (r : Instr) (s : State) : (beginRoutine r s).busy = true := rfl
@[simp] theorem beginRoutine_ackl (r : Instr) (s : State) : (beginRoutine r s).ackl = s.ackl := rfl
@[simp] theorem beginRoutine_flt (r : Instr) (s : State) : (beginRoutine r s).flt = s.flt := rfl
@[simp] theorem beginRoutine_fault (r : Instr) (s : State) : (beginRoutine r s).fault = s.fault := rfl
@[simp] theorem beginRoutine_opc (r : Instr) (s : State) : (beginRoutine r s).opc = s.opc := rfl
@[simp] theorem beginRoutine_addr (r : Instr) (s : State) : (beginRoutine r s).addr = s.addr := rfl
@[simp] theorem beginRoutine_w (r : Instr) (s : State) : (beginRoutine r s).w = s.w := rfl
@[simp] theorem beginRoutine_reg (r : Instr) (s : State) : (beginRoutine r s).reg = s.reg := rfl
@[simp] theorem beginRoutine_len (r : Instr) (s : State) : (beginRoutine r s).len = s.len := rfl
@[simp] theorem beginRoutine_idx (r : Instr) (s : State) : (beginRoutine r s).idx = s.idx := rfl
@[simp] theorem beginRoutine_cnt (r : Instr) (s : State) : (beginRoutine r s).cnt = s.cnt := rfl
@[simp] theorem beginRoutine_shreg (r : Instr) (s : State) : (beginRoutine r s).shreg = s.shreg := rfl
@[simp] theorem beginRoutine_bitk (r : Instr) (s : State) : (beginRoutine r s).bitk = s.bitk := rfl
@[simp] theorem beginRoutine_seq (r : Instr) (s : State) : (beginRoutine r s).seq = [⟨some r, 1, 0⟩] := rfl
@[simp] theorem beginRoutine_rsp (r : Instr) (s : State) : (beginRoutine r s).rsp = s.rsp := rfl
@[simp] theorem beginRoutine_rspValid (r : Instr) (s : State) : (beginRoutine r s).rspValid = s.rspValid := rfl
@[simp] theorem beginRoutine_cmd (r : Instr) (s : State) : (beginRoutine r s).cmd = s.cmd := rfl
@[simp] theorem beginRoutine_res (r : Instr) (s : State) : (beginRoutine r s).res = s.res := rfl
@[simp] theorem beginRoutine_dat (r : Instr) (s : State) : (beginRoutine r s).dat = s.dat := rfl
@[simp] theorem beginRoutine_cmdIn (r : Instr) (s : State) : (beginRoutine r s).cmdIn = s.cmdIn := rfl
@[simp] theorem beginRoutine_rstIn (r : Instr) (s : State) : (beginRoutine r s).rstIn = false := rfl
@[simp] theorem beginRoutine_peerScl (r : Instr) (s : State) : (beginRoutine r s).peerScl = s.peerScl := rfl
@[simp] theorem beginRoutine_peerSda (r : Instr) (s : State) : (beginRoutine r s).peerSda = s.peerSda := rfl
@[simp] theorem beginRoutine_peerScript (r : Instr) (s : State) : (beginRoutine r s).peerScript = s.peerScript := rfl
@[simp] theorem beginRoutine_peerTime (r : Instr) (s : State) : (beginRoutine r s).peerTime = s.peerTime := rfl
@[simp] theorem beginRoutine_restTime (r : Instr) (s : State) : (beginRoutine r s).restTime = s.restTime := rfl
@[simp] theorem beginRoutine_bus (r : Instr) (s : State) : (beginRoutine r s).bus = s.bus := rfl
@[simp] theorem beginRoutine_buf (r : Instr) (s : State) : (beginRoutine r s).buf = s.buf := rfl
@[simp] theorem beginRoutine_trace (r : Instr) (s : State) : (beginRoutine r s).trace = s.trace := rfl

/-! ### `beginCommand` -/

@[simp] theorem beginCommand_valid (c : CmdWord) (s : State) : (beginCommand c s).valid = s.valid := rfl
@[simp] theorem beginCommand_halcap (c : CmdWord) (s : State) : (beginCommand c s).halcap = s.halcap := rfl
@[simp] theorem beginCommand_freq (c : CmdWord) (s : State) : (beginCommand c s).freq = s.freq := rfl
@[simp] theorem beginCommand_half (c : CmdWord) (s : State) : (beginCommand c s).half = s.half := rfl
@[simp] theorem beginCommand_started (c : CmdWord) (s : State) : (beginCommand c s).started = s.started := rfl
@[simp] theorem beginCommand_sclO (c : CmdWord) (s : State) : (beginCommand c s).sclO = s.sclO := rfl
@[simp] theorem beginCommand_sdaO (c : CmdWord) (s : State) : (beginCommand c s).sdaO = s.sdaO := rfl
@[simp] theorem beginCommand_busy (c : CmdWord) (s : State) : (beginCommand c s).busy = true := rfl
@[simp] theorem beginCommand_ackl (c : CmdWord) (s : State) : (beginCommand c s).ackl = false := rfl
@[simp] theorem beginCommand_flt (c : CmdWord) (s : State) : (beginCommand c s).flt = s.flt := rfl
@[simp] theorem beginCommand_fault (c : CmdWord) (s : State) : (beginCommand c s).fault = false := rfl
@[simp] theorem beginCommand_opc (c : CmdWord) (s : State) : (beginCommand c s).opc = fieldOpc c := rfl
@[simp] theorem beginCommand_addr (c : CmdWord) (s : State) : (beginCommand c s).addr = fieldAddr c := rfl
@[simp] theorem beginCommand_w (c : CmdWord) (s : State) : (beginCommand c s).w = fieldW c := rfl
@[simp] theorem beginCommand_reg (c : CmdWord) (s : State) : (beginCommand c s).reg = fieldReg c := rfl
@[simp] theorem beginCommand_len (c : CmdWord) (s : State) : (beginCommand c s).len = fieldLen c := rfl
@[simp] theorem beginCommand_idx (c : CmdWord) (s : State) : (beginCommand c s).idx = s.idx := rfl
@[simp] theorem beginCommand_cnt (c : CmdWord) (s : State) : (beginCommand c s).cnt = s.cnt := rfl
@[simp] theorem beginCommand_shreg (c : CmdWord) (s : State) : (beginCommand c s).shreg = s.shreg := rfl
@[simp] theorem beginCommand_bitk (c : CmdWord) (s : State) : (beginCommand c s).bitk = s.bitk := rfl
@[simp] theorem beginCommand_seq (c : CmdWord) (s : State) : (beginCommand c s).seq = [⟨none, 0, 0⟩] := rfl
@[simp] theorem beginCommand_rsp (c : CmdWord) (s : State) : (beginCommand c s).rsp = s.rsp := rfl
@[simp] theorem beginCommand_rspValid (c : CmdWord) (s : State) : (beginCommand c s).rspValid = false := rfl
@[simp] theorem beginCommand_cmd (c : CmdWord) (s : State) : (beginCommand c s).cmd = c := rfl
@[simp] theorem beginCommand_res (c : CmdWord) (s : State) : (beginCommand c s).res = s.res := rfl
@[simp] theorem beginCommand_dat (c : CmdWord) (s : State) : (beginCommand c s).dat = s.dat := rfl
@[simp] theorem beginCommand_cmdIn (c : CmdWord) (s : State) : (beginCommand c s).cmdIn = s.cmdIn := rfl
@[simp] theorem beginCommand_rstIn (c : CmdWord) (s : State) : (beginCommand c s).rstIn = false := rfl
@[simp] theorem beginCommand_peerScl (c : CmdWord) (s : State) : (beginCommand c s).peerScl = s.peerScl := rfl
@[simp] theorem beginCommand_peerSda (c : CmdWord) (s : State) : (beginCommand c s).peerSda = s.peerSda := rfl
@[simp] theorem beginCommand_peerScript (c : CmdWord) (s : State) : (beginCommand c s).peerScript = s.peerScript := rfl
@[simp] theorem beginCommand_peerTime (c : CmdWord) (s : State) : (beginCommand c s).peerTime = s.peerTime := rfl
@[simp] theorem beginCommand_restTime (c : CmdWord) (s : State) : (beginCommand c s).restTime = s.restTime := rfl
@[simp] theorem beginCommand_bus (c : CmdWord) (s : State) : (beginCommand c s).bus = s.bus := rfl
@[simp] theorem beginCommand_buf (c : CmdWord) (s : State) : (beginCommand c s).buf = s.buf := rfl
@[simp] theorem beginCommand_trace (c : CmdWord) (s : State) : (beginCommand c s).trace = s.trace := rfl

/-! ### `peerAct` -/

@[simp] theorem peerAct_valid (a : PeerAct) (s : State) : (peerAct a s).valid = s.valid := by cases a <;> rfl
@[simp] theorem peerAct_halcap (a : PeerAct) (s : State) : (peerAct a s).halcap = s.halcap := by cases a <;> rfl
@[simp] theorem peerAct_freq (a : PeerAct) (s : State) : (peerAct a s).freq = s.freq := by cases a <;> rfl
@[simp] theorem peerAct_half (a : PeerAct) (s : State) : (peerAct a s).half = s.half := by cases a <;> rfl
@[simp] theorem peerAct_started (a : PeerAct) (s : State) : (peerAct a s).started = s.started := by cases a <;> rfl
@[simp] theorem peerAct_sclO (a : PeerAct) (s : State) : (peerAct a s).sclO = s.sclO := by cases a <;> rfl
@[simp] theorem peerAct_sdaO (a : PeerAct) (s : State) : (peerAct a s).sdaO = s.sdaO := by cases a <;> rfl
@[simp] theorem peerAct_busy (a : PeerAct) (s : State) : (peerAct a s).busy = s.busy := by cases a <;> rfl
@[simp] theorem peerAct_ackl (a : PeerAct) (s : State) : (peerAct a s).ackl = s.ackl := by cases a <;> rfl
@[simp] theorem peerAct_flt (a : PeerAct) (s : State) : (peerAct a s).flt = s.flt := by cases a <;> rfl
@[simp] theorem peerAct_fault (a : PeerAct) (s : State) : (peerAct a s).fault = s.fault := by cases a <;> rfl
@[simp] theorem peerAct_opc (a : PeerAct) (s : State) : (peerAct a s).opc = s.opc := by cases a <;> rfl
@[simp] theorem peerAct_addr (a : PeerAct) (s : State) : (peerAct a s).addr = s.addr := by cases a <;> rfl
@[simp] theorem peerAct_w (a : PeerAct) (s : State) : (peerAct a s).w = s.w := by cases a <;> rfl
@[simp] theorem peerAct_reg (a : PeerAct) (s : State) : (peerAct a s).reg = s.reg := by cases a <;> rfl
@[simp] theorem peerAct_len (a : PeerAct) (s : State) : (peerAct a s).len = s.len := by cases a <;> rfl
@[simp] theorem peerAct_idx (a : PeerAct) (s : State) : (peerAct a s).idx = s.idx := by cases a <;> rfl
@[simp] theorem peerAct_cnt (a : PeerAct) (s : State) : (peerAct a s).cnt = s.cnt := by cases a <;> rfl
@[simp] theorem peerAct_shreg (a : PeerAct) (s : State) : (peerAct a s).shreg = s.shreg := by cases a <;> rfl
@[simp] theorem peerAct_bitk (a : PeerAct) (s : State) : (peerAct a s).bitk = s.bitk := by cases a <;> rfl
@[simp] theorem peerAct_seq (a : PeerAct) (s : State) : (peerAct a s).seq = s.seq := by cases a <;> rfl
@[simp] theorem peerAct_rsp (a : PeerAct) (s : State) : (peerAct a s).rsp = s.rsp := by cases a <;> rfl
@[simp] theorem peerAct_rspValid (a : PeerAct) (s : State) : (peerAct a s).rspValid = s.rspValid := by cases a <;> rfl
@[simp] theorem peerAct_cmd (a : PeerAct) (s : State) : (peerAct a s).cmd = s.cmd := by cases a <;> rfl
@[simp] theorem peerAct_res (a : PeerAct) (s : State) : (peerAct a s).res = s.res := by cases a <;> rfl
@[simp] theorem peerAct_dat (a : PeerAct) (s : State) : (peerAct a s).dat = s.dat := by cases a <;> rfl
@[simp] theorem peerAct_cmdIn (a : PeerAct) (s : State) : (peerAct a s).cmdIn = s.cmdIn := by cases a <;> rfl
@[simp] theorem peerAct_rstIn (a : PeerAct) (s : State) : (peerAct a s).rstIn = s.rstIn := by cases a <;> rfl
@[simp] theorem peerAct_peerTime (a : PeerAct) (s : State) : (peerAct a s).peerTime = s.peerTime := by cases a <;> rfl
@[simp] theorem peerAct_restTime (a : PeerAct) (s : State) : (peerAct a s).restTime = s.restTime := by cases a <;> rfl
@[simp] theorem peerAct_bus (a : PeerAct) (s : State) : (peerAct a s).bus = s.bus := by cases a <;> rfl
@[simp] theorem peerAct_buf (a : PeerAct) (s : State) : (peerAct a s).buf = s.buf := by cases a <;> rfl
@[simp] theorem peerAct_trace (a : PeerAct) (s : State) : (peerAct a s).trace = s.trace := by cases a <;> rfl

end Sys2Proof.Machine
end

