-- ==== Sys2Proof/Laws/Ops.lean ====
section
/-! SUPPORT. One lemma per shared operation: what it can answer, what it leaves, which micro-operation it issues. Proofs about
routines cite these and do not unfold the operations. -/

namespace Sys2Proof.Machine

/-! ### The peer -/

theorem peerNext_eq (s : State) : peerNext s = driveAt s 0 := by
  unfold peerNext driveAt
  cases s.peerScript <;> simp

/-- The drive after `n` micro-operations, seen from before them. -/
theorem driveAt_shift {s t : State} (n k : Nat) (hs : t.peerScript = s.peerScript.drop n) (ht : t.peerTime = s.peerTime + n)
    (hb : t.bus = s.bus) : driveAt t k = driveAt s (n + k) := by
  unfold driveAt
  rw [hs, ht, hb, List.getElem?_drop, Nat.add_assoc]

theorem driveAt_peerMove (s : State) (k : Nat) : driveAt (peerMove s) k = driveAt s (k + 1) := by
  rw [driveAt_shift (s := s) (t := peerMove s) 1 k (by simp) (by simp) rfl, Nat.add_comm]

/-- A step without a micro-operation leaves the peer's plans for the coming micro-operations as they were. -/
@[simp] theorem driveAt_peerRest (s : State) (k : Nat) : driveAt (peerRest s) k = driveAt s k := rfl

/-- The level a read of `SCL` finds at the next micro-operation (R48). -/
@[simp] theorem level_scl_peerMove (s : State) : level .scl (peerMove s) = (s.sclO && (driveAt s 0).1) := by
  simp [level, peerNext_eq]

/-- The level a read of `SDA` finds at the next micro-operation (R48). -/
@[simp] theorem level_sda_peerMove (s : State) : level .sda (peerMove s) = (s.sdaO && (driveAt s 0).2) := by
  simp [level, peerNext_eq]

/-! ### What a run issued -/

theorem Did.refl (s : State) : Did s [] s s := ⟨⟨[], by simp⟩, by simp, by simp, rfl, rfl⟩

/-- Register work and moves of `SEQ` issue nothing. -/
theorem Did.silent {s t : State} (htr : t.trace = s.trace) (htm : t.peerTime = s.peerTime) (hsc : t.peerScript = s.peerScript)
    (hb : t.bus = s.bus) : Did s [] t t := ⟨⟨[], by simp [htr]⟩, by simp [htm], by simp [hsc], hb, rfl⟩

/-- A step without a micro-operation, the register work being done: only the peer has moved. -/
theorem Did.rest (s : State) : Did s [] (peerRest s) s := ⟨⟨[], by simp⟩, by simp, by simp, rfl, rfl⟩

/-- Register work before a run issues nothing. -/
theorem Did.after {s u t v : State} {a : List MicroOp} (h : Did u a t v) (htr : u.trace = s.trace) (htm : u.peerTime = s.peerTime)
    (hsc : u.peerScript = s.peerScript) (hb : u.bus = s.bus) : Did s a t v :=
  ⟨by rw [← htr]; exact h.issued, by rw [← htm]; exact h.time, by rw [← hsc]; exact h.script, h.bus.trans hb, h.state⟩

theorem Did.trans {s t u v w : State} {a b : List MicroOp} (h : Did s a t u) (k : Did t b v w) : Did s (a ++ b) v w := by
  obtain ⟨⟨es, he, hb⟩, ht, hc, hp, -⟩ := h
  obtain ⟨⟨fs, hf, hg⟩, ht', hc', hp', hu⟩ := k
  refine ⟨⟨fs ++ es, by rw [hf, he, List.append_assoc], by simp [← hb, ← hg]⟩, ?_, ?_, hp'.trans hp, hu⟩
  · rw [ht', ht, List.length_append, Nat.add_assoc]
  · rw [hc', hc, List.drop_drop, List.length_append]

/-- The same run, its end described by another state that agrees with it up to the peer and the history. -/
theorem Did.congr {s t u v : State} {a : List MicroOp} (h : Did s a t u) (hv : ctrl u = ctrl v) : Did s a t v :=
  ⟨h.issued, h.time, h.script, h.bus, h.state.trans hv⟩

/-- The peer's drive seen from the end of a run. -/
theorem Did.driveAt {s t u : State} {a : List MicroOp} (h : Did s a t u) (k : Nat) :
    driveAt t k = driveAt s (a.length + k) := driveAt_shift _ _ h.script h.time h.bus

theorem did_lineWrite (l : Line) (b : Bool) (s : State) : Did s [.lineWrite l b] (lineWrite l b s) (setLatch l b s) := by
  cases l <;> exact ⟨⟨[_], by rw [lineWrite_trace]; exact ⟨rfl, rfl⟩⟩, rfl, by simp, rfl, rfl⟩

theorem did_lineRead (l : Line) (s : State) :
    Did s [.lineRead l (level l (peerMove s))] (lineRead l s) { s with res := level l (peerMove s) } :=
  ⟨⟨[_], by rw [lineRead_trace]; exact ⟨rfl, rfl⟩⟩, rfl, by simp, rfl, rfl⟩

theorem did_delay (s : State) : Did s [.delay s.half] (delay s) s :=
  ⟨⟨[_], by rw [delay_trace]; exact ⟨rfl, rfl⟩⟩, rfl, by simp, rfl, rfl⟩

/-- `MemRead` inside `BUF` (R42). -/
theorem memRead_inside {s : State} {k : State → Out} (h : s.idx.toNat < bufSize) :
    memRead s k = k (record (.memRead s.idx (Memory.read s.buf s.idx.toNat)) (peerMove s)
      { peerMove s with dat := Memory.read s.buf s.idx.toNat }) := if_pos h

/-- `MemWrite` inside `BUF` (R43). -/
theorem memWrite_inside {s : State} {v : Byte} {k : State → Out} (h : s.idx.toNat < bufSize) :
    memWrite v s k = k (record (.memWrite s.idx v) (peerMove s)
      { peerMove s with buf := Memory.write s.buf s.idx.toNat v }) := if_pos h

/-! ### Moves of the sequencer -/

theorem withPos_cons {s : State} {f : Frame} {rest : List Frame} (h : s.seq = f :: rest) (body : Nat → Nat → Out) :
    withPos s body = body f.line f.loop := by
  simp [withPos, h]

theorem setPos_cons {s : State} {c : Option Instr} {l p : Nat} {rest : List Frame} (h : s.seq = ⟨c, l, p⟩ :: rest) (line loop : Nat) :
    setPos line loop s = { s with seq := ⟨c, line, loop⟩ :: rest } := by
  simp [setPos, h]

/-- A run that left `SEQ` alone, then a move of the top frame. -/
theorem Did.setPos {s t u : State} {ops : List MicroOp} {c : Option Instr} {l p : Nat} {rest : List Frame} (h : Did s ops t u)
    (hs : s.seq = ⟨c, l, p⟩ :: rest) (ht : t.seq = s.seq) (line loop : Nat) :
    Did s ops (setPos line loop t) { u with seq := ⟨c, line, loop⟩ :: rest } := by
  rw [setPos_cons (ht.trans hs)]
  refine ⟨h.issued, h.time, h.script, h.bus, ?_⟩
  have e := h.state
  simp only [ctrl, State.mk.injEq] at e ⊢
  tauto

/-- A line that is one `LineWrite`. -/
theorem did_lineWrite_goto {s : State} {c : Option Instr} {l p : Nat} {rest : List Frame} (h : s.seq = ⟨c, l, p⟩ :: rest) (L : Line)
    (b : Bool) (line : Nat) :
    Did s [.lineWrite L b] (goto line (lineWrite L b s)) { setLatch L b s with seq := ⟨c, line, 0⟩ :: rest } :=
  (did_lineWrite L b s).setPos h (by cases L <;> rfl) line 0

/-- A line that is one `Delay(HALF)`. -/
theorem did_delay_goto {s : State} {c : Option Instr} {l p : Nat} {rest : List Frame} (h : s.seq = ⟨c, l, p⟩ :: rest) (line : Nat) :
    Did s [.delay s.half] (goto line (delay s)) { s with seq := ⟨c, line, 0⟩ :: rest } :=
  (did_delay s).setPos h rfl line 0

/-- A line that is one `LineRead`. -/
theorem did_lineRead_goto {s : State} {c : Option Instr} {l p : Nat} {rest : List Frame} (h : s.seq = ⟨c, l, p⟩ :: rest) (L : Line)
    (line : Nat) :
    Did s [.lineRead L (level L (peerMove s))] (goto line (lineRead L s))
      { s with res := level L (peerMove s), seq := ⟨c, line, 0⟩ :: rest } :=
  (did_lineRead L s).setPos h rfl line 0

theorem callAt_cons {s : State} {f : Frame} {rest : List Frame} (h : s.seq = f :: rest) (line loop : Nat) (r : Instr) :
    callAt line loop r s = .next { peerRest s with seq := ⟨some r, 1, 0⟩ :: ⟨f.callee, line, loop⟩ :: rest } := by
  simp [callAt, setPos, peerRest, restDrive, h]

/-- A call issues nothing and puts the callee's frame on `SEQ` (R133). -/
theorem did_callAt {s : State} {f : Frame} {rest : List Frame} (h : s.seq = f :: rest) (line loop : Nat) (r : Instr) :
    ∃ t, callAt line loop r s = .next t ∧ Did s [] t { s with seq := ⟨some r, 1, 0⟩ :: ⟨f.callee, line, loop⟩ :: rest } :=
  ⟨_, callAt_cons h line loop r, ⟨[], by simp⟩, by simp, by simp, rfl, rfl⟩

theorem finish_command {s : State} {line loop : Nat} {rest : List Frame} (h : s.seq = ⟨none, line, loop⟩ :: rest) :
    finish s = .next (respond .ok s) := by
  simp [finish, h]

theorem finish_return {s : State} {r : Instr} {line loop : Nat} {c : Frame} {below : List Frame}
    (h : s.seq = ⟨some r, line, loop⟩ :: c :: below) : finish s = .next { peerRest s with seq := c.advance :: below } := by
  simp [finish, h]

/-- A return issues nothing and moves the caller on (R133). -/
theorem did_return {s : State} {r : Instr} {line loop : Nat} {c : Frame} {below : List Frame}
    (h : s.seq = ⟨some r, line, loop⟩ :: c :: below) :
    ∃ t, finish s = .next t ∧ Did s [] t { s with seq := c.advance :: below } :=
  ⟨_, finish_return h, ⟨[], by simp⟩, by simp, by simp, rfl, rfl⟩

/-- A response issues nothing and ends the command (R136). -/
theorem did_respond (c : Code) (s : State) :
    Did s [] (respond c s)
      { s with rsp := packRsp (countOf c s) s.ackl s.fault c, rspValid := true, seq := [], busy := false } :=
  ⟨⟨[], by simp⟩, by simp, by simp, rfl, rfl⟩

theorem did_completed (s : State) : Did s [] (respond .ok s) (completed s) :=
  (did_respond .ok s).congr (by simp [completed, countOf])

theorem did_refused {c : Code} (h : c ≠ .ok) (s : State) : Did s [] (respond c s) (refusedWith c s) :=
  (did_respond c s).congr (by simp [refusedWith, countOf, h])

@[simp] theorem advance_line (f : Option Instr) (line : Nat) : Frame.advance ⟨f, line, 0⟩ = ⟨f, line + 1, 0⟩ := rfl

@[simp] theorem advance_loop (f : Option Instr) (line loop : Nat) :
    Frame.advance ⟨f, line, loop + 1⟩ = ⟨f, line, loop + 2⟩ := rfl

/-- The clock reads high, or cannot be read: the three ways `Stretch()` can go (R92). -/
theorem stretch_skip {s : State} (h : halRdScl s.halcap = false) (after : Nat) (skip : State → Out) :
    stretch after skip s = skip s := by
  simp [stretch, h]

theorem stretch_low {s : State} (h : halRdScl s.halcap = true) (hl : level .scl (peerMove s) = false) (after : Nat)
    (skip : State → Out) : stretch after skip s = .next (lineRead .scl s) := by
  unfold stretch
  rw [if_pos h, lineRead_res, hl]
  rfl

theorem stretch_high {s : State} (h : halRdScl s.halcap = true) (hl : level .scl (peerMove s) = true) (after : Nat)
    (skip : State → Out) : stretch after skip s = .next (goto after (lineRead .scl s)) := by
  unfold stretch
  rw [if_pos h, lineRead_res, hl]
  rfl

/-- At a line after dispatch a command goes on with its listing. -/
theorem asCommand_line {s : State} {f : Frame} {rest : List Frame} (h : s.seq = f :: rest) (hl : f.line ≠ 0)
    (check : Option Code) (body : Nat → Nat → Out) : asCommand check body s = body f.line f.loop := by
  unfold asCommand
  rw [withPos_cons h]
  obtain ⟨k, hk⟩ := Nat.exists_eq_succ_of_ne_zero hl
  rw [hk]

/-- At dispatch a check that fails ends the command (R131). -/
theorem asCommand_fails {s : State} {f : Frame} {rest : List Frame} (h : s.seq = f :: rest) (hl : f.line = 0) (c : Code)
    (body : Nat → Nat → Out) : asCommand (some c) body s = .next (respond c s) := by
  unfold asCommand
  rw [withPos_cons h, hl]
  rfl

/-- At dispatch, all checks passed, a command begins its listing (R131). -/
theorem asCommand_passes {s : State} {f : Frame} {rest : List Frame} (h : s.seq = f :: rest) (hl : f.line = 0)
    (body : Nat → Nat → Out) : asCommand none body s = body 1 0 := by
  unfold asCommand
  rw [withPos_cons h, hl]

/-! ### The response word -/

theorem codeNum_le (c : Code) : (codeNum c).toNat ≤ 4 := by cases c <;> decide

@[simp] theorem rspCount_packRsp (n : Count) (a f : Bool) (c : Code) : rspCount (packRsp n a f c) = n := by
  unfold rspCount packRsp
  ext i hi
  interval_cases i <;> simp

@[simp] theorem rspAck_packRsp (n : Count) (a f : Bool) (c : Code) : rspAck (packRsp n a f c) = a := by
  unfold rspAck packRsp
  simp

@[simp] theorem rspFault_packRsp (n : Count) (a f : Bool) (c : Code) : rspFault (packRsp n a f c) = f := by
  unfold rspFault packRsp
  simp

@[simp] theorem rspCode_packRsp (n : Count) (a f : Bool) (c : Code) : rspCode (packRsp n a f c) = codeNum c := by
  unfold rspCode packRsp
  ext i hi
  interval_cases i <;> simp

@[simp] theorem reserved_packRsp (n : Count) (a f : Bool) (c : Code) : (packRsp n a f c).extractLsb' 21 11 = 0 := by
  unfold packRsp
  ext i hi
  interval_cases i <;> simp

/-! ### Steps and runs -/

theorem step_reset {s : State} (h : s.rstIn = true) : step s = .next (doReset s) := if_pos h

/-- What reset does, said once (R160, R161). -/
theorem resetFrom_doReset (s : State) : ResetFrom s (doReset s) :=
  ⟨⟨rfl, rfl, rfl, rfl, rfl⟩, ⟨rfl, rfl⟩, ⟨rfl, rfl, rfl⟩, rfl, rfl, rfl, rfl, rfl, rfl, rfl, rfl⟩

theorem driveReset_acts {s : State} {on : Bool} (h : on = true ∨ s.rstIn = true) :
    driveReset on s = { doReset s with rstIn := on } := by
  simp [driveReset, h]

theorem driveReset_released {s : State} (h : s.rstIn = false) : driveReset false s = s := by
  simp [driveReset, h]

theorem step_busy {s : State} (hr : s.rstIn = false) (hb : s.busy = true) {i : Instr} (hf : fetch s = some i) :
    step s = exec i s := by
  simp [step, hr, hb, hf]

theorem step_callee {s : State} (hr : s.rstIn = false) (hb : s.busy = true) {r : Instr} {line loop : Nat} {rest : List Frame}
    (h : s.seq = ⟨some r, line, loop⟩ :: rest) : step s = exec r s :=
  step_busy hr hb (by simp [fetch, h, frameInstr])

theorem step_command {s : State} (hr : s.rstIn = false) (hb : s.busy = true) {i : Instr} {line loop : Nat} {rest : List Frame}
    (h : s.seq = ⟨none, line, loop⟩ :: rest) (hl : line ≠ 0) (hi : latchedCommand s = some i) : step s = exec i s :=
  step_busy hr hb (by simp [fetch, h, frameInstr, hl, hi])

theorem step_dispatch {s : State} (hr : s.rstIn = false) (hb : s.busy = true) {i : Instr} {loop : Nat} {rest : List Frame}
    (h : s.seq = ⟨none, 0, loop⟩ :: rest) (hi : decode s.cmd = .ok i) : step s = exec i s :=
  step_busy hr hb (by simp [fetch, h, frameInstr, dispatchedCommand, hi])

theorem step_idle {s : State} (hr : s.rstIn = false) (hb : s.busy = false) : step s = idleStep s := by
  simp [step, hr, hb]

@[simp] theorem runSteps_zero (s : State) : runSteps 0 s = .next s := rfl

theorem runSteps_next {s t : State} (h : step s = .next t) (k : Nat) : runSteps (k + 1) s = runSteps k t := by
  simp [runSteps, h]

/-- Runs compose. -/
theorem runSteps_add {s t : State} {a : Nat} (h : runSteps a s = .next t) (b : Nat) : runSteps (a + b) s = runSteps b t := by
  induction a generalizing s with
  | zero =>
    cases h
    rw [Nat.zero_add]
  | succ a ih =>
    cases hs : step s with
    | next u =>
      rw [runSteps_next hs] at h
      rw [Nat.succ_add, runSteps_next hs]
      exact ih h
    | fault r => simp [runSteps, hs] at h
    | refused r => simp [runSteps, hs] at h

/-! ### The command in the latches -/

/-- A legal word reads as the command its fields latch (R65, R130): dispatch and the later lines see the same command. -/
theorem latchedCommand_of_decode {s : State} {i : Instr} (hl : latchesOk s = true) (hd : decode s.cmd = .ok i) :
    latchedCommand s = some i := by
  simp only [latchesOk, Bool.and_eq_true, beq_iff_eq] at hl
  obtain ⟨⟨⟨⟨ho, ha⟩, hw⟩, hr⟩, hn⟩ := hl
  unfold latchedCommand
  unfold decode selectRow at hd
  rw [ho, ha, hw, hr, hn]
  split at hd <;> (first | (split at hd <;> cases hd) | cases hd) <;> simp_all

end Sys2Proof.Machine
end

