-- ==== Sys2Proof/Laws/Inv.lean ====
section
/-! SUPPORT. The invariant of Safety.lean: which fields its parts look at, who waits for whom, and what the shared moves of the
sequencer do to it. Nothing here is about one routine. -/

namespace Sys2Proof.Machine

/-! ### What the parts of the invariant look at -/

/-- What the positions of `topOk` look at. -/
def topView (s : State) : State :=
  { State.reset with
    sclO := s.sclO, sdaO := s.sdaO, started := s.started, fault := s.fault, res := s.res, ackl := s.ackl, shreg := s.shreg,
    cnt := s.cnt, idx := s.idx, flt := s.flt }

theorem topOk_view (i : Instr) (l p : Nat) (s : State) : topOk i l p s = topOk i l p (topView s) := by cases i <;> rfl

theorem topOk_congr {s t : State} (h : topView t = topView s) (i : Instr) (l p : Nat) : topOk i l p t = topOk i l p s := by
  rw [topOk_view, h, ← topOk_view]

/-- What a waiting caller looks at. -/
def waitView (s : State) : State :=
  { State.reset with
    started := s.started, fault := s.fault, ackl := s.ackl, shreg := s.shreg, bitk := s.bitk, cnt := s.cnt, idx := s.idx,
    dat := s.dat }

theorem waitOk_view (i : Instr) (l p : Nat) (c : Instr) (s : State) : waitOk i l p c s = waitOk i l p c (waitView s) := by
  unfold waitOk; rfl

theorem waitOk_congr {s t : State} (h : waitView t = waitView s) (i : Instr) (l p : Nat) (c : Instr) :
    waitOk i l p c t = waitOk i l p c s := by
  rw [waitOk_view, h, ← waitOk_view]

/-- What the command in progress is read from. -/
def latchView (s : State) : State :=
  { State.reset with opc := s.opc, addr := s.addr, w := s.w, reg := s.reg, len := s.len, cmd := s.cmd }

theorem latchedCommand_congr {s t : State} (h : latchView t = latchView s) : latchedCommand t = latchedCommand s := by
  have hv : ∀ x, latchedCommand x = latchedCommand (latchView x) := fun x => rfl
  rw [hv, h, ← hv]

theorem callersOk_congr {s t : State} (h : waitView t = waitView s) (hl : latchView t = latchView s) (c : Instr)
    (rest : List Frame) : callersOk t c rest = callersOk s c rest := by
  induction rest generalizing c with
  | nil => rfl
  | cons f rest ih =>
    obtain ⟨k, l, p⟩ := f
    cases k <;> simp only [callersOk, waitOk_congr h, latchedCommand_congr hl, ih]

/-- 2 for a bit routine, 1 for `READ_BYTE`, 0 for the others: what a waiting caller may look at. -/
def callRank : Instr → Nat
  | .writeBit _ | .readBit => 2
  | .readByte _ => 1
  | _ => 0

theorem waitOk_low {i : Instr} {l p : Nat} {c : Instr} {s : State} (h : waitOk i l p c s = true) (hc : callRank c ≠ 2) :
    callRank i = 0 := by
  unfold waitOk at h
  cases i <;> first | rfl | (cases c <;> first | exact absurd h Bool.false_ne_true | exact absurd rfl hc)

/-- The bit index and the shift register matter only to a waiting byte routine. -/
theorem callersOk_noBit {s t : State}
    (h : waitView { t with shreg := 0, bitk := 0 } = waitView { s with shreg := 0, bitk := 0 }) (hl : latchView t = latchView s)
    (c : Instr) (hc : callRank c ≠ 2) (rest : List Frame) :
    callersOk t c rest = callersOk s c rest := by
  have hw : ∀ i l p c, callRank c ≠ 2 → waitOk i l p c t = waitOk i l p c s := by
    intro i l p c hc
    have e : ∀ x : State, waitOk i l p c x = waitOk i l p c { x with shreg := 0, bitk := 0 } := by
      intro x; cases c <;> first | exact absurd rfl hc | (cases i <;> rfl)
    rw [e t, e s, waitOk_congr h]
  induction rest generalizing c with
  | nil => rfl
  | cons f rest ih =>
    obtain ⟨k, l, p⟩ := f
    cases k with
    | none => simp only [callersOk, hw _ _ _ _ hc, latchedCommand_congr hl]
    | some i =>
      simp only [callersOk, hw _ _ _ _ hc]
      cases hwt : waitOk i l p c s with
      | false => rfl
      | true => rw [ih i (by rw [waitOk_low hwt hc]; decide)]

/-- Above the byte routines nobody waits for an acknowledge either. -/
theorem callersOk_noByte {s t : State}
    (h : waitView { t with shreg := 0, bitk := 0, ackl := false } = waitView { s with shreg := 0, bitk := 0, ackl := false })
    (hl : latchView t = latchView s) (c : Instr) (hc : callRank c = 0) (rest : List Frame) :
    callersOk t c rest = callersOk s c rest := by
  have hw : ∀ i l p c, callRank c = 0 → waitOk i l p c t = waitOk i l p c s := by
    intro i l p c hc
    have e : ∀ x : State, waitOk i l p c x = waitOk i l p c { x with shreg := 0, bitk := 0, ackl := false } := by
      intro x; cases c <;> first | exact absurd hc (Nat.succ_ne_zero _) | (cases i <;> rfl)
    rw [e t, e s, waitOk_congr h]
  induction rest generalizing c with
  | nil => rfl
  | cons f rest ih =>
    obtain ⟨k, l, p⟩ := f
    cases k with
    | none => simp only [callersOk, hw _ _ _ _ hc, latchedCommand_congr hl]
    | some i =>
      simp only [callersOk, hw _ _ _ _ hc]
      cases hwt : waitOk i l p c s with
      | false => rfl
      | true => rw [ih i (waitOk_low hwt (by rw [hc]; decide))]

/-! ### Who waits for whom -/

theorem waitOk_writeBit {i : Instr} {l p : Nat} {v : Bool} {s : State} (h : waitOk i l p (.writeBit v) s = true) :
    (∃ d, i = .writeByte d ∧ l = 2 ∧ p = 0 ∧ s.shreg = d ∧ v = byteBit d s.bitk) ∨ (i = .readByte v ∧ l = 4 ∧ p = 0) := by
  unfold waitOk at h
  cases i <;> first | exact absurd h Bool.false_ne_true | simp_all

theorem waitOk_readBit {i : Instr} {l p : Nat} {s : State} (h : waitOk i l p .readBit s = true) :
    (∃ d, i = .writeByte d ∧ l = 4 ∧ p = 0) ∨ (∃ f, i = .readByte f ∧ l = 2 ∧ p = 0) := by
  unfold waitOk at h
  cases i <;> first | exact absurd h Bool.false_ne_true | simp_all

theorem waitOk_writeByte {i : Instr} {l p : Nat} {d : Byte} {s : State} (h : waitOk i l p (.writeByte d) s = true) :
    (∃ a w, i = .connect a w ∧ l = 3 ∧ p = 0 ∧ s.started = true ∧ s.fault = false) ∨
    (∃ a r n, i = .writeReg a r n ∧ l = 5 ∧ p = 0 ∧ s.started = true ∧ beforeLoop s = true) ∨
    (∃ a r n, i = .readReg a r n ∧ l = 5 ∧ p = 0 ∧ s.started = true ∧ beforeLoop s = true) ∨
    (∃ a n, i = .write a n ∧ l = 4 ∧ p = 4 ∧ s.started = true ∧ s.fault = false ∧ inLoop n s = true) ∨
    (∃ a r n, i = .writeReg a r n ∧ l = 6 ∧ p = 4 ∧ s.started = true ∧ s.fault = false ∧ inLoop n s = true) := by
  unfold waitOk at h
  cases i <;> first | exact absurd h Bool.false_ne_true | simp_all [sending]
  split at h <;> simp_all

theorem waitOk_readByte {i : Instr} {l p : Nat} {f : Bool} {s : State} (h : waitOk i l p (.readByte f) s = true) :
    (∃ a n, i = .read a n ∧ l = 4 ∧ p = 3 ∧ receiving n f s = true) ∨
    (∃ a r n, i = .readReg a r n ∧ l = 9 ∧ p = 3 ∧ receiving n f s = true) := by
  unfold waitOk at h
  cases i <;> first | exact absurd h Bool.false_ne_true | simp_all

theorem waitOk_start {i : Instr} {l p : Nat} {s : State} (h : waitOk i l p .start s = true) :
    l = 2 ∧ p = 0 ∧ beforeLoop s = true ∧
      ((∃ a n, i = .write a n) ∨ (∃ a n, i = .read a n) ∨ (∃ a r n, i = .writeReg a r n) ∨ (∃ a r n, i = .readReg a r n)) := by
  unfold waitOk at h
  cases i <;> first | exact absurd h Bool.false_ne_true | simp_all

theorem waitOk_stop {i : Instr} {l p : Nat} {s : State} (h : waitOk i l p .stop s = true) :
    p = 0 ∧ ((i = .deinit ∧ l = 2) ∨
     (∃ a n, i = .write a n ∧ l = 5 ∧ s.fault = false ∧ s.cnt.toNat ≤ n.toNat) ∨
     (∃ a r n, i = .writeReg a r n ∧ l = 7 ∧ s.fault = false ∧ s.cnt.toNat ≤ n.toNat) ∨
     (∃ a n, i = .read a n ∧ l = 5 ∧ afterLoop n s = true) ∨
     (∃ a r n, i = .readReg a r n ∧ l = 10 ∧ afterLoop n s = true)) := by
  unfold waitOk at h
  cases i <;> first | exact absurd h Bool.false_ne_true | simp_all

theorem waitOk_restart {i : Instr} {l p : Nat} {s : State} (h : waitOk i l p .restart s = true) :
    ∃ a r n, i = .readReg a r n ∧ l = 7 ∧ p = 0 ∧ s.started = true ∧ beforeLoop s = true := by
  unfold waitOk at h
  cases i <;> first | exact absurd h Bool.false_ne_true | simp_all

theorem waitOk_connect {i : Instr} {l p : Nat} {a : SlaveAddr} {w : Bool} {s : State} (h : waitOk i l p (.connect a w) s = true) :
    p = 0 ∧ s.started = true ∧ beforeLoop s = true ∧
    ((l = 3 ∧ ((∃ n, i = .write a n) ∨ (∃ n, i = .read a n) ∨ (∃ r n, i = .writeReg a r n) ∨ (∃ r n, i = .readReg a r n))) ∨
     (l = 8 ∧ ∃ r n, i = .readReg a r n)) := by
  unfold waitOk at h
  cases i <;> first | exact absurd h Bool.false_ne_true | simp_all
  cases w <;> simp_all

/-- Only `START`, `STOP`, `CONNECT` and the internal routines are ever called (R133). -/
theorem waitOk_called {i c : Instr} {l p : Nat} {s : State} (h : waitOk i l p c s = true) :
    c.issuable = false ∨ c = .start ∨ c = .stop ∨ ∃ a w, c = .connect a w := by
  cases c <;> first
    | exact .inl rfl
    | exact .inr (.inl rfl)
    | exact .inr (.inr (.inl rfl))
    | exact .inr (.inr (.inr ⟨_, _, rfl⟩))
    | (cases i <;> exact absurd h Bool.false_ne_true)

/-! ### A running controller at a position -/

theorem topOk_seq (s : State) (q : List Frame) (i : Instr) (l p : Nat) : topOk i l p { s with seq := q } = topOk i l p s :=
  topOk_congr (s := s) (t := { s with seq := q }) rfl i l p

/-- What `topOk` says does not depend on the peer either. -/
theorem topOk_rest (s : State) (q : List Frame) (i : Instr) (l p : Nat) :
    topOk i l p { peerRest s with seq := q } = topOk i l p s :=
  topOk_congr (s := s) (t := { peerRest s with seq := q }) rfl i l p

theorem callersOk_rest (s : State) (q : List Frame) (c : Instr) (rest : List Frame) :
    callersOk { peerRest s with seq := q } c rest = callersOk s c rest :=
  callersOk_congr (s := s) (t := { peerRest s with seq := q }) rfl rfl c rest

theorem callersOk_seq (s : State) (q : List Frame) (c : Instr) (rest : List Frame) :
    callersOk { s with seq := q } c rest = callersOk s c rest :=
  callersOk_congr (s := s) (t := { s with seq := q }) rfl rfl c rest

/-- What `inv` says of a controller past dispatch, apart from its position. -/
structure Running (s : State) : Prop where
  master : masterOk s = true
  rsp : rspOk s = true
  wf : Memory.wf s.buf = true
  busy : s.busy = true
  latches : latchesOk s = true
  disp : dispatched s = true

/-- What `Running` looks at. -/
def runView (s : State) : State :=
  { State.reset with
    valid := s.valid, halcap := s.halcap, freq := s.freq, half := s.half, started := s.valid || s.started, rsp := s.rsp,
    fault := s.fault && !s.ackl, buf := s.buf, busy := s.busy, opc := s.opc, addr := s.addr, w := s.w, reg := s.reg,
    len := s.len, cmd := s.cmd }

theorem Running.mono {s t : State} (hr : Running s) (h : { runView t with buf := s.buf } = runView s)
    (hw : Memory.wf t.buf = true) : Running t := by
  have hv : t.valid = s.valid ∧ t.halcap = s.halcap ∧ t.freq = s.freq ∧ t.half = s.half ∧
      (t.valid || t.started) = (s.valid || s.started) ∧ t.rsp = s.rsp ∧ (t.fault && !t.ackl) = (s.fault && !s.ackl) ∧
      t.busy = s.busy ∧ t.opc = s.opc ∧ t.addr = s.addr ∧ t.w = s.w ∧ t.reg = s.reg ∧ t.len = s.len ∧ t.cmd = s.cmd := by
    simp only [runView, State.mk.injEq] at h
    tauto
  obtain ⟨h1, h2, h3, h4, h5, h6, h7, h8, h9, h10, h11, h12, h13, h14⟩ := hv
  obtain ⟨a, b, c, d, e, f⟩ := hr
  refine ⟨?_, ?_, hw, by rw [h8]; exact d, ?_, ?_⟩
  · simp only [masterOk, h1, h2, h3, h4] at a ⊢
    rw [h1] at h5
    cases hs : s.valid <;> simp_all
  · simp only [rspOk, h6] at b ⊢
    revert h7 b
    cases t.fault <;> cases t.ackl <;> cases s.fault <;> cases s.ackl <;> simp
  · simpa only [latchesOk, h9, h10, h11, h12, h13, h14] using e
  · simpa only [dispatched, dispatchedCommand, h14, h1] using f

/-- The top frame is the routine `i` at line `l` (loop line `p`) over the frames `rest`, whether it was called or is the command in
progress. -/
def At (s : State) (i : Instr) (l p : Nat) (rest : List Frame) : Prop :=
  (s.seq = ⟨some i, l, p⟩ :: rest ∧ callersOk s i rest = true) ∨
  (s.seq = ⟨none, l, p⟩ :: rest ∧ l ≠ 0 ∧ rest = [] ∧ latchedCommand s = some i)

theorem inv_of_at {s : State} {i : Instr} {l p : Nat} {rest : List Frame} (h : At s i l p rest) (hr : Running s)
    (ht : topOk i l p s = true) : inv s = true := by
  obtain ⟨a, b, c, d, e, f⟩ := hr
  rcases h with ⟨h1, h2⟩ | ⟨h1, h2, rfl, h3⟩
  · simp only [inv, seqOk, h1, Bool.and_eq_true]
    exact ⟨⟨⟨a, b⟩, c⟩, ⟨⟨⟨d, e⟩, f⟩, ht⟩, h2⟩
  · simp only [inv, seqOk, h1, Bool.and_eq_true]
    refine ⟨⟨⟨a, b⟩, c⟩, ⟨⟨d, rfl⟩, e⟩, ?_⟩
    rw [if_neg h2, h3]
    simp [ht, f]

theorem at_cons {s : State} {i : Instr} {l p : Nat} {rest : List Frame} (h : At s i l p rest) :
    ∃ c, s.seq = ⟨c, l, p⟩ :: rest := by
  rcases h with ⟨h1, -⟩ | ⟨h1, -⟩ <;> exact ⟨_, h1⟩

/-- The caller of a called routine. -/
theorem callers_cases {s : State} {c : Instr} {rest : List Frame} (h : callersOk s c rest = true) :
    ∃ f l p i below, rest = ⟨f, l, p⟩ :: below ∧ waitOk i l p c s = true ∧
      ((f = some i ∧ callersOk s i below = true) ∨ (f = none ∧ l ≠ 0 ∧ below = [] ∧ latchedCommand s = some i)) := by
  cases rest with
  | nil => cases h
  | cons f below =>
    obtain ⟨k, l, p⟩ := f
    cases k with
    | some i =>
      simp only [callersOk, Bool.and_eq_true] at h
      exact ⟨_, _, _, i, below, rfl, h.1, .inl ⟨rfl, h.2⟩⟩
    | none =>
      simp only [callersOk, Bool.and_eq_true, List.isEmpty_iff, decide_eq_true_eq] at h
      cases hi : latchedCommand s with
      | none => simp [hi] at h
      | some i =>
        simp only [hi, Option.any_some] at h
        exact ⟨_, _, _, i, below, rfl, h.2, .inr ⟨rfl, h.1.2, h.1.1, rfl⟩⟩

/-- The invariant says nothing about the peer and the history. -/
theorem inv_ctrl (s : State) : inv (ctrl s) = inv s := by
  have hc : ∀ c rest, callersOk (ctrl s) c rest = callersOk s c rest := fun c rest =>
    callersOk_congr (s := s) (t := ctrl s) rfl rfl c rest
  have ht : ∀ i l p, topOk i l p (ctrl s) = topOk i l p s := fun i l p => topOk_congr (s := s) (t := ctrl s) rfl i l p
  have hl : latchedCommand (ctrl s) = latchedCommand s := latchedCommand_congr (s := s) (t := ctrl s) rfl
  have hq : seqOk (ctrl s) = seqOk s := by
    unfold seqOk
    rw [show (ctrl s).seq = s.seq from rfl]
    cases s.seq with
    | nil => rfl
    | cons f rest =>
      obtain ⟨c, l, p⟩ := f
      cases c <;> simp only [hc, ht, hl] <;> rfl
  unfold inv
  rw [hq]
  rfl

theorem inv_congr {s t : State} (h : ctrl t = ctrl s) : inv t = inv s := by
  rw [← inv_ctrl t, h, inv_ctrl]

/-- A reset leaves the invariant, whatever the position it dropped. -/
theorem inv_doReset {s : State} (hw : Memory.wf s.buf = true) (on : Bool) : inv { doReset s with rstIn := on } = true := by
  have h : inv { doReset s with rstIn := on } =
      (masterOk State.reset && rspOk State.reset && Memory.wf s.buf && seqOk State.reset) := rfl
  rw [h, hw]
  decide

/-- A line that issued its micro-operation (`s` became `t`) and moves on. -/
theorem inv_setPos {s t : State} {i : Instr} {l p line loop : Nat} {rest : List Frame} (h : At s i l p rest) (hr : Running t)
    (hc : callersOk t i rest = callersOk s i rest) (hv : latchView t = latchView s) (hq : t.seq = s.seq) (hl : line ≠ 0)
    (ht : topOk i line loop t = true) : inv (setPos line loop t) = true := by
  obtain ⟨f, hf⟩ := at_cons h
  rw [setPos_cons (hq.trans hf)]
  refine inv_of_at (i := i) (l := line) (p := loop) (rest := rest) ?_ (hr.mono rfl hr.wf) (by rw [topOk_seq]; exact ht)
  rcases h with ⟨h1, h2⟩ | ⟨h1, h2, h3, h4⟩
  · rw [h1] at hf
    cases hf
    exact .inl ⟨rfl, by rw [callersOk_seq, hc]; exact h2⟩
  · rw [h1] at hf
    cases hf
    exact .inr ⟨rfl, hl, h3, (latchedCommand_congr (s := t) rfl).trans ((latchedCommand_congr hv).trans h4)⟩

/-- A line that calls `c`. -/
theorem inv_callAt {s t : State} {i c : Instr} {l p line loop : Nat} {rest : List Frame} (h : At s i l p rest) (hr : Running t)
    (hc : callersOk t i rest = callersOk s i rest) (hv : latchView t = latchView s) (hq : t.seq = s.seq) (hl : line ≠ 0)
    (hw : waitOk i line loop c t = true) (ht : topOk c 1 0 t = true) : ∃ u, callAt line loop c t = .next u ∧ inv u = true := by
  obtain ⟨f, hf⟩ := at_cons h
  rw [callAt_cons (hq.trans hf)]
  refine ⟨_, rfl, inv_of_at (i := c) (l := 1) (p := 0) (rest := ⟨f, line, loop⟩ :: rest) (.inl ⟨rfl, ?_⟩) (hr.mono rfl hr.wf)
    (by rw [topOk_rest]; exact ht)⟩
  rw [callersOk_rest]
  rcases h with ⟨h1, h2⟩ | ⟨h1, h2, rfl, h4⟩
  · rw [h1] at hf
    cases hf
    rw [callersOk, hw, hc, h2]
    rfl
  · rw [h1] at hf
    cases hf
    rw [callersOk, latchedCommand_congr hv, h4]
    simp [hl, hw]

/-- A called routine that returns, the register work of its last line having made `t` of `s`. -/
theorem inv_return {s t : State} {c : Instr} {l p : Nat} {rest : List Frame} (hs : s.seq = ⟨some c, l, p⟩ :: rest)
    (h : callersOk s c rest = true) (hr : Running t) (hv : latchView t = latchView s) (hq : t.seq = s.seq)
    (hk : ∀ i l p, waitOk i l p c s = true → (∀ below, callersOk t i below = callersOk s i below) ∧
      topOk i (Frame.advance ⟨none, l, p⟩).line (Frame.advance ⟨none, l, p⟩).loop t = true) :
    ∃ u, finish t = .next u ∧ inv u = true := by
  obtain ⟨f, l2, p2, i, below, rfl, hw, hf⟩ := callers_cases h
  rw [finish_return (hq.trans hs)]
  refine ⟨_, rfl, ?_⟩
  obtain ⟨k1, k2⟩ := hk i l2 p2 hw
  have hadv : Frame.advance ⟨f, l2, p2⟩ = ⟨f, (Frame.advance ⟨none, l2, p2⟩).line, (Frame.advance ⟨none, l2, p2⟩).loop⟩ := by
    cases p2 <;> rfl
  rw [hadv]
  refine inv_of_at (i := i) (l := (Frame.advance ⟨none, l2, p2⟩).line) (p := (Frame.advance ⟨none, l2, p2⟩).loop)
    (rest := below) ?_ (hr.mono rfl hr.wf) (by rw [topOk_rest]; exact k2)
  rcases hf with ⟨rfl, h2⟩ | ⟨rfl, h2, rfl, h4⟩
  · exact .inl ⟨rfl, by rw [callersOk_rest]; exact (k1 _).trans h2⟩
  · refine .inr ⟨rfl, ?_, rfl, (latchedCommand_congr (s := t) rfl).trans ((latchedCommand_congr hv).trans h4)⟩
    cases p2 <;> simp [Frame.advance, h2]

/-- A command that responds with the bus released. -/
theorem inv_respond {c : Code} {t : State} (hm : masterOk t = true) (hw : Memory.wf t.buf = true)
    (hf : (!t.fault || t.ackl) = true) (hb : busReleased t = true) : inv (respond c t) = true := by
  simp only [inv, seqOk, respond_seq, Bool.and_eq_true]
  refine ⟨⟨⟨hm, ?_⟩, hw⟩, by simp, by simpa [busReleased] using hb⟩
  simp only [rspOk, respond_rsp, respond_fault, respond_ackl, Bool.and_eq_true]
  exact ⟨⟨by simp, by simpa using codeNum_le c⟩, hf⟩

end Sys2Proof.Machine
end

