-- ==== Sys2Proof/Laws/PerInstr.lean ====
section
/-! SUPPORT. Statements about every instruction as syntax, one lemma per constructor (LAWS.json). -/

namespace Sys2Proof.Laws.OpcodeField

/-- Bits 3:0 of the encoding are the routine's code (R60, R64). -/
def Statement (i : Instr) : Prop := fieldOpc (encode i) = i.code

theorem init (h : BitVec 5) (f : BitVec 32) : Statement (.init h f) := by
  unfold Statement fieldOpc encode atBit Instr.code
  ext k hk
  interval_cases k <;> simp

theorem deinit : Statement .deinit := by
  simp [Statement, fieldOpc, encode, Instr.code]

theorem start : Statement .start := by
  simp [Statement, fieldOpc, encode, Instr.code]

theorem stop : Statement .stop := by
  simp [Statement, fieldOpc, encode, Instr.code]

theorem connect (a : SlaveAddr) (w : Bool) : Statement (.connect a w) := by
  unfold Statement fieldOpc encode atBit Instr.code
  ext k hk
  interval_cases k <;> simp

theorem write (a : SlaveAddr) (n : Count) : Statement (.write a n) := by
  unfold Statement fieldOpc encode atBit Instr.code
  ext k hk
  interval_cases k <;> simp

theorem read (a : SlaveAddr) (n : Count) : Statement (.read a n) := by
  unfold Statement fieldOpc encode atBit Instr.code
  ext k hk
  interval_cases k <;> simp

theorem writeReg (a : SlaveAddr) (r : Byte) (n : Count) : Statement (.writeReg a r n) := by
  unfold Statement fieldOpc encode atBit Instr.code
  ext k hk
  interval_cases k <;> simp

theorem readReg (a : SlaveAddr) (r : Byte) (n : Count) : Statement (.readReg a r n) := by
  unfold Statement fieldOpc encode atBit Instr.code
  ext k hk
  interval_cases k <;> simp

theorem restart : Statement .restart := by
  simp [Statement, fieldOpc, encode, Instr.code]

theorem writeByte (d : Byte) : Statement (.writeByte d) := by
  simp [Statement, fieldOpc, encode, Instr.code]

theorem readByte (final : Bool) : Statement (.readByte final) := by
  simp [Statement, fieldOpc, encode, Instr.code]

theorem writeBit (v : Bool) : Statement (.writeBit v) := by
  simp [Statement, fieldOpc, encode, Instr.code]

theorem readBit : Statement .readBit := by
  simp [Statement, fieldOpc, encode, Instr.code]

end Sys2Proof.Laws.OpcodeField
end

