-- ==== Sys2Proof/Tests/Slice0.lean ====
section
/-! SUPPORT. The model's own tests: well-formedness, words written out from the spec's encodings, one step of each routine with the
values the spec's listings and vectors give, and a witness for the hypotheses of every obligation. -/

namespace Sys2Proof.Tests

open Sys2Proof.Machine

/-! ### Well-formedness: the five internal routines are no commands (R64, R66) -/

theorem test_wf_restart : Instr.wf .restart = false := by decide
theorem test_wf_writeByte : Instr.wf (.writeByte 0xA0) = false := by decide
theorem test_wf_readByte : Instr.wf (.readByte true) = false := by decide
theorem test_wf_writeBit : Instr.wf (.writeBit true) = false := by decide
theorem test_wf_readBit : Instr.wf .readBit = false := by decide

/-! ### Decoding: the words of R75, and the internal codes of R64 -/

-- FREQ = 100 in bits 63:32, HALCAP = 0x1F in bits 8:4, OPC = 0
theorem test_word_init : decode 0x00000064000001F0 = .ok (.init 0x1F 100) := by decide
theorem test_word_deinit : decode 0x0000000000000001 = .ok .deinit := by decide
theorem test_word_start : decode 0x0000000000000002 = .ok .start := by decide
theorem test_word_stop : decode 0x0000000000000003 = .ok .stop := by decide
-- W = 1 in bit 11, ADDR = 0x50 in bits 10:4: 0b1_1010000_0100
theorem test_word_connect : decode 0b1_1010000_0100 = .ok (.connect 0x50 true) := by decide
theorem test_word_write : decode 0x0000000FFFF007F5 = .ok (.write 0x7F 65535) := by decide
theorem test_word_read : decode 0x0000000000200506 = .ok (.read 0x50 2) := by decide
-- LEN = 2 in bits 35:20, REG = 0x0E in bits 19:12, ADDR = 0x41 in bits 10:4: 0b10_00001110_0_1000001_0111
theorem test_word_writeReg : decode 0b10_00001110_0_1000001_0111 = .ok (.writeReg 0x41 0x0E 2) := by decide
theorem test_word_readReg : decode 0x000000000020E418 = .ok (.readReg 0x41 0x0E 2) := by decide
theorem test_code_restart : decodeTableWord 8 0x9 = some .restart := by decide
theorem test_code_writeByte : decodeTableWord 8 0xA = some (.writeByte 0) := by decide
theorem test_code_readByte : decodeTableWord 8 0xB = some (.readByte false) := by decide
theorem test_code_writeBit : decodeTableWord 8 0xC = some (.writeBit false) := by decide
theorem test_code_readBit : decodeTableWord 8 0xD = some .readBit := by decide
theorem test_illegal_write_with_w : decode 0x0000000000100D05 = .error .mustBeZero := by decide
theorem test_illegal_internal : decode 0x0000000000000009 = .error .internalCode := by decide
theorem test_illegal_reserved : decode 0x000000000000000F = .error .reservedCode := by decide
theorem test_illegal_start : decode 0x0000000000000012 = .error .mustBeZero := by decide
-- R69: (0x50 << 1) | 0 = 0xA0; 0x41 for reading is 0x83
theorem test_header : header 0x50 true = 0xA0 ∧ header 0x41 false = 0x83 := by decide
-- vector V11
theorem test_half : halfPeriod 1 = 500000 ∧ halfPeriod 3 = 166667 ∧ halfPeriod 8000 = 63 ∧ halfPeriod 666667 = 1 := by decide

/-! ### Small states -/

/-- A controller with a master (`FREQ = 100`, `HALF = 5000`), busy at the given frames, the peer's drive given. -/
def busyAt (rd : Bool) (seq : List Frame) (script : List (Bool × Bool)) : State :=
  { State.reset with
    valid := true, halcap := if rd then 0x1F else 0x1B, freq := 100, half := 5000, busy := true, seq := seq,
    peerScript := script }

/-- The command word `w` has been accepted by a controller with a master. -/
def accepted (rd : Bool) (w : CmdWord) (script : List (Bool × Bool)) : State :=
  { latchCommand w (busyAt rd [] script) with cmdIn := none }

/-- The step from `s` answers a next state that `p` holds of. -/
def stepTo (s : State) (p : State → Bool) : Bool :=
  match step s with
  | .next t => p t
  | _ => false

/-- The last micro-operation. -/
def lastOp (t : State) : Option MicroOp := t.trace.head?.map (·.op)

/-! ### One step of each routine -/

-- V10: INIT 0x1F, 100 from reset
theorem test_init : stepTo (latchCommand 0x00000064000001F0 State.reset) (fun t =>
    t.valid && t.halcap == 0x1F && t.freq == 100 && t.half == 5000 && t.rsp == 0 && !t.busy && t.trace == []) = true := by
  decide
-- R80 step 2: WR_SCL missing; CODE = 1 in bits 20:18
theorem test_init_missing : stepTo (latchCommand 0x00000064000001E0 State.reset) (fun t =>
    !t.valid && t.rsp == 0x00040000) = true := by
  decide
theorem test_deinit_idle : stepTo (accepted false 1 []) (fun t => !t.valid && t.half == 0 && t.rsp == 0 && !t.busy) = true := by
  decide
-- R146: no master; CODE = 3
theorem test_deinit_no_master : stepTo (latchCommand 1 State.reset) (fun t => t.rsp == 0x000C0000 && !t.busy) = true := by decide
-- R110: the first micro-operation of START is D1
theorem test_start_first : stepTo (accepted false 2 [(true, true)]) (fun t =>
    lastOp t == some (.lineWrite .sda true) && t.sdaO && t.busy) = true := by
  decide
-- R110 steps 5, 6: STARTED, response
theorem test_start_last : stepTo { accepted false 2 [] with seq := [⟨none, 5, 0⟩] } (fun t =>
    t.started && !t.busy && t.rsp == 0) = true := by
  decide
-- R111 step 6: the clock reads low, SEQ stays
theorem test_stop_poll_low : stepTo { accepted true 3 [(false, true)] with seq := [⟨none, 6, 0⟩] } (fun t =>
    lastOp t == some (.lineRead .scl false) && t.seq == [⟨none, 6, 0⟩]) = true := by
  decide
-- R111 step 8: data rises
theorem test_stop_rise : stepTo { accepted true 3 [(true, true)] with seq := [⟨none, 8, 0⟩], sdaO := false } (fun t =>
    t.trace == [⟨.lineWrite .sda true, ⟨true, false⟩, ⟨true, true⟩⟩]) = true := by
  decide
-- R113: not started; CODE = 2
theorem test_connect_not_started : stepTo (accepted false 0xD04 []) (fun t => t.rsp == 0x00080000 && t.trace == []) = true := by
  decide
-- R69: the header byte of CONNECT 0x50, 1
theorem test_connect_header : stepTo { accepted false 0xD04 [] with started := true } (fun t =>
    t.seq == [⟨some (.writeByte 0xA0), 1, 0⟩, ⟨none, 3, 0⟩]) = true := by
  decide
-- R112 step 8: data pulled low while the clock is high: a START condition
theorem test_restart_fall : stepTo (busyAt false [⟨some .restart, 8, 0⟩, ⟨none, 7, 0⟩] [(true, true)]) (fun t =>
    t.trace.all fun e => isStartCondition e.pre e.post) = true := by
  decide
-- R124 step 3: BUF[0] is fetched
theorem test_write_fetch :
    stepTo { accepted false 0x100505 [(true, true)] with seq := [⟨none, 4, 0⟩], res := true, buf := [(0, 0x55)] } (fun t =>
      lastOp t == some (.memRead 0 0x55) && t.dat == 0x55) = true := by
  decide
-- R120: not acknowledged, straight to STOP
theorem test_write_nack : stepTo { accepted false 0x100505 [] with seq := [⟨none, 4, 0⟩] } (fun t =>
    t.seq == [⟨some .stop, 1, 0⟩, ⟨none, 5, 0⟩] && t.trace == []) = true := by
  decide
-- R125 step 4: the byte is stored
theorem test_read_store :
    stepTo { accepted false 0x200506 [(true, true)] with seq := [⟨none, 4, 4⟩], shreg := 0x34, idx := 1 } (fun t =>
      lastOp t == some (.memWrite 1 0x34) && t.buf == [(1, 0x34)]) = true := by
  decide
-- R125 step 5: a bus fault ends the loop, the byte is not counted
theorem test_read_fault :
    stepTo { accepted false 0x200506 [] with seq := [⟨none, 4, 5⟩], flt := true, idx := 1, cnt := 1 } (fun t =>
      t.fault && t.cnt == 1 && t.seq == [⟨some .stop, 1, 0⟩, ⟨none, 5, 0⟩]) = true := by
  decide
-- R122 line 5: the register byte of WRITE_REG 0x41, 0x0E, 2
theorem test_writeReg_register : stepTo { accepted false 0x20E417 [] with seq := [⟨none, 4, 0⟩], res := true } (fun t =>
    t.seq == [⟨some (.writeByte 0x0E), 1, 0⟩, ⟨none, 5, 0⟩]) = true := by
  decide
-- R122, R136: COUNT = 2, ACK = 1
theorem test_writeReg_response :
    stepTo { accepted false 0x20E417 [] with seq := [⟨none, 8, 0⟩], cnt := 2, ackl := true } (fun t => t.rsp == 0x00010002) =
      true := by
  decide
-- R123 line 7
theorem test_readReg_restart : stepTo { accepted false 0x20E418 [] with seq := [⟨none, 6, 0⟩], res := true } (fun t =>
    t.seq == [⟨some .restart, 1, 0⟩, ⟨none, 7, 0⟩]) = true := by
  decide
-- R125 step 3: one byte wanted, so it is the final one
theorem test_readReg_final : stepTo { accepted false 0x10E418 [] with seq := [⟨none, 9, 0⟩], res := true } (fun t =>
    t.seq == [⟨some (.readByte true), 1, 0⟩, ⟨none, 9, 3⟩]) = true := by
  decide
-- R100 steps 1, 2: bit 7 of 0xA0 goes first
theorem test_writeByte_first : stepTo (busyAt false [⟨some (.writeByte 0xA0), 1, 0⟩, ⟨none, 3, 0⟩] []) (fun t =>
    t.seq.head? == some ⟨some (.writeBit true), 1, 0⟩ && t.bitk == 7) = true := by
  decide
-- R100 step 5: low is ACK
theorem test_writeByte_ack : stepTo (busyAt false [⟨some (.writeByte 0xA0), 5, 0⟩, ⟨none, 3, 0⟩] []) (fun t =>
    t.ackl && t.seq == [⟨none, 4, 0⟩]) = true := by
  decide
-- R101 step 2: the first bit received is bit 7
theorem test_readByte_bit7 :
    stepTo { busyAt false [⟨some (.readByte true), 3, 0⟩, ⟨none, 4, 3⟩] [] with bitk := 7, res := true } (fun t =>
      t.shreg == 0x80 && t.bitk == 6) = true := by
  decide
-- R102: a NACK that reads back low is a bus fault
theorem test_readByte_flt : stepTo (busyAt false [⟨some (.readByte true), 6, 0⟩, ⟨none, 4, 3⟩] []) (fun t =>
    t.flt && t.seq == [⟨none, 4, 4⟩]) = true := by
  decide
-- R92: no poll when the clock cannot be read, whatever the clock does
theorem test_writeBit_skip :
    stepTo (busyAt false [⟨some (.writeBit true), 5, 0⟩, ⟨some (.writeByte 1), 2, 0⟩] [(false, true)]) (fun t =>
      lastOp t == some (.delay 5000)) = true := by
  decide
-- R90 step 3
theorem test_writeBit_data :
    stepTo (busyAt false [⟨some (.writeBit false), 3, 0⟩, ⟨some (.writeByte 1), 2, 0⟩] [(true, true)]) (fun t =>
      lastOp t == some (.lineWrite .sda false) && !t.sdaO) = true := by
  decide
-- R91 step 7: the sample is the peer's level
theorem test_readBit_sample :
    stepTo (busyAt false [⟨some .readBit, 7, 0⟩, ⟨some (.writeByte 1), 4, 0⟩] [(true, false)]) (fun t =>
      lastOp t == some (.lineRead .sda false) && !t.res) = true := by
  decide
-- R91 step 1: clock low first
theorem test_readBit_first : stepTo (busyAt false [⟨some .readBit, 1, 0⟩, ⟨some (.writeByte 1), 4, 0⟩] [(true, true)]) (fun t =>
    lastOp t == some (.lineWrite .scl false)) = true := by
  decide
-- the host's two questions: a command word and an internal code run as the first instruction after reset
theorem test_fetch_word : fetch (State.reset.withFetchWord 64 0x20E418) = some (.readReg 0x41 0x0E 2) := by decide
theorem test_fetch_code : stepTo (State.reset.withFetchWord 8 0xD) (fun t => lastOp t == some (.lineWrite .scl false)) = true := by
  rfl

/-! ### Witnesses: every obligation's hypotheses are met -/

theorem witness_DecodeOfEncode : Instr.wf (.writeReg 0x7F 0xFF 0xFFFF) = true := by decide
theorem witness_EncodeOfDecode : decode 0xFFFFFFFF000001F0 = .ok (.init 0x1F 0xFFFFFFFF) := by decide
theorem witness_IllegalWords : (∃ e, decode 0xE = .error e) ∧ ¬∃ e, decode 0x2 = .error e :=
  ⟨⟨.reservedCode, by decide⟩, fun ⟨e, h⟩ => by cases h⟩
theorem witness_OperandFields : decode 0x0000000FFFFFF7F8 = .ok (.readReg 0x7F 0xFF 0xFFFF) := by decide
theorem witness_ResetStep :
    ({ accepted true 3 [] with rstIn := true, seq := [⟨none, 6, 0⟩] } : State).rstIn = true ∧ (accepted true 3 []).rstIn = false :=
  ⟨rfl, rfl⟩

-- R160, R162: a reset pulse with no step inside it drops the command; both lines are released, nothing is issued
theorem test_reset_pulse :
    (match runMoves [.host (.reset true), .host (.reset false)]
        { accepted true 3 [] with seq := [⟨none, 4, 0⟩], sclO := false, sdaO := false, started := true } with
      | .next t => !t.busy && !t.valid && !t.started && t.sclO && t.sdaO && t.seq == [] && t.trace == [] && !t.rstIn
      | _ => false) = true := by
  decide

theorem witness_Acceptance :
    (let s := { State.reset with cmdIn := some 2 }
     s.rstIn = false ∧ s.busy = false ∧ s.cmdIn = some 2) ∧
    (let s := { accepted false 2 [(true, true)] with cmdIn := some 3 }
     s.rstIn = false ∧ s.busy = true ∧ ∃ t, step s = .next t) :=
  ⟨by decide, rfl, rfl, _, rfl⟩

theorem witness_IdlePort :
    (State.reset.rstIn = false ∧ State.reset.busy = false ∧ State.reset.cmdIn = none) ∧
      ({ State.reset with cmdIn := some 2 } : State).cmdIn = some 2 := by
  decide

theorem witness_StepRunsRoutine :
    (busyAt true [⟨some .readBit, 1, 0⟩, ⟨none, 3, 0⟩] []).seq = ⟨some .readBit, 1, 0⟩ :: [⟨none, 3, 0⟩] ∧
    (let s := accepted true 2 []
     s.rstIn = false ∧ s.busy = true ∧ s.seq = ⟨none, 0, 0⟩ :: [] ∧ decode s.cmd = .ok .start) ∧
    (let s := { accepted true 0xD04 [] with seq := [⟨none, 1 + 1, 0⟩] }
     s.seq = ⟨none, 1 + 1, 0⟩ :: [] ∧ decode s.cmd = .ok (.connect 0x50 true) ∧ s.opc = fieldOpc s.cmd ∧
       s.addr = fieldAddr s.cmd ∧ s.w = fieldW s.cmd ∧ s.reg = fieldReg s.cmd ∧ s.len = fieldLen s.cmd) := by
  decide

/-- For each clause of the dispatch order a word and a state at dispatch, the last ones passing all checks. -/
theorem witness_DispatchOrder :
    (∀ w : CmdWord, (accepted false w []).rstIn = false ∧ (accepted false w []).busy = true ∧
      (accepted false w []).seq = [⟨none, 0, 0⟩]) ∧
    decode 0xF = .error .reservedCode ∧
    (decode 0x2 = .ok .start ∧ Instr.code .start ≠ 0 ∧ (latchCommand 2 State.reset).valid = false) ∧
    (decode 0x00000064000001F0 = .ok (.init 0x1F 100) ∧ Instr.code (.init 0x1F 100) = 0 ∧ (accepted false 0 []).valid = true) ∧
    (decode 0x00000064000001E0 = .ok (.init 0x1E 100) ∧ (0x1E : BitVec 5) &&& 0b11011 ≠ 0b11011) ∧
    decode 0x00000000000001F0 = .ok (.init 0x1F 0) ∧
    (decode 0xD04 = .ok (.connect 0x50 true) ∧ (accepted false 0xD04 []).started = false) ∧
    ((0x1B : BitVec 5) &&& 0b11011 = 0b11011 ∧ (latchCommand 0x00000064000001B0 State.reset).valid = false) ∧
    ({ accepted false 0xD04 [] with started := true } : State).started = true :=
  ⟨fun _ => ⟨rfl, rfl, rfl⟩, by decide⟩

/-- For each clause of the error responses a state right after acceptance. -/
theorem witness_ErrorResponses :
    (∀ w : CmdWord, (accepted false w []).rstIn = false ∧ (accepted false w []).busy = true ∧
      (accepted false w []).seq = [⟨none, 0, 0⟩] ∧ (accepted false w []).ackl = false ∧ (accepted false w []).fault = false) ∧
    decode (accepted false 0xF []).cmd = .error .reservedCode ∧
    (decode (latchCommand 2 State.reset).cmd = .ok .start ∧ Instr.code .start ≠ 0 ∧ (latchCommand 2 State.reset).valid = false) ∧
    (decode (accepted false 0x00000064000001F0 []).cmd = .ok (.init 0x1F 100) ∧ Instr.code (.init 0x1F 100) = 0 ∧
      (accepted false 0x00000064000001F0 []).valid = true) ∧
    (decode (latchCommand 0x0000006400000170 State.reset).cmd = .ok (.init 0x17 100) ∧ (0x17 : BitVec 5).getLsbD 3 = false ∧
      (latchCommand 0x0000006400000170 State.reset).valid = false) ∧
    decode (latchCommand 0x00000000000001F0 State.reset).cmd = .ok (.init 0x1F 0) ∧
    (decode (accepted false 0x504 []).cmd = .ok (.connect 0x50 false) ∧ (accepted false 0x504 []).valid = true ∧
      (accepted false 0x504 []).started = false) :=
  ⟨fun _ => ⟨rfl, rfl, rfl, rfl, rfl⟩, by decide⟩

theorem witness_ResponseWord :
    (∃ t, step State.reset = .next t) ∧ ∃ t, step { accepted false 0x20E417 [] with seq := [⟨none, 8, 0⟩] } = .next t ∧
      t.busy = false :=
  ⟨⟨_, rfl⟩, _, rfl, rfl⟩

theorem witness_InitListing :
    (busyAt false [⟨none, 0, 0⟩] []).valid = true ∧
    ((latchCommand 0 State.reset).seq = ⟨none, 0, 0⟩ :: [] ∧ (latchCommand 0 State.reset).valid = false) ∧
    (0x1A : BitVec 5) &&& 0b11011 ≠ 0b11011 ∧ (0x1F : BitVec 5) &&& 0b11011 = 0b11011 ∧ (1 : BitVec 32) ≠ 0 ∧
    (busyAt false [⟨none, 1, 0⟩] []).seq = ⟨none, 1, 0⟩ :: [] := by
  decide

theorem witness_HalfPeriod : (1 : BitVec 32) ≠ 0 ∧ (0xFFFFFFFF : BitVec 32) ≠ 0 := by decide

theorem witness_DeinitListing :
    ((latchCommand 1 State.reset).seq = ⟨none, 0, 0⟩ :: [] ∧ (latchCommand 1 State.reset).valid = false) ∧
    ((accepted false 1 []).valid = true ∧ (accepted false 1 []).started = false) ∧
    (∀ l ∈ [1, 2, 3], ({ busyAt false [⟨none, l, 0⟩] [] with started := true } : State).seq = ⟨none, l, 0⟩ :: []) := by
  decide

theorem witness_MasterLifetime :
    (∃ t, step (accepted false 1 []) = .next t) ∧ (accepted false 1 []).rstIn = false ∧
      fetch (accepted false 1 []) = some .deinit :=
  ⟨⟨_, rfl⟩, rfl, by decide⟩

/-- Every line of a listing is at the top of some `SEQ`; callers below. -/
theorem witness_listing_lines (c : Option Instr) (l p : Nat) (rest : List Frame) :
    (busyAt true (⟨c, l, p⟩ :: rest) []).seq = ⟨c, l, p⟩ :: rest := rfl

theorem witness_WriteBitListing :
    (∀ l ∈ [1, 2, 3, 4, 5, 6, 7], (busyAt true [⟨some (.writeBit true), l, 0⟩, ⟨none, 3, 0⟩] []).seq =
      ⟨some (.writeBit true), l, 0⟩ :: [⟨none, 3, 0⟩]) ∧
    (let s := busyAt true [⟨some (.writeBit true), 5, 0⟩] [(false, true)]
     halRdScl s.halcap = true ∧ (s.sclO && (driveAt s 0).1) = false) ∧
    (let s := busyAt true [⟨some (.writeBit true), 5, 0⟩] [(true, true)]
     halRdScl s.halcap = true ∧ (s.sclO && (driveAt s 0).1) = true) ∧
    halRdScl (busyAt false [⟨some (.writeBit true), 5, 0⟩] []).halcap = false := by
  decide

theorem witness_ReadBitListing :
    (∀ l ∈ [1, 2, 3, 4, 5, 6, 7, 8], (busyAt true [⟨some .readBit, l, 0⟩, ⟨none, 3, 0⟩] []).seq =
      ⟨some .readBit, l, 0⟩ :: [⟨none, 3, 0⟩]) ∧
    (let s := busyAt true [⟨some .readBit, 5, 0⟩] [(false, true)]
     halRdScl s.halcap = true ∧ (s.sclO && (driveAt s 0).1) = false) ∧
    (let s := busyAt true [⟨some .readBit, 5, 0⟩] [(true, true)]
     halRdScl s.halcap = true ∧ (s.sclO && (driveAt s 0).1) = true) ∧
    halRdScl (busyAt false [⟨some .readBit, 5, 0⟩] []).halcap = false := by
  decide

/-- A called routine with its caller, the clock held low for one poll at the micro-operation `k`, and not held at all. -/
def pollScript (k : Nat) : List (Bool × Bool) := List.replicate k (true, true) ++ [(false, true), (true, true), (true, false)]

theorem witness_WriteBitCell :
    let s := busyAt true [⟨some (.writeBit true), 1, 0⟩, ⟨some (.writeByte 0xA0), 2, 0⟩, ⟨none, 3, 0⟩] (pollScript 4)
    Called (.writeBit true) ⟨some (.writeByte 0xA0), 2, 0⟩ [⟨none, 3, 0⟩] s ∧ holdsClock s 4 1 ∧ holdsClock s 3 0 :=
  ⟨⟨rfl, rfl, rfl⟩, fun _ => by decide, fun _ => by decide⟩

theorem witness_ReadBitCell :
    let s := busyAt true [⟨some .readBit, 1, 0⟩, ⟨some (.writeByte 0xA0), 4, 0⟩, ⟨none, 3, 0⟩] (pollScript 4 ++ [(true, false)])
    Called .readBit ⟨some (.writeByte 0xA0), 4, 0⟩ [⟨none, 3, 0⟩] s ∧ holdsClock s 4 1 ∧
      false = (driveAt s ((readBitOps s.half (pollsOf (halRdScl s.halcap) 1) false).length - 1)).2 :=
  ⟨⟨rfl, rfl, rfl⟩, fun _ => by decide, by decide⟩

theorem witness_StretchHang :
    let s := busyAt true [⟨some .restart, 6, 0⟩, ⟨none, 7, 0⟩] [(false, true), (false, true)]
    s.rstIn = false ∧ s.busy = true ∧ atStretch s = true ∧ halRdScl s.halcap = true ∧ ∀ j < 2, (driveAt s j).1 = false := by
  decide

/-- A `CONNECT 0x50, 1` in an open transaction at its first bit: the invariant holds in the middle of a command. -/
def inHeader (l : Nat) : State :=
  { accepted true 0xD04 [(true, true)] with
    started := true, sdaO := false, shreg := 0xA0, bitk := 7, sclO := l == 1,
    seq := [⟨some (.writeBit true), l, 0⟩, ⟨some (.writeByte 0xA0), 2, 0⟩, ⟨none, 3, 0⟩] }

theorem witness_BitEngineMakesNoCondition :
    inv (inHeader 1) = true ∧ inv (inHeader 3) = true ∧ (inHeader 3).rstIn = false ∧ fetch (inHeader 3) = some (.writeBit true) ∧
      ∃ t e, step (inHeader 3) = .next t ∧ t.trace = e :: (inHeader 3).trace :=
  ⟨by decide, by decide, by decide, by decide, _, _, rfl, rfl⟩

/-- `STOP` about to make its condition. -/
def aboutToStop : State := { accepted true 3 [(true, true)] with seq := [⟨none, 8, 0⟩], sdaO := false, started := true }

/-- `START` about to make its condition. -/
def aboutToStart : State := { accepted true 2 [(true, true)] with seq := [⟨none, 3, 0⟩] }

theorem witness_DataWrittenWhileClockHigh :
    (inv aboutToStop = true ∧ aboutToStop.rstIn = false ∧ aboutToStop.sclO = true ∧
      ∃ t e, step aboutToStop = .next t ∧ t.trace = e :: aboutToStop.trace ∧ e.op = .lineWrite .sda true ∧ t.rstIn = false) ∧
    (inv aboutToStart = true ∧ ∃ t e, step aboutToStart = .next t ∧ t.trace = e :: aboutToStart.trace ∧
      e.op = .lineWrite .sda false) :=
  ⟨⟨by decide, by decide, by decide, _, _, rfl, rfl, rfl, rfl⟩, by decide, _, _, rfl, rfl, rfl⟩

theorem witness_WriteByteListing :
    (∀ l ∈ [1, 2, 3, 4, 5, 6], (busyAt true [⟨some (.writeByte 0xA0), l, 0⟩, ⟨none, 3, 0⟩] []).seq =
      ⟨some (.writeByte 0xA0), l, 0⟩ :: [⟨none, 3, 0⟩]) ∧
    0 < ({ busyAt true [] [] with bitk := 7 } : State).bitk.toNat ∧ (busyAt true [] []).bitk = 0 := by
  decide

theorem witness_ReadByteListing :
    (∀ l ∈ [1, 2, 3, 4, 5, 6, 7], (busyAt true [⟨some (.readByte true), l, 0⟩, ⟨none, 4, 3⟩] []).seq =
      ⟨some (.readByte true), l, 0⟩ :: [⟨none, 4, 3⟩]) ∧
    0 < ({ busyAt true [] [] with bitk := 1 } : State).bitk.toNat ∧ (busyAt true [] []).bitk = 0 := by
  decide

theorem witness_WriteByteFrame :
    let s := busyAt true [⟨some (.writeByte 0xA0), 1, 0⟩, ⟨none, 3, 0⟩] (List.replicate 55 (true, false))
    Called (.writeByte 0xA0) ⟨none, 3, 0⟩ [] s ∧ noStretch s (writeByteLen (halRdScl s.halcap)) ∧
      false = (driveAt s (writeByteLen (halRdScl s.halcap) - 1)).2 :=
  ⟨⟨rfl, rfl, rfl⟩, fun _ => by decide, by decide⟩

theorem witness_ReadByteFrame :
    let s := busyAt true [⟨some (.readByte true), 1, 0⟩, ⟨none, 4, 3⟩] (List.replicate 63 (true, true))
    Called (.readByte true) ⟨none, 4, 3⟩ [] s ∧ noStretch s (readByteLen (halRdScl s.halcap)) ∧
      (∀ j < 8, (0xFF : Byte).getLsbD (7 - j) = (driveAt s ((j + 1) * readBitLen (halRdScl s.halcap) - 1)).2) ∧
      true = (true && (driveAt s (readByteLen (halRdScl s.halcap) - 1)).2) :=
  ⟨⟨rfl, rfl, rfl⟩, fun _ => by decide, by decide, by decide⟩

/-- `READ 0x50, 1` whose only byte has just been read back. -/
def readBack (final : Bool) : State :=
  { accepted true (if final then 0x100506 else 0x200506) [] with
    started := true, ackl := true, sdaO := final, seq := [⟨some (.readByte final), 6, 0⟩, ⟨none, 4, 3⟩] }

theorem witness_NinthBitReadBack :
    ∀ final : Bool, inv (readBack final) = true ∧ (readBack final).rstIn = false ∧
      (readBack final).seq = ⟨some (.readByte final), 6, 0⟩ :: [⟨none, 4, 3⟩] ∧ ∃ t, step (readBack final) = .next t := by
  intro final
  cases final <;> exact ⟨by decide, rfl, rfl, _, rfl⟩

theorem witness_StartListing :
    ((latchCommand 2 State.reset).seq = ⟨none, 0, 0⟩ :: [] ∧ (latchCommand 2 State.reset).valid = false) ∧
    ((accepted true 2 []).seq = ⟨none, 0, 0⟩ :: [] ∧ (accepted true 2 []).valid = true) ∧
    ∀ l ∈ [1, 2, 3, 4, 5, 6], (busyAt true [⟨some .start, l, 0⟩, ⟨none, 2, 0⟩] []).seq = ⟨some .start, l, 0⟩ :: [⟨none, 2, 0⟩] := by
  decide

theorem witness_StopListing :
    ((latchCommand 3 State.reset).seq = ⟨none, 0, 0⟩ :: [] ∧ (latchCommand 3 State.reset).valid = false) ∧
    ((accepted true 3 []).seq = ⟨none, 0, 0⟩ :: [] ∧ (accepted true 3 []).valid = true) ∧
    (∀ l ∈ [1, 2, 3, 4, 5, 6, 7, 8, 9, 10, 11], (busyAt true [⟨some .stop, l, 0⟩, ⟨none, 2, 0⟩] []).seq =
      ⟨some .stop, l, 0⟩ :: [⟨none, 2, 0⟩]) ∧
    (let s := busyAt true [⟨some .stop, 6, 0⟩, ⟨none, 2, 0⟩] [(false, true)]
     halRdScl s.halcap = true ∧ (s.sclO && (driveAt s 0).1) = false) ∧
    (let s := busyAt true [⟨some .stop, 6, 0⟩, ⟨none, 2, 0⟩] [(true, true)]
     halRdScl s.halcap = true ∧ (s.sclO && (driveAt s 0).1) = true) ∧
    halRdScl (busyAt false [⟨some .stop, 6, 0⟩, ⟨none, 2, 0⟩] []).halcap = false := by
  decide

theorem witness_RestartListing :
    (∀ l ∈ [1, 2, 3, 4, 5, 6, 7, 8, 9, 10, 11], (busyAt true [⟨some .restart, l, 0⟩, ⟨none, 7, 0⟩] []).seq =
      ⟨some .restart, l, 0⟩ :: [⟨none, 7, 0⟩]) ∧
    (let s := busyAt true [⟨some .restart, 6, 0⟩, ⟨none, 7, 0⟩] [(false, true)]
     halRdScl s.halcap = true ∧ (s.sclO && (driveAt s 0).1) = false) ∧
    (let s := busyAt true [⟨some .restart, 6, 0⟩, ⟨none, 7, 0⟩] [(true, true)]
     halRdScl s.halcap = true ∧ (s.sclO && (driveAt s 0).1) = true) ∧
    halRdScl (busyAt false [⟨some .restart, 6, 0⟩, ⟨none, 7, 0⟩] []).halcap = false := by
  decide

theorem witness_ConnectListing :
    ((0xA1 : Byte).extractLsb' 1 7 = 0x50 ∧ (0xA1 : Byte).getLsbD 0 = !false) ∧
    ((latchCommand 0x504 State.reset).seq = ⟨none, 0, 0⟩ :: [] ∧ (latchCommand 0x504 State.reset).valid = false) ∧
    ((accepted true 0x504 []).valid = true ∧ (accepted true 0x504 []).started = false) ∧
    ({ accepted true 0x504 [] with started := true } : State).started = true ∧
    (∀ l ∈ [1, 2, 3, 4], (busyAt true [⟨some (.connect 0x50 false), l, 0⟩, ⟨none, 3, 0⟩] []).seq =
      ⟨some (.connect 0x50 false), l, 0⟩ :: [⟨none, 3, 0⟩]) ∧
    (busyAt true [⟨none, 1, 0⟩] []).seq = ⟨none, 1, 0⟩ :: [] := by
  decide

theorem witness_accepted (i : Instr) (rd : Bool) (w : CmdWord) (script : List (Bool × Bool)) (h : decode w = .ok i) :
    Accepted i (accepted rd w script) ∧ (accepted rd w script).valid = true :=
  ⟨⟨rfl, rfl, rfl, h, rfl, rfl, rfl, rfl, rfl, rfl, rfl⟩, rfl⟩

theorem witness_StartRun :
    Called .start ⟨none, 2, 0⟩ [] (busyAt true [⟨some .start, 1, 0⟩, ⟨none, 2, 0⟩] []) ∧ Accepted .start (accepted true 2 []) :=
  ⟨⟨rfl, rfl, rfl⟩, (witness_accepted .start true 2 [] (by decide)).1⟩

theorem witness_StopRun :
    (let s := busyAt true [⟨some .stop, 1, 0⟩, ⟨none, 5, 0⟩] (pollScript 5)
     Called .stop ⟨none, 5, 0⟩ [] s ∧ holdsClock s 5 1) ∧
    Accepted .stop (accepted true 3 (pollScript 5)) ∧ holdsClock (accepted true 3 (pollScript 5)) 5 1 :=
  ⟨⟨⟨rfl, rfl, rfl⟩, fun _ => by decide⟩, (witness_accepted .stop true 3 _ (by decide)).1, fun _ => by decide⟩

theorem witness_RestartRun :
    let s := busyAt true [⟨some .restart, 1, 0⟩, ⟨none, 7, 0⟩] (pollScript 5)
    Called .restart ⟨none, 7, 0⟩ [] s ∧ holdsClock s 5 1 ∧ holdsClock s 6 0 :=
  ⟨⟨rfl, rfl, rfl⟩, fun _ => by decide, fun _ => by decide⟩

/-- `CONNECT 0x50, 1` accepted in an open transaction, the slave acknowledging and not stretching. -/
def connecting : State := { accepted true 0xD04 (List.replicate 55 (true, false)) with started := true }

theorem witness_ConnectRun :
    Accepted (.connect 0x50 true) connecting ∧ connecting.valid = true ∧ connecting.started = true ∧
      noStretch connecting (writeByteLen (halRdScl connecting.halcap)) ∧
      false = (driveAt connecting (writeByteLen (halRdScl connecting.halcap) - 1)).2 :=
  ⟨⟨rfl, rfl, rfl, by decide, rfl, rfl, rfl, rfl, rfl, rfl, rfl⟩, rfl, rfl, fun _ => by decide, by decide⟩

/-- `DEINIT` accepted in an open transaction. -/
def tearingDown : State := { accepted true 1 (pollScript 5) with started := true }

theorem witness_DeinitRun :
    Accepted .deinit tearingDown ∧ tearingDown.valid = true ∧ tearingDown.started = true ∧ holdsClock tearingDown 5 1 ∧
      Accepted .deinit (accepted true 1 []) ∧ (accepted true 1 []).started = false :=
  ⟨⟨rfl, rfl, rfl, by decide, rfl, rfl, rfl, rfl, rfl, rfl, rfl⟩, rfl, rfl, fun _ => by decide,
    (witness_accepted .deinit true 1 [] (by decide)).1, rfl⟩

/-- The clauses of the composite listings: every line, the acknowledge either way, the loop test either way, both ends of `BUF`. -/
theorem witness_composite_listings :
    (∀ l ∈ [0, 1, 2, 3, 4, 5, 6, 7, 8, 9, 10, 11], ∀ p ∈ [0, 1, 2, 3, 4, 5, 6],
      (busyAt true [⟨none, l, p⟩] []).seq = ⟨none, l, p⟩ :: []) ∧
    (busyAt true [] []).res = false ∧ ({ busyAt true [] [] with res := true } : State).res = true ∧
    (latchCommand 5 State.reset).valid = false ∧ (busyAt true [] []).flt = false ∧
    ({ busyAt true [] [] with flt := true } : State).flt = true ∧
    ({ busyAt true [] [] with idx := 65534 } : State).idx.toNat < bufSize ∧
    ¬({ busyAt true [] [] with idx := 65535 } : State).idx.toNat < bufSize ∧ (0 : Count) = 0 ∧ (0 : Count) ≠ 1 := by
  decide

/-- The peer of the transfers below: the clock free, every byte acknowledged. -/
def ackAll (n : Nat) : List (Bool × Bool) := List.replicate n (true, false)

theorem witness_WriteTransfer :
    let s := accepted true 0x505 (ackAll 70)
    let T := writeTransfer s.half (halRdScl s.halcap) (fun k => (driveAt s k).2) s.buf 0x50 0
    Accepted (.write 0x50 0) s ∧ s.valid = true ∧ noStretch s T.ops.length :=
  ⟨(witness_accepted _ true _ _ (by decide)).1, rfl, fun _ => by decide⟩

set_option maxRecDepth 4000 in
/-- One byte, the clock readable: header, byte and the two conditions. -/
theorem witness_WriteTransfer_byte :
    let s := accepted true 0x100505 (ackAll 130)
    let T := writeTransfer s.half (halRdScl s.halcap) (fun k => (driveAt s k).2) s.buf 0x50 1
    Accepted (.write 0x50 1) s ∧ noStretch s T.ops.length :=
  ⟨(witness_accepted _ true _ _ (by decide)).1, fun _ => by decide⟩

set_option maxRecDepth 4000 in
theorem witness_ReadTransfer_byte :
    let s := accepted true 0x100506 (ackAll 140)
    let T := readTransfer s.half (halRdScl s.halcap) (fun k => (driveAt s k).2) s.buf 0x50 1
    Accepted (.read 0x50 1) s ∧ noStretch s T.ops.length :=
  ⟨(witness_accepted _ true _ _ (by decide)).1, fun _ => by decide⟩

theorem witness_ReadTransfer :
    let s := accepted true 0x506 (ackAll 70)
    let T := readTransfer s.half (halRdScl s.halcap) (fun k => (driveAt s k).2) s.buf 0x50 0
    Accepted (.read 0x50 0) s ∧ s.valid = true ∧ noStretch s T.ops.length :=
  ⟨(witness_accepted _ true _ _ (by decide)).1, rfl, fun _ => by decide⟩

theorem witness_WriteRegTransfer :
    let s := accepted false 0x20E417 []
    let T := writeRegTransfer s.half (halRdScl s.halcap) (fun k => (driveAt s k).2) s.buf 0x41 0x0E 2
    Accepted (.writeReg 0x41 0x0E 2) s ∧ s.valid = true ∧ noStretch s T.ops.length :=
  ⟨(witness_accepted _ false _ _ (by decide)).1, rfl, fun h => absurd h (by decide)⟩

theorem witness_ReadRegTransfer :
    let s := accepted false 0x20E418 []
    let T := readRegTransfer s.half (halRdScl s.halcap) (fun k => (driveAt s k).2) s.buf 0x41 0x0E 2
    Accepted (.readReg 0x41 0x0E 2) s ∧ s.valid = true ∧ noStretch s T.ops.length :=
  ⟨(witness_accepted _ false _ _ (by decide)).1, rfl, fun h => absurd h (by decide)⟩

/-- `READ 0x50, 2` about to respond after a bus fault on its last byte. -/
def faulted : State :=
  { accepted true 0x200506 [] with seq := [⟨none, 6, 0⟩], ackl := true, fault := true, cnt := 1, sdaO := true }

theorem witness_CompositeEnds :
    inv faulted = true ∧ faulted.rstIn = false ∧ faulted.busy = true ∧ 5 ≤ faulted.opc.toNat ∧ faulted.opc.toNat ≤ 8 ∧
      ∃ t, step faulted = .next t ∧ t.busy = false ∧ rspCode t.rsp = 0 ∧ rspFault t.rsp = true :=
  ⟨by decide, by decide, by decide, by decide, by decide, _, rfl, by decide, by decide, by decide⟩

theorem witness_NoOtherLines :
    (busyAt true [] []).seq = [] ∧ lastLine .readBit < 9 ∧ Instr.issuable (.writeBit true) = false ∧
      loopLine (.readReg 1 2 3) = some 9 ∧ 6 < 7 := by
  decide

theorem witness_InvKept : inv (inHeader 1) = true ∧ inv faulted = true ∧ inv State.reset = true := by decide

/-- `READ 0x50, 2` about to store its second byte. -/
def storing : State :=
  { accepted true 0x200506 [(true, true)] with
    seq := [⟨none, 4, 4⟩], started := true, ackl := true, idx := 1, cnt := 1, shreg := 0x34 }

theorem witness_InvKeptByHost :
    inv State.reset = true ∧ inv (inHeader 3) = true ∧ ∃ t, hostAct (.bufWrite 65534 0x55) State.reset = .next t :=
  ⟨by decide, by decide, _, rfl⟩

/-- The peer moves while the controller idles, and plans to acknowledge: R48's level at an instant between commands. -/
theorem test_peer_moves :
    (match runMoves [.host (.present 2), .peer (.plan [(true, false)]), .tick, .peer (.drive false true)] State.reset with
      | .next t => t.busy && !level .scl t && level .sda t && driveAt t 0 == (true, false)
      | _ => false) = true := by
  decide

/-- U13: the host changes a byte lent to a receiving command. -/
theorem test_lent_to_receiver : hostAct (.bufWrite 1 0) storing = .fault (.bufRace 1) := rfl

theorem witness_BetweenCommands :
    (runMoves [] State.reset = .next State.reset ∧ State.reset.busy = false ∧ State.reset.valid = false) ∧
    ∃ s, runMoves [.host (.present 0x00000064000001F0), .tick, .tick] State.reset = .next s ∧ s.busy = false ∧ s.valid = true :=
  ⟨⟨rfl, rfl, rfl⟩, _, rfl, rfl, rfl⟩

theorem witness_OneMicroOperation :
    (∃ t, step State.reset = .next t ∧ t.trace = State.reset.trace) ∧
    ∃ t, step aboutToStop = .next t ∧ t.trace ≠ aboutToStop.trace :=
  ⟨⟨_, rfl, rfl⟩, _, rfl, by decide⟩

theorem witness_StartedWriters :
    let s := { accepted false 2 [] with seq := [⟨none, 5, 0⟩] }
    s.rstIn = false ∧ ∃ t, step s = .next t ∧ t.started ≠ s.started :=
  ⟨rfl, _, rfl, by decide⟩

theorem witness_FlagWriters :
    (∃ t, step (busyAt false [⟨some (.writeByte 0xA0), 5, 0⟩, ⟨none, 3, 0⟩] []) = .next t ∧ t.ackl = true) ∧
    (∃ t, step (readBack true) = .next t ∧ t.flt ≠ (readBack true).flt) ∧
    ∃ t, step { accepted false 0x200506 [] with seq := [⟨none, 4, 5⟩], flt := true } = .next t ∧ t.fault = true :=
  ⟨⟨_, rfl, rfl⟩, ⟨_, rfl, by decide⟩, _, rfl, rfl⟩

/-- `WRITE 0x50, 1` about to fetch its byte. -/
def fetching : State :=
  { accepted true 0x100505 [(true, true)] with seq := [⟨none, 4, 0⟩], started := true, res := true, buf := [(0, 0x55)] }

theorem witness_BufferAccess :
    (inv storing = true ∧ storing.rstIn = false ∧ ∃ t, step storing = .next t ∧ Memory.read t.buf 1 = 0x34) ∧
    (inv fetching = true ∧ ∃ t e, step fetching = .next t ∧ t.trace = e :: fetching.trace ∧ e.op = .memRead 0 0x55) :=
  ⟨⟨by decide, by decide, _, rfl, by decide⟩, by decide, _, _, rfl, rfl, rfl⟩

theorem witness_HostBuffer :
    Memory.wf fetching.buf = true ∧ (0 : Nat) < bufSize ∧
    (fetching.busy = true ∧ fetching.opc = 5 ∧ 0 < fetching.len.toNat ∧ fetching.len.toNat ≤ 1) ∧
    (storing.busy = true ∧ storing.opc = 6 ∧ 1 < storing.len.toNat ∧ storing.len.toNat ≤ 2) ∧
    State.reset.busy = false ∧ 65534 < bufSize := by
  decide

theorem witness_WorkingRegistersNeverMatter :
    let s := State.reset
    let s' := { State.reset with flt := true, len := 7, idx := 3, cnt := 9, shreg := 0xFF, bitk := 5, res := true, dat := 1 }
    inv s = true ∧ s.busy = false ∧ visible s' = visible s ∧
      ∃ t, runMoves [.host (.present 0x00000064000001F0), .tick, .tick] s = .next t :=
  ⟨by decide, rfl, rfl, _, rfl⟩

theorem witness_CommandsEnd :
    let s := accepted false 0x505 []
    inv s = true ∧ s.rstIn = false ∧ (halRdScl s.halcap = true → ∀ j, (driveAt s j).1 = true) :=
  ⟨by decide, rfl, fun h => absurd h (by decide)⟩

theorem witness_ControllersIndependent :
    (0 : Nat) ≠ 1 ∧ [State.reset, aboutToStop][0]? = some State.reset ∧ [State.reset, aboutToStop][1]? = some aboutToStop ∧
      (∃ t, step State.reset = .next t) ∧ (∃ v, step aboutToStop = .next v) ∧ onDistinctBuses (instancesAtReset 3) = true :=
  ⟨by decide, rfl, rfl, ⟨_, rfl⟩, ⟨_, rfl⟩, by decide⟩

end Sys2Proof.Tests
end

section
/-! PROOFS. What the host and the peer do between two steps, and what one step does at the lines, in `BUF` and in the history. -/

namespace Sys2Proof.Machine

/-! ### The host's and the peer's actions keep the invariant -/

/-- What `seqOk` looks at: the latches, the lines and the positions, but no port, no peer and not `BUF`. -/
theorem seqOk_congr {s t : State} (hq : t.seq = s.seq) (hb : t.busy = s.busy) (hm : t.valid = s.valid)
    (ht : topView t = topView s) (hw : waitView t = waitView s) (hl : latchView t = latchView s) : seqOk t = seqOk s := by
  have latches : latchesOk t = latchesOk s := by
    rw [show latchesOk t = latchesOk (latchView t) from rfl, hl]; rfl
  have disp : dispatched t = dispatched s := by
    rw [show dispatched t = (t.valid && (dispatchedCommand (latchView t)).isSome) from rfl, hm, hl]; rfl
  have released : busReleased t = busReleased s := by
    rw [show busReleased t = busReleased (topView t) from rfl, ht]; rfl
  have ackl : t.ackl = s.ackl := by
    rw [show t.ackl = (topView t).ackl from rfl, ht]; rfl
  have fault : t.fault = s.fault := by
    rw [show t.fault = (topView t).fault from rfl, ht]; rfl
  unfold seqOk
  rw [hq]
  cases s.seq with
  | nil => simp only [hb, released]
  | cons f rest =>
    obtain ⟨c, l, p⟩ := f
    cases c <;> simp only [hb, latches, disp, released, ackl, fault, latchedCommand_congr hl, topOk_congr ht,
      callersOk_congr hw hl]

/-- The word on the command port is free, and so is `BUF` in its canonical form. -/
theorem inv_hostFields {s : State} (hs : inv s = true) (c : Option CmdWord) {m : Memory} (hm : Memory.wf m = true) :
    inv { s with cmdIn := c, buf := m } = true := by
  simp only [inv, Bool.and_eq_true] at hs ⊢
  obtain ⟨⟨⟨master, rsp⟩, -⟩, seq⟩ := hs
  have same : seqOk { s with cmdIn := c, buf := m } = seqOk s := seqOk_congr rfl rfl rfl rfl rfl rfl
  exact ⟨⟨⟨master, rsp⟩, hm⟩, same.trans seq⟩

theorem inv_bufWf {s : State} (hs : inv s = true) : Memory.wf s.buf = true := by
  simp only [inv, Bool.and_eq_true] at hs
  exact hs.1.2

theorem inv_driveReset {s : State} (hs : inv s = true) (on : Bool) : inv (driveReset on s) = true := by
  unfold driveReset
  split
  · exact inv_doReset (inv_bufWf hs) on
  · exact hs

theorem inv_hostAct {s t : State} (hs : inv s = true) (a : HostAct) (h : hostAct a s = .next t) : inv t = true := by
  cases a with
  | present w =>
    cases h
    exact inv_hostFields hs (some w) (inv_bufWf hs)
  | withdraw =>
    cases h
    exact inv_hostFields hs none (inv_bufWf hs)
  | reset on =>
    cases h
    exact inv_driveReset hs on
  | bufWrite i v =>
    simp only [hostAct] at h
    split at h
    case isFalse => cases h
    case isTrue hi =>
      split at h
      · cases h
      · cases h
        exact inv_hostFields hs s.cmdIn (Memory.wf_write s.buf v (inv_bufWf hs) hi)

theorem inv_peerAct (a : PeerAct) (s : State) : inv (peerAct a s) = inv s := by
  cases a <;> exact inv_congr rfl

/-- Settles O51: a host action touches only the command port, `BUF` inside its bounds or resets; a peer action is not seen by `inv`. -/
theorem invKeptByHost : Obligations.InvKeptByHost :=
  fun s hs => ⟨fun a _ h => inv_hostAct hs a h, fun a => (inv_peerAct a s).trans hs⟩

/-! ### What a step does at the lines, in `BUF` and in the history

`busView` is the part of the state that micro-operations and the peer change. Every line of every listing changes it as `peerRest`
does or as one micro-operation does; the rest of a line is register work and moves of `SEQ`, which `busView` does not show. -/

/-- The latches, the peer, `BUF` and the history. -/
def busView (s : State) : State :=
  { State.reset with
    sclO := s.sclO, sdaO := s.sdaO, peerScl := s.peerScl, peerSda := s.peerSda, peerScript := s.peerScript,
    peerTime := s.peerTime, restTime := s.restTime, bus := s.bus, buf := s.buf, trace := s.trace }

/-- `MemRead(i, 1)` (R42) as far as `busView` shows it. -/
def fetchAt (i : Count) (s : State) : State :=
  record (.memRead i (Memory.read s.buf i.toNat)) (peerMove s) (peerMove s)

/-- `MemWrite(i, 1, v)` (R43). -/
def storeAt (i : Count) (v : Byte) (s : State) : State :=
  record (.memWrite i v) (peerMove s) { peerMove s with buf := Memory.write s.buf i.toNat v }

/-- From `s` to `t` nothing was issued, or exactly one micro-operation (R7). -/
inductive AtMostOneOp (s t : State) : Prop where
  | rest (h : busView t = busView (peerRest s))
  | lineWrite (l : Line) (b : Bool) (h : busView t = busView (lineWrite l b s))
  | lineRead (l : Line) (h : busView t = busView (lineRead l s))
  | delay (h : busView t = busView (delay s))
  | memRead (i : Count) (h : busView t = busView (fetchAt i s))
  | memWrite (i : Count) (v : Byte) (h : busView t = busView (storeAt i v s))

/-- If `o` is a next state, it is at most one micro-operation after `s`. -/
structure OneOp (s : State) (o : Out) : Prop where
  of_next : ∀ t, o = .next t → AtMostOneOp s t

/-! The shared operations. -/

@[simp] theorem oneOp_fault (s : State) (r : Fault) : OneOp s (.fault r) := by
  constructor
  intro t h
  cases h

theorem oneOp_next {s t : State} (h : AtMostOneOp s t) : OneOp s (.next t) := by
  constructor
  rintro _ ⟨⟩
  exact h

theorem OneOp.ite {s : State} {c : Prop} [Decidable c] {a b : Out} (ha : OneOp s a) (hb : OneOp s b) :
    OneOp s (if c then a else b) := by
  split
  · exact ha
  · exact hb

/-- The peer's drive in a silent step does not depend on the registers. -/
theorem busView_peerRest {s u : State} (h : busView u = busView s) : busView (peerRest u) = busView (peerRest s) := by
  rw [show busView (peerRest u) = busView (peerRest (busView u)) from rfl, h]
  rfl

@[simp] theorem oneOp_callAt {s u : State} (line loop : Nat) (r : Instr) (h : busView u = busView s) :
    OneOp s (callAt line loop r u) :=
  oneOp_next (.rest (busView_peerRest h))

@[simp] theorem oneOp_sendBit {s u : State} (h : busView u = busView s) : OneOp s (sendBit u) := oneOp_callAt 2 0 _ h

@[simp] theorem oneOp_respond {s u : State} (c : Code) (h : busView u = busView s) : OneOp s (.next (respond c u)) :=
  oneOp_next (.rest (busView_peerRest h))

@[simp] theorem oneOp_raise (s : State) (c : Code) : OneOp s (raise c s) := oneOp_respond c rfl

@[simp] theorem oneOp_finish {s u : State} (h : busView u = busView s) : OneOp s (finish u) := by
  unfold finish
  split
  · exact oneOp_fault s _
  · split
    · exact oneOp_respond .ok h
    · split
      · exact oneOp_fault s _
      · exact oneOp_next (.rest (busView_peerRest h))

@[simp] theorem oneOp_lineWrite (s : State) (line : Nat) (l : Line) (b : Bool) :
    OneOp s (.next (goto line (lineWrite l b s))) :=
  oneOp_next (.lineWrite l b rfl)

@[simp] theorem oneOp_lineRead (s : State) (line : Nat) (l : Line) : OneOp s (.next (goto line (lineRead l s))) :=
  oneOp_next (.lineRead l rfl)

@[simp] theorem oneOp_delay (s : State) (line : Nat) : OneOp s (.next (goto line (delay s))) :=
  oneOp_next (.delay rfl)

@[simp] theorem oneOp_highPhase (s : State) : OneOp s (highPhase s) := oneOp_delay s 7

/-- A `Stretch()` line polls the clock, or leaves the step to the line it skips to (R92). -/
@[simp] theorem oneOp_stretch {s : State} {skip : State → Out} (h : OneOp s (skip s)) (after : Nat) :
    OneOp s (stretch after skip s) :=
  .ite (.ite (oneOp_lineRead s after .scl) (oneOp_next (.lineRead .scl rfl))) h

@[simp] theorem oneOp_txFetch {s u : State} (line : Nat) (h : busView u = busView s) : OneOp s (txFetch line u) :=
  .ite (oneOp_next (.memRead u.idx (congrArg (fun x => busView (fetchAt u.idx x)) h))) (oneOp_fault s _)

theorem oneOp_memWrite (s : State) (v : Byte) (line loop : Nat) :
    OneOp s (memWrite v s fun x => .next (setPos line loop x)) :=
  .ite (oneOp_next (.memWrite s.idx v rfl)) (oneOp_fault s _)

theorem oneOp_withPos {s : State} {body : Nat → Nat → Out} (h : ∀ line loop, OneOp s (body line loop)) :
    OneOp s (withPos s body) := by
  unfold withPos
  split
  · exact oneOp_fault s _
  · exact h _ _

theorem oneOp_asCommand {s : State} {check : Option Code} {body : Nat → Nat → Out}
    (h : ∀ line loop, OneOp s (body line loop)) : OneOp s (asCommand check body s) := by
  refine oneOp_withPos fun line loop => ?_
  cases line with
  | zero =>
    cases check with
    | none => exact h 1 0
    | some c => exact oneOp_raise s c
  | succ k => exact h (k + 1) loop

/-! The loops of the composite commands. -/

@[simp] theorem oneOp_leaveToStop {s u : State} (out : Nat) (h : busView u = busView s) : OneOp s (leaveToStop out u) :=
  oneOp_callAt out 0 .stop h

@[simp] theorem oneOp_txTest {s u : State} (line out : Nat) (n : Count) (h : busView u = busView s) :
    OneOp s (txTest line out n u) :=
  .ite (oneOp_leaveToStop out h) (oneOp_txFetch line h)

@[simp] theorem oneOp_rxTest {s u : State} (line out : Nat) (n : Count) (h : busView u = busView s) :
    OneOp s (rxTest line out n u) :=
  .ite (oneOp_leaveToStop out h) (oneOp_callAt line 3 _ h)

@[simp] theorem oneOp_txLoop (s : State) (line out : Nat) (n : Count) (loop : Nat) : OneOp s (txLoop line out n loop s) := by
  unfold txLoop
  split
  · exact oneOp_txTest line out n rfl
  · exact oneOp_txTest line out n rfl
  · exact oneOp_txFetch line rfl
  · exact oneOp_callAt line 4 _ rfl
  · exact .ite (oneOp_txTest line out n rfl) (oneOp_leaveToStop out rfl)
  · exact oneOp_txTest line out n rfl
  · exact oneOp_fault s _

@[simp] theorem oneOp_rxLoop (s : State) (line out : Nat) (n : Count) (loop : Nat) : OneOp s (rxLoop line out n loop s) := by
  unfold rxLoop
  split
  · exact oneOp_rxTest line out n rfl
  · exact oneOp_rxTest line out n rfl
  · exact oneOp_callAt line 3 _ rfl
  · exact oneOp_memWrite s _ line 5
  · exact .ite (oneOp_leaveToStop out rfl) (oneOp_rxTest line out n rfl)
  · exact oneOp_rxTest line out n rfl
  · exact oneOp_fault s _

/-! The listings: `busView` does not show a line's register work, so every line is one shared operation. -/

theorem oneOp_execWriteBit (v : Bool) (s : State) : OneOp s (execWriteBit v s) :=
  oneOp_withPos fun line _ => by split <;> simp

theorem oneOp_execReadBit (s : State) : OneOp s (execReadBit s) :=
  oneOp_withPos fun line _ => by split <;> simp

theorem oneOp_execWriteByte (d : Byte) (s : State) : OneOp s (execWriteByte d s) :=
  oneOp_withPos fun line _ => by
    split
    case h_1 => exact oneOp_sendBit rfl
    case h_3 => exact .ite (oneOp_callAt 4 0 .readBit rfl) (oneOp_sendBit rfl)
    case h_5 => exact oneOp_finish rfl
    case h_6 => exact oneOp_finish rfl
    all_goals simp

theorem oneOp_execReadByte (final : Bool) (s : State) : OneOp s (execReadByte final s) :=
  oneOp_withPos fun line _ => by
    split
    case h_1 => exact oneOp_callAt 2 0 .readBit rfl
    case h_3 => exact .ite (oneOp_callAt 4 0 (.writeBit final) rfl) (oneOp_callAt 2 0 .readBit rfl)
    case h_6 => exact oneOp_finish rfl
    all_goals simp

theorem oneOp_execStart (s : State) : OneOp s (execStart s) :=
  oneOp_asCommand fun line _ => by
    split
    case h_5 => exact oneOp_finish rfl
    all_goals simp

theorem oneOp_execStop (s : State) : OneOp s (execStop s) :=
  oneOp_asCommand fun line _ => by
    split
    case h_10 => exact oneOp_finish rfl
    all_goals simp

theorem oneOp_execRestart (s : State) : OneOp s (execRestart s) :=
  oneOp_withPos fun line _ => by
    split
    case h_10 => exact oneOp_finish rfl
    all_goals simp

theorem oneOp_connectNotStarted (s : State) : OneOp s (connectNotStarted s) := by
  unfold connectNotStarted
  split
  · exact oneOp_raise s .notStarted
  · exact oneOp_finish rfl

theorem oneOp_execConnect (addr : SlaveAddr) (w : Bool) (s : State) : OneOp s (execConnect addr w s) :=
  oneOp_asCommand fun line _ => by
    split
    case h_1 => exact .ite (oneOp_callAt 3 0 _ rfl) (oneOp_connectNotStarted s)
    all_goals simp

theorem oneOp_execInit (halcap : BitVec 5) (freq : BitVec 32) (s : State) : OneOp s (execInit halcap freq s) :=
  oneOp_asCommand fun line _ => by
    split
    · exact oneOp_respond .ok rfl
    · exact oneOp_fault s _

@[simp] theorem oneOp_tearDown (s : State) : OneOp s (tearDown s) := oneOp_respond .ok rfl

theorem oneOp_stopOrTearDown (s : State) : OneOp s (if s.started then callAt 2 0 .stop s else tearDown s) :=
  .ite (oneOp_callAt 2 0 .stop rfl) (oneOp_tearDown s)

theorem oneOp_execDeinit (s : State) : OneOp s (execDeinit s) :=
  oneOp_asCommand fun line _ => by
    split
    case h_1 => exact oneOp_stopOrTearDown s
    case h_2 => exact oneOp_stopOrTearDown s
    all_goals simp

/-- The line of a composite command that makes its next call only after an acknowledge. -/
theorem oneOp_ifAcked {s : State} {o : Out} (h : OneOp s o) (out : Nat) : OneOp s (if s.res then o else leaveToStop out s) :=
  .ite h (oneOp_leaveToStop out rfl)

/-- `CNT` is cleared as the command calls `START`. -/
theorem oneOp_callStart (s : State) : OneOp s (callAt 2 0 .start { s with cnt := 0 }) := oneOp_callAt 2 0 .start rfl

theorem oneOp_execWrite (addr : SlaveAddr) (n : Count) (s : State) : OneOp s (execWrite addr n s) :=
  oneOp_asCommand fun line loop => by
    split
    case h_1 => exact oneOp_callStart s
    case h_4 => exact .ite (oneOp_ifAcked (oneOp_txLoop s 4 5 n 1) 5) (oneOp_txLoop s 4 5 n loop)
    all_goals simp

theorem oneOp_execRead (addr : SlaveAddr) (n : Count) (s : State) : OneOp s (execRead addr n s) :=
  oneOp_asCommand fun line loop => by
    split
    case h_1 => exact oneOp_callStart s
    case h_4 => exact .ite (oneOp_ifAcked (oneOp_rxLoop s 4 5 n 1) 5) (oneOp_rxLoop s 4 5 n loop)
    all_goals simp

theorem oneOp_execWriteReg (addr : SlaveAddr) (reg : Byte) (n : Count) (s : State) : OneOp s (execWriteReg addr reg n s) :=
  oneOp_asCommand fun line loop => by
    split
    case h_1 => exact oneOp_callStart s
    case h_4 => exact oneOp_ifAcked (oneOp_callAt 5 0 (.writeByte reg) rfl) 7
    case h_6 => exact .ite (oneOp_ifAcked (oneOp_txLoop s 6 7 n 1) 7) (oneOp_txLoop s 6 7 n loop)
    all_goals simp

theorem oneOp_execReadReg (addr : SlaveAddr) (reg : Byte) (n : Count) (s : State) : OneOp s (execReadReg addr reg n s) :=
  oneOp_asCommand fun line loop => by
    split
    case h_1 => exact oneOp_callStart s
    case h_4 => exact oneOp_ifAcked (oneOp_callAt 5 0 (.writeByte reg) rfl) 10
    case h_6 => exact oneOp_ifAcked (oneOp_callAt 7 0 .restart rfl) 10
    case h_9 => exact .ite (oneOp_ifAcked (oneOp_rxLoop s 9 10 n 1) 10) (oneOp_rxLoop s 9 10 n loop)
    all_goals simp

/-! Every routine, and every step. -/

theorem oneOp_exec (i : Instr) (s : State) : OneOp s (exec i s) := by
  cases i with
  | init halcap freq => exact oneOp_execInit halcap freq s
  | deinit => exact oneOp_execDeinit s
  | start => exact oneOp_execStart s
  | stop => exact oneOp_execStop s
  | connect addr w => exact oneOp_execConnect addr w s
  | write addr n => exact oneOp_execWrite addr n s
  | read addr n => exact oneOp_execRead addr n s
  | writeReg addr reg n => exact oneOp_execWriteReg addr reg n s
  | readReg addr reg n => exact oneOp_execReadReg addr reg n s
  | restart => exact oneOp_execRestart s
  | writeByte d => exact oneOp_execWriteByte d s
  | readByte final => exact oneOp_execReadByte final s
  | writeBit v => exact oneOp_execWriteBit v s
  | readBit => exact oneOp_execReadBit s

theorem oneOp_noRoutine (s : State) : OneOp s (noRoutine s) :=
  .ite (oneOp_raise s .illegalCmd) (oneOp_fault s _)

theorem oneOp_idleStep (s : State) : OneOp s (idleStep s) := by
  unfold idleStep
  split <;> exact oneOp_next (.rest rfl)

/-- What a step without reset can do at the lines, in `BUF` and in the history (R54). -/
theorem step_atMostOneOp {s t : State} (hr : s.rstIn = false) (h : step s = .next t) : AtMostOneOp s t := by
  refine OneOp.of_next (o := step s) ?_ t h
  unfold step
  rw [hr]
  refine .ite (c := s.busy = true) ?_ (oneOp_idleStep s)
  split
  · exact oneOp_exec _ s
  · exact oneOp_noRoutine s

theorem busView_eq_iff {s t : State} : busView t = busView s ↔
    t.sclO = s.sclO ∧ t.sdaO = s.sdaO ∧ t.peerScl = s.peerScl ∧ t.peerSda = s.peerSda ∧ t.peerScript = s.peerScript ∧
      t.peerTime = s.peerTime ∧ t.restTime = s.restTime ∧ t.bus = s.bus ∧ t.buf = s.buf ∧ t.trace = s.trace := by
  simp [busView]

/-- The micro-operation of `e` alone: what it does to the latches and to `BUF` and what a read returns. -/
def OpEffect (s t : State) (e : Event) : Prop :=
  match e.op with
  | .lineWrite .scl b => t.sclO = b ∧ t.sdaO = s.sdaO ∧ t.buf = s.buf
  | .lineWrite .sda b => t.sdaO = b ∧ t.sclO = s.sclO ∧ t.buf = s.buf
  | .lineRead .scl b => b = e.pre.scl ∧ t.sclO = s.sclO ∧ t.sdaO = s.sdaO ∧ t.buf = s.buf
  | .lineRead .sda b => b = e.pre.sda ∧ t.sclO = s.sclO ∧ t.sdaO = s.sdaO ∧ t.buf = s.buf
  | .delay n => n = s.half ∧ t.sclO = s.sclO ∧ t.sdaO = s.sdaO ∧ t.buf = s.buf
  | .memRead i v => v = Memory.read s.buf i.toNat ∧ t.sclO = s.sclO ∧ t.sdaO = s.sdaO ∧ t.buf = s.buf
  | .memWrite i v => t.buf = Memory.write s.buf i.toNat v ∧ t.sclO = s.sclO ∧ t.sdaO = s.sdaO

/-- From `s` to `t` the event `e` was recorded: the peer took its next drive just before it, and the levels are the wired-AND
(R48). -/
structure Recorded (s t : State) (e : Event) : Prop where
  trace : t.trace = e :: s.trace
  drive : (t.peerScl, t.peerSda) = driveAt s 0
  time : t.peerTime = s.peerTime + 1
  rest : t.restTime = s.restTime
  script : t.peerScript = s.peerScript.tail
  pre : e.pre = ⟨s.sclO && t.peerScl, s.sdaO && t.peerSda⟩
  post : e.post = ⟨t.sclO && t.peerScl, t.sdaO && t.peerSda⟩

/-- `record` after `peerMove`, whatever the micro-operation made of the latches and of `BUF`. -/
theorem recorded_of_record {s t u : State} {op : MicroOp} (h : busView t = busView (record op (peerMove s) u))
    (hu : busView { u with sclO := s.sclO, sdaO := s.sdaO, buf := s.buf } = busView (peerMove s)) :
    Recorded s t ⟨op, levels (peerMove s), levels u⟩ := by
  obtain ⟨scl, sda, pscl, psda, script, time, rest, -, -, trace⟩ := busView_eq_iff.1 h
  obtain ⟨-, -, pscl', psda', script', time', rest', -, -, trace'⟩ := busView_eq_iff.1 hu
  constructor
  all_goals simp_all [levels, level, ← peerNext_eq]

/-- The event of the one micro-operation, if there was one (R46 to R49, R42, R43). -/
theorem AtMostOneOp.cases_event {s t : State} (h : AtMostOneOp s t) :
    busView t = busView (peerRest s) ∨ ∃ e, Recorded s t e ∧ OpEffect s t e := by
  cases h with
  | rest h => exact .inl h
  | lineWrite l b h =>
    obtain ⟨scl, sda, -, -, -, -, -, -, buf, -⟩ := busView_eq_iff.1 h
    cases l with
    | scl => exact .inr ⟨_, recorded_of_record h rfl, scl, sda, buf⟩
    | sda => exact .inr ⟨_, recorded_of_record h rfl, sda, scl, buf⟩
  | lineRead l h =>
    obtain ⟨scl, sda, -, -, -, -, -, -, buf, -⟩ := busView_eq_iff.1 h
    cases l <;> exact .inr ⟨_, recorded_of_record h rfl, rfl, scl, sda, buf⟩
  | delay h =>
    obtain ⟨scl, sda, -, -, -, -, -, -, buf, -⟩ := busView_eq_iff.1 h
    exact .inr ⟨_, recorded_of_record h rfl, rfl, scl, sda, buf⟩
  | memRead i h =>
    obtain ⟨scl, sda, -, -, -, -, -, -, buf, -⟩ := busView_eq_iff.1 h
    exact .inr ⟨_, recorded_of_record h rfl, rfl, scl, sda, buf⟩
  | memWrite i v h =>
    obtain ⟨scl, sda, -, -, -, -, -, -, buf, -⟩ := busView_eq_iff.1 h
    exact .inr ⟨_, recorded_of_record h rfl, buf, scl, sda⟩

/-- Settles O53: the case split of `step_atMostOneOp`, its fields written out. -/
theorem oneMicroOperation : Obligations.OneMicroOperation := by
  intro s t hr h
  rcases (step_atMostOneOp hr h).cases_event with hrest | ⟨e, r, effect⟩
  · obtain ⟨scl, sda, pscl, psda, script, time, rest, -, buf, trace⟩ := busView_eq_iff.1 hrest
    exact .inl ⟨trace, scl, sda, buf, Prod.ext pscl psda, rest, script, time⟩
  · exact .inr ⟨e, r.trace, r.drive, r.time, r.rest, r.script, r.pre, r.post, effect⟩

end Sys2Proof.Machine
end

section
/-! PROOFS. The invariant: what each line of each listing makes of it, and what follows for every run from reset. -/

namespace Sys2Proof.Machine

/-! ### Where the invariant says a controller is -/

/-- What `inv` says of a controller whose accepted word waits for dispatch (R130). -/
structure Waiting (s : State) : Prop where
  master : masterOk s = true
  rsp : rspOk s = true
  wf : Memory.wf s.buf = true
  busy : s.busy = true
  latches : latchesOk s = true
  seq : s.seq = [⟨none, 0, 0⟩]
  released : busReleased s = true
  ackl : s.ackl = false
  fault : s.fault = false

/-- The three situations of a controller that meets the invariant: between commands, at dispatch, at a line of a listing. -/
theorem inv_cases {s : State} (h : inv s = true) :
    (s.busy = false ∧ s.seq = [] ∧ busReleased s = true) ∨ Waiting s ∨
      ∃ i l p rest, At s i l p rest ∧ Running s ∧ topOk i l p s = true := by
  simp only [inv, Bool.and_eq_true] at h
  obtain ⟨⟨⟨master, rsp⟩, wf⟩, h⟩ := h
  unfold seqOk at h
  split at h
  case h_1 hq =>
    simp only [Bool.and_eq_true, Bool.not_eq_true'] at h
    exact .inl ⟨h.1, hq, h.2⟩
  case h_2 l p rest hq =>
    simp only [Bool.and_eq_true, List.isEmpty_iff] at h
    obtain ⟨⟨⟨busy, rfl⟩, latches⟩, h⟩ := h
    split at h
    case isTrue hl =>
      simp only [Bool.and_eq_true, decide_eq_true_eq, Bool.not_eq_true'] at h
      obtain ⟨⟨⟨hp, released⟩, ackl⟩, fault⟩ := h
      exact .inr (.inl ⟨master, rsp, wf, busy, latches, by rw [hq, hl, hp], released, ackl, fault⟩)
    case isFalse hl =>
      simp only [Bool.and_eq_true, Option.any_eq_true] at h
      obtain ⟨disp, i, hi, top⟩ := h
      exact .inr (.inr ⟨i, l, p, [], .inr ⟨hq, hl, rfl, hi⟩, ⟨master, rsp, wf, busy, latches, disp⟩, top⟩)
  case h_3 i l p rest hq =>
    simp only [Bool.and_eq_true] at h
    obtain ⟨⟨⟨⟨busy, latches⟩, disp⟩, top⟩, callers⟩ := h
    exact .inr (.inr ⟨i, l, p, rest, .inl ⟨hq, callers⟩, ⟨master, rsp, wf, busy, latches, disp⟩, top⟩)

theorem At.fetch {s : State} {i : Instr} {l p : Nat} {rest : List Frame} (h : At s i l p rest) : fetch s = some i := by
  obtain ⟨hq, -⟩ | ⟨hq, hl, -, hi⟩ := h <;> simp_all [Machine.fetch, frameInstr]

theorem Running.valid {s : State} (hr : Running s) : s.valid = true := by
  have h := hr.disp
  simp only [dispatched, Bool.and_eq_true] at h
  exact h.1

/-! ### Commands no listing calls -/

/-- The commands that stand only at the bottom of `SEQ` (R133). -/
def isBottom : Instr → Bool
  | .init _ _ | .deinit | .write _ _ | .read _ _ | .writeReg _ _ _ | .readReg _ _ _ => true
  | .start | .stop | .connect _ _ | .restart | .writeByte _ | .readByte _ | .writeBit _ | .readBit => false

theorem isBottom_uncalled (c : Instr) :
    isBottom c = true → ¬(c.issuable = false ∨ c = .start ∨ c = .stop ∨ ∃ a w, c = .connect a w) := by
  cases c <;> simp [isBottom, Instr.issuable]

theorem waitOk_bottom {c : Instr} (hc : isBottom c = true) (i : Instr) (l p : Nat) (s : State) : waitOk i l p c s = false :=
  Bool.eq_false_iff.2 fun hw => isBottom_uncalled c hc (waitOk_called hw)

theorem callersOk_bottom {c : Instr} (hc : isBottom c = true) (s : State) (rest : List Frame) : callersOk s c rest = false := by
  by_contra h
  obtain ⟨f, l, p, i, below, -, hw, -⟩ := callers_cases (Bool.of_not_eq_false h)
  rw [waitOk_bottom hc] at hw
  cases hw

/-- So nothing a bottom command does matters to frames below it. -/
theorem callersOk_bottom_congr {c : Instr} (hc : isBottom c = true) (s t : State) (rest : List Frame) :
    callersOk t c rest = callersOk s c rest := by
  rw [callersOk_bottom hc, callersOk_bottom hc]

/-- The operand latches never hold an internal routine (R66). -/
theorem issuable_of_latched {s : State} {i : Instr} (h : latchedCommand s = some i) : i.issuable = true := by
  unfold latchedCommand at h
  split at h <;> cases h <;> rfl

/-! ### The shared operations keep the invariant -/

/-- `o` is a next state that meets the invariant. -/
def Kept (o : Out) : Prop := ∃ t, o = .next t ∧ inv t = true

section Lines
variable {s : State} {i : Instr} {l p : Nat} {rest : List Frame} (h : At s i l p rest) (hr : Running s)
include h hr

theorem kept_lineWrite (L : Line) (b : Bool) {line : Nat} (ht : topOk i line 0 (setLatch L b s) = true)
    (hl : line ≠ 0 := by decide) : Kept (.next (goto line (lineWrite L b s))) := by
  have hbuf : (lineWrite L b s).buf = s.buf := lineWrite_buf L b s
  have hlatch : latchView (lineWrite L b s) = latchView s := by cases L <;> rfl
  refine ⟨_, rfl, inv_setPos h (hr.mono (by cases L <;> rfl) (hbuf ▸ hr.wf)) ?_ hlatch (lineWrite_seq L b s) hl ?_⟩
  · exact callersOk_congr (by cases L <;> rfl) hlatch i rest
  · rw [← ht]
    exact topOk_congr (by cases L <;> rfl) i line 0

theorem kept_delay {line : Nat} (ht : topOk i line 0 s = true) (hl : line ≠ 0 := by decide) :
    Kept (.next (goto line (delay s))) :=
  ⟨_, rfl, inv_setPos h (hr.mono rfl hr.wf) (callersOk_congr (s := s) (t := delay s) rfl rfl i rest) rfl rfl hl
    ((topOk_congr (s := s) (t := delay s) rfl i line 0).trans ht)⟩

theorem kept_lineRead (L : Line) {line : Nat} (ht : topOk i line 0 { s with res := level L (peerMove s) } = true)
    (hl : line ≠ 0 := by decide) : Kept (.next (goto line (lineRead L s))) :=
  ⟨_, rfl, inv_setPos h (hr.mono rfl hr.wf) (callersOk_congr (s := s) (t := lineRead L s) rfl rfl i rest) rfl rfl hl
    ((topOk_congr (s := { s with res := level L (peerMove s) }) (t := lineRead L s) rfl i line 0).trans ht)⟩

/-- A poll that reads low stays at its line, one that reads high goes on (R92, R143). -/
theorem kept_stretch {after : Nat} {skip : State → Out} (hstay : ∀ b, topOk i l p { s with res := b } = true)
    (hafter : ∀ b, topOk i after 0 { s with res := b } = true) (hskip : Kept (skip s)) (hl : after ≠ 0 := by decide) :
    Kept (stretch after skip s) := by
  unfold stretch
  split
  · split
    · exact kept_lineRead h hr .scl (hafter _) hl
    · have hat : At (lineRead .scl s) i l p rest := by
        unfold At
        rw [callersOk_congr (s := s) (t := lineRead .scl s) rfl rfl, latchedCommand_congr (s := s) (t := lineRead .scl s) rfl]
        exact h
      exact ⟨_, rfl, inv_of_at hat (hr.mono rfl hr.wf)
        ((topOk_congr (s := { s with res := level .scl (peerMove s) }) (t := lineRead .scl s) rfl i l p).trans (hstay _))⟩
  · exact hskip

/-- A line that calls `c`, its register work having made `t` of `s`. -/
theorem kept_callAt {t : State} {c : Instr} {line loop : Nat} (hc : callersOk t i rest = callersOk s i rest)
    (hrun : { runView t with buf := s.buf } = runView s) (hb : t.buf = s.buf) (hv : latchView t = latchView s) (hq : t.seq = s.seq)
    (hw : waitOk i line loop c t = true) (ht : topOk c 1 0 t = true) (hl : line ≠ 0 := by decide) : Kept (callAt line loop c t) :=
  inv_callAt h (hr.mono hrun (hb ▸ hr.wf)) hc hv hq hl hw ht

/-- The last line of a listing, its register work having made `t` of `s`: every caller there may be goes on, and a command leaves
the bus released. -/
theorem kept_finish {t : State} (hrun : { runView t with buf := s.buf } = runView s) (hb : t.buf = s.buf)
    (hv : latchView t = latchView s) (hq : t.seq = s.seq) (hcmd : i.issuable = true → busReleased t = true)
    (hret : ∀ j l p, waitOk j l p i s = true → (∀ below, callersOk t j below = callersOk s j below) ∧
      topOk j (Frame.advance ⟨none, l, p⟩).line (Frame.advance ⟨none, l, p⟩).loop t = true) : Kept (finish t) := by
  have hrt : Running t := hr.mono hrun (hb ▸ hr.wf)
  obtain ⟨hs, callers⟩ | ⟨hs, -, rfl, latched⟩ := h
  · exact inv_return hs callers hrt hv hq hret
  · rw [finish_command (hq.trans hs)]
    have hrsp := hrt.rsp
    simp only [rspOk, Bool.and_eq_true] at hrsp
    exact ⟨_, rfl, inv_respond hrt.master hrt.wf hrsp.2 (hcmd (issuable_of_latched latched))⟩

end Lines

/-! ### What a waiting caller says, call by call (R133) -/

section Waits
variable (s : State) (a : SlaveAddr) (r d : Byte) (n : Count) (f v w : Bool)

@[simp] theorem waitOk_writeByte_writeBit :
    waitOk (.writeByte d) 2 0 (.writeBit v) s = (s.shreg == d && v == byteBit d s.bitk) := rfl
@[simp] theorem waitOk_writeByte_readBit : waitOk (.writeByte d) 4 0 .readBit s = true := rfl
@[simp] theorem waitOk_readByte_readBit : waitOk (.readByte f) 2 0 .readBit s = true := rfl
@[simp] theorem waitOk_readByte_writeBit : waitOk (.readByte f) 4 0 (.writeBit v) s = (v == f) := rfl
@[simp] theorem waitOk_connect_writeByte :
    waitOk (.connect a w) 3 0 (.writeByte d) s = (d == header a w && s.started && !s.fault) := rfl
@[simp] theorem waitOk_deinit_stop : waitOk .deinit 2 0 .stop s = true := rfl
@[simp] theorem waitOk_write_connect :
    waitOk (.write a n) 3 0 (.connect a true) s = (a == a && true && s.started && beforeLoop s) := rfl
@[simp] theorem waitOk_writeReg_connect :
    waitOk (.writeReg a r n) 3 0 (.connect a true) s = (a == a && true && s.started && beforeLoop s) := rfl
@[simp] theorem waitOk_read_connect :
    waitOk (.read a n) 3 0 (.connect a false) s = (a == a && true && s.started && beforeLoop s) := rfl
@[simp] theorem waitOk_readReg_connect_write :
    waitOk (.readReg a r n) 3 0 (.connect a true) s = (a == a && s.started && beforeLoop s) := rfl
@[simp] theorem waitOk_readReg_connect_read :
    waitOk (.readReg a r n) 8 0 (.connect a false) s = (a == a && s.started && beforeLoop s) := rfl
@[simp] theorem waitOk_writeReg_register :
    waitOk (.writeReg a r n) 5 0 (.writeByte d) s = (d == r && s.started && beforeLoop s) := rfl
@[simp] theorem waitOk_readReg_register :
    waitOk (.readReg a r n) 5 0 (.writeByte d) s = (d == r && s.started && beforeLoop s) := rfl
@[simp] theorem waitOk_readReg_restart : waitOk (.readReg a r n) 7 0 .restart s = (s.started && beforeLoop s) := rfl

end Waits

/-! ### The listings keep the invariant -/

section Listings
variable {s : State} {l p : Nat} {rest : List Frame}

theorem kept_ite {c : Prop} [Decidable c] {a b : Out} (ha : c → Kept a) (hb : ¬c → Kept b) : Kept (if c then a else b) := by
  split
  · exact ha ‹_›
  · exact hb ‹_›

/-- The shift register and the bit index are a byte routine's own (R103). -/
theorem callersOk_byteRegs {i : Instr} (hi : callRank i ≠ 2) (d : Byte) (k : BitVec 3) :
    callersOk { s with shreg := d, bitk := k } i rest = callersOk s i rest :=
  callersOk_noBit (by rfl) (by rfl) i hi rest

theorem kept_highPhase {i : Instr} (h : At s i l p rest) (hr : Running s) (ht : topOk i 7 0 s = true) : Kept (highPhase s) :=
  kept_delay h hr ht

theorem kept_execWriteBit {v : Bool} (h : At s (.writeBit v) l p rest) (hr : Running s) (ht : topOk (.writeBit v) l p s = true) :
    Kept (execWriteBit v s) := by
  obtain ⟨c, hc⟩ := at_cons h
  simp only [topOk, Bool.and_eq_true, beq_iff_eq] at ht
  obtain ⟨rfl, ht⟩ := ht
  rw [execWriteBit, withPos_cons hc]
  unfold writeBitAt at ht
  split at ht
  case h_1 => exact kept_lineWrite h hr .scl false (by simp [topOk, writeBitAt])
  case h_2 => exact kept_delay h hr (by simp_all [topOk, writeBitAt])
  case h_3 => exact kept_lineWrite h hr .sda v (by simp_all [topOk, writeBitAt])
  case h_4 => exact kept_lineWrite h hr .scl true (by simp_all [topOk, writeBitAt])
  case h_5 =>
    exact kept_stretch h hr (fun b => by simp_all [topOk, writeBitAt]) (fun b => by simp_all [topOk, writeBitAt])
      (kept_highPhase h hr (by simp_all [topOk, writeBitAt]))
  case h_6 => exact kept_highPhase h hr (by simp_all [topOk, writeBitAt])
  case h_7 =>
    refine kept_finish h hr rfl rfl rfl rfl (fun hi => by cases hi) fun j l p hw => ⟨fun _ => rfl, ?_⟩
    simp only [Bool.and_eq_true, beq_iff_eq] at ht
    obtain ⟨d, rfl, rfl, rfl, hd, -⟩ | ⟨rfl, rfl, rfl⟩ := waitOk_writeBit hw
    · simp [topOk, writeByteAt, ht, hd]
    · simp [topOk, readByteAt, ht]
  case h_8 => cases ht

theorem kept_execReadBit (h : At s .readBit l p rest) (hr : Running s) (ht : topOk .readBit l p s = true) :
    Kept (execReadBit s) := by
  obtain ⟨c, hc⟩ := at_cons h
  simp only [topOk, Bool.and_eq_true, beq_iff_eq] at ht
  obtain ⟨rfl, ht⟩ := ht
  rw [execReadBit, withPos_cons hc]
  unfold readBitAt at ht
  split at ht
  case h_1 => exact kept_lineWrite h hr .scl false (by simp [topOk, readBitAt])
  case h_2 => exact kept_lineWrite h hr .sda true (by simp_all [topOk, readBitAt])
  case h_3 => exact kept_delay h hr (by simp_all [topOk, readBitAt])
  case h_4 => exact kept_lineWrite h hr .scl true (by simp_all [topOk, readBitAt])
  case h_5 =>
    exact kept_stretch h hr (fun b => by simp_all [topOk, readBitAt]) (fun b => by simp_all [topOk, readBitAt])
      (kept_highPhase h hr (by simp_all [topOk, readBitAt]))
  case h_6 => exact kept_highPhase h hr (by simp_all [topOk, readBitAt])
  case h_7 => exact kept_lineRead h hr .sda (by simp_all [topOk, readBitAt])
  case h_8 =>
    refine kept_finish h hr rfl rfl rfl rfl (fun hi => by cases hi) fun j l p hw => ⟨fun _ => rfl, ?_⟩
    simp only [Bool.and_eq_true] at ht
    obtain ⟨d, rfl, rfl, rfl⟩ | ⟨f, rfl, rfl, rfl⟩ := waitOk_readBit hw
    · simp [topOk, writeByteAt, ht]
    · simp [topOk, readByteAt, ht]
  case h_9 => cases ht

theorem topOk_zero (i : Instr) (p : Nat) (s : State) : topOk i 0 p s = false := by
  cases i <;> simp [topOk, startAt, stopAt, connectAt, writeAt, readAt, writeRegAt, readRegAt, restartAt, writeByteAt, readByteAt,
    writeBitAt, readBitAt]

/-- At a line where the invariant can hold a command goes on with its listing. -/
theorem asCommand_top {i : Instr} (h : At s i l p rest) (ht : topOk i l p s = true) (check : Option Code) (body : Nat → Nat → Out) :
    asCommand check body s = body l p := by
  obtain ⟨c, hc⟩ := at_cons h
  refine asCommand_line hc ?_ check body
  rintro rfl
  rw [topOk_zero] at ht
  cases ht

theorem openAt_of (hscl : s.sclO = true) (hst : s.started = true) (hb : beforeLoop s = true) : openAt s = true := by
  simp [openAt, hscl, hst, hb]

/-- A byte that was sent is back in the transmit loop (R124). -/
theorem txAt_five {n : Count} (hscl : s.sclO = true) (hst : s.started = true) (hf : s.fault = false)
    (hin : inLoop n s = true) : txAt n 5 s = true := by
  simp [txAt, hscl, hst, hf, hin]

theorem kept_execStart (h : At s .start l p rest) (hr : Running s) (ht : topOk .start l p s = true) : Kept (execStart s) := by
  rw [execStart, asCommand_top h ht]
  simp only [topOk, Bool.and_eq_true, beq_iff_eq] at ht
  obtain ⟨rfl, ht⟩ := ht
  unfold startAt at ht
  split at ht
  case h_1 => exact kept_lineWrite h hr .sda true (by simp_all [topOk, startAt])
  case h_2 => exact kept_delay h hr (by simp_all [topOk, startAt])
  case h_3 => exact kept_lineWrite h hr .sda false (by simp_all [topOk, startAt])
  case h_4 => exact kept_delay h hr (by simp_all [topOk, startAt])
  case h_5 =>
    simp only [Bool.and_eq_true] at ht
    refine kept_finish h hr (by simp [runView, hr.valid]) rfl rfl rfl (fun _ => by simp [busReleased, ht]) fun j l p hw => ?_
    obtain ⟨rfl, rfl, hbefore, hj⟩ := waitOk_start hw
    have hopen : openAt { s with started := true } = true := by
      simp only [openAt, Bool.and_eq_true]
      exact ⟨⟨ht.1, trivial⟩, hbefore⟩
    obtain ⟨a, n, rfl⟩ | ⟨a, n, rfl⟩ | ⟨a, r, n, rfl⟩ | ⟨a, r, n, rfl⟩ := hj <;>
      exact ⟨callersOk_bottom_congr rfl s _, hopen⟩
  case h_6 => cases ht

theorem receivedAt_of {n : Count} (hscl : s.sclO = true) (hsda : s.sdaO = true) (hn : afterLoop n s = true) :
    receivedAt n { s with started := false } = true := by
  simp only [receivedAt, Bool.and_eq_true]
  exact ⟨⟨⟨hscl, hsda⟩, rfl⟩, hn⟩

theorem kept_execStop (h : At s .stop l p rest) (hr : Running s) (ht : topOk .stop l p s = true) : Kept (execStop s) := by
  rw [execStop, asCommand_top h ht]
  simp only [topOk, Bool.and_eq_true, beq_iff_eq] at ht
  obtain ⟨rfl, ht⟩ := ht
  unfold stopAt at ht
  split at ht
  case h_1 => exact kept_lineWrite h hr .scl false (by simp [topOk, stopAt])
  case h_2 => exact kept_delay h hr (by simp_all [topOk, stopAt])
  case h_3 => exact kept_lineWrite h hr .sda false (by simp_all [topOk, stopAt])
  case h_4 => exact kept_delay h hr (by simp_all [topOk, stopAt])
  case h_5 => exact kept_lineWrite h hr .scl true (by simp_all [topOk, stopAt])
  case h_6 =>
    exact kept_stretch h hr (fun b => by simp_all [topOk, stopAt]) (fun b => by simp_all [topOk, stopAt])
      (kept_delay h hr (by simp_all [topOk, stopAt]))
  case h_7 => exact kept_delay h hr (by simp_all [topOk, stopAt])
  case h_8 => exact kept_lineWrite h hr .sda true (by simp_all [topOk, stopAt])
  case h_9 => exact kept_delay h hr (by simp_all [topOk, stopAt])
  case h_10 =>
    simp only [Bool.and_eq_true] at ht
    refine kept_finish h hr (by simp [runView, hr.valid]) rfl rfl rfl (fun _ => by simp [busReleased, ht]) fun j l p hw => ?_
    obtain ⟨rfl, ⟨rfl, rfl⟩ | ⟨a, n, rfl, rfl, hf, hn⟩ | ⟨a, r, n, rfl, rfl, hf, hn⟩ | ⟨a, n, rfl, rfl, hn⟩ |
      ⟨a, r, n, rfl, rfl, hn⟩⟩ := waitOk_stop hw
    · exact ⟨callersOk_bottom_congr rfl s _, by simp [topOk, ht]⟩
    · exact ⟨callersOk_bottom_congr rfl s _, by simp [topOk, writeAt, sentAt, ht, hf, hn]⟩
    · exact ⟨callersOk_bottom_congr rfl s _, by simp [topOk, writeRegAt, sentAt, ht, hf, hn]⟩
    · exact ⟨callersOk_bottom_congr rfl s _, receivedAt_of ht.1 ht.2 hn⟩
    · exact ⟨callersOk_bottom_congr rfl s _, receivedAt_of ht.1 ht.2 hn⟩
  case h_11 => cases ht

theorem kept_execRestart (h : At s .restart l p rest) (hr : Running s) (ht : topOk .restart l p s = true) :
    Kept (execRestart s) := by
  obtain ⟨c, hc⟩ := at_cons h
  simp only [topOk, Bool.and_eq_true, beq_iff_eq] at ht
  obtain ⟨rfl, ht⟩ := ht
  rw [execRestart, withPos_cons hc]
  unfold restartAt at ht
  split at ht
  case h_1 => exact kept_lineWrite h hr .scl false (by simp [topOk, restartAt])
  case h_2 => exact kept_delay h hr (by simp_all [topOk, restartAt])
  case h_3 => exact kept_lineWrite h hr .sda true (by simp_all [topOk, restartAt])
  case h_4 => exact kept_delay h hr (by simp_all [topOk, restartAt])
  case h_5 => exact kept_lineWrite h hr .scl true (by simp_all [topOk, restartAt])
  case h_6 =>
    exact kept_stretch h hr (fun b => by simp_all [topOk, restartAt]) (fun b => by simp_all [topOk, restartAt])
      (kept_delay h hr (by simp_all [topOk, restartAt]))
  case h_7 => exact kept_delay h hr (by simp_all [topOk, restartAt])
  case h_8 => exact kept_lineWrite h hr .sda false (by simp_all [topOk, restartAt])
  case h_9 => exact kept_delay h hr (by simp_all [topOk, restartAt])
  case h_10 =>
    simp only [Bool.and_eq_true] at ht
    refine kept_finish h hr (by simp [runView, hr.valid]) rfl rfl rfl (fun hi => by cases hi) fun j l p hw => ?_
    obtain ⟨a, r, n, rfl, rfl, rfl, -, hbefore⟩ := waitOk_restart hw
    have hopen : openAt { s with started := true } = true := by
      simp only [openAt, Bool.and_eq_true]
      exact ⟨⟨ht.1, trivial⟩, hbefore⟩
    exact ⟨callersOk_bottom_congr rfl s _, hopen⟩
  case h_11 => cases ht

theorem kept_execConnect {a : SlaveAddr} {w : Bool} (h : At s (.connect a w) l p rest) (hr : Running s)
    (ht : topOk (.connect a w) l p s = true) : Kept (execConnect a w s) := by
  rw [execConnect, asCommand_top h ht]
  simp only [topOk, Bool.and_eq_true, beq_iff_eq] at ht
  obtain ⟨rfl, ht⟩ := ht
  unfold connectAt at ht
  split at ht
  case h_1 =>
    simp only [Bool.and_eq_true] at ht
    simp only [ht, if_true]
    exact kept_callAt h hr rfl rfl rfl rfl rfl (by simp [ht]) (by simp [topOk, writeByteAt, ht])
  case h_2 =>
    simp only [Bool.and_eq_true, beq_iff_eq, Bool.not_eq_true'] at ht
    obtain ⟨⟨⟨⟨hscl, hsda⟩, hst⟩, hf⟩, hres⟩ := ht
    refine kept_finish h hr rfl rfl rfl rfl (fun _ => by simp [busReleased, hscl, hst]) fun j l p hw => ?_
    obtain ⟨rfl, -, hbefore, hj⟩ := waitOk_connect hw
    have hopen : openAt s = true := openAt_of hscl hst hbefore
    refine ⟨fun _ => rfl, ?_⟩
    obtain ⟨rfl, ⟨n, rfl⟩ | ⟨n, rfl⟩ | ⟨r, n, rfl⟩ | ⟨r, n, rfl⟩⟩ | ⟨rfl, r, n, rfl⟩ := hj <;>
      simp [topOk, writeAt, readAt, writeRegAt, readRegAt, hopen, hres]
  case h_3 => cases ht

/-- No bus fault while a byte is sent: every caller of `WRITE_BYTE` says so. -/
theorem fault_of_writeByte {d : Byte} (h : At s (.writeByte d) l p rest) : s.fault = false := by
  obtain ⟨-, callers⟩ | ⟨-, -, -, latched⟩ := h
  · obtain ⟨-, l', p', j, -, -, hw, -⟩ := callers_cases callers
    obtain ⟨a, w, -, -, -, -, hf⟩ | ⟨a, r, n, -, -, -, -, hb⟩ | ⟨a, r, n, -, -, -, -, hb⟩ | ⟨a, n, -, -, -, -, hf, -⟩ |
      ⟨a, r, n, -, -, -, -, hf, -⟩ := waitOk_writeByte hw <;> simp_all [beforeLoop]
  · cases issuable_of_latched latched

/-- `WRITE_BYTE` sends the bit at `BITK`, whatever the index is (R100 step 2). -/
theorem kept_sendBit {d : Byte} (h : At s (.writeByte d) l p rest) (hr : Running s) (hscl : s.sclO = true) (k : BitVec 3) :
    Kept (sendBit { s with shreg := d, bitk := k }) :=
  kept_callAt h hr (callersOk_byteRegs (by simp [callRank]) d k) rfl rfl rfl rfl (by simp)
    (by simp [topOk, writeBitAt, hscl])

theorem kept_execWriteByte {d : Byte} (h : At s (.writeByte d) l p rest) (hr : Running s)
    (ht : topOk (.writeByte d) l p s = true) : Kept (execWriteByte d s) := by
  obtain ⟨c, hc⟩ := at_cons h
  simp only [topOk, Bool.and_eq_true, beq_iff_eq] at ht
  obtain ⟨rfl, ht⟩ := ht
  rw [execWriteByte, withPos_cons hc]
  unfold writeByteAt at ht
  split at ht
  case h_1 => exact kept_sendBit h hr ht 7
  case h_2 =>
    simp only [Bool.and_eq_true, beq_iff_eq] at ht
    obtain ⟨hscl, rfl⟩ := ht
    exact kept_ite (fun _ => kept_callAt h hr rfl rfl rfl rfl rfl (by simp) (by simp [topOk, readBitAt, hscl]))
      fun _ => kept_sendBit h hr hscl (s.bitk - 1)
  case h_3 =>
    simp only [Bool.and_eq_true] at ht
    obtain ⟨hscl, hsda⟩ := ht
    have hfault : s.fault = false := fault_of_writeByte h
    refine kept_finish h hr (by simp [runView, hfault]) rfl rfl rfl (fun hi => by cases hi) fun j l p hw => ?_
    have hbelow : callRank j = 0 := waitOk_low hw (by simp [callRank])
    refine ⟨fun below => callersOk_noByte (by rfl) (by rfl) j hbelow below, ?_⟩
    obtain ⟨a, w, rfl, rfl, rfl, hst, hf⟩ | ⟨a, r, n, rfl, rfl, rfl, hst, hbefore⟩ | ⟨a, r, n, rfl, rfl, rfl, hst, hbefore⟩ |
      ⟨a, n, rfl, rfl, rfl, hst, hf, hin⟩ | ⟨a, r, n, rfl, rfl, rfl, hst, hf, hin⟩ := waitOk_writeByte hw
    · simp [topOk, connectAt, hscl, hsda, hst, hf]
    · exact openAt_of hscl hst hbefore
    · exact openAt_of hscl hst hbefore
    · exact txAt_five hscl hst hf hin
    · exact txAt_five hscl hst hf hin
  case h_4 => cases ht

/-- `READ_BYTE` samples the bit at `BITK`, whatever the index and the bits so far are (R101 step 2). -/
theorem kept_receiveBit {f : Bool} (h : At s (.readByte f) l p rest) (hr : Running s) (hscl : s.sclO = true) (d : Byte)
    (k : BitVec 3) : Kept (callAt 2 0 .readBit { s with shreg := d, bitk := k }) :=
  kept_callAt h hr (callersOk_byteRegs (by simp [callRank]) d k) rfl rfl rfl rfl (by simp)
    (by simp [topOk, readBitAt, hscl])

/-- A received byte is back in the receive loop; only the last one can have read back wrong (R102, R125). -/
theorem rxAt_of_received {n : Count} {f : Bool} (hscl : s.sclO = true) (hrec : receiving n f s = true)
    (hback : f = true ∨ s.res = false) : rxAt n 4 { s with flt := fltOf s.res f } = true := by
  simp only [receiving, Bool.and_eq_true, beq_iff_eq] at hrec
  obtain ⟨⟨⟨⟨hlast, hst⟩, hf⟩, hack⟩, hin⟩ := hrec
  simp only [rxAt, Bool.and_eq_true]
  refine ⟨⟨⟨⟨⟨⟨rfl, hscl⟩, hst⟩, hf⟩, hack⟩, hin⟩, ?_⟩
  rcases hback with rfl | hres
  · simp [← hlast]
  · cases f <;> simp [fltOf, hres, ← hlast]

theorem kept_execReadByte {f : Bool} (h : At s (.readByte f) l p rest) (hr : Running s)
    (ht : topOk (.readByte f) l p s = true) : Kept (execReadByte f s) := by
  obtain ⟨c, hc⟩ := at_cons h
  simp only [topOk, Bool.and_eq_true, beq_iff_eq] at ht
  obtain ⟨rfl, ht⟩ := ht
  rw [execReadByte, withPos_cons hc]
  unfold readByteAt at ht
  split at ht
  case h_1 => exact kept_receiveBit h hr ht s.shreg 7
  case h_2 =>
    simp only [Bool.and_eq_true] at ht
    exact kept_ite
      (fun _ => kept_callAt h hr (callersOk_byteRegs (by simp [callRank]) _ s.bitk) rfl rfl rfl rfl (by simp)
        (by simp [topOk, writeBitAt, ht]))
      fun _ => kept_receiveBit h hr ht.1 _ (s.bitk - 1)
  case h_3 =>
    refine kept_lineRead h hr .sda ?_
    simp only [Bool.and_eq_true, beq_iff_eq] at ht
    cases f <;> simp [topOk, readByteAt, ht]
  case h_4 =>
    simp only [Bool.and_eq_true, Bool.or_eq_true, beq_iff_eq, Bool.not_eq_true'] at ht
    obtain ⟨⟨hscl, hsda⟩, hback⟩ := ht
    refine kept_finish h hr rfl rfl rfl rfl (fun hi => by cases hi) fun j l p hw =>
      ⟨fun below => callersOk_congr (by rfl) (by rfl) j below, ?_⟩
    obtain ⟨a, n, rfl, rfl, rfl, hrec⟩ | ⟨a, r, n, rfl, rfl, rfl, hrec⟩ := waitOk_readByte hw
    · exact rxAt_of_received hscl hrec hback
    · exact rxAt_of_received hscl hrec hback
  case h_5 => cases ht

/-! ### The transmit loop -/

/-- `i` runs `TXLOOP(n)` in its line `line` and calls `STOP` at its line `out` (R120, R122). -/
structure TxHost (i : Instr) (line out : Nat) (n : Count) : Prop where
  bottom : isBottom i = true
  top : ∀ (p : Nat) (s : State), topOk i line (p + 1) s = txAt n (p + 1) s
  send : ∀ (d : Byte) (s : State), waitOk i line 4 (.writeByte d) s = sending n d s
  stop : ∀ s : State, waitOk i out 0 .stop s = (!s.fault && decide (s.cnt.toNat ≤ n.toNat))
  line_ne : line ≠ 0
  out_ne : out ≠ 0

theorem txHost_write (a : SlaveAddr) (n : Count) : TxHost (.write a n) 4 5 n :=
  ⟨rfl, fun _ _ => rfl, fun _ _ => rfl, fun _ => rfl, by decide, by decide⟩

theorem txHost_writeReg (a : SlaveAddr) (r : Byte) (n : Count) : TxHost (.writeReg a r n) 6 7 n :=
  ⟨rfl, fun _ _ => rfl, fun _ _ => rfl, fun _ => rfl, by decide, by decide⟩

section TxLoop
variable {i : Instr} {line out : Nat} {n : Count} (hi : TxHost i line out n) (h : At s i l p rest) (hr : Running s)
  (hscl : s.sclO = true) (hst : s.started = true) (hf : s.fault = false)
include hi h hr hscl hf

/-- A transmitting command leaves for its `STOP` with a count of at most `n`. -/
theorem kept_txStop (k c : Count) (hc : c.toNat ≤ n.toNat) : Kept (leaveToStop out { s with cnt := c, idx := k }) :=
  kept_callAt h hr (callersOk_bottom_congr hi.bottom s _ rest) rfl rfl rfl rfl (by simp [hi.stop, hf, hc])
    (by simp [topOk, stopAt, hscl]) hi.out_ne

include hst

theorem kept_txFetch (k : Count) (hk : k.toNat < n.toNat) : Kept (txFetch line { s with cnt := k, idx := k }) := by
  have hin : k.toNat < bufSize := lt_of_lt_of_le hk (Nat.le_of_lt_succ n.isLt)
  rw [txFetch, memRead_inside hin]
  refine ⟨_, rfl, inv_setPos h (hr.mono rfl hr.wf) (callersOk_bottom_congr hi.bottom s _ rest) rfl rfl hi.line_ne ?_⟩
  simp [hi.top, txAt, inLoop, hscl, hst, hf, hk]

theorem kept_txTest (k : Count) (hk : k.toNat ≤ n.toNat) : Kept (txTest line out n { s with cnt := k, idx := k }) :=
  kept_ite (fun _ => kept_txStop hi h hr hscl hf k k hk) fun hne =>
    kept_txFetch hi h hr hscl hst hf k (lt_of_le_of_ne hk fun e => hne (BitVec.eq_of_toNat_eq e))

end TxLoop

/-- The next index after one inside the transfer. -/
theorem toNat_succ_le {k n : Count} (h : k.toNat < n.toNat) : (k + 1).toNat ≤ n.toNat := by
  have := n.isLt
  rw [BitVec.toNat_add_of_lt] <;> simp <;> omega

theorem kept_txLoop {i : Instr} {line out : Nat} {n : Count} (hi : TxHost i line out n) (h : At s i l p rest) (hr : Running s)
    {loop : Nat} (ht : txAt n loop s = true) : Kept (txLoop line out n loop s) := by
  simp only [txAt, inLoop, Bool.and_eq_true, Bool.or_eq_true, beq_iff_eq, Bool.not_eq_true', decide_eq_true_eq] at ht
  obtain ⟨⟨⟨⟨rfl | rfl, hscl⟩, hst⟩, hf⟩, hlt, hcnt⟩ := ht
  · exact kept_callAt h hr rfl rfl rfl rfl rfl (by simp [hi.send, sending, inLoop, hst, hf, hlt, hcnt])
      (by simp [topOk, writeByteAt, hscl]) hi.line_ne
  · refine kept_ite (fun _ => ?_) fun _ => kept_txStop hi h hr hscl hf s.idx s.cnt (by rw [hcnt]; exact hlt.le)
    rw [countByte, hcnt]
    exact kept_txTest hi h hr hscl hst hf (s.idx + 1) (toNat_succ_le hlt)

/-! ### The receive loop -/

/-- `i` runs `RXLOOP(n)` in its line `line` and calls `STOP` at its line `out` (R121, R123). -/
structure RxHost (i : Instr) (line out : Nat) (n : Count) : Prop where
  bottom : isBottom i = true
  top : ∀ (p : Nat) (s : State), topOk i line (p + 1) s = rxAt n (p + 1) s
  receive : ∀ (f : Bool) (s : State), waitOk i line 3 (.readByte f) s = receiving n f s
  stop : ∀ s : State, waitOk i out 0 .stop s = afterLoop n s
  line_ne : line ≠ 0
  out_ne : out ≠ 0

theorem rxHost_read (a : SlaveAddr) (n : Count) : RxHost (.read a n) 4 5 n :=
  ⟨rfl, fun _ _ => rfl, fun _ _ => rfl, fun _ => rfl, by decide, by decide⟩

theorem rxHost_readReg (a : SlaveAddr) (r : Byte) (n : Count) : RxHost (.readReg a r n) 9 10 n :=
  ⟨rfl, fun _ _ => rfl, fun _ _ => rfl, fun _ => rfl, by decide, by decide⟩

section RxLoop
variable {i : Instr} {line out : Nat} {n : Count} (hi : RxHost i line out n) (h : At s i l p rest) (hr : Running s)
  (hscl : s.sclO = true) (hst : s.started = true) (hf : s.fault = false)
include hi h hr hscl hf

/-- A receiving command leaves for its `STOP` without a bus fault. -/
theorem kept_rxStop (k c : Count) (hc : c.toNat ≤ n.toNat) : Kept (leaveToStop out { s with cnt := c, idx := k }) :=
  kept_callAt h hr (callersOk_bottom_congr hi.bottom s _ rest) rfl rfl rfl rfl (by simp [hi.stop, afterLoop, hf, hc])
    (by simp [topOk, stopAt, hscl]) hi.out_ne

theorem kept_rxTest (hst : s.started = true) (hack : s.ackl = true) (k : Count) (hk : k.toNat ≤ n.toNat) :
    Kept (rxTest line out n { s with cnt := k, idx := k }) := by
  refine kept_ite (fun _ => kept_rxStop hi h hr hscl hf k k hk) fun hne => ?_
  have hlt : k.toNat < n.toNat := lt_of_le_of_ne hk fun e => hne (BitVec.eq_of_toNat_eq e)
  exact kept_callAt h hr (callersOk_bottom_congr hi.bottom s _ rest) rfl rfl rfl rfl
    (by simp [hi.receive, receiving, inLoop, hst, hf, hack, hlt]) (by simp [topOk, readByteAt, hscl]) hi.line_ne

end RxLoop

theorem kept_rxLoop {i : Instr} {line out : Nat} {n : Count} (hi : RxHost i line out n) (h : At s i l p rest) (hr : Running s)
    {loop : Nat} (ht : rxAt n loop s = true) : Kept (rxLoop line out n loop s) := by
  simp only [rxAt, Bool.and_eq_true, Bool.or_eq_true (!s.flt), Bool.not_eq_true'] at ht
  obtain ⟨⟨⟨⟨⟨⟨hloop, hscl⟩, hst⟩, hf⟩, hack⟩, hin⟩, hflt⟩ := ht
  have hin' := hin
  simp only [inLoop, Bool.and_eq_true, beq_iff_eq, decide_eq_true_eq] at hin'
  obtain ⟨hlt, hcnt⟩ := hin'
  simp only [Bool.or_eq_true, beq_iff_eq] at hloop
  obtain rfl | rfl := hloop
  · have hmem : s.idx.toNat < bufSize := lt_of_lt_of_le hlt (Nat.le_of_lt_succ n.isLt)
    rw [rxLoop, memWrite_inside hmem]
    refine ⟨_, rfl, inv_setPos h (hr.mono rfl (Memory.wf_write s.buf s.shreg hr.wf hmem))
      (callersOk_bottom_congr hi.bottom s _ rest) rfl rfl hi.line_ne ?_⟩
    have hnofault : (!s.fault) = true := by rw [hf]; rfl
    simp only [hi.top, rxAt, Bool.and_eq_true]
    exact ⟨⟨⟨⟨⟨⟨rfl, hscl⟩, hst⟩, hnofault⟩, hack⟩, hin⟩, by simpa using hflt⟩
  · refine kept_ite (fun hfault => ?_) fun _ => ?_
    · have hlast : s.idx = n - 1 := by simpa [hfault, isLast] using hflt
      have hcount : s.cnt.toNat + 1 = n.toNat := by
        rw [hlast] at hlt
        rw [hcnt, hlast]
        bv_omega
      have hle : s.cnt.toNat ≤ n.toNat := by omega
      exact kept_callAt h hr (callersOk_bottom_congr hi.bottom s _ rest) (by simp [runView, hf, hack]) rfl rfl rfl
        (by simp [hi.stop, afterLoop, hcount, hle]) (by simp [topOk, stopAt, hscl]) hi.out_ne
    · rw [countByte, hcnt]
      exact kept_rxTest hi h hr hscl hf hst hack (s.idx + 1) (toNat_succ_le hlt)

/-! ### The composite commands -/

/-- A command past dispatch responds with the bus released (R25, R136). -/
theorem kept_respond (hr : Running s) (hb : busReleased s = true) (c : Code) : Kept (.next (respond c s)) := by
  have hrsp := hr.rsp
  simp only [rspOk, Bool.and_eq_true] at hrsp
  exact ⟨_, rfl, inv_respond hr.master hr.wf hrsp.2 hb⟩

theorem openAt_iff : openAt s = true ↔ s.sclO = true ∧ s.started = true ∧ s.cnt = 0 ∧ s.fault = false := by
  simp [openAt, beforeLoop, and_assoc]

/-- The line of `TXLOOP`: after the last acknowledge it is entered or left for `STOP`, later it goes on. -/
theorem kept_txLine {i : Instr} {line out loop : Nat} {n : Count} (hi : TxHost i line out n) (h : At s i l p rest)
    (hr : Running s) (ht : (if loop = 0 then openAt s else txAt n loop s) = true) :
    Kept (if loop = 0 then (if s.res then txLoop line out n 1 s else leaveToStop out s) else txLoop line out n loop s) := by
  refine kept_ite (fun hl => ?_) fun hl => ?_
  · rw [if_pos hl, openAt_iff] at ht
    obtain ⟨hscl, hst, hcnt, hf⟩ := ht
    exact kept_ite (fun _ => kept_txTest hi h hr hscl hst hf 0 (by simp)) fun _ =>
      kept_txStop hi h hr hscl hf s.idx s.cnt (by simp [hcnt])
  · rw [if_neg hl] at ht
    exact kept_txLoop hi h hr ht

/-- The line of `RXLOOP`. -/
theorem kept_rxLine {i : Instr} {line out loop : Nat} {n : Count} (hi : RxHost i line out n) (h : At s i l p rest)
    (hr : Running s) (ht : (if loop = 0 then openAt s && s.res == s.ackl else rxAt n loop s) = true) :
    Kept (if loop = 0 then (if s.res then rxLoop line out n 1 s else leaveToStop out s) else rxLoop line out n loop s) := by
  refine kept_ite (fun hl => ?_) fun hl => ?_
  · rw [if_pos hl, Bool.and_eq_true, openAt_iff, beq_iff_eq] at ht
    obtain ⟨⟨hscl, hst, hcnt, hf⟩, hres⟩ := ht
    exact kept_ite (fun hack => kept_rxTest hi h hr hscl hf hst (hres ▸ hack) 0 (by simp)) fun _ =>
      kept_rxStop hi h hr hscl hf s.idx s.cnt (by simp [hcnt])
  · rw [if_neg hl] at ht
    exact kept_rxLoop hi h hr ht

/-- A composite command calls the next routine of its front part. -/
theorem kept_frontCall {i c : Instr} (h : At s i l p rest) (hr : Running s) (line : Nat) (hw : waitOk i line 0 c s = true)
    (ht : topOk c 1 0 s = true) (hl : line ≠ 0 := by decide) : Kept (callAt line 0 c s) :=
  kept_callAt h hr rfl rfl rfl rfl rfl hw ht hl

/-- A composite command with its transaction open calls `CONNECT`. -/
theorem kept_callConnect {i : Instr} {a : SlaveAddr} {w : Bool} (h : At s i l p rest) (hr : Running s)
    (ho : (p == 0 && openAt s) = true) (line : Nat)
    (hw : waitOk i line 0 (.connect a w) s = (s.started && beforeLoop s)) (hl : line ≠ 0 := by decide) :
    Kept (callAt line 0 (.connect a w) s) := by
  simp only [Bool.and_eq_true, openAt_iff] at ho
  obtain ⟨-, hscl, hst, hcnt, hf⟩ := ho
  exact kept_frontCall h hr line (by simp [hw, beforeLoop, hst, hcnt, hf]) (by simp [topOk, connectAt, hscl, hst, hf]) hl

theorem kept_execWrite {a : SlaveAddr} {n : Count} (h : At s (.write a n) l p rest) (hr : Running s)
    (ht : topOk (.write a n) l p s = true) : Kept (execWrite a n s) := by
  rw [execWrite, asCommand_top h ht]
  simp only [topOk] at ht
  unfold writeAt at ht
  split at ht
  case h_1 => exact kept_callConnect h hr ht 3 (by simp)
  case h_2 => exact kept_txLine (txHost_write a n) h hr ht
  case h_3 =>
    simp only [sentAt, Bool.and_eq_true] at ht
    exact kept_respond hr (by simp [busReleased, ht]) .ok
  case h_4 => cases ht

theorem kept_execRead {a : SlaveAddr} {n : Count} (h : At s (.read a n) l p rest) (hr : Running s)
    (ht : topOk (.read a n) l p s = true) : Kept (execRead a n s) := by
  rw [execRead, asCommand_top h ht]
  simp only [topOk] at ht
  unfold readAt at ht
  split at ht
  case h_1 => exact kept_callConnect h hr ht 3 (by simp)
  case h_2 => exact kept_rxLine (rxHost_read a n) h hr ht
  case h_3 =>
    simp only [receivedAt, Bool.and_eq_true] at ht
    exact kept_respond hr (by simp [busReleased, ht]) .ok
  case h_4 => cases ht

theorem kept_execWriteReg {a : SlaveAddr} {r : Byte} {n : Count} (h : At s (.writeReg a r n) l p rest) (hr : Running s)
    (ht : topOk (.writeReg a r n) l p s = true) : Kept (execWriteReg a r n s) := by
  rw [execWriteReg, asCommand_top h ht]
  simp only [topOk] at ht
  unfold writeRegAt at ht
  split at ht
  case h_1 => exact kept_callConnect h hr ht 3 (by simp)
  case h_2 =>
    simp only [Bool.and_eq_true, openAt_iff] at ht
    obtain ⟨-, hscl, hst, hcnt, hf⟩ := ht
    exact kept_ite
      (fun _ => kept_frontCall h hr 5 (by simp [beforeLoop, hst, hcnt, hf]) (by simp [topOk, writeByteAt, hscl]))
      fun _ => kept_txStop (txHost_writeReg a r n) h hr hscl hf s.idx s.cnt (by simp [hcnt])
  case h_3 => exact kept_txLine (txHost_writeReg a r n) h hr ht
  case h_4 =>
    simp only [sentAt, Bool.and_eq_true] at ht
    exact kept_respond hr (by simp [busReleased, ht]) .ok
  case h_5 => cases ht

theorem kept_execReadReg {a : SlaveAddr} {r : Byte} {n : Count} (h : At s (.readReg a r n) l p rest) (hr : Running s)
    (ht : topOk (.readReg a r n) l p s = true) : Kept (execReadReg a r n s) := by
  rw [execReadReg, asCommand_top h ht]
  simp only [topOk] at ht
  unfold readRegAt at ht
  split at ht
  case h_1 => exact kept_callConnect h hr ht 3 (by simp)
  case h_2 =>
    simp only [Bool.and_eq_true, openAt_iff] at ht
    obtain ⟨-, hscl, hst, hcnt, hf⟩ := ht
    exact kept_ite
      (fun _ => kept_frontCall h hr 5 (by simp [beforeLoop, hst, hcnt, hf]) (by simp [topOk, writeByteAt, hscl]))
      fun _ => kept_rxStop (rxHost_readReg a r n) h hr hscl hf s.idx s.cnt (by simp [hcnt])
  case h_3 =>
    simp only [Bool.and_eq_true, openAt_iff] at ht
    obtain ⟨-, hscl, hst, hcnt, hf⟩ := ht
    exact kept_ite
      (fun _ => kept_frontCall h hr 7 (by simp [beforeLoop, hst, hcnt, hf]) (by simp [topOk, restartAt, hscl]))
      fun _ => kept_rxStop (rxHost_readReg a r n) h hr hscl hf s.idx s.cnt (by simp [hcnt])
  case h_4 => exact kept_callConnect h hr ht 8 (by simp)
  case h_5 => exact kept_rxLine (rxHost_readReg a r n) h hr ht
  case h_6 =>
    simp only [receivedAt, Bool.and_eq_true] at ht
    exact kept_respond hr (by simp [busReleased, ht]) .ok
  case h_7 => cases ht

/-! ### `DEINIT` and every other routine -/

/-- The master is torn down with no transaction open and the bus released (R81, R83). -/
theorem kept_tearDown (hr : Running s) (hst : s.started = false) (hscl : s.sclO = true) (hsda : s.sdaO = true) :
    Kept (tearDown s) := by
  have hrsp := hr.rsp
  simp only [rspOk, Bool.and_eq_true] at hrsp
  exact ⟨_, rfl, inv_respond (by simp [masterOk, hst]) hr.wf hrsp.2 (by simp [busReleased, hscl, hsda])⟩

theorem kept_execDeinit (h : At s .deinit l p rest) (hr : Running s) (ht : topOk .deinit l p s = true) : Kept (execDeinit s) := by
  rw [execDeinit, asCommand_top h ht]
  simp only [topOk, Bool.and_eq_true, beq_iff_eq, Bool.not_eq_true'] at ht
  obtain ⟨⟨⟨⟨rfl, rfl⟩, hscl⟩, hsda⟩, hst⟩ := ht
  exact kept_tearDown hr hst hscl hsda

/-- At every line where the invariant can hold, the routine there keeps it. -/
theorem kept_exec {i : Instr} (h : At s i l p rest) (hr : Running s) (ht : topOk i l p s = true) : Kept (exec i s) := by
  cases i with
  | init halcap freq => cases ht
  | deinit => exact kept_execDeinit h hr ht
  | start => exact kept_execStart h hr ht
  | stop => exact kept_execStop h hr ht
  | connect a w => exact kept_execConnect h hr ht
  | write a n => exact kept_execWrite h hr ht
  | read a n => exact kept_execRead h hr ht
  | writeReg a r n => exact kept_execWriteReg h hr ht
  | readReg a r n => exact kept_execReadReg h hr ht
  | restart => exact kept_execRestart h hr ht
  | writeByte d => exact kept_execWriteByte h hr ht
  | readByte f => exact kept_execReadByte h hr ht
  | writeBit v => exact kept_execWriteBit h hr ht
  | readBit => exact kept_execReadBit h hr ht

end Listings

/-! ### Dispatch -/

/-- The dispatch checks of a command after its word was found legal (R131). -/
def dispatchCheck (i : Instr) (s : State) : Option Code :=
  match i with
  | .init halcap freq => initCheck halcap freq s
  | .connect _ _ => connectCheck s
  | _ => needsMaster s

/-- Step 1 of a command's listing. -/
def firstLine (i : Instr) (s : State) : Out :=
  match i with
  | .init halcap freq =>
    .next (respond .ok { s with halcap := halcap, freq := freq, half := halfPeriod freq, started := false, valid := true })
  | .deinit => if s.started then callAt 2 0 .stop s else tearDown s
  | .start => .next (goto 2 (lineWrite .sda true s))
  | .stop => .next (goto 2 (lineWrite .scl false s))
  | .connect addr w => if s.started then callAt 3 0 (.writeByte (header addr w)) s else connectNotStarted s
  | _ => callAt 2 0 .start { s with cnt := 0 }

/-- At dispatch a check that fails ends the command (R131). -/
theorem exec_refused {s : State} {i : Instr} {c : Code} {q : Nat} {rest : List Frame} (hq : s.seq = ⟨none, 0, q⟩ :: rest)
    (hi : i.issuable = true) (hc : dispatchCheck i s = some c) : exec i s = .next (respond c s) := by
  cases i with
  | restart | writeByte _ | readByte _ | writeBit _ | readBit => cases hi
  | _ =>
    simp only [dispatchCheck] at hc
    simp only [exec, execInit, execDeinit, execStart, execStop, execConnect, execWrite, execRead, execWriteReg, execReadReg, hc,
      asCommand_fails hq rfl]

/-- When the checks pass the listing begins in the same step (R131, R132; log 1). -/
theorem exec_begins {s : State} {i : Instr} {q : Nat} {rest : List Frame} (hq : s.seq = ⟨none, 0, q⟩ :: rest)
    (hi : i.issuable = true) (hc : dispatchCheck i s = none) : exec i s = firstLine i s := by
  cases i with
  | restart | writeByte _ | readByte _ | writeBit _ | readBit => cases hi
  | _ =>
    simp only [dispatchCheck] at hc
    simp only [exec, execInit, execDeinit, execStart, execStop, execConnect, execWrite, execRead, execWriteReg, execReadReg, hc]
    exact asCommand_passes hq rfl _

theorem exec_firstLine {s : State} {i : Instr} {f : Option Instr} {rest : List Frame} (hq : s.seq = ⟨f, 1, 0⟩ :: rest)
    (hi : i.issuable = true) : exec i s = firstLine i s := by
  cases i with
  | restart | writeByte _ | readByte _ | writeBit _ | readBit => cases hi
  | _ =>
    simp only [exec, execInit, execDeinit, execStart, execStop, execConnect, execWrite, execRead, execWriteReg, execReadReg]
    exact asCommand_line hq Nat.one_ne_zero _ _

/-- `s` with its command at step 1 of the listing. -/
def atFirstLine (s : State) : State := { s with seq := [⟨none, 1, 0⟩] }

theorem callAt_atFirstLine {s : State} (hq : s.seq = [⟨none, 0, 0⟩]) (line loop : Nat) (r : Instr) :
    callAt line loop r (atFirstLine s) = callAt line loop r s := by
  rw [callAt_cons hq, callAt_cons (f := ⟨none, 1, 0⟩) (rest := []) rfl]
  rfl

theorem goto_lineWrite_atFirstLine {s : State} (hq : s.seq = [⟨none, 0, 0⟩]) (line : Nat) (L : Line) (b : Bool) :
    goto line (lineWrite L b (atFirstLine s)) = goto line (lineWrite L b s) := by
  rw [goto_eq, goto_eq, setPos_cons ((lineWrite_seq L b s).trans hq),
    setPos_cons ((lineWrite_seq L b (atFirstLine s)).trans rfl)]
  cases L <;> rfl

/-- Step 1 does not look at the position it is reached from. -/
theorem firstLine_atFirstLine {s : State} (hq : s.seq = [⟨none, 0, 0⟩]) (i : Instr) :
    firstLine i (atFirstLine s) = firstLine i s := by
  cases i with
  | init halcap freq => rfl
  | deinit =>
    refine if_congr Iff.rfl (callAt_atFirstLine hq 2 0 .stop) ?_
    rfl
  | start => exact congrArg Host.Outcome.next (goto_lineWrite_atFirstLine hq 2 .sda true)
  | stop => exact congrArg Host.Outcome.next (goto_lineWrite_atFirstLine hq 2 .scl false)
  | connect a w =>
    refine if_congr Iff.rfl (callAt_atFirstLine hq 3 0 _) ?_
    simp only [connectNotStarted, hq]
    rfl
  | _ => exact callAt_atFirstLine (s := { s with cnt := 0 }) hq 2 0 .start

/-! ### Every step keeps the invariant -/

theorem selectRow_ok {value mask w : CmdWord} {i j : Instr} (h : selectRow value mask i w = .ok j) : j = i := by
  unfold selectRow at h
  split at h <;> cases h
  rfl

/-- The command port refuses the internal routines (R66). -/
theorem issuable_of_decode {w : CmdWord} {i : Instr} (h : decode w = .ok i) : i.issuable = true := by
  unfold decode at h
  split at h
  case h_1 | h_2 | h_3 | h_4 | h_5 | h_6 | h_7 | h_8 | h_9 =>
    rw [selectRow_ok h]
    rfl
  all_goals cases h

theorem Waiting.fault_or_ackl {s : State} (h : Waiting s) : (!s.fault || s.ackl) = true := by simp [h.fault]

theorem Waiting.at_firstLine {s : State} (h : Waiting s) {i : Instr} (hd : decode s.cmd = .ok i) : At (atFirstLine s) i 1 0 [] :=
  .inr ⟨rfl, by decide, rfl, (latchedCommand_congr (s := s) rfl).trans (latchedCommand_of_decode h.latches hd)⟩

theorem kept_refused {s : State} (h : Waiting s) (c : Code) : Kept (.next (respond c s)) :=
  ⟨_, rfl, inv_respond h.master h.wf h.fault_or_ackl h.released⟩

/-- `INIT` past its checks leaves a complete master (R80, R82). -/
theorem kept_init {s : State} (h : Waiting s) {halcap : BitVec 5} {freq : BitVec 32} (hc : initCheck halcap freq s = none) :
    Kept (firstLine (.init halcap freq) s) := by
  have hok : halComplete halcap = true ∧ freq ≠ 0 ∧ s.valid = false := by
    unfold initCheck at hc
    split at hc <;> simp_all
  obtain ⟨hcap, hfreq, hv⟩ := hok
  have hst : s.started = false := by
    have hm := h.master
    simp only [masterOk, hv, Bool.false_eq_true, if_false, Bool.and_eq_true, Bool.not_eq_true'] at hm
    exact hm.1.1.1
  refine ⟨_, rfl, inv_respond ?_ h.wf h.fault_or_ackl ?_⟩
  · simpa [masterOk, hcap] using hfreq
  · have hb := h.released
    simp only [busReleased, hst] at hb
    exact hb

/-- A composite command clears `CNT` and calls `START` (R120 to R123, step 1). -/
theorem kept_callStart {s : State} {i : Instr} (hi : isBottom i = true) (h : Waiting s) (hat : At (atFirstLine s) i 1 0 [])
    (hrun : Running (atFirstLine s)) (hw : ∀ t, waitOk i 2 0 .start t = beforeLoop t) :
    Kept (callAt 2 0 .start { atFirstLine s with cnt := 0 }) := by
  have hb := h.released
  simp only [busReleased, Bool.and_eq_true] at hb
  refine kept_callAt hat hrun (callersOk_bottom_congr hi _ _ _) rfl rfl rfl rfl ?_ hb.1
  rw [hw]
  simp [beforeLoop, atFirstLine, h.fault]

theorem kept_firstLine {s : State} {i : Instr} (h : Waiting s) (hd : decode s.cmd = .ok i) (hc : dispatchCheck i s = none) :
    Kept (firstLine i s) := by
  by_cases hinit : ∃ halcap freq, i = .init halcap freq
  · obtain ⟨halcap, freq, rfl⟩ := hinit
    exact kept_init h hc
  have hv : s.valid = true := by
    by_contra hv
    cases i <;> simp_all [dispatchCheck, needsMaster, connectCheck]
  have hrun : Running (atFirstLine s) :=
    ⟨h.master, h.rsp, h.wf, h.busy, h.latches, by simp [dispatched, dispatchedCommand, atFirstLine, hv, hd]⟩
  have hat := h.at_firstLine hd
  have hb := h.released
  simp only [busReleased, Bool.and_eq_true] at hb
  obtain ⟨hscl, hsda⟩ := hb
  rw [← firstLine_atFirstLine h.seq]
  cases i with
  | restart | writeByte _ | readByte _ | writeBit _ | readBit => cases issuable_of_decode hd
  | init halcap freq => exact absurd ⟨halcap, freq, rfl⟩ hinit
  | deinit =>
    refine kept_ite (fun _ => kept_callAt hat hrun rfl rfl rfl rfl rfl rfl hscl) fun hst => ?_
    have hst : s.started = false := Bool.eq_false_iff.2 hst
    exact kept_tearDown hrun hst hscl (by rw [hst] at hsda; exact hsda)
  | start =>
    rw [← exec_firstLine (f := none) (rest := []) rfl rfl]
    exact kept_exec hat hrun hscl
  | stop =>
    rw [← exec_firstLine (f := none) (rest := []) rfl rfl]
    exact kept_exec hat hrun hscl
  | connect a w =>
    have hst : s.started = true := by simpa [dispatchCheck, connectCheck, hv] using hc
    rw [← exec_firstLine (f := none) (rest := []) rfl rfl]
    exact kept_exec hat hrun (by simp [topOk, connectAt, atFirstLine, hscl, hst, h.fault])
  | write a n => exact kept_callStart rfl h hat hrun fun _ => rfl
  | read a n => exact kept_callStart rfl h hat hrun fun _ => rfl
  | writeReg a r n => exact kept_callStart rfl h hat hrun fun _ => rfl
  | readReg a r n => exact kept_callStart rfl h hat hrun fun _ => rfl

/-- An illegal word ends with its code (R131 check 1, R147). -/
theorem Waiting.step_illegal {s : State} (h : Waiting s) (hr : s.rstIn = false) {e : Illegal} (hd : decode s.cmd = .error e) :
    step s = .next (respond .illegalCmd s) := by
  simp [step, hr, h.busy, fetch, h.seq, frameInstr, dispatchedCommand, hd, noRoutine, atDispatch, raise]

/-- A step of a controller at dispatch (R131). -/
theorem kept_dispatch {s : State} (h : Waiting s) (hr : s.rstIn = false) : Kept (step s) := by
  cases hd : decode s.cmd with
  | error e =>
    rw [h.step_illegal hr hd]
    exact kept_refused h .illegalCmd
  | ok i =>
    rw [step_dispatch hr h.busy h.seq hd]
    cases hc : dispatchCheck i s with
    | some c =>
      rw [exec_refused h.seq (issuable_of_decode hd) hc]
      exact kept_refused h c
    | none =>
      rw [exec_begins h.seq (issuable_of_decode hd) hc]
      exact kept_firstLine h hd hc

/-- A step between commands (R130, R156). -/
theorem kept_idleStep {s : State} (h : inv s = true) (hq : s.seq = []) (hb : s.busy = false) : Kept (idleStep s) := by
  unfold idleStep
  cases hin : s.cmdIn with
  | none => exact ⟨_, rfl, (inv_congr (s := s) (t := peerRest s) rfl).trans h⟩
  | some w =>
    refine ⟨_, rfl, ?_⟩
    simp only [inv, seqOk, hq, hb, Bool.and_eq_true] at h
    obtain ⟨⟨⟨master, rsp⟩, wf⟩, -, released⟩ := h
    simp only [rspOk, Bool.and_eq_true] at rsp
    have hlatches : latchesOk (accept w s) = true := by simp [latchesOk]
    simp only [inv, seqOk, accept_seq, Bool.and_eq_true]
    refine ⟨⟨⟨master, ?_⟩, wf⟩, ⟨⟨rfl, rfl⟩, hlatches⟩, ?_⟩
    · simp only [rspOk, Bool.and_eq_true]
      exact ⟨rsp.1, rfl⟩
    · simp only [if_true, Bool.and_eq_true]
      exact ⟨⟨⟨rfl, released⟩, rfl⟩, rfl⟩

theorem kept_step {s : State} (h : inv s = true) : Kept (step s) := by
  cases hr : s.rstIn with
  | true =>
    rw [step_reset hr]
    exact ⟨_, rfl, inv_doReset (inv_bufWf h) s.rstIn⟩
  | false =>
    obtain ⟨hb, hq, -⟩ | hw | ⟨i, l, p, rest, hat, hrun, ht⟩ := inv_cases h
    · rw [step_idle hr hb]
      exact kept_idleStep h hq hb
    · exact kept_dispatch hw hr
    · rw [step_busy hr hrun.busy hat.fetch]
      exact kept_exec hat hrun ht

/-- Settles O50: the step of each situation of `inv_cases` keeps the invariant. -/
theorem invKept : Obligations.InvKept := fun _ h => kept_step h

/-- Settles O49: the registers after reset, checked by evaluation. -/
theorem invAtReset : Obligations.InvAtReset := by
  unfold Obligations.InvAtReset
  decide

/-! ### Runs -/

theorem inv_move {m : Move} {s t : State} (h : inv s = true) (hm : move m s = .next t) : inv t = true := by
  cases m with
  | tick =>
    obtain ⟨v, hv, hinv⟩ := kept_step h
    rw [show step s = .next t from hm] at hv
    cases hv
    exact hinv
  | host a => exact inv_hostAct h a hm
  | peer a =>
    cases hm
    exact (inv_peerAct a s).trans h

/-- The invariant holds along every run (R25). -/
theorem inv_runMoves {ms : List Move} {s t : State} (h : inv s = true) (hrun : runMoves ms s = .next t) : inv t = true := by
  induction ms generalizing s with
  | nil =>
    cases hrun
    exact h
  | cons m ms ih =>
    rw [runMoves] at hrun
    split at hrun
    case h_1 u hm => exact ih (inv_move h hm) hrun
    all_goals cases hrun

/-- The half-period fits its register: the rounded quotient of R82 is at most 500000. -/
theorem halfPeriod_toNat {f : BitVec 32} (hf : f ≠ 0) :
    (halfPeriod f).toNat = (500000 + (f >>> 1).toNat) / f.toNat := by
  have hpos : 1 ≤ f.toNat := Nat.one_le_iff_ne_zero.2 fun h => hf (BitVec.eq_of_toNat_eq h)
  have hhalf : (f >>> 1).toNat = f.toNat / 2 := by simp [Nat.shiftRight_eq_div_pow]
  have hle : (500000 + f.toNat / 2) / f.toNat ≤ 500000 :=
    Nat.div_le_of_le_mul (by nlinarith [Nat.div_mul_le_self f.toNat 2])
  rw [halfPeriod, BitVec.toNat_ofNat, hhalf]
  exact Nat.mod_eq_of_lt (by omega)

/-- Settles O52: the invariant along the run, read at `BUSY = 0`. -/
theorem betweenCommands : Obligations.BetweenCommands := by
  intro ms s hrun hb
  have hinv : inv s = true := inv_runMoves invAtReset hrun
  obtain ⟨-, -, released⟩ | hw | ⟨i, l, p, rest, -, hrunning, -⟩ := inv_cases hinv
  case inr.inl => simp [hw.busy] at hb
  case inr.inr => simp [hrunning.busy] at hb
  simp only [inv, Bool.and_eq_true] at hinv
  have master := hinv.1.1.1
  simp only [busReleased, Bool.and_eq_true, Bool.or_eq_true] at released
  simp only [masterOk] at master
  refine ⟨released.1, fun h => by simpa [h] using released.2, fun hv => ?_, fun hv => ?_⟩
  · simpa [hv, and_assoc] using master
  · simp only [hv, if_true, Bool.and_eq_true, bne_iff_ne, beq_iff_eq] at master
    obtain ⟨⟨hf, hhalf⟩, hcap⟩ := master
    refine ⟨Nat.one_le_iff_ne_zero.2 fun h => hf (BitVec.eq_of_toNat_eq h), ?_, of_decide_eq_true hcap⟩
    rw [hhalf, halfPeriod_toNat hf]

end Sys2Proof.Machine
end

section
/-! PROOFS. Which registers a step can change: said once for every line of every listing (`works_exec`), then read off for `STARTED`,
the flags, the response word and the command port. -/

namespace Sys2Proof.Machine

/-! ### Reset, acceptance and the routine of a step -/

/-- Settles O7: what `doReset` leaves, in a step and in `driveReset`. -/
theorem resetStep : Obligations.ResetStep := by
  refine ⟨by decide, fun s hr => ⟨_, step_reset hr, resetFrom_doReset s, hr⟩, fun s on h => ?_⟩
  obtain ⟨master, lines, flags, response, seq, silent, buf, port, peer⟩ := resetFrom_doReset s
  exact ⟨_, rfl, by rw [driveReset_acts h]; exact ⟨master, lines, flags, response, seq, silent, buf, port, peer⟩,
    by rw [driveReset_acts h]⟩

/-- Settles O10: the top frame names the routine in each of the three ways of R132. -/
theorem stepRunsRoutine : Obligations.StepRunsRoutine := by
  intro s i hr hb
  refine ⟨fun line loop rest hq => step_callee hr hb hq, fun loop rest hq hd => step_dispatch hr hb hq hd, ?_⟩
  intro line loop rest hq hd ho ha hw hreg hlen
  have latches : latchesOk s = true := by simp [latchesOk, ho, ha, hw, hreg, hlen]
  exact step_command hr hb hq (Nat.succ_ne_zero line) (latchedCommand_of_decode latches hd)

/-! ### The register work of a line -/

/-- The registers and ports that no micro-operation, call or return changes: all but the lines, `BUF`, `SEQ` and the working registers
of the listings. -/
def heldView (s : State) : State :=
  { State.reset with
    valid := s.valid, halcap := s.halcap, freq := s.freq, half := s.half, started := s.started, busy := s.busy, ackl := s.ackl,
    flt := s.flt, fault := s.fault, opc := s.opc, addr := s.addr, w := s.w, reg := s.reg, len := s.len, rsp := s.rsp,
    rspValid := s.rspValid, cmd := s.cmd, cmdIn := s.cmdIn, rstIn := s.rstIn }

section Held
variable {u x : State} (h : heldView u = heldView x)
include h

theorem held_started {v : Bool} (hv : x.started = v) : u.started = v := (congrArg State.started h :).trans hv
theorem held_ackl {v : Bool} (hv : x.ackl = v) : u.ackl = v := (congrArg State.ackl h :).trans hv
theorem held_flt {v : Bool} (hv : x.flt = v) : u.flt = v := (congrArg State.flt h :).trans hv
theorem held_fault {v : Bool} (hv : x.fault = v) : u.fault = v := (congrArg State.fault h :).trans hv

theorem held_ports : (u.busy = x.busy ∧ u.rsp = x.rsp ∧ u.rspValid = x.rspValid) ∧
    u.cmdIn = x.cmdIn ∧ u.cmd = x.cmd ∧ u.opc = x.opc ∧ u.addr = x.addr ∧ u.w = x.w ∧ u.reg = x.reg ∧ u.len = x.len := by
  simp only [heldView, State.mk.injEq] at h
  tauto

end Held

/-- What a line of `i` may do to these registers before it responds, if it does: the register work of `s` has made `u` of it. -/
inductive LineWork (s u : State) : Instr → Prop
  | none (i : Instr) (h : heldView u = heldView s) : LineWork s u i
  | init (halcap : BitVec 5) (freq : BitVec 32)
      (h : heldView u = heldView
        { s with halcap := halcap, freq := freq, half := halfPeriod freq, started := false, valid := true }) :
      LineWork s u (.init halcap freq)
  | deinit (h : heldView u = heldView { s with halcap := 0, freq := 0, half := 0, valid := false }) : LineWork s u .deinit
  | start (h : heldView u = heldView { s with started := true }) : LineWork s u .start
  | restart (h : heldView u = heldView { s with started := true }) : LineWork s u .restart
  | stop (h : heldView u = heldView { s with started := false }) : LineWork s u .stop
  | writeByte (d : Byte) (h : heldView u = heldView { s with ackl := ackOf s.res }) : LineWork s u (.writeByte d)
  | readByte (f : Bool) (h : heldView u = heldView { s with flt := fltOf s.res f }) : LineWork s u (.readByte f)
  | read (a : SlaveAddr) (n : Count) (hf : s.flt = true) (h : heldView u = heldView { s with fault := true }) :
      LineWork s u (.read a n)
  | readReg (a : SlaveAddr) (r : Byte) (n : Count) (hf : s.flt = true) (h : heldView u = heldView { s with fault := true }) :
      LineWork s u (.readReg a r n)

theorem LineWork.congr {s u t : State} {i : Instr} (h : LineWork s u i) (ht : heldView t = heldView u) : LineWork s t i := by
  cases h with
  | none _ h => exact .none i (ht.trans h)
  | init halcap freq h => exact .init halcap freq (ht.trans h)
  | deinit h => exact .deinit (ht.trans h)
  | start h => exact .start (ht.trans h)
  | restart h => exact .restart (ht.trans h)
  | stop h => exact .stop (ht.trans h)
  | writeByte d h => exact .writeByte d (ht.trans h)
  | readByte f h => exact .readByte f (ht.trans h)
  | read a n hf h => exact .read a n hf (ht.trans h)
  | readReg a r n hf h => exact .readReg a r n hf (ht.trans h)

@[simp] theorem LineWork.refl (s : State) (i : Instr) : LineWork s s i := .none i (by rfl)

/-- If `o` is a next state, a line of `i` made it of `s`: its register work alone, or that and a response. -/
structure Works (i : Instr) (s : State) (o : Out) : Prop where
  of_next : ∀ t, o = .next t → LineWork s t i ∨ ∃ c u, LineWork s u i ∧ t = respond c u

/-! The shared operations: apart from the register work they leave `heldView`. -/

theorem heldView_goto (line : Nat) (s : State) : heldView (goto line s) = heldView s := by
  unfold heldView
  rfl

theorem heldView_lineWrite (L : Line) (b : Bool) (s : State) : heldView (lineWrite L b s) = heldView s := by
  unfold heldView
  cases L <;> rfl

theorem heldView_lineRead (L : Line) (s : State) : heldView (lineRead L s) = heldView s := by
  unfold heldView
  rfl

theorem heldView_delay (s : State) : heldView (delay s) = heldView s := by
  unfold heldView
  rfl

theorem heldView_memory (op : MicroOp) (s : State) (d : Byte) (m : Memory) (q : List Frame) :
    heldView { record op (peerMove s) { peerMove s with dat := d, buf := m } with seq := q } = heldView s := by
  unfold heldView
  rfl

section Operations
variable {i : Instr} {s u : State}

@[simp] theorem works_fault (r : Fault) : Works i s (.fault r) := ⟨fun _ h => by cases h⟩

theorem works_next (h : LineWork s u i) : Works i s (.next u) :=
  ⟨fun _ e => by
    cases e
    exact .inl h⟩

theorem Works.ite {c : Prop} [Decidable c] {a b : Out} (ha : c → Works i s a) (hb : ¬c → Works i s b) :
    Works i s (if c then a else b) := by
  split
  · exact ha ‹_›
  · exact hb ‹_›

@[simp] theorem works_respond (h : LineWork s u i) (c : Code) : Works i s (.next (respond c u)) :=
  ⟨fun _ e => by
    cases e
    exact .inr ⟨c, u, h, rfl⟩⟩

@[simp] theorem works_callAt (h : LineWork s u i) (line loop : Nat) (r : Instr) : Works i s (callAt line loop r u) :=
  works_next (h.congr rfl)

@[simp] theorem works_finish (h : LineWork s u i) : Works i s (finish u) := by
  unfold finish
  split
  · exact works_fault _
  · split
    · exact works_respond h .ok
    · split
      · exact works_fault _
      · exact works_next (h.congr rfl)

@[simp] theorem works_lineWrite (h : LineWork s u i) (line : Nat) (L : Line) (b : Bool) :
    Works i s (.next (goto line (lineWrite L b u))) :=
  works_next (h.congr ((heldView_goto _ _).trans (heldView_lineWrite L b u)))

@[simp] theorem works_lineRead (h : LineWork s u i) (line : Nat) (L : Line) : Works i s (.next (goto line (lineRead L u))) :=
  works_next (h.congr ((heldView_goto _ _).trans (heldView_lineRead L u)))

@[simp] theorem works_delay (h : LineWork s u i) (line : Nat) : Works i s (.next (goto line (delay u))) :=
  works_next (h.congr ((heldView_goto _ _).trans (heldView_delay u)))

@[simp] theorem works_highPhase : Works i s (highPhase s) := works_delay (.refl s i) 7

@[simp] theorem works_stretch {skip : State → Out} (h : Works i s (skip s)) (after : Nat) : Works i s (stretch after skip s) :=
  .ite (fun _ => .ite (fun _ => works_lineRead (.refl s i) after .scl) fun _ => works_next (.none i (heldView_lineRead .scl s))) fun _ => h

@[simp] theorem works_txFetch (h : LineWork s u i) (line : Nat) : Works i s (txFetch line u) :=
  .ite (fun _ => works_next (h.congr (heldView_memory _ u _ _ _))) fun _ => works_fault _

@[simp] theorem works_memWrite (v : Byte) (line loop : Nat) : Works i s (memWrite v s fun x => .next (setPos line loop x)) :=
  .ite (fun _ => works_next (.none i (heldView_memory _ s _ _ _))) fun _ => works_fault _

theorem works_withPos {body : Nat → Nat → Out} (h : ∀ line loop, Works i s (body line loop)) : Works i s (withPos s body) := by
  unfold withPos
  split
  · exact works_fault _
  · exact h _ _

theorem works_asCommand {check : Option Code} {body : Nat → Nat → Out} (h : ∀ line loop, Works i s (body line loop)) :
    Works i s (asCommand check body s) := by
  refine works_withPos fun line loop => ?_
  cases line with
  | zero =>
    cases check with
    | none => exact h 1 0
    | some c => exact works_respond (.refl s i) c
  | succ k => exact h (k + 1) loop

@[simp] theorem works_leaveToStop (h : LineWork s u i) (out : Nat) : Works i s (leaveToStop out u) := works_callAt h out 0 .stop

@[simp] theorem works_txTest (h : LineWork s u i) (line out : Nat) (n : Count) : Works i s (txTest line out n u) :=
  .ite (fun _ => works_leaveToStop h out) fun _ => works_txFetch h line

@[simp] theorem works_rxTest (h : LineWork s u i) (line out : Nat) (n : Count) : Works i s (rxTest line out n u) :=
  .ite (fun _ => works_leaveToStop h out) fun _ => works_callAt h line 3 _

@[simp] theorem works_txLoop (line out : Nat) (n : Count) (loop : Nat) : Works i s (txLoop line out n loop s) := by
  unfold txLoop
  split
  case h_1 => exact works_txTest (.none i (by rfl)) line out n
  case h_5 => exact .ite (fun _ => works_txTest (.none i (by rfl)) line out n) fun _ => works_leaveToStop (.refl s i) out
  case h_6 => exact works_txTest (.none i (by rfl)) line out n
  all_goals simp

/-- The receive loop is where `FAULT` is set, after a wrong read-back (R125 step 5). -/
@[simp] theorem works_rxLoop (line out : Nat) (n : Count) (loop : Nat)
    (hfault : s.flt = true → LineWork s { s with fault := true } i) : Works i s (rxLoop line out n loop s) := by
  unfold rxLoop
  split
  case h_1 => exact works_rxTest (.none i (by rfl)) line out n
  case h_3 => exact works_callAt (.refl s i) line 3 _
  case h_5 => exact .ite (fun hf => works_leaveToStop (hfault hf) out) fun _ => works_rxTest (.none i (by rfl)) line out n
  case h_6 => exact works_rxTest (.none i (by rfl)) line out n
  all_goals simp

/-- The line of a composite command that goes on only after an acknowledge. -/
theorem works_ifAcked {o : Out} (h : Works i s o) (out : Nat) : Works i s (if s.res then o else leaveToStop out s) :=
  .ite (fun _ => h) fun _ => works_leaveToStop (.refl s i) out

end Operations

/-! The listings. -/

section Listings
variable (s : State) (a : SlaveAddr) (r d : Byte) (n : Count)

theorem works_execWriteBit (v : Bool) : Works (.writeBit v) s (execWriteBit v s) :=
  works_withPos fun line _ => by split <;> simp

theorem works_execReadBit : Works .readBit s (execReadBit s) :=
  works_withPos fun line _ => by split <;> simp

theorem works_execWriteByte : Works (.writeByte d) s (execWriteByte d s) :=
  works_withPos fun line _ => by
    split
    case h_1 => exact works_callAt (.none _ (by rfl)) 2 0 _
    case h_2 => exact works_callAt (.none _ (by rfl)) 2 0 _
    case h_3 => exact .ite (fun _ => works_callAt (.none _ (by rfl)) 4 0 _) fun _ => works_callAt (.none _ (by rfl)) 2 0 _
    case h_5 => exact works_finish (.writeByte d rfl)
    case h_6 => exact works_finish (.none _ (by rfl))
    all_goals simp

theorem works_execReadByte (f : Bool) : Works (.readByte f) s (execReadByte f s) :=
  works_withPos fun line _ => by
    split
    case h_1 => exact works_callAt (.none _ (by rfl)) 2 0 _
    case h_3 => exact .ite (fun _ => works_callAt (.none _ (by rfl)) 4 0 _) fun _ => works_callAt (.none _ (by rfl)) 2 0 _
    case h_6 => exact works_finish (.readByte f rfl)
    all_goals simp

theorem works_execStart : Works .start s (execStart s) :=
  works_asCommand fun line _ => by
    split
    case h_5 => exact works_finish (.start rfl)
    all_goals simp

theorem works_execStop : Works .stop s (execStop s) :=
  works_asCommand fun line _ => by
    split
    case h_10 => exact works_finish (.stop rfl)
    all_goals simp

theorem works_execRestart : Works .restart s (execRestart s) :=
  works_withPos fun line _ => by
    split
    case h_10 => exact works_finish (.restart rfl)
    all_goals simp

theorem works_connectNotStarted (i : Instr) : Works i s (connectNotStarted s) := by
  unfold connectNotStarted
  split
  · exact works_respond (.refl s i) .notStarted
  · exact works_finish (.none i (by rfl))

theorem works_execConnect (w : Bool) : Works (.connect a w) s (execConnect a w s) :=
  works_asCommand fun line _ => by
    split
    case h_1 => exact .ite (fun _ => works_callAt (.refl s _) 3 0 _) fun _ => works_connectNotStarted s _
    all_goals simp

theorem works_execInit (halcap : BitVec 5) (freq : BitVec 32) : Works (.init halcap freq) s (execInit halcap freq s) :=
  works_asCommand fun line _ => by
    split
    case h_1 => exact works_respond (.init halcap freq rfl) .ok
    case h_2 => exact works_fault _

@[simp] theorem works_tearDown : Works .deinit s (tearDown s) := works_respond (.deinit rfl) .ok

theorem works_stopOrTearDown : Works .deinit s (if s.started then callAt 2 0 .stop s else tearDown s) :=
  .ite (fun _ => works_callAt (.refl s _) 2 0 .stop) fun _ => works_tearDown s

theorem works_execDeinit : Works .deinit s (execDeinit s) :=
  works_asCommand fun line _ => by
    split
    case h_1 => exact works_stopOrTearDown s
    case h_2 => exact works_stopOrTearDown s
    all_goals simp

theorem works_callStart (i : Instr) : Works i s (callAt 2 0 .start { s with cnt := 0 }) := works_callAt (.none i (by rfl)) 2 0 .start

theorem works_execWrite : Works (.write a n) s (execWrite a n s) :=
  works_asCommand fun line loop => by
    split
    case h_1 => exact works_callStart s _
    case h_4 => exact .ite (fun _ => works_ifAcked (works_txLoop 4 5 n 1) 5) fun _ => works_txLoop 4 5 n loop
    all_goals simp

theorem works_execRead : Works (.read a n) s (execRead a n s) :=
  works_asCommand fun line loop => by
    have hloop : ∀ p, Works (.read a n) s (rxLoop 4 5 n p s) := fun p => works_rxLoop 4 5 n p fun hf => .read a n hf rfl
    split
    case h_1 => exact works_callStart s _
    case h_4 => exact .ite (fun _ => works_ifAcked (hloop 1) 5) fun _ => hloop loop
    all_goals simp

theorem works_execWriteReg : Works (.writeReg a r n) s (execWriteReg a r n s) :=
  works_asCommand fun line loop => by
    split
    case h_1 => exact works_callStart s _
    case h_4 => exact works_ifAcked (works_callAt (.refl s _) 5 0 (.writeByte r)) 7
    case h_6 => exact .ite (fun _ => works_ifAcked (works_txLoop 6 7 n 1) 7) fun _ => works_txLoop 6 7 n loop
    all_goals simp

theorem works_execReadReg : Works (.readReg a r n) s (execReadReg a r n s) :=
  works_asCommand fun line loop => by
    have hloop : ∀ p, Works (.readReg a r n) s (rxLoop 9 10 n p s) := fun p =>
      works_rxLoop 9 10 n p fun hf => .readReg a r n hf rfl
    split
    case h_1 => exact works_callStart s _
    case h_4 => exact works_ifAcked (works_callAt (.refl s _) 5 0 (.writeByte r)) 10
    case h_6 => exact works_ifAcked (works_callAt (.refl s _) 7 0 .restart) 10
    case h_9 => exact .ite (fun _ => works_ifAcked (hloop 1) 10) fun _ => hloop loop
    all_goals simp

theorem works_exec (i : Instr) : Works i s (exec i s) := by
  cases i with
  | init halcap freq => exact works_execInit s halcap freq
  | deinit => exact works_execDeinit s
  | start => exact works_execStart s
  | stop => exact works_execStop s
  | connect a w => exact works_execConnect s a w
  | write a n => exact works_execWrite s a n
  | read a n => exact works_execRead s a n
  | writeReg a r n => exact works_execWriteReg s a r n
  | readReg a r n => exact works_execReadReg s a r n
  | restart => exact works_execRestart s
  | writeByte d => exact works_execWriteByte s d
  | readByte f => exact works_execReadByte s f
  | writeBit v => exact works_execWriteBit s v
  | readBit => exact works_execReadBit s

end Listings

/-! ### What a step is -/

/-- What a step without reset is. -/
inductive StepWork (s t : State) : Prop
  | accepts (w : CmdWord) (hb : s.busy = false) (hw : s.cmdIn = some w) (h : t = accept w s)
  | idles (hb : s.busy = false) (h : t = peerRest s)
  | refuses (hb : s.busy = true) (h : t = respond .illegalCmd s)
  | works (i : Instr) (hb : s.busy = true) (hf : fetch s = some i) (h : LineWork s t i)
  | responds (i : Instr) (c : Code) (u : State) (hb : s.busy = true) (hf : fetch s = some i) (hw : LineWork s u i)
      (h : t = respond c u)

theorem step_work {s t : State} (hr : s.rstIn = false) (h : step s = .next t) : StepWork s t := by
  cases hb : s.busy with
  | false =>
    rw [step_idle hr hb, idleStep] at h
    split at h
    case h_1 w hw =>
      cases h
      exact .accepts w hb hw rfl
    case h_2 =>
      cases h
      exact .idles hb rfl
  | true =>
    cases hf : fetch s with
    | some i =>
      rw [step_busy hr hb hf] at h
      obtain hw | ⟨c, u, hw, hu⟩ := (works_exec s i).of_next t h
      · exact .works i hb hf hw
      · exact .responds i c u hb hf hw hu
    | none =>
      have hstep : step s = noRoutine s := by simp [step, hr, hb, hf]
      rw [hstep, noRoutine] at h
      split at h
      · cases h
        exact .refuses hb rfl
      · cases h

/-- The latches, the ports and `BUSY` are not a line's to change (R130, R136). -/
theorem LineWork.ports {s u : State} {i : Instr} (h : LineWork s u i) :
    (u.busy = s.busy ∧ u.rsp = s.rsp ∧ u.rspValid = s.rspValid) ∧
    u.cmdIn = s.cmdIn ∧ u.cmd = s.cmd ∧ u.opc = s.opc ∧ u.addr = s.addr ∧ u.w = s.w ∧ u.reg = s.reg ∧ u.len = s.len := by
  cases h with
  | none _ h | init _ _ h | deinit h | start h | restart h | stop h | writeByte _ h | readByte _ h | read _ _ _ h
  | readReg _ _ _ _ h =>
    have hports := held_ports h
    exact hports

/-- Settles O8: acceptance is `accept`, and no line writes a latch or the port. -/
theorem acceptance : Obligations.Acceptance := by
  refine ⟨fun s w hr hb hw => ?_, fun s t hr hb h => ?_⟩
  · refine ⟨accept w s, ?_, rfl, rfl, rfl⟩
    rw [step_idle hr hb, idleStep, hw]
  · cases step_work hr h with
    | accepts w hb' => simp [hb] at hb'
    | idles hb' => simp [hb] at hb'
    | refuses _ h =>
      rw [h]
      simp
    | works i _ _ h => exact h.ports.2
    | responds i c u _ _ hw h =>
      rw [h]
      exact hw.ports.2

/-! ### `STARTED` and the flags -/

theorem LineWork.started {s u : State} {i : Instr} (h : LineWork s u i) :
    u.started = s.started ∨ (u.started = true ∧ (i = .start ∨ i = .restart)) ∨
      (u.started = false ∧ (i = .stop ∨ ∃ halcap freq, i = .init halcap freq)) := by
  cases h with
  | init halcap freq h => exact .inr (.inr ⟨held_started h rfl, .inr ⟨halcap, freq, rfl⟩⟩)
  | start h => exact .inr (.inl ⟨held_started h rfl, .inl rfl⟩)
  | restart h => exact .inr (.inl ⟨held_started h rfl, .inr rfl⟩)
  | stop h => exact .inr (.inr ⟨held_started h rfl, .inl rfl⟩)
  | none _ h | deinit h | writeByte _ h | readByte _ h | read _ _ _ h | readReg _ _ _ _ h => exact .inl (held_started h rfl)

/-- Settles O54: acceptance, idling and responses keep `STARTED`; the lines are `LineWork.started`. -/
theorem startedWriters : Obligations.StartedWriters := by
  intro s t hr h
  cases step_work hr h with
  | accepts w _ _ h => exact .inl (by rw [h, accept_started])
  | idles _ h => exact .inl (by rw [h, peerRest_started])
  | refuses _ h => exact .inl (by rw [h, respond_started])
  | works i _ hf h =>
    rw [hf]
    simpa using h.started
  | responds i c u _ hf hw h =>
    rw [hf, h, respond_started]
    simpa using hw.started

theorem LineWork.flags {s u : State} {i : Instr} (h : LineWork s u i) :
    (u.ackl = s.ackl ∨ ∃ d, i = .writeByte d) ∧ (u.flt = s.flt ∨ ∃ f, i = .readByte f) ∧
      (u.fault = s.fault ∨
        (u.fault = true ∧ s.flt = true ∧ ((∃ a n, i = .read a n) ∨ ∃ a r n, i = .readReg a r n))) := by
  cases h with
  | writeByte d h => exact ⟨.inr ⟨d, rfl⟩, .inl (held_flt h rfl), .inl (held_fault h rfl)⟩
  | readByte f h => exact ⟨.inl (held_ackl h rfl), .inr ⟨f, rfl⟩, .inl (held_fault h rfl)⟩
  | read a n hf h =>
    exact ⟨.inl (held_ackl h rfl), .inl (held_flt h rfl),
      .inr ⟨held_fault h rfl, hf, .inl ⟨a, n, rfl⟩⟩⟩
  | readReg a r n hf h =>
    exact ⟨.inl (held_ackl h rfl), .inl (held_flt h rfl),
      .inr ⟨held_fault h rfl, hf, .inr ⟨a, r, n, rfl⟩⟩⟩
  | none _ h | init _ _ h | deinit h | start h | restart h | stop h =>
    exact ⟨.inl (held_ackl h rfl), .inl (held_flt h rfl), .inl (held_fault h rfl)⟩

/-- Settles O55: acceptance clears `ACKL` and `FAULT`, idling and responses keep the flags; the lines are `LineWork.flags`. -/
theorem flagWriters : Obligations.FlagWriters := by
  intro s t hr h
  cases step_work hr h with
  | accepts w hb _ h => exact ⟨.inr (.inl ⟨hb, by rw [h, accept_ackl]⟩), .inl (by rw [h, accept_flt]),
      .inr (.inl ⟨hb, by rw [h, accept_fault]⟩)⟩
  | idles _ h => exact ⟨.inl (by rw [h, peerRest_ackl]), .inl (by rw [h, peerRest_flt]), .inl (by rw [h, peerRest_fault])⟩
  | refuses _ h => exact ⟨.inl (by rw [h, respond_ackl]), .inl (by rw [h, respond_flt]), .inl (by rw [h, respond_fault])⟩
  | works i _ hf h =>
    obtain ⟨hackl, hflt, hfault⟩ := h.flags
    simp only [hf, Option.some.injEq]
    exact ⟨hackl.imp_right .inr, hflt, hfault.imp_right .inr⟩
  | responds i c u _ hf hw h =>
    obtain ⟨hackl, hflt, hfault⟩ := hw.flags
    simp only [hf, h, Option.some.injEq, respond_ackl, respond_flt, respond_fault]
    exact ⟨hackl.imp_right .inr, hflt, hfault.imp_right .inr⟩

/-! ### The response word -/

theorem isComposite_iff (opc : BitVec 4) : isComposite opc = true ↔ opc = 5 ∨ opc = 6 ∨ opc = 7 ∨ opc = 8 := by
  revert opc
  decide

theorem codeNum_eq_zero {c : Code} : codeNum c = 0 ↔ c = .ok := by cases c <;> decide

/-- The fields of a response word (R67, R68, R136). -/
theorem respond_fields (c : Code) (u : State) :
    (respond c u).rsp.extractLsb' 21 11 = 0 ∧ ((respond c u).rsp.extractLsb' 18 3).toNat ≤ 4 ∧
      (respond c u).rsp.getLsbD 17 = u.fault ∧ (respond c u).rsp.getLsbD 16 = u.ackl ∧
      (respond c u).rsp.extractLsb' 0 16 =
        if (respond c u).rsp.extractLsb' 18 3 = 0 ∧ (u.opc = 5 ∨ u.opc = 6 ∨ u.opc = 7 ∨ u.opc = 8) then u.cnt else 0 := by
  have hcode : (respond c u).rsp.extractLsb' 18 3 = codeNum c := rspCode_packRsp _ _ _ c
  have hcount : (respond c u).rsp.extractLsb' 0 16 = countOf c u := rspCount_packRsp _ _ _ c
  simp only [hcode, hcount, codeNum_eq_zero, ← isComposite_iff]
  exact ⟨reserved_packRsp _ _ _ c, codeNum_le c, rspFault_packRsp _ _ _ c, rspAck_packRsp _ _ _ c, rfl⟩

/-- Settles O13: a step responds, with the fields of `respond_fields`, or keeps the word. -/
theorem responseWord : Obligations.ResponseWord := by
  intro s t hr h
  cases step_work hr h with
  | accepts w hb hw h => exact .inl (by simp [h, hb, hw])
  | idles hb h => exact .inl (by simp [h])
  | refuses hb h =>
    rw [h]
    exact .inr ⟨hb, rfl, rfl, rfl, respond_fields .illegalCmd s⟩
  | works i hb hf h =>
    obtain ⟨⟨hbusy, hrsp, hvalid⟩, -⟩ := h.ports
    exact .inl ⟨hrsp, fun h => hbusy.trans h, .inl hvalid⟩
  | responds i c u hb _ _ h =>
    rw [h]
    exact .inr ⟨hb, rfl, rfl, rfl, respond_fields c u⟩

end Sys2Proof.Machine
end

section
/-! PROOFS. The listings have no other lines. -/

namespace Sys2Proof.Machine

theorem exec_empty (i : Instr) {s : State} (hq : s.seq = []) : exec i s = .fault .seqPosition := by
  cases i <;> simp only [exec, execInit, execDeinit, execStart, execStop, execConnect, execWrite, execRead, execWriteReg,
    execReadReg, execRestart, execWriteByte, execReadByte, execWriteBit, execReadBit, asCommand, withPos, hq]

/-- After its last line a listing has none: `lastLine`. -/
theorem exec_beyond (i : Instr) {s : State} {c : Option Instr} {line loop : Nat} {rest : List Frame}
    (hq : s.seq = ⟨c, line, loop⟩ :: rest) (hl : lastLine i < line) : exec i s = .fault .seqPosition := by
  obtain ⟨k, rfl⟩ : ∃ k, line = k + lastLine i + 1 := ⟨line - lastLine i - 1, by omega⟩
  cases i with
  | restart | writeByte _ | readByte _ | writeBit _ | readBit =>
    simp only [exec, execRestart, execWriteByte, execReadByte, execWriteBit, execReadBit]
    exact withPos_cons hq _
  | _ =>
    simp only [exec, execInit, execDeinit, execStart, execStop, execConnect, execWrite, execRead, execWriteReg, execReadReg]
    exact asCommand_line hq (Nat.succ_ne_zero _) _ _

/-- An internal routine has no dispatch (R64). -/
theorem exec_dispatch_internal {i : Instr} (hi : i.issuable = false) {s : State} {c : Option Instr} {loop : Nat}
    {rest : List Frame} (hq : s.seq = ⟨c, 0, loop⟩ :: rest) : exec i s = .fault .seqPosition := by
  cases i with
  | restart | writeByte _ | readByte _ | writeBit _ | readBit =>
    simp only [exec, execRestart, execWriteByte, execReadByte, execWriteBit, execReadBit]
    exact withPos_cons hq _
  | _ => cases hi

/-- After its line 6 a transfer loop has none (R124, R125). -/
theorem exec_beyondLoop {i : Instr} {s : State} {c : Option Instr} {line loop : Nat} {rest : List Frame}
    (hq : s.seq = ⟨c, line, loop⟩ :: rest) (hline : loopLine i = some line) (hl : 6 < loop) : exec i s = .fault .seqPosition := by
  obtain ⟨k, rfl⟩ : ∃ k, loop = k + 7 := ⟨loop - 7, by omega⟩
  cases i with
  | write _ _ | read _ _ | writeReg _ _ _ | readReg _ _ _ =>
    cases hline
    simp only [exec, execWrite, execRead, execWriteReg, execReadReg]
    exact asCommand_line hq (Nat.succ_ne_zero _) _ _
  | _ => cases hline

/-- Settles O48: every listing ends in the line of `exec_beyond`, every loop in that of `exec_beyondLoop`. -/
theorem noOtherLines : Obligations.NoOtherLines := fun i _ =>
  ⟨exec_empty i, fun _ _ _ _ hq hl => exec_beyond i hq hl, fun _ _ _ hq hi => exec_dispatch_internal hi hq,
    fun _ _ _ _ hq hline hl => exec_beyondLoop hq hline hl⟩

end Sys2Proof.Machine
end

section
/-! PROOFS. Two controllers that differ in what `FLT` and the working registers held between commands run alike: a relation between the two
states that says, position by position, which of these registers the rest of the command still reads. -/

namespace Sys2Proof.Machine

/-! ### Two states that run alike -/

/-- The state without the registers a listing writes before it reads them: all but `FLT`, `IDX`, `CNT`, `SHREG`, `BITK` and the listing
variables. The operand latches are in it: they are loaded at acceptance. -/
def coreView (s : State) : State :=
  { s with flt := false, idx := 0, cnt := 0, shreg := 0, bitk := 0, res := false, dat := 0 }

/-- The bits above `k` agree: the ones `READ_BYTE` has received when it is at bit `k` (R101). -/
def AgreeAbove (k : BitVec 3) (d d' : Byte) : Prop := ∀ j, k.toNat < j → d'.getLsbD j = d.getLsbD j

/-- What `TXLOOP` at its line `p` still reads (R124). -/
def txAlike (p : Nat) (s s' : State) : Prop := (p = 4 → s'.dat = s.dat) ∧ (p = 5 → s'.res = s.res)

/-- What `RXLOOP` at its line `p` still reads (R125). -/
def rxAlike (p : Nat) (s s' : State) : Prop := (p = 4 → s'.shreg = s.shreg) ∧ (p = 4 ∨ p = 5 → s'.flt = s.flt)

/-- What the routine `i` at line `l` (loop line `p`) on top of `SEQ` still reads, apart from `CNT` and from what the invariant says. -/
def topAlike (i : Instr) (l p : Nat) (s s' : State) : Prop :=
  match i with
  | .readBit => l = 8 → s'.res = s.res
  | .writeByte _ => (l = 3 → s'.bitk = s.bitk) ∧ (l = 5 → s'.res = s.res)
  | .readByte _ =>
    (l = 3 → s'.bitk = s.bitk ∧ AgreeAbove s.bitk s.shreg s'.shreg) ∧ (l = 5 ∨ l = 6 → s'.shreg = s.shreg) ∧
      (l = 3 ∨ l = 6 → s'.res = s.res)
  | .connect _ _ => l = 4 → s'.res = s.res
  | .write _ _ => (l = 4 ∧ p = 0 → s'.res = s.res) ∧ txAlike p s s'
  | .writeReg _ _ _ => ((l = 4 ∨ l = 6) ∧ p = 0 → s'.res = s.res) ∧ txAlike p s s'
  | .read _ _ => (l = 4 ∧ p = 0 → s'.res = s.res) ∧ rxAlike p s s'
  | .readReg _ _ _ => ((l = 4 ∨ l = 6 ∨ l = 9) ∧ p = 0 → s'.res = s.res) ∧ rxAlike p s s'
  | _ => True

/-- What the byte routine `i` that waits at line `l` for a bit routine still reads when it goes on. -/
def byteAlike (i : Instr) (l : Nat) (s s' : State) : Prop :=
  match i with
  | .writeByte _ => l = 2 → s'.bitk = s.bitk
  | .readByte _ => (l = 2 → s'.bitk = s.bitk ∧ AgreeAbove s.bitk s.shreg s'.shreg) ∧ (l = 4 → s'.shreg = s.shreg)
  | _ => True

/-- The caller below the top frame, if it is a byte routine. -/
def belowAlike (rest : List Frame) (s s' : State) : Prop :=
  match rest with
  | ⟨some i, l, _⟩ :: _ => byteAlike i l s s'
  | _ => True

/-- At a line of a listing over the frames `rest`: everything agrees that the rest of the command reads, apart from what the top routine
itself reads. -/
structure Twin (rest : List Frame) (s s' : State) : Prop where
  core : coreView s' = coreView s
  cnt : isComposite s.opc = true → s'.cnt = s.cnt
  below : belowAlike rest s s'

/-- The two states agree on all that can still matter: between commands, at dispatch, at a line of a listing. -/
inductive Alike (s s' : State) : Prop
  | idle (hb : s.busy = false) (h : visible s' = visible s)
  | waiting (hq : s.seq = [⟨none, 0, 0⟩]) (h : coreView s' = coreView s)
  | running (i : Instr) (c : Option Instr) (l p : Nat) (rest : List Frame) (hq : s.seq = ⟨c, l, p⟩ :: rest)
      (hf : fetch s = some i) (h : Twin rest s s') (top : topAlike i l p s s')

/-- If both outcomes are next states, these are alike. -/
def Couple (o o' : Out) : Prop := ∀ t t', o = .next t → o' = .next t' → Alike t t'

theorem couple_next {t t' : State} (h : Alike t t') : Couple (.next t) (.next t') := by
  rintro _ _ ⟨⟩ ⟨⟩
  exact h

/-! ### What an operation does to the agreeing part -/

/-- An operation that reads only the agreeing part keeps it. -/
theorem core_map {f : State → State} (hf : ∀ x, coreView (f x) = coreView (f (coreView x))) {s s' : State}
    (h : coreView s' = coreView s) : coreView (f s') = coreView (f s) := by
  rw [hf, h, ← hf]

section Core
variable {s s' : State} (h : coreView s' = coreView s)
include h

theorem core_visible : visible s' = visible s := by
  rw [show visible s' = visible (coreView s') from rfl, h]
  rfl

theorem core_delay : coreView (delay s') = coreView (delay s) := core_map (fun _ => rfl) h
theorem core_lineRead (L : Line) : coreView (lineRead L s') = coreView (lineRead L s) := core_map (fun _ => by cases L <;> rfl) h
theorem core_lineWrite (L : Line) (b : Bool) : coreView (lineWrite L b s') = coreView (lineWrite L b s) :=
  core_map (fun _ => by cases L <;> rfl) h
theorem core_setPos (line loop : Nat) : coreView (setPos line loop s') = coreView (setPos line loop s) := core_map (fun _ => rfl) h
theorem core_seq : s'.seq = s.seq := (congrArg State.seq h :)
theorem core_halcap : s'.halcap = s.halcap := (congrArg State.halcap h :)
theorem core_started : s'.started = s.started := (congrArg State.started h :)
theorem core_level (L : Line) : level L (peerMove s') = level L (peerMove s) := by
  rw [show level L (peerMove s') = level L (peerMove (coreView s')) by cases L <;> rfl, h]
  cases L <;> rfl

theorem core_countOf (c : Code) (hcnt : isComposite s.opc = true → s'.cnt = s.cnt) : countOf c s' = countOf c s := by
  unfold countOf
  rw [show s'.opc = s.opc from (congrArg State.opc h :)]
  split
  case isTrue hc => exact hcnt hc.2
  case isFalse => rfl

theorem core_respond {c : Code} (hcount : countOf c s' = countOf c s) : visible (respond c s') = visible (respond c s) := by
  have hview : ∀ x : State, visible (respond c x) =
      { visible (respond c (coreView x)) with rsp := packRsp (countOf c x) (coreView x).ackl (coreView x).fault c } :=
    fun _ => rfl
  rw [hview s', hview s, h, hcount]

end Core

/-- `byteAlike` looks at the shift register and the bit index only. -/
theorem belowAlike_congr {s s' t t' : State} {rest : List Frame} (h : belowAlike rest s s') (hd : t.shreg = s.shreg)
    (hk : t.bitk = s.bitk) (hd' : t'.shreg = s'.shreg) (hk' : t'.bitk = s'.bitk) : belowAlike rest t t' := by
  unfold belowAlike byteAlike at *
  rw [hd, hk, hd', hk']
  exact h

/-- A called routine reads nothing before it has written it. -/
theorem topAlike_first (i : Instr) (s s' : State) : topAlike i 1 0 s s' := by
  cases i <;> simp [topAlike, txAlike, rxAlike]

/-- Only a bit routine is waited for by a byte routine. -/
theorem byteAlike_of_wait {i c : Instr} {l p : Nat} {s : State} (h : waitOk i l p c s = true) (hc : callRank c ≠ 2) (t t' : State) :
    byteAlike i l t t' := by
  cases i with
  | writeByte _ | readByte _ =>
    cases c with
    | writeBit _ | readBit => exact absurd rfl hc
    | _ => exact absurd h Bool.false_ne_true
  | _ => trivial

/-- No command is a byte routine. -/
theorem byteAlike_issuable {i : Instr} (hi : i.issuable = true) (l : Nat) (t t' : State) : byteAlike i l t t' := by
  cases i with
  | writeByte _ | readByte _ => cases hi
  | _ => trivial

/-- Under a routine that is no bit routine no byte routine waits. -/
theorem belowAlike_of_rank {s : State} {i : Instr} {rest : List Frame} (hc : callersOk s i rest = true) (hi : callRank i ≠ 2)
    (t t' : State) : belowAlike rest t t' := by
  obtain ⟨f, l, p, j, below, rfl, hw, ⟨rfl, -⟩ | ⟨rfl, -⟩⟩ := callers_cases hc
  · exact byteAlike_of_wait hw hi t t'
  · trivial

/-- Which commands count bytes (R68). -/
def isTransfer : Instr → Bool
  | .write _ _ | .read _ _ | .writeReg _ _ _ | .readReg _ _ _ => true
  | _ => false

theorem isComposite_of_latched {s : State} {i : Instr} (h : latchedCommand s = some i) : isComposite s.opc = isTransfer i := by
  unfold latchedCommand at h
  split at h <;> cases h <;> simp_all [isComposite, isTransfer]

theorem belowAlike_of_at {s : State} {i : Instr} {l p : Nat} {rest : List Frame} (h : At s i l p rest) (hi : callRank i ≠ 2)
    (t t' : State) : belowAlike rest t t' := by
  obtain ⟨-, callers⟩ | ⟨-, -, rfl, -⟩ := h
  · exact belowAlike_of_rank callers hi t t'
  · trivial

theorem waitOk_rank {i c : Instr} {l p : Nat} {s : State} (h : waitOk i l p c s = true) : callRank i ≠ 2 := by
  cases i with
  | writeBit _ | readBit => cases c <;> exact absurd h Bool.false_ne_true
  | _ => simp [callRank]

/-! ### The shared operations take alike states to alike states -/

section Twins
variable {s s' : State} {rest : List Frame} (H : Twin rest s s')
include H

theorem Twin.lineWrite (L : Line) (b : Bool) : Twin rest (lineWrite L b s) (lineWrite L b s') :=
  ⟨core_lineWrite H.core L b, by simpa using H.cnt, belowAlike_congr H.below (by simp) (by simp) (by simp) (by simp)⟩

theorem Twin.lineRead (L : Line) : Twin rest (lineRead L s) (lineRead L s') :=
  ⟨core_lineRead H.core L, H.cnt, belowAlike_congr H.below rfl rfl rfl rfl⟩

theorem Twin.delay : Twin rest (delay s) (delay s') := ⟨core_delay H.core, H.cnt, belowAlike_congr H.below rfl rfl rfl rfl⟩

end Twins

theorem couple_fault (r : Fault) (o : Out) : Couple (.fault r) o := fun _ _ h => by cases h

theorem couple_ite {c c' : Prop} [Decidable c] [Decidable c'] {a a' b b' : Out} (hc : c' ↔ c) (ha : c → Couple a a')
    (hb : ¬c → Couple b b') : Couple (if c then a else b) (if c' then a' else b') := by
  by_cases h : c
  · rw [if_pos h, if_pos (hc.2 h)]
    exact ha h
  · rw [if_neg h, if_neg (hc.not.2 h)]
    exact hb h

/-- Two states at the same line of the same routine, met by the invariant, that run alike. -/
structure Both (i : Instr) (l p : Nat) (rest : List Frame) (s s' : State) : Prop where
  at_ : At s i l p rest
  at' : At s' i l p rest
  ok : topOk i l p s = true
  ok' : topOk i l p s' = true
  twin : Twin rest s s'
  top : topAlike i l p s s'

section Operations
variable {s s' t t' : State} {i : Instr} {l p line loop : Nat} {rest : List Frame}

theorem alike_setPos (h : At s i l p rest) (hv : latchView t = latchView s) (hq : t.seq = s.seq) (H : Twin rest t t')
    (top : topAlike i line loop t t') (hl : line ≠ 0) : Alike (setPos line loop t) (setPos line loop t') := by
  obtain ⟨f, hf⟩ := at_cons h
  have hseq : (setPos line loop t).seq = ⟨f, line, loop⟩ :: rest := by rw [setPos_cons (hq.trans hf)]
  have hfetch : fetch (setPos line loop t) = some i := by
    rw [fetch, hseq]
    obtain ⟨h1, -⟩ | ⟨h1, -, -, h4⟩ := h
    · rw [h1] at hf
      cases hf
      rfl
    · rw [h1] at hf
      cases hf
      exact (if_neg hl).trans ((latchedCommand_congr (s := s) (t := setPos line loop t) hv).trans h4)
  exact .running i f line loop rest hseq hfetch
    ⟨core_setPos H.core line loop, H.cnt, belowAlike_congr H.below rfl rfl rfl rfl⟩ top

/-- A line that is one micro-operation, after which the routine reads nothing that could differ. -/
theorem couple_lineWrite (h : Both i l p rest s s') (L : Line) (b : Bool) (top : ∀ t t', topAlike i line 0 t t')
    (hl : line ≠ 0 := by decide) : Couple (.next (goto line (lineWrite L b s))) (.next (goto line (lineWrite L b s'))) :=
  couple_next (alike_setPos h.at_ (by cases L <;> rfl) (lineWrite_seq L b s) (h.twin.lineWrite L b) (top _ _) hl)

theorem couple_delay (h : Both i l p rest s s') (top : ∀ t t', topAlike i line 0 t t') (hl : line ≠ 0 := by decide) :
    Couple (.next (goto line (delay s))) (.next (goto line (delay s'))) :=
  couple_next (alike_setPos h.at_ rfl rfl h.twin.delay (top _ _) hl)

theorem couple_lineRead (h : Both i l p rest s s') (L : Line) (top : topAlike i line 0 (lineRead L s) (lineRead L s'))
    (hl : line ≠ 0 := by decide) : Couple (.next (goto line (lineRead L s))) (.next (goto line (lineRead L s'))) :=
  couple_next (alike_setPos h.at_ rfl rfl (h.twin.lineRead L) top hl)

/-- Both controllers poll the same level (R92). -/
theorem couple_stretch (h : Both i l p rest s s') {after : Nat} {skip : State → Out} (hstay : ∀ t t', topAlike i l p t t')
    (hafter : ∀ t t', topAlike i after 0 t t') (hskip : Couple (skip s) (skip s')) (hl : after ≠ 0 := by decide) :
    Couple (stretch after skip s) (stretch after skip s') := by
  refine couple_ite (by rw [core_halcap h.twin.core]) (fun _ => ?_) fun _ => hskip
  refine couple_ite (by rw [lineRead_res, lineRead_res, core_level h.twin.core]) (fun _ => ?_) fun _ => ?_
  · exact couple_lineRead h .scl (hafter _ _) hl
  · obtain ⟨f, hf⟩ := at_cons h.at_
    refine couple_next (.running i f l p rest hf ?_ (h.twin.lineRead .scl) (hstay _ _))
    exact h.at_.fetch

/-- A line that calls `c`, the register work before it having made `t` and `t'`. -/
theorem couple_callAt (h : At s i l p rest) (hq : t.seq = s.seq) (c : Instr) (core : coreView t' = coreView t)
    (cnt : isComposite t.opc = true → t'.cnt = t.cnt) (byte : byteAlike i line t t') :
    Couple (callAt line loop c t) (callAt line loop c t') := by
  obtain ⟨f, hf⟩ := at_cons h
  rw [callAt_cons (hq.trans hf), callAt_cons ((core_seq core).trans (hq.trans hf))]
  refine couple_next (.running c (some c) 1 0 (⟨f, line, loop⟩ :: rest) rfl rfl ⟨?_, cnt, ?_⟩ (topAlike_first c _ _))
  · exact core_map (f := fun x => { peerRest x with seq := ⟨some c, 1, 0⟩ :: ⟨f, line, loop⟩ :: rest }) (fun _ => rfl) core
  · obtain ⟨h1, -⟩ | ⟨h1, -⟩ := h
    · rw [h1] at hf
      cases hf
      exact belowAlike_congr (s := t) (s' := t') (rest := [⟨some i, line, loop⟩]) byte rfl rfl rfl rfl
    · rw [h1] at hf
      cases hf
      trivial

theorem couple_respond (c : Code) (core : coreView t' = coreView t) (cnt : isComposite t.opc = true → t'.cnt = t.cnt) :
    Couple (.next (respond c t)) (.next (respond c t')) :=
  couple_next (.idle rfl (core_respond core (core_countOf core c cnt)))

/-- The last line of a listing: a command responds alike, a called routine hands back what its caller reads. -/
theorem couple_finish (h : At s i l p rest) (hv : latchView t = latchView s) (hq : t.seq = s.seq) (H : Twin rest t t')
    (hret : ∀ j l p, waitOk j l p i s = true → byteAlike j l t t' →
      topAlike j (Frame.advance ⟨none, l, p⟩).line (Frame.advance ⟨none, l, p⟩).loop t t') : Couple (finish t) (finish t') := by
  obtain ⟨hs, callers⟩ | ⟨hs, -⟩ := h
  · obtain ⟨f, l2, p2, j, below, rfl, hw, hf⟩ := callers_cases callers
    rw [finish_return (hq.trans hs), finish_return ((core_seq H.core).trans (hq.trans hs))]
    have hadv : Frame.advance ⟨f, l2, p2⟩ = ⟨f, (Frame.advance ⟨none, l2, p2⟩).line, (Frame.advance ⟨none, l2, p2⟩).loop⟩ := by
      cases p2 <;> rfl
    have core : ∀ q, coreView { peerRest t' with seq := q } = coreView { peerRest t with seq := q } := fun q =>
      core_map (f := fun x => { peerRest x with seq := q }) (fun _ => rfl) H.core
    rw [hadv]
    obtain ⟨rfl, callers'⟩ | ⟨rfl, hl, rfl, latched⟩ := hf
    · refine couple_next (.running j (some j) _ _ below rfl rfl ⟨core _, H.cnt, belowAlike_of_rank callers' (waitOk_rank hw) _ _⟩ ?_)
      exact hret j l2 p2 hw H.below
    · refine couple_next (.running j none _ _ [] rfl ?_ ⟨core _, H.cnt, trivial⟩ ?_)
      · have hl' : (Frame.advance ⟨none, l2, p2⟩).line ≠ 0 := by cases p2 <;> simp [Frame.advance, hl]
        exact (if_neg hl').trans ((latchedCommand_congr (s := t) rfl).trans ((latchedCommand_congr hv).trans latched))
      · exact hret j l2 p2 hw (byteAlike_issuable (issuable_of_latched latched) _ _ _)
  · rw [finish_command (hq.trans hs), finish_command ((core_seq H.core).trans (hq.trans hs))]
    exact couple_respond .ok H.core H.cnt

end Operations

/-! ### The listings take alike states to alike states -/

section Listings
variable {s s' : State} {l p : Nat} {rest : List Frame}

theorem couple_execWriteBit {v : Bool} (h : Both (.writeBit v) l p rest s s') : Couple (execWriteBit v s) (execWriteBit v s') := by
  obtain ⟨c, hc⟩ := at_cons h.at_
  obtain ⟨c', hc'⟩ := at_cons h.at'
  rw [execWriteBit, execWriteBit, withPos_cons hc, withPos_cons hc']
  have free : ∀ line loop t t', topAlike (.writeBit v) line loop t t' := fun _ _ _ _ => trivial
  dsimp only
  split
  case h_1 => exact couple_lineWrite h .scl false (free 2 0)
  case h_2 => exact couple_delay h (free 3 0)
  case h_3 => exact couple_lineWrite h .sda v (free 4 0)
  case h_4 => exact couple_lineWrite h .scl true (free 5 0)
  case h_5 => exact couple_stretch h (free _ _) (free 6 0) (couple_delay h (free 7 0))
  case h_6 => exact couple_delay h (free 7 0)
  case h_7 =>
    refine couple_finish h.at_ rfl rfl h.twin fun j l p hw hbyte => ?_
    obtain ⟨d, rfl, rfl, rfl, -⟩ | ⟨rfl, rfl, rfl⟩ := waitOk_writeBit hw
    · exact ⟨fun _ => hbyte rfl, by simp⟩
    · exact ⟨by simp, fun _ => hbyte.2 rfl, by simp⟩
  case h_8 => exact couple_fault _ _

theorem couple_execReadBit (h : Both .readBit l p rest s s') : Couple (execReadBit s) (execReadBit s') := by
  obtain ⟨c, hc⟩ := at_cons h.at_
  obtain ⟨c', hc'⟩ := at_cons h.at'
  rw [execReadBit, execReadBit, withPos_cons hc, withPos_cons hc']
  have free : ∀ line loop t t', line ≠ 8 → topAlike .readBit line loop t t' := fun _ _ _ _ hl he => absurd he hl
  dsimp only
  split
  case h_1 => exact couple_lineWrite h .scl false fun _ _ => free 2 0 _ _ (by decide)
  case h_2 => exact couple_lineWrite h .sda true fun _ _ => free 3 0 _ _ (by decide)
  case h_3 => exact couple_delay h fun _ _ => free 4 0 _ _ (by decide)
  case h_4 => exact couple_lineWrite h .scl true fun _ _ => free 5 0 _ _ (by decide)
  case h_5 =>
    exact couple_stretch h (fun _ _ => free _ _ _ _ (by decide)) (fun _ _ => free 6 0 _ _ (by decide))
      (couple_delay h fun _ _ => free 7 0 _ _ (by decide))
  case h_6 => exact couple_delay h fun _ _ => free 7 0 _ _ (by decide)
  case h_7 => exact couple_lineRead h .sda fun _ => core_level h.twin.core .sda
  case h_8 =>
    have hres : s'.res = s.res := h.top rfl
    refine couple_finish h.at_ rfl rfl h.twin fun j l p hw hbyte => ?_
    obtain ⟨d, rfl, rfl, rfl⟩ | ⟨f, rfl, rfl, rfl⟩ := waitOk_readBit hw
    · exact ⟨by simp, fun _ => hres⟩
    · exact ⟨fun _ => hbyte.1 rfl, by simp, fun _ => hres⟩
  case h_9 => exact couple_fault _ _

/-- A byte routine calls a bit routine, the bit index being `k` in both. -/
theorem couple_callBit {i : Instr} (h : Both i l p rest s s') (c : Instr) (k : BitVec 3) (line : Nat) (d d' : Byte)
    (byte : byteAlike i line { s with shreg := d, bitk := k } { s' with shreg := d', bitk := k }) :
    Couple (callAt line 0 c { s with shreg := d, bitk := k }) (callAt line 0 c { s' with shreg := d', bitk := k }) :=
  couple_callAt h.at_ (by rfl) c (core_map (f := fun x => { x with shreg := 0, bitk := k }) (fun _ => rfl) h.twin.core) h.twin.cnt byte

theorem couple_execWriteByte {d : Byte} (h : Both (.writeByte d) l p rest s s') :
    Couple (execWriteByte d s) (execWriteByte d s') := by
  obtain ⟨c, hc⟩ := at_cons h.at_
  obtain ⟨c', hc'⟩ := at_cons h.at'
  have ht := h.ok
  have ht' := h.ok'
  simp only [topOk, Bool.and_eq_true, beq_iff_eq] at ht ht'
  obtain ⟨rfl, ht⟩ := ht
  obtain ⟨-, ht'⟩ := ht'
  rw [execWriteByte, execWriteByte, withPos_cons hc, withPos_cons hc']
  unfold writeByteAt at ht ht'
  split at ht
  case h_1 => exact couple_callBit h _ 7 2 d d fun _ => rfl
  case h_2 =>
    simp only [Bool.and_eq_true, beq_iff_eq] at ht ht'
    have hk : s'.bitk = s.bitk := h.top.1 rfl
    obtain ⟨-, rfl⟩ := ht
    refine couple_ite (by rw [hk]) (fun _ => couple_callAt h.at_ rfl .readBit h.twin.core h.twin.cnt (by simp [byteAlike])) fun _ => ?_
    rw [hk, ht'.2]
    exact couple_callBit h _ (s.bitk - 1) 2 s.shreg s.shreg fun _ => rfl
  case h_3 =>
    have hres : s'.res = s.res := h.top.2 rfl
    have core : coreView { s' with ackl := ackOf s'.res, res := ackOf s'.res } =
        coreView { s with ackl := ackOf s.res, res := ackOf s.res } := by
      rw [hres]
      exact core_map (f := fun x => { x with ackl := ackOf s.res, res := ackOf s.res }) (fun _ => rfl) h.twin.core
    refine couple_finish (l := 5) (p := 0) h.at_ (by rfl) (by rfl) ⟨core, h.twin.cnt, belowAlike_of_at h.at_ (by simp [callRank]) _ _⟩
      fun j l p hw _ => ?_
    have hback : ackOf s'.res = ackOf s.res := by rw [hres]
    obtain ⟨a, w, rfl, rfl, rfl, -⟩ | ⟨a, r, n, rfl, rfl, rfl, -⟩ | ⟨a, r, n, rfl, rfl, rfl, -⟩ | ⟨a, n, rfl, rfl, rfl, -⟩ |
      ⟨a, r, n, rfl, rfl, rfl, -⟩ := waitOk_writeByte hw <;>
      simp [topAlike, txAlike, rxAlike, hback]
  case h_4 => cases ht

theorem getLsbD_setByteBit (d : Byte) (k : BitVec 3) (b : Bool) (j : Nat) :
    (setByteBit d k b).getLsbD j = if j = k.toNat then b else d.getLsbD j := by
  have hk : k.toNat < 8 := k.isLt
  unfold setByteBit
  by_cases hj : j = k.toNat
  · cases b <;> simp [hj, hk]
  · have hbit : (1#8 <<< k.toNat).getLsbD j = false := by
      simp only [BitVec.getLsbD_shiftLeft, BitVec.getLsbD_one, Bool.and_eq_false_iff, decide_eq_false_iff_not, Bool.not_eq_false',
        decide_eq_true_eq]
      omega
    cases b
    · have hd : d.getLsbD j = true → j < 8 := BitVec.lt_of_getLsbD
      simpa only [Bool.false_eq_true, if_false, BitVec.getLsbD_and, BitVec.getLsbD_not, hbit, if_neg hj, Bool.not_false,
        Bool.and_true, decide_eq_true_eq, Bool.and_eq_left_iff_imp] using hd
    · simp [hj, hbit]

/-- The bits received so far, and the one at `k` (R101 step 2). -/
theorem agree_setByteBit {k : BitVec 3} {d d' : Byte} (h : AgreeAbove k d d') (b : Bool) (j : Nat) (hj : k.toNat ≤ j) :
    (setByteBit d' k b).getLsbD j = (setByteBit d k b).getLsbD j := by
  rw [getLsbD_setByteBit, getLsbD_setByteBit]
  split
  · rfl
  · exact h j (by omega)

theorem couple_execReadByte {f : Bool} (h : Both (.readByte f) l p rest s s') : Couple (execReadByte f s) (execReadByte f s') := by
  obtain ⟨c, hc⟩ := at_cons h.at_
  obtain ⟨c', hc'⟩ := at_cons h.at'
  have ht := h.ok
  simp only [topOk, Bool.and_eq_true, beq_iff_eq] at ht
  obtain ⟨rfl, ht⟩ := ht
  rw [execReadByte, execReadByte, withPos_cons hc, withPos_cons hc']
  unfold readByteAt at ht
  obtain ⟨hbits, hshreg, hres⟩ := h.top
  split at ht
  case h_1 =>
    refine couple_callBit h _ 7 2 s.shreg s'.shreg ⟨fun _ => ⟨rfl, fun j hj => ?_⟩, by simp⟩
    have hj : 8 ≤ j := hj
    rw [BitVec.getLsbD_of_ge _ _ hj, BitVec.getLsbD_of_ge _ _ hj]
  case h_2 =>
    obtain ⟨hk, habove⟩ := hbits rfl
    have hstore : storeBit s' = { s' with shreg := setByteBit s'.shreg s.bitk s.res, bitk := s.bitk } := by
      rw [← hk, ← hres (.inl rfl)]
      rfl
    rw [hstore]
    refine couple_ite (by rw [hk]) (fun h0 => ?_) fun h0 => ?_
    · refine couple_callBit h (.writeBit f) s.bitk 4 (setByteBit s.shreg s.bitk s.res) _ ⟨by simp, fun _ => ?_⟩
      exact BitVec.eq_of_getLsbD_eq fun j _ => agree_setByteBit habove s.res j (by simp [h0])
    · rw [hk]
      refine couple_callBit h .readBit (s.bitk - 1) 2 (setByteBit s.shreg s.bitk s.res) _ ⟨fun _ => ⟨rfl, fun j hj => ?_⟩, by simp⟩
      have hj : (s.bitk - 1).toNat < j := hj
      have hpred : s.bitk.toNat ≤ j := by bv_omega
      exact agree_setByteBit habove s.res j hpred
  case h_3 =>
    exact couple_lineRead h .sda ⟨by simp, fun _ => hshreg (.inl rfl), fun _ => core_level h.twin.core .sda⟩
  case h_4 =>
    have hback : fltOf s'.res f = fltOf s.res f := by rw [hres (.inr rfl)]
    refine couple_finish (l := 6) (p := 0) h.at_ (by rfl) (by rfl)
      ⟨h.twin.core, h.twin.cnt, belowAlike_of_at h.at_ (by simp [callRank]) _ _⟩ fun j l p hw _ => ?_
    obtain ⟨a, n, rfl, rfl, rfl, -⟩ | ⟨a, r, n, rfl, rfl, rfl, -⟩ := waitOk_readByte hw <;>
      simp [topAlike, rxAlike, hback, hshreg]
  case h_5 => cases ht

/-! The conditions. -/

/-- `START`, `STOP` and `RESTART` hand nothing back. -/
theorem couple_finishStarted {i : Instr} (h : Both i l p rest s s') (b : Bool) (hi : callRank i ≠ 2)
    (hret : ∀ j l p t t', waitOk j l p i s = true →
      topAlike j (Frame.advance ⟨none, l, p⟩).line (Frame.advance ⟨none, l, p⟩).loop t t') :
    Couple (finish { s with started := b }) (finish { s' with started := b }) :=
  couple_finish h.at_ (by rfl) (by rfl)
    ⟨core_map (f := fun x => { x with started := b }) (fun _ => rfl) h.twin.core, h.twin.cnt, belowAlike_of_at h.at_ hi _ _⟩
    fun j l p hw _ => hret j l p _ _ hw

theorem couple_execStart (h : Both .start l p rest s s') : Couple (execStart s) (execStart s') := by
  rw [execStart, execStart, asCommand_top h.at_ h.ok, asCommand_top h.at' h.ok']
  have free : ∀ line loop t t', topAlike .start line loop t t' := fun _ _ _ _ => trivial
  split
  case h_1 => exact couple_lineWrite h .sda true (free 2 0)
  case h_2 => exact couple_delay h (free 3 0)
  case h_3 => exact couple_lineWrite h .sda false (free 4 0)
  case h_4 => exact couple_delay h (free 5 0)
  case h_5 =>
    refine couple_finishStarted h true (by simp [callRank]) fun j l p t t' hw => ?_
    obtain ⟨rfl, rfl, -, ⟨a, n, rfl⟩ | ⟨a, n, rfl⟩ | ⟨a, r, n, rfl⟩ | ⟨a, r, n, rfl⟩⟩ := waitOk_start hw <;>
      simp [topAlike, txAlike, rxAlike]
  case h_6 => exact absurd h.ok (by simp [topOk, startAt])
  case h_7 => exact couple_fault _ _

theorem couple_execStop (h : Both .stop l p rest s s') : Couple (execStop s) (execStop s') := by
  rw [execStop, execStop, asCommand_top h.at_ h.ok, asCommand_top h.at' h.ok']
  have free : ∀ line loop t t', topAlike .stop line loop t t' := fun _ _ _ _ => trivial
  split
  case h_1 => exact couple_lineWrite h .scl false (free 2 0)
  case h_2 => exact couple_delay h (free 3 0)
  case h_3 => exact couple_lineWrite h .sda false (free 4 0)
  case h_4 => exact couple_delay h (free 5 0)
  case h_5 => exact couple_lineWrite h .scl true (free 6 0)
  case h_6 => exact couple_stretch h (free _ _) (free 7 0) (couple_delay h (free 8 0))
  case h_7 => exact couple_delay h (free 8 0)
  case h_8 => exact couple_lineWrite h .sda true (free 9 0)
  case h_9 => exact couple_delay h (free 10 0)
  case h_10 =>
    refine couple_finishStarted h false (by simp [callRank]) fun j l p t t' hw => ?_
    obtain ⟨rfl, ⟨rfl, rfl⟩ | ⟨a, n, rfl, rfl, -⟩ | ⟨a, r, n, rfl, rfl, -⟩ | ⟨a, n, rfl, rfl, -⟩ | ⟨a, r, n, rfl, rfl, -⟩⟩ :=
      waitOk_stop hw <;> simp [topAlike, txAlike, rxAlike]
  case h_11 => exact absurd h.ok (by simp [topOk, stopAt])
  case h_12 => exact couple_fault _ _

theorem couple_execRestart (h : Both .restart l p rest s s') : Couple (execRestart s) (execRestart s') := by
  obtain ⟨c, hc⟩ := at_cons h.at_
  obtain ⟨c', hc'⟩ := at_cons h.at'
  rw [execRestart, execRestart, withPos_cons hc, withPos_cons hc']
  have free : ∀ line loop t t', topAlike .restart line loop t t' := fun _ _ _ _ => trivial
  dsimp only
  split
  case h_1 => exact couple_lineWrite h .scl false (free 2 0)
  case h_2 => exact couple_delay h (free 3 0)
  case h_3 => exact couple_lineWrite h .sda true (free 4 0)
  case h_4 => exact couple_delay h (free 5 0)
  case h_5 => exact couple_lineWrite h .scl true (free 6 0)
  case h_6 => exact couple_stretch h (free _ _) (free 7 0) (couple_delay h (free 8 0))
  case h_7 => exact couple_delay h (free 8 0)
  case h_8 => exact couple_lineWrite h .sda false (free 9 0)
  case h_9 => exact couple_delay h (free 10 0)
  case h_10 =>
    refine couple_finishStarted h true (by simp [callRank]) fun j l p t t' hw => ?_
    obtain ⟨a, r, n, rfl, rfl, rfl, -⟩ := waitOk_restart hw
    simp [topAlike, rxAlike]
  case h_11 => exact absurd h.ok (by simp [topOk, restartAt])
  case h_12 => exact couple_fault _ _

theorem couple_execConnect {a : SlaveAddr} {w : Bool} (h : Both (.connect a w) l p rest s s') :
    Couple (execConnect a w s) (execConnect a w s') := by
  rw [execConnect, execConnect, asCommand_top h.at_ h.ok, asCommand_top h.at' h.ok']
  have ht := h.ok
  simp only [topOk, Bool.and_eq_true, beq_iff_eq] at ht
  obtain ⟨rfl, ht⟩ := ht
  unfold connectAt at ht
  split at ht
  case h_1 =>
    simp only [Bool.and_eq_true] at ht
    simp only [core_started h.twin.core, ht, if_true]
    exact couple_callAt h.at_ rfl _ h.twin.core h.twin.cnt trivial
  case h_2 =>
    have hres : s'.res = s.res := h.top rfl
    refine couple_finish h.at_ rfl rfl h.twin fun j l p hw _ => ?_
    obtain ⟨rfl, -, -, ⟨rfl, ⟨n, rfl⟩ | ⟨n, rfl⟩ | ⟨r, n, rfl⟩ | ⟨r, n, rfl⟩⟩ | ⟨rfl, r, n, rfl⟩⟩ := waitOk_connect hw <;>
      simp [topAlike, txAlike, rxAlike, hres]
  case h_3 => cases ht

end Listings

section Composites
variable {s s' : State} {i : Instr} {l p line out : Nat} {n : Count} {rest : List Frame}

/-! The composite commands. -/

theorem isBottom_of_transfer (i : Instr) : isTransfer i = true → isBottom i = true := by
  cases i <;> simp [isTransfer, isBottom]

/-- A composite command stands at the bottom of `SEQ`. -/
theorem At.transfer (h : At s i l p rest) (hi : isTransfer i = true) : rest = [] ∧ latchedCommand s = some i := by
  obtain ⟨-, callers⟩ | ⟨-, -, hrest, latched⟩ := h
  · rw [callersOk_bottom (isBottom_of_transfer i hi)] at callers
    cases callers
  · exact ⟨hrest, latched⟩

theorem Both.cnt (h : Both i l p rest s s') (hi : isTransfer i = true) : s'.cnt = s.cnt :=
  h.twin.cnt ((isComposite_of_latched (h.at_.transfer hi).2).trans hi)

theorem isTransfer_issuable (i : Instr) : isTransfer i = true → i.issuable = true := by
  cases i <;> simp [isTransfer, Instr.issuable]

/-- `i` runs `TXLOOP` in its line `line` and then reads what `txAlike` says. -/
structure TxReads (i : Instr) (line : Nat) : Prop where
  transfer : isTransfer i = true
  reads : ∀ p t t', topAlike i line (p + 1) t t' ↔ txAlike (p + 1) t t'
  enter : ∀ t t', topAlike i line 0 t t' → t'.res = t.res

theorem txReads_write (a : SlaveAddr) (n : Count) : TxReads (.write a n) 4 :=
  ⟨rfl, by simp [topAlike], fun _ _ h => h.1 ⟨rfl, rfl⟩⟩

theorem txReads_writeReg (a : SlaveAddr) (r : Byte) (n : Count) : TxReads (.writeReg a r n) 6 :=
  ⟨rfl, by simp [topAlike], fun _ _ h => h.1 ⟨.inr rfl, rfl⟩⟩

/-- `i` runs `RXLOOP` in its line `line` and then reads what `rxAlike` says. -/
structure RxReads (i : Instr) (line : Nat) : Prop where
  transfer : isTransfer i = true
  reads : ∀ p t t', topAlike i line (p + 1) t t' ↔ rxAlike (p + 1) t t'
  enter : ∀ t t', topAlike i line 0 t t' → t'.res = t.res

theorem rxReads_read (a : SlaveAddr) (n : Count) : RxReads (.read a n) 4 :=
  ⟨rfl, by simp [topAlike], fun _ _ h => h.1 ⟨rfl, rfl⟩⟩

theorem rxReads_readReg (a : SlaveAddr) (r : Byte) (n : Count) : RxReads (.readReg a r n) 9 :=
  ⟨rfl, by simp [topAlike], fun _ _ h => h.1 ⟨.inr (.inr rfl), rfl⟩⟩

/-- A composite command calls `c`, with the same count and index in both. -/
theorem couple_transferCall (h : Both i l p rest s s') (hi : isTransfer i = true) (line loop : Nat) (c : Instr) (k m : Count) :
    Couple (callAt line loop c { s with cnt := m, idx := k }) (callAt line loop c { s' with cnt := m, idx := k }) :=
  couple_callAt h.at_ (by rfl) c (core_map (f := fun x => { x with cnt := m, idx := k }) (fun _ => rfl) h.twin.core) (fun _ => rfl)
    (byteAlike_issuable (isTransfer_issuable i hi) _ _ _)

/-- The same with the registers as they are. -/
theorem couple_frontCall (h : Both i l p rest s s') (hi : isTransfer i = true) (line loop : Nat) (c : Instr) :
    Couple (callAt line loop c s) (callAt line loop c s') :=
  couple_callAt h.at_ rfl c h.twin.core h.twin.cnt (byteAlike_issuable (isTransfer_issuable i hi) _ _ _)

theorem couple_txTest (hi : TxReads i line) (hl : line ≠ 0) (h : Both i l p rest s s') (k m : Count) :
    Couple (txTest line out n { s with cnt := m, idx := k }) (txTest line out n { s' with cnt := m, idx := k }) := by
  refine couple_ite Iff.rfl (fun _ => couple_transferCall h hi.transfer out 0 .stop k m) fun _ => ?_
  refine couple_ite Iff.rfl (fun _ => ?_) fun _ => couple_fault _ _
  have hbuf : s'.buf = s.buf := (congrArg State.buf h.twin.core :)
  have core := core_map
    (f := fun x => record (.memRead k (Memory.read x.buf k.toNat)) (peerMove x) { peerMove x with cnt := m, idx := k })
    (fun _ => rfl) h.twin.core
  obtain ⟨rfl, -⟩ := h.at_.transfer hi.transfer
  refine couple_next (alike_setPos h.at_ (by rfl) (by rfl) ⟨core, fun _ => rfl, trivial⟩ ((hi.reads 3 _ _).2 ⟨fun _ => ?_, by simp⟩) hl)
  simp [hbuf]

theorem couple_txLoop (hi : TxReads i line) (hl : line ≠ 0) (h : Both i line p rest s s') (ht : txAt n p s = true)
    (ht' : txAt n p s' = true) : Couple (txLoop line out n p s) (txLoop line out n p s') := by
  have hcnt : s'.cnt = s.cnt := h.cnt hi.transfer
  have hidx : s'.idx = s.idx := by
    simp only [txAt, inLoop, Bool.and_eq_true, beq_iff_eq] at ht ht'
    rw [← ht.2.2, ← ht'.2.2, hcnt]
  simp only [txAt, Bool.and_eq_true, Bool.or_eq_true, beq_iff_eq] at ht
  obtain rfl | rfl := ht.1.1.1.1
  · have hdat : s'.dat = s.dat := ((hi.reads 3 s s').1 h.top).1 rfl
    simp only [txLoop, hdat]
    exact couple_frontCall h hi.transfer line 4 _
  · have hres : s'.res = s.res := ((hi.reads 4 s s').1 h.top).2 rfl
    refine couple_ite (by rw [hres]) (fun _ => ?_) fun _ => couple_frontCall h hi.transfer out 0 .stop
    rw [countByte, countByte, hcnt, hidx]
    exact couple_txTest hi hl h _ _

theorem couple_txLine (hi : TxReads i line) (hl : line ≠ 0) (h : Both i line p rest s s')
    (ht : (if p = 0 then openAt s else txAt n p s) = true) (ht' : (if p = 0 then openAt s' else txAt n p s') = true) :
    Couple (if p = 0 then (if s.res then txLoop line out n 1 s else leaveToStop out s) else txLoop line out n p s)
      (if p = 0 then (if s'.res then txLoop line out n 1 s' else leaveToStop out s') else txLoop line out n p s') := by
  refine couple_ite Iff.rfl (fun hp => ?_) fun hp => ?_
  · subst hp
    exact couple_ite (by rw [hi.enter s s' h.top]) (fun _ => couple_txTest hi hl h 0 0) fun _ =>
      couple_frontCall h hi.transfer out 0 .stop
  · rw [if_neg hp] at ht ht'
    exact couple_txLoop hi hl h ht ht'

theorem couple_rxTest (hi : RxReads i line) (h : Both i l p rest s s') (k m : Count) :
    Couple (rxTest line out n { s with cnt := m, idx := k }) (rxTest line out n { s' with cnt := m, idx := k }) :=
  couple_ite Iff.rfl (fun _ => couple_transferCall h hi.transfer out 0 .stop k m) fun _ =>
    couple_transferCall h hi.transfer line 3 _ k m

theorem couple_rxLoop (hi : RxReads i line) (hl : line ≠ 0) (h : Both i line p rest s s') (ht : rxAt n p s = true)
    (ht' : rxAt n p s' = true) : Couple (rxLoop line out n p s) (rxLoop line out n p s') := by
  have hcnt : s'.cnt = s.cnt := h.cnt hi.transfer
  have hidx : s'.idx = s.idx := by
    simp only [rxAt, inLoop, Bool.and_eq_true, beq_iff_eq] at ht ht'
    rw [← ht.1.2.2, ← ht'.1.2.2, hcnt]
  simp only [rxAt, Bool.and_eq_true, Bool.or_eq_true, beq_iff_eq] at ht
  obtain rfl | rfl := ht.1.1.1.1.1.1
  · obtain ⟨hshreg, hflt⟩ := (hi.reads 3 s s').1 h.top
    simp only [rxLoop, hshreg rfl, memWrite, hidx]
    refine couple_ite Iff.rfl (fun _ => ?_) fun _ => couple_fault _ _
    have core := core_map
      (f := fun x => record (.memWrite s.idx s.shreg) (peerMove x)
        { peerMove x with buf := Memory.write x.buf s.idx.toNat s.shreg })
      (fun _ => rfl) h.twin.core
    obtain ⟨rfl, -⟩ := h.at_.transfer hi.transfer
    exact couple_next (alike_setPos h.at_ (by rfl) (by rfl) ⟨core, h.twin.cnt, trivial⟩
      ((hi.reads 4 _ _).2 ⟨by simp, fun _ => hflt (.inl rfl)⟩) hl)
  · have hflt : s'.flt = s.flt := ((hi.reads 4 s s').1 h.top).2 (.inr rfl)
    refine couple_ite (by rw [hflt]) (fun _ => ?_) fun _ => ?_
    · exact couple_callAt h.at_ (by rfl) .stop (core_map (f := fun x => { x with fault := true }) (fun _ => rfl) h.twin.core)
        h.twin.cnt (byteAlike_issuable (isTransfer_issuable i hi.transfer) _ _ _)
    · rw [countByte, countByte, hcnt, hidx]
      exact couple_rxTest hi h _ _

theorem couple_rxLine (hi : RxReads i line) (hl : line ≠ 0) (h : Both i line p rest s s')
    (ht : (if p = 0 then openAt s && s.res == s.ackl else rxAt n p s) = true)
    (ht' : (if p = 0 then openAt s' && s'.res == s'.ackl else rxAt n p s') = true) :
    Couple (if p = 0 then (if s.res then rxLoop line out n 1 s else leaveToStop out s) else rxLoop line out n p s)
      (if p = 0 then (if s'.res then rxLoop line out n 1 s' else leaveToStop out s') else rxLoop line out n p s') := by
  refine couple_ite Iff.rfl (fun hp => ?_) fun hp => ?_
  · subst hp
    exact couple_ite (by rw [hi.enter s s' h.top]) (fun _ => couple_rxTest hi h 0 0) fun _ =>
      couple_frontCall h hi.transfer out 0 .stop
  · rw [if_neg hp] at ht ht'
    exact couple_rxLoop hi hl h ht ht'

end Composites

section Commands
variable {s s' : State} {a : SlaveAddr} {r : Byte} {n : Count} {l p : Nat} {rest : List Frame}

theorem couple_execWrite (h : Both (.write a n) l p rest s s') : Couple (execWrite a n s) (execWrite a n s') := by
  rw [execWrite, execWrite, asCommand_top h.at_ h.ok, asCommand_top h.at' h.ok']
  have ht := h.ok
  have ht' := h.ok'
  simp only [topOk] at ht ht'
  unfold writeAt at ht ht'
  split at ht
  case h_1 => exact couple_frontCall h rfl 3 0 _
  case h_2 => exact couple_txLine (txReads_write a n) (by decide) h ht ht'
  case h_3 => exact couple_respond .ok h.twin.core h.twin.cnt
  case h_4 => cases ht

theorem couple_execRead (h : Both (.read a n) l p rest s s') : Couple (execRead a n s) (execRead a n s') := by
  rw [execRead, execRead, asCommand_top h.at_ h.ok, asCommand_top h.at' h.ok']
  have ht := h.ok
  have ht' := h.ok'
  simp only [topOk] at ht ht'
  unfold readAt at ht ht'
  split at ht
  case h_1 => exact couple_frontCall h rfl 3 0 _
  case h_2 => exact couple_rxLine (rxReads_read a n) (by decide) h ht ht'
  case h_3 => exact couple_respond .ok h.twin.core h.twin.cnt
  case h_4 => cases ht

/-- A composite command goes on after an acknowledge, both controllers having received the same. -/
theorem couple_ifAcked {i : Instr} (h : Both i l p rest s s') (hi : isTransfer i = true) (hres : s'.res = s.res) (line out : Nat)
    (c : Instr) :
    Couple (if s.res then callAt line 0 c s else leaveToStop out s) (if s'.res then callAt line 0 c s' else leaveToStop out s') :=
  couple_ite (by rw [hres]) (fun _ => couple_frontCall h hi line 0 c) fun _ => couple_frontCall h hi out 0 .stop

theorem couple_execWriteReg (h : Both (.writeReg a r n) l p rest s s') : Couple (execWriteReg a r n s) (execWriteReg a r n s') := by
  rw [execWriteReg, execWriteReg, asCommand_top h.at_ h.ok, asCommand_top h.at' h.ok']
  have ht := h.ok
  have ht' := h.ok'
  simp only [topOk] at ht ht'
  unfold writeRegAt at ht ht'
  split at ht
  case h_1 => exact couple_frontCall h rfl 3 0 _
  case h_2 =>
    simp only [Bool.and_eq_true, beq_iff_eq] at ht
    exact couple_ifAcked h rfl (h.top.1 ⟨.inl rfl, ht.1⟩) 5 7 _
  case h_3 => exact couple_txLine (txReads_writeReg a r n) (by decide) h ht ht'
  case h_4 => exact couple_respond .ok h.twin.core h.twin.cnt
  case h_5 => cases ht

theorem couple_execReadReg (h : Both (.readReg a r n) l p rest s s') : Couple (execReadReg a r n s) (execReadReg a r n s') := by
  rw [execReadReg, execReadReg, asCommand_top h.at_ h.ok, asCommand_top h.at' h.ok']
  have ht := h.ok
  have ht' := h.ok'
  simp only [topOk] at ht ht'
  unfold readRegAt at ht ht'
  split at ht
  case h_1 => exact couple_frontCall h rfl 3 0 _
  case h_2 =>
    simp only [Bool.and_eq_true, beq_iff_eq] at ht
    exact couple_ifAcked h rfl (h.top.1 ⟨.inl rfl, ht.1⟩) 5 10 _
  case h_3 =>
    simp only [Bool.and_eq_true, beq_iff_eq] at ht
    exact couple_ifAcked h rfl (h.top.1 ⟨.inr (.inl rfl), ht.1⟩) 7 10 _
  case h_4 => exact couple_frontCall h rfl 8 0 _
  case h_5 => exact couple_rxLine (rxReads_readReg a r n) (by decide) h ht ht'
  case h_6 => exact couple_respond .ok h.twin.core h.twin.cnt
  case h_7 => cases ht

/-- The master registers are cleared in both (R81). -/
theorem couple_tearDown (h : Twin rest s s') : Couple (tearDown s) (tearDown s') :=
  couple_respond .ok
    (core_map (f := fun x => { x with halcap := 0, freq := 0, half := 0, valid := false }) (fun _ => rfl) h.core) h.cnt

theorem couple_execDeinit (h : Both .deinit l p rest s s') : Couple (execDeinit s) (execDeinit s') := by
  rw [execDeinit, execDeinit, asCommand_top h.at_ h.ok, asCommand_top h.at' h.ok']
  have ht := h.ok
  simp only [topOk, Bool.and_eq_true, beq_iff_eq] at ht
  obtain ⟨⟨⟨⟨rfl, -⟩, -⟩, -⟩, -⟩ := ht
  exact couple_tearDown h.twin

theorem couple_exec {i : Instr} (h : Both i l p rest s s') : Couple (exec i s) (exec i s') := by
  cases i with
  | init halcap freq => cases h.ok
  | deinit => exact couple_execDeinit h
  | start => exact couple_execStart h
  | stop => exact couple_execStop h
  | connect a w => exact couple_execConnect h
  | write a n => exact couple_execWrite h
  | read a n => exact couple_execRead h
  | writeReg a r n => exact couple_execWriteReg h
  | readReg a r n => exact couple_execReadReg h
  | restart => exact couple_execRestart h
  | writeByte d => exact couple_execWriteByte h
  | readByte f => exact couple_execReadByte h
  | writeBit v => exact couple_execWriteBit h
  | readBit => exact couple_execReadBit h

end Commands

/-! ### Every step takes alike states to alike states -/

section Steps
variable {s s' : State}

/-- An operation that reads only what the two agree on between commands keeps it. -/
theorem visible_map {f : State → State} (hf : ∀ x, visible (f x) = visible (f (visible x))) (h : visible s' = visible s) :
    visible (f s') = visible (f s) := by
  rw [hf, h, ← hf]

theorem dispatchCheck_core (h : coreView s' = coreView s) (i : Instr) : dispatchCheck i s' = dispatchCheck i s := by
  have hv : ∀ x, dispatchCheck i x = dispatchCheck i (coreView x) := fun _ => by cases i <;> rfl
  rw [hv, h, ← hv]

theorem dispatchCheck_ne_ok {i : Instr} {c : Code} (h : dispatchCheck i s = some c) : c ≠ .ok := by
  rintro rfl
  unfold dispatchCheck at h
  split at h
  case h_1 =>
    unfold initCheck at h
    split at h
    · cases h
    · split at h <;> cases h
  case h_2 =>
    unfold connectCheck at h
    split at h
    · split at h <;> cases h
    · cases h
  case h_3 =>
    unfold needsMaster at h
    split at h <;> cases h

/-- `CNT` is cleared as a composite command begins, and no other command reads it. -/
theorem couple_firstLine (h : Waiting s) (h' : Waiting s') (core : coreView s' = coreView s) {i : Instr}
    (hd : decode s.cmd = .ok i) (hc : dispatchCheck i s = none) : Couple (firstLine i s) (firstLine i s') := by
  rw [← firstLine_atFirstLine h.seq, ← firstLine_atFirstLine h'.seq]
  have hat := h.at_firstLine hd
  have latched := latchedCommand_of_decode h.latches hd
  have core1 : coreView (atFirstLine s') = coreView (atFirstLine s) := core_map (f := atFirstLine) (fun _ => rfl) core
  have uncounted : isTransfer i = false → Twin [] (atFirstLine s) (atFirstLine s') := fun hi => by
    refine ⟨core1, fun hcomp => ?_, trivial⟩
    rw [show (atFirstLine s).opc = s.opc from rfl, isComposite_of_latched latched, hi] at hcomp
    cases hcomp
  have counted : Couple (callAt 2 0 .start { atFirstLine s with cnt := 0 }) (callAt 2 0 .start { atFirstLine s' with cnt := 0 }) :=
    couple_callAt hat (by rfl) .start (core_map (f := fun x => { x with cnt := 0 }) (fun _ => rfl) core1) (fun _ => rfl)
      (byteAlike_issuable (issuable_of_decode hd) _ _ _)
  have line : ∀ (L : Line) (b : Bool), isTransfer i = false → (∀ t t', topAlike i 2 0 t t') →
      Couple (.next (goto 2 (lineWrite L b (atFirstLine s)))) (.next (goto 2 (lineWrite L b (atFirstLine s')))) := fun L b hi top =>
    couple_next (alike_setPos hat (by cases L <;> rfl) (lineWrite_seq L b _) ((uncounted hi).lineWrite L b) (top _ _) (by decide))
  cases i with
  | restart | writeByte _ | readByte _ | writeBit _ | readBit => cases issuable_of_decode hd
  | init halcap freq =>
    exact couple_respond .ok
      (core_map (f := fun x => { x with halcap := halcap, freq := freq, half := halfPeriod freq, started := false, valid := true })
        (fun _ => rfl) core1) (uncounted rfl).cnt
  | deinit =>
    exact couple_ite (by rw [core_started core1]) (fun _ => couple_callAt hat rfl .stop core1 (uncounted rfl).cnt trivial) fun _ =>
      couple_tearDown (uncounted rfl)
  | start => exact line .sda true rfl fun _ _ => trivial
  | stop => exact line .scl false rfl fun _ _ => trivial
  | connect a w =>
    have hst : s.started = true := by
      by_contra hst
      cases hv : s.valid <;> simp_all [dispatchCheck, connectCheck]
    exact couple_ite (by rw [core_started core1]) (fun _ => couple_callAt hat rfl _ core1 (uncounted rfl).cnt trivial) fun hno =>
      absurd hst hno
  | write a n => exact counted
  | read a n => exact counted
  | writeReg a r n => exact counted
  | readReg a r n => exact counted

theorem couple_dispatch (h : Waiting s) (h' : Waiting s') (core : coreView s' = coreView s) (hr : s.rstIn = false) :
    Couple (step s) (step s') := by
  have hr' : s'.rstIn = false := (congrArg State.rstIn core :).trans hr
  have hcmd : s'.cmd = s.cmd := (congrArg State.cmd core :)
  have refused : ∀ c, c ≠ .ok → Couple (.next (respond c s)) (.next (respond c s')) := fun c hc =>
    couple_next (.idle rfl (core_respond core (by simp [countOf, hc])))
  cases hd : decode s.cmd with
  | error e =>
    rw [h.step_illegal hr hd, h'.step_illegal hr' (by rw [hcmd]; exact hd)]
    exact refused .illegalCmd (by decide)
  | ok i =>
    have hd' : decode s'.cmd = .ok i := by rw [hcmd, hd]
    rw [step_dispatch hr h.busy h.seq hd, step_dispatch hr' h'.busy h'.seq hd']
    have hi := issuable_of_decode hd
    cases hc : dispatchCheck i s with
    | some c =>
      rw [exec_refused h.seq hi hc, exec_refused h'.seq hi ((dispatchCheck_core core i).trans hc)]
      exact refused c (dispatchCheck_ne_ok hc)
    | none =>
      rw [exec_begins h.seq hi hc, exec_begins h'.seq hi ((dispatchCheck_core core i).trans hc)]
      exact couple_firstLine h h' core hd hc

/-- Between commands the two agree on everything an acceptance or an idle step reads. -/
theorem couple_idleStep (h : visible s' = visible s) (hb : s.busy = false) : Couple (idleStep s) (idleStep s') := by
  have hin : s'.cmdIn = s.cmdIn := (congrArg State.cmdIn h :)
  unfold idleStep
  rw [hin]
  cases s.cmdIn with
  | some w =>
    refine couple_next (.waiting rfl ?_)
    have hv : ∀ x, coreView (accept w x) = coreView (accept w (visible x)) := fun _ => rfl
    rw [hv, h, ← hv]
  | none => exact couple_next (.idle hb (visible_map (fun _ => rfl) h))

theorem Alike.core_of_busy (h : Alike s s') (hb : s.busy = true) : coreView s' = coreView s := by
  cases h with
  | idle hidle _ =>
    rw [hb] at hidle
    cases hidle
  | waiting _ core => exact core
  | running _ _ _ _ _ _ _ h _ => exact h.core

theorem Alike.visible_eq (h : Alike s s') : visible s' = visible s := by
  cases h with
  | idle _ h => exact h
  | waiting _ core => exact core_visible core
  | running _ _ _ _ _ _ _ h _ => exact core_visible h.core

/-- Both are at dispatch if one is. -/
theorem Waiting.of_core (h : Waiting s) (core : coreView s' = coreView s) (hs' : inv s' = true) : Waiting s' := by
  have hseq : s'.seq = [⟨none, 0, 0⟩] := (core_seq core).trans h.seq
  obtain ⟨-, hq, -⟩ | h' | ⟨i, l, p, rest, ⟨hq, -⟩ | ⟨hq, hl, -⟩, -⟩ := inv_cases hs'
  · rw [hq] at hseq
    cases hseq
  · exact h'
  · rw [hq] at hseq
    cases hseq
  · rw [hq] at hseq
    cases hseq
    exact absurd rfl hl

/-- Both are at the same line of the same routine if one is at a line. -/
theorem Both.of_alike {i : Instr} {l p : Nat} {rest : List Frame} (hat : At s i l p rest) (hr : Running s)
    (ht : topOk i l p s = true) (hs' : inv s' = true) (h : Alike s s') : Both i l p rest s s' := by
  have core := h.core_of_busy hr.busy
  obtain ⟨f, hf⟩ := at_cons hat
  have hseq : s'.seq = ⟨f, l, p⟩ :: rest := (core_seq core).trans hf
  have hfetch : fetch s' = some i := by
    have hv : ∀ x, fetch x = fetch (coreView x) := fun _ => rfl
    rw [hv, core, ← hv, hat.fetch]
  have hat' : At s' i l p rest ∧ topOk i l p s' = true := by
    obtain ⟨-, hq, -⟩ | hw | ⟨i', l', p', rest', hat', -, ht'⟩ := inv_cases hs'
    · rw [hq] at hseq
      cases hseq
    · rw [hw.seq] at hseq
      cases hseq
      rw [topOk_zero] at ht
      cases ht
    · obtain ⟨f', hf'⟩ := at_cons hat'
      rw [hf'] at hseq
      cases hseq
      have hi : i' = i := Option.some.inj (hat'.fetch.symm.trans hfetch)
      subst hi
      exact ⟨hat', ht'⟩
  cases h with
  | idle hb _ =>
    rw [hr.busy] at hb
    cases hb
  | waiting hq _ =>
    rw [hf] at hq
    cases hq
    rw [topOk_zero] at ht
    cases ht
  | running j c l2 p2 rest2 hq hj twin top =>
    rw [hf] at hq
    cases hq
    cases hat.fetch.symm.trans hj
    exact ⟨hat, hat'.1, ht, hat'.2, twin, top⟩

theorem couple_step (hs : inv s = true) (hs' : inv s' = true) (h : Alike s s') : Couple (step s) (step s') := by
  have hvis := h.visible_eq
  have hrst : s'.rstIn = s.rstIn := (congrArg State.rstIn hvis :)
  have hbusy : s'.busy = s.busy := (congrArg State.busy hvis :)
  cases hr : s.rstIn with
  | true =>
    rw [step_reset hr, step_reset (hrst.trans hr)]
    exact couple_next (.idle rfl (visible_map (fun _ => rfl) hvis))
  | false =>
    obtain ⟨hb, -⟩ | hw | ⟨i, l, p, rest, hat, hrun, ht⟩ := inv_cases hs
    · rw [step_idle hr hb, step_idle (hrst.trans hr) (hbusy.trans hb)]
      exact couple_idleStep hvis hb
    · have core := h.core_of_busy hw.busy
      exact couple_dispatch hw (hw.of_core core hs') core hr
    · have both := Both.of_alike hat hrun ht hs' h
      rw [step_busy hr hrun.busy hat.fetch, step_busy (hrst.trans hr) (hbusy.trans hrun.busy) both.at'.fetch]
      exact couple_exec both

/-! ### Runs -/

/-- The host and the peer write the same values to the ports, to `BUF` and to the lines of both. -/
theorem Alike.ports (h : Alike s s') (c : Option CmdWord) (m : Memory) (scl sda : Bool) (script : List (Bool × Bool)) :
    Alike { s with cmdIn := c, buf := m, peerScl := scl, peerSda := sda, peerScript := script }
      { s' with cmdIn := c, buf := m, peerScl := scl, peerSda := sda, peerScript := script } := by
  cases h with
  | idle hb h =>
    exact .idle hb (visible_map
      (f := fun x => { x with cmdIn := c, buf := m, peerScl := scl, peerSda := sda, peerScript := script }) (fun _ => rfl) h)
  | waiting hq core =>
    exact .waiting hq (core_map
      (f := fun x => { x with cmdIn := c, buf := m, peerScl := scl, peerSda := sda, peerScript := script }) (fun _ => rfl) core)
  | running i f l p rest hq hf twin top =>
    exact .running i f l p rest hq hf
      ⟨core_map (f := fun x => { x with cmdIn := c, buf := m, peerScl := scl, peerSda := sda, peerScript := script })
        (fun _ => rfl) twin.core, twin.cnt, belowAlike_congr twin.below rfl rfl rfl rfl⟩ top

/-- An action on these fields alone that reads only what the two agree on. -/
theorem Alike.map (h : Alike s s') {f : State → State}
    (hf : ∀ x, f x = { x with
      cmdIn := (f x).cmdIn, buf := (f x).buf, peerScl := (f x).peerScl, peerSda := (f x).peerSda, peerScript := (f x).peerScript })
    (hv : ∀ x, visible (f x) = visible (f (visible x))) : Alike (f s) (f s') := by
  have hvis := visible_map hv h.visible_eq
  rw [hf s, hf s', show (f s').cmdIn = (f s).cmdIn from (congrArg State.cmdIn hvis :),
    show (f s').buf = (f s).buf from (congrArg State.buf hvis :),
    show (f s').peerScl = (f s).peerScl from (congrArg State.peerScl hvis :),
    show (f s').peerSda = (f s).peerSda from (congrArg State.peerSda hvis :),
    show (f s').peerScript = (f s).peerScript from (congrArg State.peerScript hvis :)]
  exact h.ports _ _ _ _ _

/-- Which bytes are lent is read from the latches, which agree during a command (R55). -/
theorem Alike.lent (h : Alike s s') (i : Nat) :
    lentForRead s' i = lentForRead s i ∧ lentForWrite s' i = lentForWrite s i := by
  cases hb : s.busy with
  | true =>
    have core := h.core_of_busy hb
    have hr : ∀ x, lentForRead x i = lentForRead (coreView x) i := fun _ => rfl
    have hw : ∀ x, lentForWrite x i = lentForWrite (coreView x) i := fun _ => rfl
    rw [hr, hw, core, ← hr, ← hw]
    exact ⟨rfl, rfl⟩
  | false =>
    have hb' : s'.busy = false := (congrArg State.busy h.visible_eq :).trans hb
    simp [lentForRead, lentForWrite, hb, hb']

/-- A host action that works on one works on the other. -/
theorem alike_hostAct (h : Alike s s') (a : HostAct) {t : State} (ha : hostAct a s = .next t) :
    ∃ t', hostAct a s' = .next t' ∧ Alike t t' := by
  cases a with
  | present w =>
    cases ha
    exact ⟨_, rfl, h.map (f := fun x => { x with cmdIn := some w }) (fun _ => rfl) fun _ => rfl⟩
  | withdraw =>
    cases ha
    exact ⟨_, rfl, h.map (f := fun x => { x with cmdIn := none }) (fun _ => rfl) fun _ => rfl⟩
  | reset on =>
    cases ha
    have hrst : s'.rstIn = s.rstIn := (congrArg State.rstIn h.visible_eq :)
    refine ⟨_, rfl, ?_⟩
    unfold driveReset
    rw [hrst]
    split
    · exact .idle rfl (visible_map (f := fun x => { doReset x with rstIn := on }) (fun _ => rfl) h.visible_eq)
    · exact h
  | bufWrite i v =>
    obtain ⟨hread, hwrite⟩ := h.lent i
    simp only [hostAct, hread, hwrite] at ha ⊢
    split at ha
    case isFalse => cases ha
    case isTrue hi =>
      split at ha
      · cases ha
      · cases ha
        rename_i hlent
        refine ⟨_, by rw [if_pos hi, if_neg hlent], ?_⟩
        exact h.map (f := fun x => { x with buf := Memory.write x.buf i v }) (fun _ => rfl) fun _ => rfl

theorem alike_peerAct (h : Alike s s') (a : PeerAct) : Alike (peerAct a s) (peerAct a s') := by
  cases a with
  | drive scl sda => exact h.map (f := fun x => { x with peerScl := scl, peerSda := sda }) (fun _ => rfl) fun _ => rfl
  | plan script => exact h.map (f := fun x => { x with peerScript := script }) (fun _ => rfl) fun _ => rfl

theorem alike_move (hs : inv s = true) (hs' : inv s' = true) (h : Alike s s') (m : Move) {t : State} (hm : move m s = .next t) :
    ∃ t', move m s' = .next t' ∧ inv t' = true ∧ Alike t t' := by
  cases m with
  | tick =>
    obtain ⟨t', hstep, hinv⟩ := kept_step hs'
    exact ⟨t', hstep, hinv, couple_step hs hs' h t t' hm hstep⟩
  | host a =>
    obtain ⟨t', ha, halike⟩ := alike_hostAct h a hm
    exact ⟨t', ha, inv_hostAct hs' a ha, halike⟩
  | peer a =>
    cases hm
    exact ⟨_, rfl, (inv_peerAct a s').trans hs', alike_peerAct h a⟩

theorem alike_runMoves {ms : List Move} {t : State} (hs : inv s = true) (hs' : inv s' = true) (h : Alike s s')
    (hrun : runMoves ms s = .next t) : ∃ t', runMoves ms s' = .next t' ∧ Alike t t' := by
  induction ms generalizing s s' with
  | nil =>
    cases hrun
    exact ⟨s', rfl, h⟩
  | cons m ms ih =>
    cases hm : move m s with
    | next u =>
      obtain ⟨u', hm', hu', halike⟩ := alike_move hs hs' h m hm
      rw [runMoves, hm] at hrun
      rw [runMoves, hm']
      exact ih (inv_move hs hm) hu' halike hrun
    | fault r =>
      rw [runMoves, hm] at hrun
      cases hrun
    | refused r =>
      rw [runMoves, hm] at hrun
      cases hrun

/-- Between commands the invariant does not look at the registers that `visible` leaves out. -/
theorem inv_of_visible (hs : inv s = true) (hb : s.busy = false) (h : visible s' = visible s) : inv s' = true := by
  have hq : s.seq = [] := by
    obtain ⟨-, hq, -⟩ | hw | ⟨i, l, p, rest, -, hrun, -⟩ := inv_cases hs
    · exact hq
    · simp [hw.busy] at hb
    · simp [hrun.busy] at hb
  have hq' : s'.seq = [] := (congrArg State.seq h :).trans hq
  have hv : ∀ x : State, x.seq = [] →
      inv x = (masterOk (visible x) && rspOk (visible x) && Memory.wf (visible x).buf && seqOk (visible x)) := fun x hx => by
    simp only [inv, seqOk, hx, show (visible x).seq = x.seq from rfl]
    rfl
  rw [hv s' hq', h, ← hv s hq, hs]

/-- Settles O58: the two states are `Alike`, and every move keeps them so. -/
theorem workingRegistersNeverMatter : Obligations.WorkingRegistersNeverMatter := by
  intro ms s s' t hs hb h hrun
  obtain ⟨t', hrun', halike⟩ := alike_runMoves hs (inv_of_visible hs hb h) (.idle hb h) hrun
  exact ⟨t', hrun', halike.visible_eq⟩

end Steps

end Sys2Proof.Machine
end

section
/-! PROOFS. The host's accesses to `BUF`, several controllers side by side, and what the bit engine does to the data line. -/

namespace Sys2Proof.Machine

/-! ### Several controllers -/

/-- A step of controller `j` replaces it in the list. -/
theorem stepInstance_eq_set {ss : List State} {j : Nat} {s t : State} (hs : ss[j]? = some s) (h : step s = .next t) :
    stepInstance j ss = .next (ss.set j t) := by
  induction ss generalizing j with
  | nil => cases hs
  | cons a ss ih =>
    cases j with
    | zero =>
      cases hs
      simp [stepInstance, h]
    | succ j =>
      rw [stepInstance, ih hs]
      rfl

/-- Settles O60: each step is a `set` at its own index, which leaves the other index alone. -/
theorem controllersIndependent : Obligations.ControllersIndependent := by
  intro j k ss s t u v hne hs hu ht hv
  have hu' : (ss.set j t)[k]? = some u := by rw [List.getElem?_set_ne hne, hu]
  have hs' : (ss.set k v)[j]? = some s := by rw [List.getElem?_set_ne hne.symm, hs]
  refine ⟨stepInstance_eq_set hs ht, stepInstance_eq_set hu' hv, ?_⟩
  rw [List.set_comm t v hne]
  exact stepInstance_eq_set hs' ht

/-! ### The host and the lent buffer -/

theorem isTransmit_iff (opc : BitVec 4) : isTransmit opc = true ↔ opc = 5 ∨ opc = 7 := by
  revert opc
  decide

theorem isReceive_iff (opc : BitVec 4) : isReceive opc = true ↔ opc = 6 ∨ opc = 8 := by
  revert opc
  decide

theorem lentForRead_iff {s : State} {i : Nat} :
    lentForRead s i = true ↔ s.busy = true ∧ (s.opc = 5 ∨ s.opc = 7) ∧ i < s.len.toNat := by
  simp [lentForRead, isTransmit_iff, and_assoc]

theorem lentForWrite_iff {s : State} {i : Nat} :
    lentForWrite s i = true ↔ s.busy = true ∧ (s.opc = 6 ∨ s.opc = 8) ∧ i < s.len.toNat := by
  simp [lentForWrite, isReceive_iff, and_assoc]

theorem hostAct_bufWrite_lent {s : State} {i : Nat} (v : Byte) (hi : i < bufSize)
    (h : lentForRead s i = true ∨ lentForWrite s i = true) : hostAct (.bufWrite i v) s = .fault (.bufRace i) := by
  simp [hostAct, hi, h]

theorem hostAct_bufWrite_free {s : State} {i : Nat} (v : Byte) (hi : i < bufSize)
    (h : ¬(lentForRead s i = true ∨ lentForWrite s i = true)) :
    hostAct (.bufWrite i v) s = .next { s with buf := Memory.write s.buf i v } := by
  simp [hostAct, hi, h]

/-- Settles O57: the latches say whether a byte is lent (`lentForRead_iff`, `lentForWrite_iff`); a byte that is not is written and read as
`Memory.read_write` says. -/
theorem hostBuffer : Obligations.HostBuffer := by
  intro s i v hwf hi
  refine ⟨fun hb ho hl => ?_, fun h => ?_, fun hb ho hl => ?_, fun h => ?_⟩
  · have hlent : lentForRead s i = true ∨ lentForWrite s i = true := by
      rw [lentForRead_iff, lentForWrite_iff]
      tauto
    exact hostAct_bufWrite_lent v hi hlent
  · have hfree : ¬(lentForRead s i = true ∨ lentForWrite s i = true) := by
      rw [lentForRead_iff, lentForWrite_iff, ← Nat.not_le, ← Bool.not_eq_false]
      tauto
    exact ⟨_, hostAct_bufWrite_free v hi hfree, Memory.wf_write s.buf v hwf hi, fun j => Memory.read_write i j v hwf⟩
  · simp [hostBufRead, hi, lentForWrite_iff.2 ⟨hb, ho, hl⟩]
  · have hfree : ¬lentForWrite s i = true := by
      rw [lentForWrite_iff, ← Nat.not_le, ← Bool.not_eq_false]
      tauto
    simp [hostBufRead, hi, hfree]

/-! ### The bit engine and the conditions of the bus -/

/-- A START or a STOP condition needs the clock latch released before and after and a new value on the data latch (R51). -/
theorem Recorded.noCondition {s t : State} {e : Event} (r : Recorded s t e)
    (h : s.sclO = false ∨ t.sclO = false ∨ t.sdaO = s.sdaO) :
    isStartCondition e.pre e.post = false ∧ isStopCondition e.pre e.post = false := by
  rw [r.pre, r.post, isStartCondition, isStopCondition]
  obtain h | h | h := h
  · simp [h]
  · simp [h]
  · rw [h]
    generalize (s.sdaO && t.peerSda) = level
    cases level <;> simp

/-- If `o` is a next state, the data latch is as in `s`, or the clock is driven low before or after. -/
structure DataHeld (s : State) (o : Out) : Prop where
  of_next : ∀ t, o = .next t → s.sclO = false ∨ t.sclO = false ∨ t.sdaO = s.sdaO

section DataHeld
variable {s : State}

theorem dataHeld_of_clockLow {o : Out} (h : s.sclO = false) : DataHeld s o := ⟨fun _ _ => .inl h⟩

theorem dataHeld_next {t : State} (h : t.sdaO = s.sdaO) : DataHeld s (.next t) := by
  constructor
  rintro _ ⟨⟩
  exact .inr (.inr h)

theorem dataHeld_clockDown (line : Nat) : DataHeld s (.next (goto line (lineWrite .scl false s))) := by
  constructor
  rintro _ ⟨⟩
  exact .inr (.inl rfl)

theorem dataHeld_highPhase : DataHeld s (highPhase s) := dataHeld_next rfl

theorem dataHeld_stretch (after : Nat) : DataHeld s (stretch after highPhase s) := by
  unfold stretch
  split
  · split
    · exact dataHeld_next rfl
    · exact dataHeld_next rfl
  · exact dataHeld_highPhase

theorem dataHeld_finish : DataHeld s (finish s) := by
  unfold finish
  split
  · exact ⟨fun _ h => by cases h⟩
  · split
    · exact dataHeld_next rfl
    · split
      · exact ⟨fun _ h => by cases h⟩
      · exact dataHeld_next rfl

/-- `WRITE_BIT` writes the data line at line 3, the clock being low (R90, R93). -/
theorem dataHeld_execWriteBit {v : Bool} {l p : Nat} {rest : List Frame} (h : At s (.writeBit v) l p rest)
    (ht : topOk (.writeBit v) l p s = true) : DataHeld s (execWriteBit v s) := by
  obtain ⟨c, hc⟩ := at_cons h
  simp only [topOk, Bool.and_eq_true] at ht
  obtain ⟨-, ht⟩ := ht
  rw [execWriteBit, withPos_cons hc]
  unfold writeBitAt at ht
  split at ht
  case h_1 => exact dataHeld_clockDown 2
  case h_2 => exact dataHeld_next rfl
  case h_3 => exact dataHeld_of_clockLow (by simpa using ht)
  case h_4 => exact dataHeld_next rfl
  case h_5 => exact dataHeld_stretch 6
  case h_6 => exact dataHeld_highPhase
  case h_7 => exact dataHeld_finish
  case h_8 => cases ht

/-- `READ_BIT` releases the data line at line 2, the clock being low (R91, R93). -/
theorem dataHeld_execReadBit {l p : Nat} {rest : List Frame} (h : At s .readBit l p rest) (ht : topOk .readBit l p s = true) :
    DataHeld s (execReadBit s) := by
  obtain ⟨c, hc⟩ := at_cons h
  simp only [topOk, Bool.and_eq_true] at ht
  obtain ⟨-, ht⟩ := ht
  rw [execReadBit, withPos_cons hc]
  unfold readBitAt at ht
  split at ht
  case h_1 => exact dataHeld_clockDown 2
  case h_2 => exact dataHeld_of_clockLow (by simpa using ht)
  case h_3 => exact dataHeld_next rfl
  case h_4 => exact dataHeld_next rfl
  case h_5 => exact dataHeld_stretch 6
  case h_6 => exact dataHeld_highPhase
  case h_7 => exact dataHeld_next rfl
  case h_8 => exact dataHeld_finish
  case h_9 => cases ht

end DataHeld

/-- An internal routine is fetched only at a line of its listing, never at dispatch (R64, R66). -/
theorem at_of_fetch_internal {s : State} {i : Instr} (hs : inv s = true) (hi : i.issuable = false) (hf : fetch s = some i) :
    ∃ l p rest, At s i l p rest ∧ Running s ∧ topOk i l p s = true := by
  obtain ⟨-, hq, -⟩ | hw | ⟨j, l, p, rest, hat, hrun, ht⟩ := inv_cases hs
  · simp [fetch, hq] at hf
  · cases hd : decode s.cmd with
    | error _ => simp [fetch, hw.seq, frameInstr, dispatchedCommand, hd] at hf
    | ok j =>
      have hj : j = i := by simpa [fetch, hw.seq, frameInstr, dispatchedCommand, hd] using hf
      rw [← hj, issuable_of_decode hd] at hi
      cases hi
  · have hj : j = i := Option.some.inj (hat.fetch.symm.trans hf)
    exact ⟨l, p, rest, hj ▸ hat, hrun, hj ▸ ht⟩

theorem dataHeld_bitEngine {s : State} (hs : inv s = true) (hr : s.rstIn = false)
    (hf : fetch s = some .readBit ∨ ∃ v, fetch s = some (.writeBit v)) : DataHeld s (step s) := by
  obtain hf | ⟨v, hf⟩ := hf
  · obtain ⟨l, p, rest, hat, hrun, ht⟩ := at_of_fetch_internal hs rfl hf
    rw [step_busy hr hrun.busy hf]
    exact dataHeld_execReadBit hat ht
  · obtain ⟨l, p, rest, hat, hrun, ht⟩ := at_of_fetch_internal hs rfl hf
    rw [step_busy hr hrun.busy hf]
    exact dataHeld_execWriteBit hat ht

/-- Settles O23: the event is the step's one micro-operation, and the bit engine moves the data latch only under a low clock. -/
theorem bitEngineMakesNoCondition : Obligations.BitEngineMakesNoCondition := by
  intro s t e hs hr hf h htr
  have hheld := (dataHeld_bitEngine hs hr hf).of_next t h
  obtain hrest | ⟨e', r, -⟩ := (step_atMostOneOp hr h).cases_event
  · obtain ⟨-, -, -, -, -, -, -, -, -, trace⟩ := busView_eq_iff.1 hrest
    rw [htr, peerRest_trace] at trace
    exact absurd trace (List.cons_ne_self e s.trace)
  · have he : e = e' := (List.cons.inj (htr.symm.trans r.trace)).1
    rw [he]
    exact r.noCondition hheld

end Sys2Proof.Machine
end

section
/-! PROOFS. The controller's own accesses to `BUF`: only the transfer loops make one, and only inside the first `LEN` bytes. -/

namespace Sys2Proof.Machine

/-- From `s` to `t` a byte of `BUF` changed, or was fetched, only as the command in progress may (R41, R55, R174). -/
structure LentOnly (s t : State) : Prop where
  stored : ∀ i : Nat, Memory.read t.buf i = Memory.read s.buf i ∨
    (s.busy = true ∧ (s.opc = 6 ∨ s.opc = 8) ∧ i = s.idx.toNat ∧ i < s.len.toNat ∧ Memory.read t.buf i = s.shreg)
  fetched : ∀ (e : Event) (i : Count) (v : Byte), t.trace = e :: s.trace → e.op = .memRead i v →
    (s.opc = 5 ∨ s.opc = 7) ∧ i.toNat < s.len.toNat ∧ v = Memory.read s.buf i.toNat ∧ t.dat = v

/-- If `o` is a next state, it touched only lent bytes. -/
structure InLent (s : State) (o : Out) : Prop where
  of_next : ∀ t, o = .next t → LentOnly s t

/-! ### The shared operations that leave `BUF` alone -/

section Operations
variable {s u : State}

@[simp] theorem inLent_fault (r : Fault) : InLent s (.fault r) := ⟨fun _ h => by cases h⟩

theorem inLent_next {t : State} (h : LentOnly s t) : InLent s (.next t) := by
  constructor
  rintro _ ⟨⟩
  exact h

@[simp] theorem InLent.ite {c : Prop} [Decidable c] {a b : Out} (ha : InLent s a) (hb : InLent s b) :
    InLent s (if c then a else b) := by
  split
  · exact ha
  · exact hb

/-- A step without a micro-operation. -/
theorem inLent_silent {t : State} (hbuf : t.buf = s.buf) (htr : t.trace = s.trace) : InLent s (.next t) := by
  refine inLent_next ⟨fun i => .inl (by rw [hbuf]), fun e i v h _ => ?_⟩
  exact absurd (htr.symm.trans h) (List.cons_ne_self e s.trace).symm

/-- A step with a micro-operation at the lines. -/
theorem inLent_event {t : State} {e : Event} (hbuf : t.buf = s.buf) (htr : t.trace = e :: s.trace)
    (he : ∀ i v, e.op ≠ .memRead i v) : InLent s (.next t) := by
  refine inLent_next ⟨fun i => .inl (by rw [hbuf]), fun e' i v h hop => ?_⟩
  rw [← (List.cons.inj (htr.symm.trans h)).1] at hop
  exact absurd hop (he i v)

@[simp] theorem inLent_lineWrite (line : Nat) (L : Line) (b : Bool) : InLent s (.next (goto line (lineWrite L b s))) :=
  inLent_event (by simp) (by rw [goto_trace, lineWrite_trace]) (by simp)

@[simp] theorem inLent_lineRead (line : Nat) (L : Line) : InLent s (.next (goto line (lineRead L s))) :=
  inLent_event (by simp) (by rw [goto_trace, lineRead_trace]) (by simp)

@[simp] theorem inLent_delay (line : Nat) : InLent s (.next (goto line (delay s))) :=
  inLent_event (by simp) (by rw [goto_trace, delay_trace]) (by simp)

@[simp] theorem inLent_highPhase : InLent s (highPhase s) := inLent_delay 7

@[simp] theorem inLent_stretch {skip : State → Out} (h : InLent s (skip s)) (after : Nat) : InLent s (stretch after skip s) :=
  .ite (.ite (inLent_lineRead after .scl) (inLent_event (lineRead_buf .scl s) (lineRead_trace .scl s) (by simp))) h

@[simp] theorem inLent_callAt (hbuf : u.buf = s.buf) (htr : u.trace = s.trace) (line loop : Nat) (r : Instr) :
    InLent s (callAt line loop r u) :=
  inLent_silent hbuf htr

@[simp] theorem inLent_respond (hbuf : u.buf = s.buf) (htr : u.trace = s.trace) (c : Code) : InLent s (.next (respond c u)) :=
  inLent_silent hbuf htr

@[simp] theorem inLent_finish (hbuf : u.buf = s.buf) (htr : u.trace = s.trace) : InLent s (finish u) := by
  unfold finish
  split
  · exact inLent_fault _
  · split
    · exact inLent_respond hbuf htr .ok
    · split
      · exact inLent_fault _
      · exact inLent_silent hbuf htr

theorem inLent_withPos {body : Nat → Nat → Out} (h : ∀ line loop, InLent s (body line loop)) : InLent s (withPos s body) := by
  unfold withPos
  split
  · exact inLent_fault _
  · exact h _ _

theorem inLent_asCommand {check : Option Code} {body : Nat → Nat → Out} (h : ∀ line loop, InLent s (body line loop)) :
    InLent s (asCommand check body s) := by
  refine inLent_withPos fun line loop => ?_
  cases line with
  | zero =>
    cases check with
    | none => exact h 1 0
    | some c => exact inLent_respond rfl rfl c
  | succ k => exact h (k + 1) loop

@[simp] theorem inLent_connectNotStarted : InLent s (connectNotStarted s) := by
  unfold connectNotStarted
  split
  · exact inLent_respond rfl rfl .notStarted
  · exact inLent_finish rfl rfl

@[simp] theorem inLent_tearDown : InLent s (tearDown s) := inLent_silent rfl rfl

@[simp] theorem inLent_sendBit (hbuf : u.buf = s.buf) (htr : u.trace = s.trace) : InLent s (sendBit u) :=
  inLent_callAt hbuf htr 2 0 _

end Operations

/-- A routine without a transfer loop neither stores nor fetches. -/
theorem inLent_exec_noLoop {i : Instr} (hi : loopLine i = none) (s : State) : InLent s (exec i s) := by
  cases i with
  | write _ _ | read _ _ | writeReg _ _ _ | readReg _ _ _ => cases hi
  | init halcap freq => exact (inLent_asCommand fun line _ => by split <;> simp : InLent s (execInit halcap freq s))
  | deinit => exact (inLent_asCommand fun line _ => by split <;> simp : InLent s (execDeinit s))
  | start => exact (inLent_asCommand fun line _ => by split <;> simp : InLent s (execStart s))
  | stop => exact (inLent_asCommand fun line _ => by split <;> simp : InLent s (execStop s))
  | connect a w => exact (inLent_asCommand fun line _ => by split <;> simp : InLent s (execConnect a w s))
  | restart => exact (inLent_withPos fun line _ => by split <;> simp : InLent s (execRestart s))
  | writeByte d => exact (inLent_withPos fun line _ => by split <;> simp : InLent s (execWriteByte d s))
  | readByte f => exact (inLent_withPos fun line _ => by split <;> simp [storeBit] : InLent s (execReadByte f s))
  | writeBit v => exact (inLent_withPos fun line _ => by split <;> simp : InLent s (execWriteBit v s))
  | readBit => exact (inLent_withPos fun line _ => by split <;> simp : InLent s (execReadBit s))

/-! ### The transfer loops -/

/-- The length operand of a composite command. -/
def lengthOf : Instr → Option Count
  | .write _ n | .read _ n | .writeReg _ _ n | .readReg _ _ n => some n
  | .init _ _ | .deinit | .start | .stop | .connect _ _ | .restart | .writeByte _ | .readByte _ | .writeBit _ | .readBit => none

/-- `OPC` is the code of the command the latches hold (R20, R64). -/
theorem opc_of_latched {s : State} {i : Instr} (h : latchedCommand s = some i) : s.opc = i.code := by
  unfold latchedCommand at h
  split at h <;> cases h <;> exact BitVec.eq_of_toNat_eq ‹_›

/-- `LEN` is its length (R20, R65). -/
theorem len_of_latched {s : State} {i : Instr} {n : Count} (h : latchedCommand s = some i) (hn : lengthOf i = some n) :
    s.len = n := by
  unfold latchedCommand at h
  split at h <;> cases h <;> cases hn <;> rfl

/-- A command that is never called is read from the latches. -/
theorem At.latched {s : State} {i : Instr} {l p : Nat} {rest : List Frame} (h : At s i l p rest) (hi : isBottom i = true) :
    latchedCommand s = some i := by
  obtain ⟨-, callers⟩ | ⟨-, -, -, latched⟩ := h
  · rw [callersOk_bottom hi] at callers
    cases callers
  · exact latched

section Loops
variable {s : State} {line out loop : Nat}

@[simp] theorem inLent_leaveToStop {u : State} (hbuf : u.buf = s.buf) (htr : u.trace = s.trace) (out : Nat) :
    InLent s (leaveToStop out u) :=
  inLent_callAt hbuf htr out 0 .stop

section Transmit
variable (hop : s.opc = 5 ∨ s.opc = 7)
include hop

/-- `TXLOOP` step 3 at an index inside the transfer (R124). -/
theorem inLent_txFetch (c : Count) {k : Count} (hk : k.toNat < s.len.toNat) :
    InLent s (txFetch line { s with cnt := c, idx := k }) := by
  have hin : k.toNat < bufSize := lt_of_lt_of_le hk (Nat.le_of_lt_succ s.len.isLt)
  rw [txFetch, memRead_inside hin]
  refine inLent_next ⟨fun i => .inl rfl, fun e i v htr he => ?_⟩
  rw [← (List.cons.inj htr).1] at he
  cases he
  exact ⟨hop, hk, rfl, rfl⟩

/-- `TXLOOP` step 2 at an index up to the end of the transfer (R124). -/
theorem inLent_txTest (c : Count) {k : Count} (hk : k.toNat ≤ s.len.toNat) :
    InLent s (txTest line out s.len { s with cnt := c, idx := k }) := by
  unfold txTest
  split
  · exact inLent_leaveToStop (by rfl) (by rfl) out
  · next hne => exact inLent_txFetch hop c (lt_of_le_of_ne hk fun e => hne (BitVec.eq_of_toNat_eq e))

/-- The line of `TXLOOP` fetches below `LEN` (R55, R124). -/
theorem inLent_txLine (ht : (if loop = 0 then openAt s else txAt s.len loop s) = true) :
    InLent s (if loop = 0 then (if s.res then txLoop line out s.len 1 s else leaveToStop out s)
      else txLoop line out s.len loop s) := by
  split
  · exact .ite (inLent_txTest hop 0 (by simp)) (inLent_leaveToStop rfl rfl out)
  · next hl =>
    simp only [hl, if_false, txAt, inLoop, Bool.and_eq_true, Bool.or_eq_true, beq_iff_eq, decide_eq_true_eq] at ht
    obtain ⟨⟨⟨⟨rfl | rfl, -⟩, -⟩, -⟩, hlt, -⟩ := ht
    · exact inLent_callAt rfl rfl line 4 _
    · exact .ite (inLent_txTest hop (s.cnt + 1) (toNat_succ_le hlt)) (inLent_leaveToStop rfl rfl out)

end Transmit

@[simp] theorem inLent_rxTest {u : State} (hbuf : u.buf = s.buf) (htr : u.trace = s.trace) (line out : Nat) (n : Count) :
    InLent s (rxTest line out n u) :=
  .ite (inLent_leaveToStop hbuf htr out) (inLent_callAt hbuf htr line 3 _)

/-- `RXLOOP` step 4 at an index inside the transfer stores the byte just received (R125). -/
theorem inLent_rxStore (hb : s.busy = true) (hop : s.opc = 6 ∨ s.opc = 8) (hwf : Memory.wf s.buf = true)
    (hidx : s.idx.toNat < s.len.toNat) : InLent s (memWrite s.shreg s fun x => .next (setPos line 5 x)) := by
  have hin : s.idx.toNat < bufSize := lt_of_lt_of_le hidx (Nat.le_of_lt_succ s.len.isLt)
  rw [memWrite_inside hin]
  refine inLent_next ⟨fun i => ?_, fun e i v htr he => ?_⟩
  · by_cases hi : i = s.idx.toNat
    · exact .inr ⟨hb, hop, hi, hi ▸ hidx, hi ▸ Memory.read_write_same i s.shreg hwf⟩
    · exact .inl (Memory.read_write_other s.shreg hwf hi)
  · rw [← (List.cons.inj htr).1] at he
    cases he

/-- The line of `RXLOOP` stores below `LEN` (R55, R125). -/
theorem inLent_rxLine {b : Bool} (hr : Running s) (hop : s.opc = 6 ∨ s.opc = 8)
    (ht : (if loop = 0 then b else rxAt s.len loop s) = true) :
    InLent s (if loop = 0 then (if s.res then rxLoop line out s.len 1 s else leaveToStop out s)
      else rxLoop line out s.len loop s) := by
  split
  · exact .ite (inLent_rxTest (by rfl) (by rfl) line out s.len) (inLent_leaveToStop rfl rfl out)
  · next hl =>
    simp only [hl, if_false, rxAt, inLoop, Bool.and_eq_true, Bool.or_eq_true (loop == 4), beq_iff_eq, decide_eq_true_eq] at ht
    obtain ⟨⟨⟨⟨⟨⟨rfl | rfl, -⟩, -⟩, -⟩, -⟩, hlt, -⟩, -⟩ := ht
    · exact inLent_rxStore hr.busy hop hr.wf hlt
    · exact .ite (inLent_leaveToStop (by rfl) (by rfl) out) (inLent_rxTest (by rfl) (by rfl) line out s.len)

end Loops

/-! ### Every step -/

/-- At every line where the invariant can hold the routine there keeps to the lent bytes. -/
theorem inLent_exec_top {s : State} {i : Instr} {l p : Nat} {rest : List Frame} (h : At s i l p rest) (hr : Running s)
    (ht : topOk i l p s = true) : InLent s (exec i s) := by
  cases i with
  | write a n =>
    obtain rfl : s.len = n := len_of_latched (h.latched rfl) rfl
    have hop : s.opc = 5 ∨ s.opc = 7 := .inl (opc_of_latched (h.latched rfl))
    rw [exec, execWrite, asCommand_top h ht]
    simp only [topOk] at ht
    unfold writeAt at ht
    split at ht
    case h_1 => exact inLent_callAt rfl rfl 3 0 _
    case h_2 => exact inLent_txLine hop ht
    case h_3 => exact inLent_respond rfl rfl .ok
    case h_4 => cases ht
  | read a n =>
    obtain rfl : s.len = n := len_of_latched (h.latched rfl) rfl
    have hop : s.opc = 6 ∨ s.opc = 8 := .inl (opc_of_latched (h.latched rfl))
    rw [exec, execRead, asCommand_top h ht]
    simp only [topOk] at ht
    unfold readAt at ht
    split at ht
    case h_1 => exact inLent_callAt rfl rfl 3 0 _
    case h_2 => exact inLent_rxLine hr hop ht
    case h_3 => exact inLent_respond rfl rfl .ok
    case h_4 => cases ht
  | writeReg a r n =>
    obtain rfl : s.len = n := len_of_latched (h.latched rfl) rfl
    have hop : s.opc = 5 ∨ s.opc = 7 := .inr (opc_of_latched (h.latched rfl))
    rw [exec, execWriteReg, asCommand_top h ht]
    simp only [topOk] at ht
    unfold writeRegAt at ht
    split at ht
    case h_1 => exact inLent_callAt rfl rfl 3 0 _
    case h_2 => exact .ite (inLent_callAt rfl rfl 5 0 _) (inLent_leaveToStop rfl rfl 7)
    case h_3 => exact inLent_txLine hop ht
    case h_4 => exact inLent_respond rfl rfl .ok
    case h_5 => cases ht
  | readReg a r n =>
    obtain rfl : s.len = n := len_of_latched (h.latched rfl) rfl
    have hop : s.opc = 6 ∨ s.opc = 8 := .inr (opc_of_latched (h.latched rfl))
    rw [exec, execReadReg, asCommand_top h ht]
    simp only [topOk] at ht
    unfold readRegAt at ht
    split at ht
    case h_1 => exact inLent_callAt rfl rfl 3 0 _
    case h_2 => exact .ite (inLent_callAt rfl rfl 5 0 _) (inLent_leaveToStop rfl rfl 10)
    case h_3 => exact .ite (inLent_callAt rfl rfl 7 0 _) (inLent_leaveToStop rfl rfl 10)
    case h_4 => exact inLent_callAt rfl rfl 8 0 _
    case h_5 => exact inLent_rxLine hr hop ht
    case h_6 => exact inLent_respond rfl rfl .ok
    case h_7 => cases ht
  | _ => exact inLent_exec_noLoop rfl s

/-- A composite command at dispatch is refused or calls `START` (R120 to R123, R131). -/
theorem inLent_dispatch {s : State} (h : Waiting s) (hr : s.rstIn = false) : InLent s (step s) := by
  cases hd : decode s.cmd with
  | error e =>
    rw [h.step_illegal hr hd]
    exact inLent_respond rfl rfl .illegalCmd
  | ok i =>
    rw [step_dispatch hr h.busy h.seq hd]
    have hi := issuable_of_decode hd
    cases hc : dispatchCheck i s with
    | some c =>
      rw [exec_refused h.seq hi hc]
      exact inLent_respond rfl rfl c
    | none =>
      cases i with
      | write _ _ | read _ _ | writeReg _ _ _ | readReg _ _ _ =>
        rw [exec_begins h.seq hi hc]
        exact inLent_callAt (by rfl) (by rfl) 2 0 .start
      | _ => exact inLent_exec_noLoop rfl s

theorem inLent_idleStep (s : State) : InLent s (idleStep s) := by
  unfold idleStep
  split
  · exact inLent_silent rfl rfl
  · exact inLent_silent rfl rfl

theorem inLent_step {s : State} (hs : inv s = true) (hr : s.rstIn = false) : InLent s (step s) := by
  obtain ⟨hb, -, -⟩ | hw | ⟨i, l, p, rest, hat, hrun, ht⟩ := inv_cases hs
  · rw [step_idle hr hb]
    exact inLent_idleStep s
  · exact inLent_dispatch hw hr
  · rw [step_busy hr hrun.busy hat.fetch]
    exact inLent_exec_top hat hrun ht

/-- Settles O56: in each situation of `inv_cases` the step keeps to the lent bytes. -/
theorem bufferAccess : Obligations.BufferAccess := by
  intro s t hs hr h
  obtain ⟨stored, fetched⟩ := (inLent_step hs hr).of_next t h
  exact ⟨stored, fetched⟩

end Sys2Proof.Machine
end

section
/-! PROOFS. The listings of the composite commands, line by line: what a line answers, said once for each shared operation, for the two
transfer loops and for the front part that the four commands share. -/

namespace Sys2Proof.Machine

/-! ### What one line answers -/

theorem did_memRead (s : State) :
    Did s [.memRead s.idx (Memory.read s.buf s.idx.toNat)]
      (record (.memRead s.idx (Memory.read s.buf s.idx.toNat)) (peerMove s)
        { peerMove s with dat := Memory.read s.buf s.idx.toNat })
      { s with dat := Memory.read s.buf s.idx.toNat } :=
  ⟨⟨[_], rfl, rfl⟩, rfl, by simp, rfl, rfl⟩

theorem did_memWrite (v : Byte) (s : State) :
    Did s [.memWrite s.idx v]
      (record (.memWrite s.idx v) (peerMove s) { peerMove s with buf := Memory.write s.buf s.idx.toNat v })
      { s with buf := Memory.write s.buf s.idx.toNat v } :=
  ⟨⟨[_], rfl, rfl⟩, rfl, by simp, rfl, rfl⟩

section Lines
variable {i : Instr} {s u : State} {c : Option Instr} {l p : Nat} {rest : List Frame}

/-- A line of `i` that calls `r`, its register work having made `u` of `s`. -/
theorem calls_of_exec {line loop : Nat} {r : Instr} (h : exec i s = callAt line loop r u) (hq : u.seq = ⟨c, l, p⟩ :: rest)
    (hw : Did s [] u u) : Calls i c line loop rest r s u := by
  obtain ⟨t, ht, hdid⟩ := did_callAt hq line loop r
  exact ⟨t, h.trans ht, hw.trans hdid⟩

/-- A line of `i` that fetches, its register work having made `u` of `s` (R124 step 3). -/
theorem txFetch_of_exec {line : Nat} (h : exec i s = txFetch line u) (hq : u.seq = ⟨c, l, p⟩ :: rest) (hw : Did s [] u u) :
    TxFetch i c line rest s u := by
  refine ⟨fun hin => ?_, fun hout => h.trans (if_neg hout)⟩
  rw [txFetch, memRead_inside hin] at h
  exact ⟨_, h, hw.trans ((did_memRead u).setPos hq rfl line 4)⟩

/-- A line of `i` that stores the byte just received (R125 step 4). -/
theorem answers_of_exec_store {line : Nat} (h : exec i s = memWrite s.shreg s fun x => .next (setPos line 5 x))
    (hq : s.seq = ⟨c, l, p⟩ :: rest) (hin : s.idx.toNat < bufSize) :
    Answers i s [.memWrite s.idx s.shreg]
      { s with buf := Memory.write s.buf s.idx.toNat s.shreg, seq := ⟨c, line, 5⟩ :: rest } := by
  rw [memWrite_inside hin] at h
  exact ⟨_, h, (did_memWrite s.shreg s).setPos hq rfl line 5⟩

/-- A line of `i` that tests the index of the transmit loop (R124 step 2). -/
theorem txTest_of_exec {line out : Nat} {n : Count} (h : exec i s = txTest line out n u) (hq : u.seq = ⟨c, l, p⟩ :: rest)
    (hw : Did s [] u u) : TxTest i c line out n rest s u :=
  ⟨fun he => calls_of_exec (h.trans (if_pos he)) hq hw, fun hne => txFetch_of_exec (h.trans (if_neg hne)) hq hw⟩

/-- A line of `i` that tests the index of the receive loop (R125 step 2). -/
theorem rxTest_of_exec {line out : Nat} {n : Count} (h : exec i s = rxTest line out n u) (hq : u.seq = ⟨c, l, p⟩ :: rest)
    (hw : Did s [] u u) : RxTest i c line out n rest s u :=
  ⟨fun he => calls_of_exec (h.trans (if_pos he)) hq hw, fun hne => calls_of_exec (h.trans (if_neg hne)) hq hw⟩

/-- A line of `i` that goes on in one of two ways, as the last sample says. -/
theorem ifAcked_of_exec {P Q : Prop} {a b : Out} (h : exec i s = if s.res then a else b) (ha : exec i s = a → P)
    (hb : exec i s = b → Q) : (s.res = true → P) ∧ (s.res = false → Q) :=
  ⟨fun hr => ha (h.trans (if_pos hr)), fun hr => hb (h.trans (if_neg (Bool.eq_false_iff.1 hr)))⟩

end Lines

/-! ### The transfer loops -/

/-- A command that runs `txLoop` in its line `line` has every line of `TXLOOP` there (R124). -/
theorem txLoop_of_exec {i : Instr} {line out : Nat} {n : Count}
    (h : ∀ (s : State) (c : Option Instr) (p : Nat) (rest : List Frame),
      s.seq = ⟨c, line, p + 1⟩ :: rest → exec i s = txLoop line out n (p + 1) s) : TxLoop i line out n := by
  intro s c rest
  refine ⟨fun hq => ?_, fun hq => ?_, fun hq => ?_, fun hq => ?_, fun hq => ?_, fun hq => ?_⟩
  · exact txTest_of_exec (h s c 0 rest hq) hq (.silent rfl rfl rfl rfl)
  · exact txTest_of_exec (h s c 1 rest hq) hq (.refl s)
  · exact txFetch_of_exec (h s c 2 rest hq) hq (.refl s)
  · exact calls_of_exec (h s c 3 rest hq) hq (.refl s)
  · obtain ⟨counted, left⟩ := ifAcked_of_exec (h s c 4 rest hq)
      (fun e => txTest_of_exec e hq (.silent rfl rfl rfl rfl)) (fun e => calls_of_exec e hq (.refl s))
    exact ⟨left, counted⟩
  · exact txTest_of_exec (h s c 5 rest hq) hq (.silent rfl rfl rfl rfl)

/-- A command that runs `rxLoop` in its line `line` has every line of `RXLOOP` there (R125). -/
theorem rxLoop_of_exec {i : Instr} {line out : Nat} {n : Count}
    (h : ∀ (s : State) (c : Option Instr) (p : Nat) (rest : List Frame),
      s.seq = ⟨c, line, p + 1⟩ :: rest → exec i s = rxLoop line out n (p + 1) s) : RxLoop i line out n := by
  intro s c rest
  refine ⟨fun hq => ?_, fun hq => ?_, fun hq => ?_, fun hq => ⟨?_, ?_⟩, fun hq => ⟨?_, ?_⟩, fun hq => ?_⟩
  · exact rxTest_of_exec (h s c 0 rest hq) hq (.silent rfl rfl rfl rfl)
  · exact rxTest_of_exec (h s c 1 rest hq) hq (.refl s)
  · exact calls_of_exec (h s c 2 rest hq) hq (.refl s)
  · exact answers_of_exec_store (h s c 3 rest hq) hq
  · exact fun hout => (h s c 3 rest hq).trans (if_neg hout)
  · exact fun hf => calls_of_exec ((h s c 4 rest hq).trans (if_pos hf)) hq (.silent rfl rfl rfl rfl)
  · exact fun hf => rxTest_of_exec ((h s c 4 rest hq).trans (if_neg (Bool.eq_false_iff.1 hf))) hq (.silent rfl rfl rfl rfl)
  · exact rxTest_of_exec (h s c 5 rest hq) hq (.silent rfl rfl rfl rfl)

/-! ### Dispatch and the last line -/

section Composite
variable {i : Instr} {body : State → Nat → Nat → Out} (hi : ∀ s, exec i s = asCommand (needsMaster s) (body s) s) {s : State}
  {c : Option Instr} {l p : Nat} {rest : List Frame}
include hi

/-- Without a master the command is refused (R131, R146). -/
theorem refused_without_master (hq : s.seq = ⟨c, 0, p⟩ :: rest) (hv : s.valid = false) :
    Answers i s [] (refusedWith .stateErr s) := by
  have hcheck : needsMaster s = some .stateErr := by simp [needsMaster, hv]
  refine ⟨_, ?_, did_refused (by decide) s⟩
  rw [hi, hcheck, asCommand_fails hq rfl]

/-- A line past dispatch. -/
theorem exec_at_line (hq : s.seq = ⟨c, l + 1, p⟩ :: rest) : exec i s = body s (l + 1) p := by
  rw [hi, asCommand_line hq (Nat.succ_ne_zero l)]

/-- The first line, reached at dispatch or at step 1, clears `CNT` and calls `START` (R120 to R123). -/
theorem calls_start (hbody : ∀ p, body s 1 p = callAt 2 0 .start { s with cnt := 0 })
    (hq : (s.seq = ⟨c, 0, p⟩ :: rest ∧ s.valid = true) ∨ s.seq = ⟨c, 1, p⟩ :: rest) :
    Calls i c 2 0 rest .start s { s with cnt := 0 } := by
  obtain ⟨hq, hv⟩ | hq := hq
  · have hcheck : needsMaster s = none := by simp [needsMaster, hv]
    refine calls_of_exec ?_ hq (.silent rfl rfl rfl rfl)
    rw [hi, hcheck, asCommand_passes hq rfl, hbody]
  · exact calls_of_exec ((exec_at_line hi hq).trans (hbody p)) hq (.silent rfl rfl rfl rfl)

end Composite

/-- The last line of a composite command responds `OK` (R136). -/
theorem answers_completed {i : Instr} {s : State} (h : exec i s = .next (respond .ok s)) : Answers i s [] (completed s) :=
  ⟨_, h, did_completed s⟩

/-! ### The four commands

The arm of `exec` for each, in the form the lemmas on dispatch and lines take it. -/

theorem exec_write (a : SlaveAddr) (n : Count) (s : State) : exec (.write a n) s = execWrite a n s := rfl

theorem exec_read (a : SlaveAddr) (n : Count) (s : State) : exec (.read a n) s = execRead a n s := rfl

theorem exec_writeReg (a : SlaveAddr) (r : Byte) (n : Count) (s : State) : exec (.writeReg a r n) s = execWriteReg a r n s := rfl

theorem exec_readReg (a : SlaveAddr) (r : Byte) (n : Count) (s : State) : exec (.readReg a r n) s = execReadReg a r n s := rfl

/-- Settles O39: the loop is `txLoop_of_exec`, every other line one shared operation. -/
theorem writeListing : Obligations.WriteListing := by
  intro a n
  have hi := exec_write a n
  refine ⟨txLoop_of_exec fun s c p rest hq => exec_at_line hi hq, fun s c p rest =>
    ⟨refused_without_master hi, calls_start hi fun _ => rfl, fun hq => ?_, fun hq => ?_, fun hq => ?_, fun hq => ?_, fun hq => ?_⟩⟩
  · exact calls_of_exec (exec_at_line hi hq) hq (.refl s)
  · exact calls_of_exec (exec_at_line hi hq) hq (.refl s)
  · exact ifAcked_of_exec (exec_at_line hi hq) (fun e => txTest_of_exec e hq (.silent rfl rfl rfl rfl))
      fun e => calls_of_exec e hq (.refl s)
  · exact calls_of_exec (exec_at_line hi hq) hq (.refl s)
  · exact answers_completed (exec_at_line hi hq)

/-- Settles O40: the loop is `rxLoop_of_exec`, every other line one shared operation. -/
theorem readListing : Obligations.ReadListing := by
  intro a n
  have hi := exec_read a n
  refine ⟨rxLoop_of_exec fun s c p rest hq => exec_at_line hi hq, fun s c p rest =>
    ⟨refused_without_master hi, calls_start hi fun _ => rfl, fun hq => ?_, fun hq => ?_, fun hq => ?_, fun hq => ?_,
      fun hq => ?_⟩⟩
  · exact calls_of_exec (exec_at_line hi hq) hq (.refl s)
  · exact calls_of_exec (exec_at_line hi hq) hq (.refl s)
  · exact ifAcked_of_exec (exec_at_line hi hq) (fun e => rxTest_of_exec e hq (.silent rfl rfl rfl rfl))
      fun e => calls_of_exec e hq (.refl s)
  · exact calls_of_exec (exec_at_line hi hq) hq (.refl s)
  · exact answers_completed (exec_at_line hi hq)

/-- Settles O41: as for `WRITE`, with the register byte before the loop. -/
theorem writeRegListing : Obligations.WriteRegListing := by
  intro a r n
  have hi := exec_writeReg a r n
  refine ⟨txLoop_of_exec fun s c p rest hq => exec_at_line hi hq, fun s c p rest =>
    ⟨refused_without_master hi, calls_start hi fun _ => rfl, fun hq => ?_, fun hq => ?_, fun hq => ?_, fun hq => ?_, fun hq => ?_,
      fun hq => ?_, fun hq => ?_⟩⟩
  · exact calls_of_exec (exec_at_line hi hq) hq (.refl s)
  · exact calls_of_exec (exec_at_line hi hq) hq (.refl s)
  · exact ifAcked_of_exec (exec_at_line hi hq) (fun e => calls_of_exec e hq (.refl s)) fun e => calls_of_exec e hq (.refl s)
  · exact calls_of_exec (exec_at_line hi hq) hq (.refl s)
  · exact ifAcked_of_exec (exec_at_line hi hq) (fun e => txTest_of_exec e hq (.silent rfl rfl rfl rfl))
      fun e => calls_of_exec e hq (.refl s)
  · exact calls_of_exec (exec_at_line hi hq) hq (.refl s)
  · exact answers_completed (exec_at_line hi hq)

/-- Settles O42: as for `READ`, with the register byte, `RESTART` and the second header before the loop. -/
theorem readRegListing : Obligations.ReadRegListing := by
  intro a r n
  have hi := exec_readReg a r n
  refine ⟨rxLoop_of_exec fun s c p rest hq => exec_at_line hi hq, fun s c p rest =>
    ⟨refused_without_master hi, calls_start hi fun _ => rfl, fun hq => ?_, fun hq => ?_, fun hq => ?_, fun hq => ?_, fun hq => ?_,
      fun hq => ?_, fun hq => ?_, fun hq => ?_, fun hq => ?_, fun hq => ?_⟩⟩
  · exact calls_of_exec (exec_at_line hi hq) hq (.refl s)
  · exact calls_of_exec (exec_at_line hi hq) hq (.refl s)
  · exact ifAcked_of_exec (exec_at_line hi hq) (fun e => calls_of_exec e hq (.refl s)) fun e => calls_of_exec e hq (.refl s)
  · exact calls_of_exec (exec_at_line hi hq) hq (.refl s)
  · exact ifAcked_of_exec (exec_at_line hi hq) (fun e => calls_of_exec e hq (.refl s)) fun e => calls_of_exec e hq (.refl s)
  · exact calls_of_exec (exec_at_line hi hq) hq (.refl s)
  · exact calls_of_exec (exec_at_line hi hq) hq (.refl s)
  · exact ifAcked_of_exec (exec_at_line hi hq) (fun e => rxTest_of_exec e hq (.silent rfl rfl rfl rfl))
      fun e => calls_of_exec e hq (.refl s)
  · exact calls_of_exec (exec_at_line hi hq) hq (.refl s)
  · exact answers_completed (exec_at_line hi hq)

end Sys2Proof.Machine
end

section
/-! PROOFS. Encoding and decoding of the command words: a field of a word is what `atBit` put there, and a word is its must-be-zero
part and its fields put together again. -/

namespace Sys2Proof

/-! ### Fields of a word -/

/-- The bits a field of `k` bits at bit `lo` takes. -/
def fieldMask (lo k : Nat) : CmdWord := atBit lo (BitVec.allOnes k)

theorem getLsbD_atBit {k : Nat} (lo : Nat) (v : BitVec k) (j : Nat) :
    (atBit lo v).getLsbD j = (decide (j < 64) && decide (lo ≤ j) && v.getLsbD (j - lo)) := by
  unfold atBit
  rw [BitVec.getLsbD_shiftLeft, BitVec.getLsbD_setWidth]
  by_cases h : lo ≤ j
  · by_cases h64 : j < 64
    · simp [h, h64, show j - lo < 64 by omega]
    · simp [h64]
  · simp [h, show j < lo by omega]

theorem getElem_atBit {k : Nat} (lo : Nat) (v : BitVec k) (j : Nat) (hj : j < 64) :
    (atBit lo v)[j] = (decide (lo ≤ j) && v.getLsbD (j - lo)) := by
  rw [← BitVec.getLsbD_eq_getElem, getLsbD_atBit]
  simp [hj]

theorem extractLsb'_atBit_same {lo k : Nat} (v : BitVec k) (h : lo + k ≤ 64) : (atBit lo v).extractLsb' lo k = v := by
  ext j hj
  have h64 : lo + j < 64 := by omega
  rw [BitVec.getElem_extractLsb', getLsbD_atBit, Nat.add_sub_cancel_left, BitVec.getLsbD_eq_getElem hj]
  simp [h64]

theorem extractLsb'_atBit_apart {lo lo' k k' : Nat} (v : BitVec k') (h : lo + k ≤ lo' ∨ lo' + k' ≤ lo) :
    (atBit lo' v).extractLsb' lo k = 0 := by
  ext j hj
  simp only [BitVec.getElem_extractLsb', getLsbD_atBit, BitVec.ofNat_eq_ofNat, BitVec.getElem_zero, Bool.and_eq_false_iff,
    decide_eq_false_iff_not]
  obtain h | h := h
  · exact .inl (.inr (by omega))
  · exact .inr (BitVec.getLsbD_of_ge _ _ (by omega))

/-- A field read from a word and put back is the word in the field's bits. -/
theorem atBit_extractLsb' (w : CmdWord) (lo k : Nat) : atBit lo (w.extractLsb' lo k) = w &&& fieldMask lo k := by
  apply BitVec.eq_of_getLsbD_eq
  intro j hj
  rw [BitVec.getLsbD_and, fieldMask, getLsbD_atBit, getLsbD_atBit, BitVec.getLsbD_extractLsb', BitVec.getLsbD_allOnes]
  by_cases h : lo ≤ j
  · simp [h, hj, Bool.and_comm]
  · simp [h]

theorem atBit_ofBool (w : CmdWord) (lo : Nat) : atBit lo (BitVec.ofBool (w.getLsbD lo)) = w &&& fieldMask lo 1 := by
  rw [← atBit_extractLsb']
  congr 1
  ext j hj
  obtain rfl : j = 0 := by omega
  simp

/-- A field shows nothing in the bits of a mask that leaves it out. -/
theorem atBit_and_of_apart {lo k : Nat} (v : BitVec k) {m : CmdWord} (h : fieldMask lo k &&& m = 0) : atBit lo v &&& m = 0 := by
  have hsub : atBit lo v = atBit lo v &&& fieldMask lo k := by
    apply BitVec.eq_of_getLsbD_eq
    intro j hj
    rw [BitVec.getLsbD_and, fieldMask, getLsbD_atBit, getLsbD_atBit, BitVec.getLsbD_allOnes]
    by_cases h : lo ≤ j
    · simpa [h, hj] using fun hb => BitVec.lt_of_getLsbD hb
    · simp [h]
  rw [hsub, BitVec.and_assoc, h]
  exact BitVec.and_zero

/-! ### The rows of the opcode table -/

theorem selectRow_mask {value mask w : CmdWord} {i j : Instr} (h : selectRow value mask i w = .ok j) : w &&& mask = value := by
  unfold selectRow at h
  split at h
  · assumption
  · cases h

/-- A word that matches a row has the row's opcode. -/
theorem fieldOpc_of_match {value mask w : CmdWord} (h : w &&& mask = value) (hm : fieldOpc mask = 0xF) :
    fieldOpc w = fieldOpc value := by
  have hand : fieldOpc (w &&& mask) = fieldOpc w &&& fieldOpc mask := by
    unfold fieldOpc
    ext j hj
    simp
  rw [← h, hand, hm]
  exact (BitVec.and_allOnes).symm

/-! ### Decoding and encoding -/

/-- A command with its operands as they stand in the word `w` (R65). -/
theorem encode_decode {w : CmdWord} {i : Instr} (h : decode w = .ok i) : encode i = w := by
  unfold decode at h
  split at h
  case h_10 | h_11 | h_12 | h_13 | h_14 | h_15 => cases h
  all_goals
    have hw := selectRow_mask h
    rw [Machine.selectRow_ok h]
  case h_2 | h_3 | h_4 => exact hw.symm.trans BitVec.and_allOnes
  all_goals
    simp only [encode, fieldHalcap, fieldFreq, fieldAddr, fieldW, fieldReg, fieldLen, atBit_extractLsb', atBit_ofBool]
    rw [← hw]
    simp only [← BitVec.and_or_distrib_left]
    exact BitVec.and_allOnes

/-- Settles O2: a legal word is its opcode and its fields put together (`encode_decode`). -/
theorem encodeOfDecode : Obligations.EncodeOfDecode := fun _ _ h => ⟨encode_decode h, Machine.issuable_of_decode h⟩

/-- Settles O4: the decoder cuts the fields out of the word, and it chose the row by the opcode. -/
theorem operandFields : Obligations.OperandFields := by
  intro w i h
  unfold decode at h
  split at h
  case h_10 | h_11 | h_12 | h_13 | h_14 | h_15 => cases h
  all_goals
    rw [Machine.selectRow_ok h]
    refine ⟨(BitVec.eq_of_toNat_eq ‹_›).symm, ?_⟩
  case h_2 | h_3 | h_4 => exact trivial
  case h_1 | h_5 | h_6 | h_7 => exact ⟨rfl, rfl⟩
  case h_8 | h_9 => exact ⟨rfl, rfl, rfl⟩

theorem fieldOpc_encode (i : Instr) (hi : i.wf = true) : fieldOpc (encode i) = i.code := by
  cases i with
  | init h f => exact Laws.OpcodeField.init h f
  | deinit => exact Laws.OpcodeField.deinit
  | start => exact Laws.OpcodeField.start
  | stop => exact Laws.OpcodeField.stop
  | connect a w => exact Laws.OpcodeField.connect a w
  | write a n => exact Laws.OpcodeField.write a n
  | read a n => exact Laws.OpcodeField.read a n
  | writeReg a r n => exact Laws.OpcodeField.writeReg a r n
  | readReg a r n => exact Laws.OpcodeField.readReg a r n
  | restart | writeByte _ | readByte _ | writeBit _ | readBit => cases hi

theorem selectRow_eq {value mask w : CmdWord} {i j : Instr} (h : w &&& mask = value) (hi : i = j) :
    selectRow value mask i w = .ok j := by rw [selectRow, if_pos h, hi]

/-- Settles O1: the code selects the row, the must-be-zero bits are clear, and each field reads back
what `encode` put there. -/
theorem decodeOfEncode : Obligations.DecodeOfEncode := by
  intro i hi
  have hc := fieldOpc_encode i hi
  unfold decode
  rw [hc]
  cases i with
  | restart | writeByte _ | readByte _ | writeBit _ | readBit => cases hi
  | _ =>
    refine selectRow_eq ?_ ?_
    · simp (disch := decide) only [encode, BitVec.and_or_distrib_right, atBit_and_of_apart]
      decide
    · simp [encode, fieldHalcap, fieldFreq, fieldAddr, fieldW, fieldReg, fieldLen, BitVec.extractLsb'_or, extractLsb'_atBit_same,
        extractLsb'_atBit_apart, getElem_atBit]

/-- The nine issuable rows of the opcode table, match and mask (R65). -/
def issuableRows : List (CmdWord × CmdWord) :=
  [(0x0, 0x00000000FFFFFE0F), (0x1, 0xFFFFFFFFFFFFFFFF), (0x2, 0xFFFFFFFFFFFFFFFF), (0x3, 0xFFFFFFFFFFFFFFFF),
    (0x4, 0xFFFFFFFFFFFFF00F), (0x5, 0xFFFFFFF0000FF80F), (0x6, 0xFFFFFFF0000FF80F), (0x7, 0xFFFFFFF00000080F),
    (0x8, 0xFFFFFFF00000080F)]

theorem row_of_decode {w : CmdWord} {i : Instr} (h : decode w = .ok i) : ∃ r ∈ issuableRows, w &&& r.2 = r.1 := by
  unfold decode at h
  split at h
  case h_10 | h_11 | h_12 | h_13 | h_14 | h_15 => cases h
  all_goals exact ⟨(_, _), by simp [issuableRows], selectRow_mask h⟩

theorem decode_of_row {w : CmdWord} {r : CmdWord × CmdWord} (hr : r ∈ issuableRows) (h : w &&& r.2 = r.1) :
    ∃ i, decode w = .ok i := by
  have hmask : ∀ r ∈ issuableRows, fieldOpc r.2 = 0xF := by simp [issuableRows, fieldOpc]
  have hopc : fieldOpc w = fieldOpc r.1 := fieldOpc_of_match h (hmask r hr)
  unfold decode
  rw [hopc]
  simp only [issuableRows, List.mem_cons, List.not_mem_nil, or_false] at hr
  obtain rfl | rfl | rfl | rfl | rfl | rfl | rfl | rfl | rfl := hr <;> exact ⟨_, selectRow_eq h rfl⟩

/-- Settles O3: a word matches a row exactly when the decoder reads it. -/
theorem illegalWords : Obligations.IllegalWords := by
  intro w
  constructor
  · rintro ⟨e, he⟩ r hr hm
    obtain ⟨i, hi⟩ := decode_of_row hr hm
    rw [he] at hi
    cases hi
  · intro hno
    cases hd : decode w with
    | error e => exact ⟨e, rfl⟩
    | ok i =>
      obtain ⟨r, hr, hm⟩ := row_of_decode hd
      exact absurd hm (hno r hr)

/-- Settles O5: each word is read by evaluation. -/
theorem exampleWords : Obligations.ExampleWords := by
  unfold Obligations.ExampleWords
  decide

/-! ### The header byte -/

namespace Machine

theorem header_addr (a : SlaveAddr) (w : Bool) : (header a w).extractLsb' 1 7 = a := by
  ext j hj
  have h8 : 1 + j < 8 := by omega
  cases w <;> simp [header, hj, h8]

theorem header_direction (a : SlaveAddr) (w : Bool) : (header a w).getLsbD 0 = !w := by
  cases w <;> simp [header]

/-- The header byte is the one byte with these bits (R69). -/
theorem eq_header {a : SlaveAddr} {w : Bool} {hdr : Byte} (ha : hdr.extractLsb' 1 7 = a) (hw : hdr.getLsbD 0 = !w) :
    hdr = header a w := by
  apply BitVec.eq_of_getLsbD_eq
  intro j hj
  cases j with
  | zero => rw [hw, header_direction]
  | succ j =>
    have hbits := congrArg (·.getLsbD j) (ha.trans (header_addr a w).symm)
    simpa [Nat.add_comm 1 j, show j < 7 by omega] using hbits

end Machine

/-- Settles O6: the bits are `header_addr` and `header_direction`, the examples by evaluation. -/
theorem headerByte : Obligations.HeaderByte :=
  ⟨fun a w => ⟨Machine.header_addr a w, Machine.header_direction a w⟩, by decide⟩

end Sys2Proof
end

section
/-! PROOFS. The refused commands and the listing of `CONNECT`. -/

namespace Sys2Proof.Machine

/-! ### Commands refused at dispatch -/

theorem step_illegal {s : State} (hr : s.rstIn = false) (hb : s.busy = true) {p : Nat} {rest : List Frame}
    (hq : s.seq = ⟨none, 0, p⟩ :: rest) {e : Illegal} (hd : decode s.cmd = .error e) : step s = .next (respond .illegalCmd s) := by
  simp [step, hr, hb, fetch, hq, frameInstr, dispatchedCommand, hd, noRoutine, atDispatch, raise]

theorem step_refused {s : State} (hr : s.rstIn = false) (hb : s.busy = true) {p : Nat} {rest : List Frame}
    (hq : s.seq = ⟨none, 0, p⟩ :: rest) {i : Instr} (hd : decode s.cmd = .ok i) {c : Code} (hc : dispatchCheck i s = some c) :
    step s = .next (respond c s) :=
  (step_dispatch hr hb hq hd).trans (exec_refused hq (issuable_of_decode hd) hc)

/-- A refused command right after acceptance, when both flags of the response are 0, leaves the response and nothing else. -/
theorem steps_refused {s : State} {c : Code} (hc : c ≠ .ok) (ha : s.ackl = false) (hf : s.fault = false)
    (h : step s = .next (respond c s)) :
    Steps s [] { s with rsp := packRsp 0 false false c, rspValid := true, seq := [], busy := false } := by
  refine ⟨_, h, (did_refused hc s).congr ?_⟩
  rw [refusedWith, ha, hf]

/-- Check (2) of every command (R131, R146). -/
theorem dispatchCheck_stateErr {s : State} {i : Instr} (h : (i.code ≠ 0 ∧ s.valid = false) ∨ (i.code = 0 ∧ s.valid = true)) :
    dispatchCheck i s = some .stateErr := by
  obtain ⟨hc, hv⟩ | ⟨hc, hv⟩ := h <;> cases i <;> simp_all [dispatchCheck, initCheck, connectCheck, needsMaster, Instr.code]

theorem halComplete_iff (h : BitVec 5) :
    halComplete h = true ↔ h.getLsbD 0 = true ∧ h.getLsbD 1 = true ∧ h.getLsbD 3 = true ∧ h.getLsbD 4 = true := by
  revert h
  decide

/-- Check (3) of `INIT` (R80, R141). -/
theorem dispatchCheck_configErr {s : State} {h : BitVec 5} {f : BitVec 32} (hv : s.valid = false)
    (hbad : h.getLsbD 0 = false ∨ h.getLsbD 1 = false ∨ h.getLsbD 3 = false ∨ h.getLsbD 4 = false ∨ f = 0) :
    dispatchCheck (.init h f) s = some .configErr := by
  have hno : ¬(halComplete h = true ∧ f ≠ 0) := by
    rw [halComplete_iff]
    rintro ⟨⟨h0, h1, h3, h4⟩, hf⟩
    simp only [h0, h1, h3, h4, hf, Bool.true_eq_false, or_self] at hbad
  rw [dispatchCheck, initCheck, hv, if_neg (by decide), if_neg hno]

/-- Check (4) of `CONNECT` (R131, R145). -/
theorem dispatchCheck_notStarted {s : State} {a : SlaveAddr} {w : Bool} (hv : s.valid = true) (hs : s.started = false) :
    dispatchCheck (.connect a w) s = some .notStarted := by
  simp [dispatchCheck, connectCheck, hv, hs]

/-- Settles O12: each clause is one dispatch check. -/
theorem errorResponses : Obligations.ErrorResponses := by
  intro s hr hb hq ha hf
  refine ⟨fun ⟨e, he⟩ => ?_, fun i hd hc => ?_, fun h f hd hv hbad => ?_, fun a w hd hv hs => ?_⟩
  · exact steps_refused (by decide) ha hf (step_illegal hr hb hq he)
  · exact steps_refused (by decide) ha hf (step_refused hr hb hq hd (dispatchCheck_stateErr hc))
  · exact steps_refused (by decide) ha hf (step_refused hr hb hq hd (dispatchCheck_configErr hv hbad))
  · exact steps_refused (by decide) ha hf (step_refused hr hb hq hd (dispatchCheck_notStarted hv hs))

/-! ### `CONNECT` -/

theorem exec_connect (a : SlaveAddr) (w : Bool) (s : State) : exec (.connect a w) s = execConnect a w s := rfl

/-- The last line of a listing, its register work having made `u` of `s` (R133, R136; log 13). -/
theorem ends_of_exec {i : Instr} {s u : State} {c : Option Instr} {l p : Nat} {rest : List Frame} (h : exec i s = finish u)
    (hq : u.seq = ⟨c, l, p⟩ :: rest) (hw : Did s [] u u) : Ends i c rest s u := by
  refine ⟨fun hc => ?_, fun r b below hc hrest => ?_, fun r hc hrest => ?_⟩
  · subst hc
    exact ⟨_, h.trans (finish_command hq), hw.trans (did_completed u)⟩
  · subst hc hrest
    obtain ⟨t, ht, hdid⟩ := did_return hq
    exact ⟨t, h.trans ht, hw.trans hdid⟩
  · subst hc hrest
    rw [h, finish, hq]

/-- A command refused at dispatch (R131). -/
theorem refused_of_exec {i : Instr} {s : State} {k : Code} {body : Nat → Nat → Out} {c : Option Instr} {p : Nat} {rest : List Frame}
    (h : exec i s = asCommand (some k) body s) (hq : s.seq = ⟨c, 0, p⟩ :: rest) (hk : k ≠ .ok) :
    Answers i s [] (refusedWith k s) :=
  ⟨_, h.trans (asCommand_fails hq rfl k body), did_refused hk s⟩

section Connect
variable {a : SlaveAddr} {w : Bool} {s : State} {c : Option Instr} {p : Nat} {rest : List Frame}

/-- Step 1 of `CONNECT`, with an open transaction, sends the header byte (R113). -/
theorem exec_connect_started (hs : s.started = true)
    (hq : (s.seq = ⟨c, 0, p⟩ :: rest ∧ s.valid = true) ∨ s.seq = ⟨c, 1, p⟩ :: rest) :
    exec (.connect a w) s = callAt 3 0 (.writeByte (header a w)) s := by
  rw [exec_connect, execConnect]
  obtain ⟨hq, hv⟩ | hq := hq
  · have hcheck : connectCheck s = none := by simp [connectCheck, hv, hs]
    rw [hcheck, asCommand_passes hq rfl]
    exact if_pos hs
  · rw [asCommand_line hq Nat.one_ne_zero]
    exact if_pos hs

/-- Step 1 of `CONNECT` with no open transaction, reached in the listing (R113, R145; log 18). -/
theorem exec_connect_notStarted (hs : s.started = false) (hq : s.seq = ⟨c, 1, p⟩ :: rest) :
    exec (.connect a w) s = connectNotStarted s := by
  rw [exec_connect, execConnect, asCommand_line hq Nat.one_ne_zero]
  exact if_neg (Bool.eq_false_iff.1 hs)

theorem exec_connect_returns (hq : s.seq = ⟨c, 4, p⟩ :: rest) : exec (.connect a w) s = finish s := by
  rw [exec_connect, execConnect]
  exact asCommand_line hq (Nat.succ_ne_zero 3) _ _

theorem exec_connect_sends {l : Nat} (hl : l = 2 ∨ l = 3) (hq : s.seq = ⟨c, l, p⟩ :: rest) :
    exec (.connect a w) s = callAt 3 0 (.writeByte (header a w)) s := by
  rw [exec_connect, execConnect]
  obtain rfl | rfl := hl <;> exact asCommand_line hq (Nat.succ_ne_zero _) _ _

theorem connectNotStarted_called {r : Instr} {l : Nat} (hq : s.seq = ⟨some r, l, p⟩ :: rest) :
    connectNotStarted s = finish { s with res := false } := by
  unfold connectNotStarted
  rw [hq]

end Connect

/-- Settles O33: dispatch and step 1 are said above, every other line is one shared operation. -/
theorem connectListing : Obligations.ConnectListing := by
  intro a w s c p rest hdr ha hw
  obtain rfl := eq_header ha hw
  refine ⟨fun hq hv => ?_, fun hq hv hs => ?_, fun hq hs => ?_, fun hq hs => ?_, fun r caller below hq hs => ?_, fun hq => ?_,
    fun hq => ?_⟩
  · have hcheck : connectCheck s = some .stateErr := by simp [connectCheck, hv]
    exact refused_of_exec (by rw [exec_connect, execConnect, hcheck]) hq (by decide)
  · have hcheck : connectCheck s = some .notStarted := by simp [connectCheck, hv, hs]
    exact refused_of_exec (by rw [exec_connect, execConnect, hcheck]) hq (by decide)
  · obtain ⟨l, hl⟩ : ∃ l, s.seq = ⟨c, l, p⟩ :: rest := by
      obtain ⟨hq, -⟩ | hq := hq <;> exact ⟨_, hq⟩
    exact calls_of_exec (exec_connect_started hs hq) hl (.refl s)
  · refine ⟨_, (exec_connect_notStarted hs hq).trans ?_, did_refused (c := .notStarted) (by decide) s⟩
    rw [connectNotStarted, hq, raise]
  · obtain ⟨t, ht, hdid⟩ := did_return (s := { s with res := false }) hq
    refine ⟨t, (exec_connect_notStarted hs hq).trans ?_, hdid.after rfl rfl rfl rfl⟩
    exact (connectNotStarted_called hq).trans ht
  · obtain hq | hq := hq
    · exact calls_of_exec (exec_connect_sends (.inl rfl) hq) hq (.refl s)
    · exact calls_of_exec (exec_connect_sends (.inr rfl) hq) hq (.refl s)
  · exact ends_of_exec (exec_connect_returns hq) hq (.refl s)

end Sys2Proof.Machine
end

section
/-! PROOFS. Runs: how a run goes on from where another one came to, and the bit cells, the byte frames and the conditions as runs. -/

namespace Sys2Proof.Machine

/-! ### Runs compose

A run says where it came to up to the peer and the history. What follows is said for every peer and history (`Env`) that may stand there:
what the controller holds is then a state written out, and only the peer's drive is a hypothesis. -/

/-- The peer and the history of a state. -/
structure Env where
  scl : Bool
  sda : Bool
  script : List (Bool × Bool)
  time : Nat
  rest : Nat
  trace : List Event

/-- The state `u` with the peer and the history `e`. -/
def State.under (u : State) (e : Env) : State :=
  { u with peerScl := e.scl, peerSda := e.sda, peerScript := e.script, peerTime := e.time, restTime := e.rest, trace := e.trace }

theorem exists_under {t u : State} (h : ctrl t = ctrl u) : ∃ e : Env, t = u.under e := by
  refine ⟨⟨t.peerScl, t.peerSda, t.peerScript, t.peerTime, t.restTime, t.trace⟩, ?_⟩
  cases t
  cases u
  simp only [ctrl, State.mk.injEq, State.under] at h ⊢
  tauto

section Runs
variable {s u v w : State} {a b : List MicroOp}

/-- The same run, its end described by another state that agrees with it up to the peer and the history. -/
theorem Runs.to (h : Runs s a u) (hv : ctrl u = ctrl v) : Runs s a v := by
  obtain ⟨k, t, hk, hdid⟩ := h
  exact ⟨k, t, hk, hdid.congr hv⟩

theorem Runs.refl (s : State) : Runs s [] s := ⟨0, s, rfl, .refl s⟩

/-- Where a run came to: some peer and history, and every run from there goes on from it. -/
theorem Runs.goesOn (h : Runs s a u) : ∃ e : Env, (∀ j, driveAt (u.under e) j = driveAt s (a.length + j)) ∧
    ∀ b w, Runs (u.under e) b w → Runs s (a ++ b) w := by
  obtain ⟨m, t, hm, hdid⟩ := h
  obtain ⟨e, rfl⟩ := exists_under hdid.state
  refine ⟨e, hdid.driveAt, fun b w hrun => ?_⟩
  obtain ⟨n, t', hn, hdid'⟩ := hrun
  exact ⟨m + n, t', (runSteps_add hm n).trans hn, hdid.trans hdid'⟩

/-- A run, and then another one from where it came to. -/
theorem Runs.bind (h : Runs s a u)
    (k : ∀ e, (∀ j, driveAt (u.under e) j = driveAt s (a.length + j)) → Runs (u.under e) b w) : Runs s (a ++ b) w := by
  obtain ⟨e, he, hgo⟩ := h.goesOn
  exact hgo b w (k e he)

/-- A call or a return, and then a run. -/
theorem Runs.silently (h : Runs s [] u) (k : ∀ e, (∀ j, driveAt (u.under e) j = driveAt s j) → Runs (u.under e) b w) :
    Runs s b w :=
  Runs.bind h fun e he => k e fun j => (he j).trans (by rw [List.length_nil, Nat.zero_add])

/-- A run, and then a call, a return or a response. -/
theorem Runs.ending (h : Runs s a u) (k : ∀ e, Runs (u.under e) [] w) : Runs s a w := by
  simpa using Runs.bind h fun e _ => k e

end Runs

/-! ### Where a routine is -/

/-- The controller runs the routine `i` at the line `l` (loop line `p`) of its listing. -/
structure On (i : Instr) (c : Option Instr) (l p : Nat) (rest : List Frame) (s : State) : Prop where
  running : s.rstIn = false
  busy : s.busy = true
  seq : s.seq = ⟨c, l, p⟩ :: rest
  routine : fetch s = some i

section On
variable {i : Instr} {c : Option Instr} {l p : Nat} {rest : List Frame} {s u : State} {ops : List MicroOp}

theorem On.runs (h : On i c l p rest s) (ha : Answers i s ops u) : Runs s ops u := by
  obtain ⟨t, ht, hdid⟩ := ha
  exact ⟨1, t, by rw [runSteps_next ((step_busy h.running h.busy h.routine).trans ht), runSteps_zero], hdid⟩

/-- A called routine stands in its frame (R133). -/
theorem On.called (hr : s.rstIn = false) (hb : s.busy = true) (hq : s.seq = ⟨some i, l, p⟩ :: rest) : On i (some i) l p rest s :=
  ⟨hr, hb, hq, by simp [fetch, hq, frameInstr]⟩

/-- A command past dispatch stands in the latches (R130). -/
theorem On.command (hr : s.rstIn = false) (hb : s.busy = true) (hq : s.seq = ⟨none, l + 1, p⟩ :: rest)
    (hi : latchedCommand s = some i) : On i none (l + 1) p rest s :=
  ⟨hr, hb, hq, by simp [fetch, hq, frameInstr, hi]⟩

theorem Called.on {caller : Frame} {below : List Frame} (h : Called i caller below s) :
    On i (some i) 1 0 (caller :: below) s := .called h.running h.busy h.seq

theorem Accepted.on (h : Accepted i s) : On i none 0 0 [] s :=
  ⟨h.running, h.busy, h.seq, by simp [fetch, h.seq, frameInstr, dispatchedCommand, h.word]⟩

theorem Accepted.latched (h : Accepted i s) : latchedCommand s = some i :=
  latchedCommand_of_decode (by simp [latchesOk, h.opc, h.addr, h.w, h.reg, h.len]) h.word

/-- A line that is one `LineWrite`. -/
theorem answers_lineWrite {L : Line} {b : Bool} {line : Nat} (h : exec i s = .next (goto line (lineWrite L b s)))
    (hq : s.seq = ⟨c, l, p⟩ :: rest) : Answers i s [.lineWrite L b] { setLatch L b s with seq := ⟨c, line, 0⟩ :: rest } :=
  ⟨_, h, did_lineWrite_goto hq L b line⟩

/-- A line that is one `Delay(HALF)`. -/
theorem answers_delay {line : Nat} (h : exec i s = .next (goto line (delay s))) (hq : s.seq = ⟨c, l, p⟩ :: rest) :
    Answers i s [.delay s.half] { s with seq := ⟨c, line, 0⟩ :: rest } :=
  ⟨_, h, did_delay_goto hq line⟩

/-- A line that is one `LineRead(SDA)`. -/
theorem answers_lineRead_sda {b : Bool} {line : Nat} (hb : b = (s.sdaO && (driveAt s 0).2))
    (h : exec i s = .next (goto line (lineRead .sda s))) (hq : s.seq = ⟨c, l, p⟩ :: rest) :
    Answers i s [.lineRead .sda b] { s with res := b, seq := ⟨c, line, 0⟩ :: rest } := by
  rw [hb, ← level_sda_peerMove]
  exact ⟨_, h, did_lineRead_goto hq .sda line⟩

/-- A line that returns to its caller, its register work having made `u` of `s` (R133). -/
theorem On.returns {r : Instr} {caller : Frame} {below : List Frame} (h : On i (some r) l p (caller :: below) s)
    (hx : exec i s = finish u) (hq : u.seq = s.seq) (hw : Did s [] u u) : Runs s [] { u with seq := caller.advance :: below } :=
  h.runs ((ends_of_exec hx (hq.trans h.seq) hw).2.1 r caller below rfl rfl)

end On

/-! ### The clock -/

section Clock
variable {s t : State} {m n k : Nat}

/-- What is left of an unstretched clock after `m` micro-operations. -/
theorem noStretch_later (h : noStretch s n) (hcap : t.halcap = s.halcap) (ht : ∀ j, driveAt t j = driveAt s (m + j))
    (hle : m + k ≤ n) : noStretch t k := fun hrd j hj => by
  rw [ht]
  exact h (hcap ▸ hrd) _ (by omega)

theorem noStretch_mono (h : noStretch s n) (hle : k ≤ n) : noStretch s k := fun hrd j hj => h hrd j (by omega)

theorem noStretch_same (h : noStretch s n) (hcap : t.halcap = s.halcap) (ht : ∀ j, driveAt t j = driveAt s j) : noStretch t n :=
  fun hrd j hj => by
    rw [ht]
    exact h (hcap ▸ hrd) j hj

theorem holdsClock_of_noStretch (h : noStretch s n) (hk : k < n) : holdsClock s k 0 :=
  fun hrd => ⟨fun _ hj => absurd hj (Nat.not_lt_zero _), h hrd k hk⟩

theorem holdsClock_later (h : holdsClock s m n) (hcap : t.halcap = s.halcap) (ht : ∀ j, driveAt t j = driveAt s (m + j)) :
    holdsClock t 0 n := fun hrd => by
  obtain ⟨low, high⟩ := h (hcap ▸ hrd)
  exact ⟨fun j hj => by rw [ht, Nat.zero_add]; exact low j hj, by rw [ht, Nat.zero_add]; exact high⟩

/-- After one poll that read low. -/
theorem holdsClock_polled (h : holdsClock s 0 (m + 1)) (hcap : t.halcap = s.halcap) (ht : ∀ j, driveAt t j = driveAt s (1 + j)) :
    holdsClock t 0 m := fun hrd => by
  obtain ⟨low, high⟩ := h (hcap ▸ hrd)
  exact ⟨fun j hj => by simpa [ht, Nat.add_comm 1] using low (j + 1) (by omega), by simpa [ht, Nat.add_comm 1] using high⟩

end Clock

/-- Past dispatch a routine stays the same from line to line (R132). -/
theorem On.move {i : Instr} {c : Option Instr} {l p l' p' : Nat} {rest : List Frame} {s t : State} (h : On i c (l + 1) p rest s)
    (hq : t.seq = ⟨c, l' + 1, p'⟩ :: rest) (hr : t.rstIn = s.rstIn) (hb : t.busy = s.busy) (hv : latchView t = latchView s) :
    On i c (l' + 1) p' rest t := by
  refine ⟨hr.trans h.running, hb.trans h.busy, hq, ?_⟩
  have hroutine := h.routine
  cases c with
  | some r => simpa [fetch, h.seq, hq, frameInstr] using hroutine
  | none => simpa [fetch, h.seq, hq, frameInstr, latchedCommand_congr hv] using hroutine

/-- A `Stretch()` line and the `Delay(HALF)` after it, the latch of the clock being released and the peer holding the clock low for `m`
polls (R92). -/
theorem runs_stretch {i : Instr} {c : Option Instr} {l next : Nat} {rest : List Frame} {m : Nat} {s : State}
    (hpoll : ∀ t : State, t.seq = ⟨c, l + 1, 0⟩ :: rest → exec i t = stretch (l + 2) (fun x => .next (goto next (delay x))) t)
    (hdelay : ∀ t : State, t.seq = ⟨c, l + 2, 0⟩ :: rest → exec i t = .next (goto next (delay t)))
    (h : On i c (l + 1) 0 rest s) (hscl : s.sclO = true) (hc : holdsClock s 0 m) :
    Runs s (pollsOf (halRdScl s.halcap) m ++ [.delay s.half]) { s with res := polledRes s, seq := ⟨c, next, 0⟩ :: rest } := by
  cases hrd : halRdScl s.halcap with
  | false =>
    have hx := (hpoll s h.seq).trans (stretch_skip hrd _ _)
    refine (h.runs (answers_delay hx h.seq)).to ?_
    rw [polledRes, hrd, Bool.false_or]
  | true =>
    have hres : polledRes s = true := by rw [polledRes, hrd, Bool.true_or]
    rw [hres]
    induction m generalizing s with
    | zero =>
      have hlevel : level .scl (peerMove s) = true := by
        rw [level_scl_peerMove, hscl, (hc hrd).2, Bool.true_and]
      have hread := did_lineRead_goto h.seq .scl (l + 2)
      rw [hlevel] at hread
      refine Runs.bind (h.runs ⟨_, (hpoll s h.seq).trans (stretch_high hrd hlevel _ _), hread⟩) fun e _ => ?_
      have hon := h.move (t := ({ s with res := true, seq := ⟨c, l + 2, 0⟩ :: rest } : State).under e) rfl rfl rfl rfl
      exact (hon.runs (answers_delay (hdelay _ rfl) rfl)).to rfl
    | succ m ih =>
      have hlow : (driveAt s 0).1 = false := (hc hrd).1 0 (Nat.succ_pos m)
      have hlevel : level .scl (peerMove s) = false := by rw [level_scl_peerMove, hlow, Bool.and_false]
      have hread := did_lineRead .scl s
      rw [hlevel] at hread
      change Runs s ([MicroOp.lineRead .scl false] ++ (pollsOf true m ++ [MicroOp.delay s.half])) _
      refine Runs.bind (h.runs ⟨_, (hpoll s h.seq).trans (stretch_low hrd hlevel _ _), hread⟩) fun e he => ?_
      have hon := h.move (t := ({ s with res := false } : State).under e) h.seq rfl rfl rfl
      have hres' : polledRes (({ s with res := false } : State).under e) = true := by
        rw [polledRes]
        exact Bool.or_eq_true_iff.2 (.inl hrd)
      exact (ih hon hscl (holdsClock_polled hc rfl he) hrd hres').to rfl

/-! ### Lines in a row that write a line or wait -/

/-- A line of a listing that is one `LineWrite` or one `Delay(HALF)`. -/
inductive Plain where
  | write (L : Line) (b : Bool)
  | delay

def Plain.run : Plain → State → State
  | .write L b => lineWrite L b
  | .delay => Machine.delay

def Plain.op (half : BitVec 19) : Plain → MicroOp
  | .write L b => .lineWrite L b
  | .delay => .delay half

/-- The latches `SCL_O` and `SDA_O` after it. -/
def Plain.latch : Plain → Bool × Bool → Bool × Bool
  | .write .scl b, q => (b, q.2)
  | .write .sda b, q => (q.1, b)
  | .delay, q => q

/-- The lines of `i` from `l` on are `xs`. -/
def Straight (i : Instr) (c : Option Instr) (rest : List Frame) : Nat → List Plain → Prop
  | _, [] => True
  | l, x :: xs =>
    (∀ t : State, t.seq = ⟨c, l, 0⟩ :: rest → exec i t = .next (goto (l + 1) (x.run t))) ∧ Straight i c rest (l + 1) xs

/-- `SCL_O` and `SDA_O` after the lines `xs` from `s` on. -/
def latches (xs : List Plain) (s : State) : Bool × Bool := xs.foldl (fun q x => x.latch q) (s.sclO, s.sdaO)

theorem runs_straight {i : Instr} {c : Option Instr} {rest : List Frame} {l : Nat} {s : State} (xs : List Plain)
    (hx : Straight i c rest (l + 1) xs) (h : On i c (l + 1) 0 rest s) :
    Runs s (xs.map (·.op s.half))
      { s with sclO := (latches xs s).1, sdaO := (latches xs s).2, seq := ⟨c, xs.length + (l + 1), 0⟩ :: rest } := by
  induction xs generalizing l s with
  | nil => exact (Runs.refl s).to (by rw [latches, List.length_nil, Nat.zero_add, ← h.seq]; rfl)
  | cons x xs ih =>
    obtain ⟨hline, hlines⟩ := hx
    have hfirst : Answers i s [x.op s.half] { s with
        sclO := (x.latch (s.sclO, s.sdaO)).1, sdaO := (x.latch (s.sclO, s.sdaO)).2, seq := ⟨c, l + 2, 0⟩ :: rest } := by
      match x with
      | .write .scl b => exact answers_lineWrite (hline s h.seq) h.seq
      | .write .sda b => exact answers_lineWrite (hline s h.seq) h.seq
      | .delay => exact answers_delay (hline s h.seq) h.seq
    refine Runs.bind (h.runs hfirst) fun e _ => Runs.to (ih hlines (h.move rfl rfl rfl rfl)) ?_
    have hlen : (x :: xs).length + (l + 1) = xs.length + (l + 1 + 1) := by
      rw [List.length_cons]
      omega
    rw [hlen]
    rfl

/-- A line of a routine that is only ever called. -/
theorem exec_callee_line {i : Instr} {body : State → Nat → Nat → Out} (hi : ∀ s, exec i s = withPos s (body s)) {s : State}
    {c : Option Instr} {l p : Nat} {rest : List Frame} (hq : s.seq = ⟨c, l, p⟩ :: rest) : exec i s = body s l p := by
  rw [hi, withPos_cons hq]

/-- The polls and the delay after them belong to the run up to the high clock. -/
theorem append_append_cons {α : Type} (a p b : List α) (x : α) : a ++ p ++ x :: b = a ++ (p ++ [x]) ++ b := by simp

/-- The lines `xs` from the first on, of which the last one releases the clock, then the `Stretch()` line and the `Delay(HALF)` after it
(R92): common to the bit cells, `STOP` and `RESTART`. -/
theorem runs_clockHigh {i : Instr} {c : Option Instr} {next m : Nat} {rest : List Frame} {s : State} (xs : List Plain)
    (hx : Straight i c rest 1 xs) (hscl : (latches xs s).1 = true)
    (hpoll : ∀ t : State, t.seq = ⟨c, xs.length + 1, 0⟩ :: rest →
      exec i t = stretch (xs.length + 2) (fun x => .next (goto next (delay x))) t)
    (hdelay : ∀ t : State, t.seq = ⟨c, xs.length + 2, 0⟩ :: rest → exec i t = .next (goto next (delay t)))
    (h : On i c 1 0 rest s) (hc : holdsClock s xs.length m) :
    Runs s (xs.map (·.op s.half) ++ (pollsOf (halRdScl s.halcap) m ++ [.delay s.half]))
      { s with sclO := true, sdaO := (latches xs s).2, res := polledRes s, seq := ⟨c, next, 0⟩ :: rest } := by
  refine Runs.bind (runs_straight xs hx h) fun e he => ?_
  rw [List.length_map] at he
  exact Runs.to (runs_stretch hpoll hdelay (h.move rfl rfl rfl rfl) hscl (holdsClock_later hc rfl he)) (by rw [← hscl]; rfl)

/-! ### Bit cells -/

theorem exec_writeBit (v : Bool) (s : State) : exec (.writeBit v) s = execWriteBit v s := rfl

theorem exec_readBit (s : State) : exec .readBit s = execReadBit s := rfl

section Cells
variable {s : State} {caller : Frame} {below : List Frame} {m : Nat}

/-- A called `WRITE_BIT(v)` whose clock the peer holds low for `m` polls (R90, R92). -/
theorem runs_writeBit {v : Bool} (h : Called (.writeBit v) caller below s) (hc : holdsClock s 4 m) :
    Runs s (writeBitOps s.half (pollsOf (halRdScl s.halcap) m) v)
      { s with sclO := true, sdaO := v, res := polledRes s, seq := caller.advance :: below } := by
  have hi := exec_writeBit v
  have lines : Straight (.writeBit v) (some (.writeBit v)) (caller :: below) 1
      [.write .scl false, .delay, .write .sda v, .write .scl true] :=
    ⟨fun _ hq => exec_callee_line hi hq, fun _ hq => exec_callee_line hi hq, fun _ hq => exec_callee_line hi hq,
      fun _ hq => exec_callee_line hi hq, trivial⟩
  rw [writeBitOps, List.append_assoc]
  refine Runs.ending (runs_clockHigh (next := 7) _ lines rfl (fun _ hq => exec_callee_line hi hq) (fun _ hq => exec_callee_line hi hq)
    h.on hc) fun e => ?_
  exact Runs.to (On.returns (h.on.move rfl rfl rfl rfl) (exec_callee_line hi (l := 7) rfl) rfl (.refl _)) rfl

/-- A called `READ_BIT()`; it returns what the peer makes of `SDA` at its last micro-operation (R91, R92). -/
theorem runs_readBit {b : Bool} (h : Called .readBit caller below s) (hc : holdsClock s 4 m)
    (hb : b = (driveAt s ((readBitOps s.half (pollsOf (halRdScl s.halcap) m) b).length - 1)).2) :
    Runs s (readBitOps s.half (pollsOf (halRdScl s.halcap) m) b)
      { s with sclO := true, sdaO := true, res := b, seq := caller.advance :: below } := by
  have hi := exec_readBit
  have lines : Straight .readBit (some .readBit) (caller :: below) 1
      [.write .scl false, .write .sda true, .delay, .write .scl true] :=
    ⟨fun _ hq => exec_callee_line hi hq, fun _ hq => exec_callee_line hi hq, fun _ hq => exec_callee_line hi hq,
      fun _ hq => exec_callee_line hi hq, trivial⟩
  rw [readBitOps, append_append_cons] at hb ⊢
  rw [List.length_append, List.length_singleton, Nat.add_sub_cancel] at hb
  refine Runs.bind (runs_clockHigh (next := 7) _ lines rfl (fun _ hq => exec_callee_line hi hq) (fun _ hq => exec_callee_line hi hq)
    h.on hc) fun e he => ?_
  have hsample := hb.trans (congrArg Prod.snd (he 0).symm)
  refine Runs.ending (On.runs (h.on.move rfl rfl rfl rfl)
    (answers_lineRead_sda hsample (exec_callee_line hi (l := 7) rfl) rfl)) fun e' => ?_
  exact Runs.to (On.returns (h.on.move rfl rfl rfl rfl) (exec_callee_line hi (l := 8) rfl) rfl (.refl _)) rfl

end Cells

/-! ### Conditions -/

theorem exec_start (s : State) : exec .start s = execStart s := rfl

theorem exec_stop (s : State) : exec .stop s = execStop s := rfl

theorem exec_restart (s : State) : exec .restart s = execRestart s := rfl

section Conditions
variable {s : State} {caller : Frame} {below : List Frame} {m : Nat}

/-- A called `START` (R110). -/
theorem runs_start (h : Called .start caller below s) :
    Runs s (startOps s.half) { s with sdaO := false, started := true, seq := caller.advance :: below } := by
  have hi := exec_start
  have lines : Straight .start (some .start) (caller :: below) 1 [.write .sda true, .delay, .write .sda false, .delay] :=
    ⟨fun _ hq => exec_at_line hi hq, fun _ hq => exec_at_line hi hq, fun _ hq => exec_at_line hi hq, fun _ hq => exec_at_line hi hq,
      trivial⟩
  refine Runs.ending (runs_straight _ lines h.on) fun e => ?_
  exact Runs.to (On.returns (h.on.move rfl rfl rfl rfl) (exec_at_line hi (l := 4) rfl) rfl (.silent rfl rfl rfl rfl)) rfl

/-- A called `STOP` whose clock the peer holds low for `m` polls (R111, R92). -/
theorem runs_stop (h : Called .stop caller below s) (hc : holdsClock s 5 m) :
    Runs s (stopOps s.half (pollsOf (halRdScl s.halcap) m))
      { s with sclO := true, sdaO := true, started := false, res := polledRes s, seq := caller.advance :: below } := by
  have hi := exec_stop
  have down : Straight .stop (some .stop) (caller :: below) 1
      [.write .scl false, .delay, .write .sda false, .delay, .write .scl true] :=
    ⟨fun _ hq => exec_at_line hi hq, fun _ hq => exec_at_line hi hq, fun _ hq => exec_at_line hi hq, fun _ hq => exec_at_line hi hq,
      fun _ hq => exec_at_line hi hq, trivial⟩
  have rise : Straight .stop (some .stop) (caller :: below) 8 [.write .sda true, .delay] :=
    ⟨fun _ hq => exec_at_line hi hq, fun _ hq => exec_at_line hi hq, trivial⟩
  rw [stopOps, append_append_cons]
  refine Runs.bind (runs_clockHigh (next := 8) _ down rfl (fun _ hq => exec_at_line hi hq) (fun _ hq => exec_at_line hi hq) h.on hc)
    fun e _ => ?_
  refine Runs.ending (runs_straight _ rise (h.on.move rfl rfl rfl rfl)) fun e' => ?_
  exact Runs.to (On.returns (h.on.move rfl rfl rfl rfl) (exec_at_line hi (l := 9) rfl) rfl (.silent rfl rfl rfl rfl)) rfl

/-- A called `RESTART` whose clock the peer holds low for `m` polls (R112, R92). -/
theorem runs_restart (h : Called .restart caller below s) (hc : holdsClock s 5 m) :
    Runs s (restartOps s.half (pollsOf (halRdScl s.halcap) m))
      { s with sclO := true, sdaO := false, started := true, res := polledRes s, seq := caller.advance :: below } := by
  have hi := exec_restart
  have down : Straight .restart (some .restart) (caller :: below) 1
      [.write .scl false, .delay, .write .sda true, .delay, .write .scl true] :=
    ⟨fun _ hq => exec_callee_line hi hq, fun _ hq => exec_callee_line hi hq, fun _ hq => exec_callee_line hi hq,
      fun _ hq => exec_callee_line hi hq, fun _ hq => exec_callee_line hi hq, trivial⟩
  have fall : Straight .restart (some .restart) (caller :: below) 8 [.write .sda false, .delay] :=
    ⟨fun _ hq => exec_callee_line hi hq, fun _ hq => exec_callee_line hi hq, trivial⟩
  rw [restartOps, append_append_cons]
  refine Runs.bind (runs_clockHigh (next := 8) _ down rfl (fun _ hq => exec_callee_line hi hq) (fun _ hq => exec_callee_line hi hq) h.on hc)
    fun e _ => ?_
  refine Runs.ending (runs_straight _ fall (h.on.move rfl rfl rfl rfl)) fun e' => ?_
  exact Runs.to (On.returns (h.on.move rfl rfl rfl rfl) (exec_callee_line hi (l := 10) rfl) rfl (.silent rfl rfl rfl rfl)) rfl

end Conditions

end Sys2Proof.Machine
end

section
/-! PROOFS. The byte frames of `WRITE_BYTE` and `READ_BYTE`, bit by bit from the most significant one, and the header of `CONNECT`. -/

namespace Sys2Proof.Machine

/-! ### Bit cells of an unstretched clock -/

/-- The number of micro-operations of one `WRITE_BIT`. -/
def writeBitLen (rd : Bool) : Nat := if rd then 6 else 5

theorem pollsOf_zero (rd : Bool) : pollsOf rd 0 = pollOps rd := rfl

@[simp] theorem length_writeBitOps (half : BitVec 19) (rd v : Bool) :
    (writeBitOps half (pollOps rd) v).length = writeBitLen rd := by
  cases rd <;> rfl

@[simp] theorem length_readBitOps (half : BitVec 19) (rd b : Bool) : (readBitOps half (pollOps rd) b).length = readBitLen rd := by
  cases rd <;> rfl

theorem writeByteLen_eq (rd : Bool) : writeByteLen rd = 8 * writeBitLen rd + readBitLen rd := by cases rd <;> rfl

theorem readByteLen_eq (rd : Bool) : readByteLen rd = 8 * readBitLen rd + writeBitLen rd + 1 := by cases rd <;> rfl

theorem four_lt_writeBitLen (rd : Bool) : 4 < writeBitLen rd := by cases rd <;> decide

theorem four_lt_readBitLen (rd : Bool) : 4 < readBitLen rd := by cases rd <;> decide

section Cells
variable {s : State} {caller : Frame} {below : List Frame} {n : Nat}

theorem runs_writeBit_free {v : Bool} (h : Called (.writeBit v) caller below s) (hn : noStretch s n)
    (hle : writeBitLen (halRdScl s.halcap) ≤ n) :
    Runs s (writeBitOps s.half (pollOps (halRdScl s.halcap)) v)
      { s with sclO := true, sdaO := v, res := polledRes s, seq := caller.advance :: below } :=
  runs_writeBit h (holdsClock_of_noStretch hn (Nat.lt_of_lt_of_le (four_lt_writeBitLen _) hle))

theorem runs_readBit_free {b : Bool} (h : Called .readBit caller below s) (hn : noStretch s n)
    (hle : readBitLen (halRdScl s.halcap) ≤ n) (hb : b = (driveAt s (readBitLen (halRdScl s.halcap) - 1)).2) :
    Runs s (readBitOps s.half (pollOps (halRdScl s.halcap)) b)
      { s with sclO := true, sdaO := true, res := b, seq := caller.advance :: below } :=
  runs_readBit h (holdsClock_of_noStretch hn (Nat.lt_of_lt_of_le (four_lt_readBitLen _) hle))
    (by rw [pollsOf_zero, length_readBitOps, ← hb])

end Cells

/-! ### Bits of a byte in wire order -/

/-- Bit `k` of a byte and the bits below it, most significant first. -/
def bitsDown (d : Byte) : Nat → List Bool
  | 0 => [d.getLsbD 0]
  | k + 1 => d.getLsbD (k + 1) :: bitsDown d k

theorem wireBits_eq (d : Byte) : wireBits d = bitsDown d 7 := rfl

theorem toNat_pred {k : Nat} {b : BitVec 3} (h : b.toNat = k + 1) : (b - 1).toNat = k := by
  have := b.isLt
  simp [BitVec.toNat_sub, h]
  omega

/-! ### `WRITE_BYTE` -/

theorem exec_writeByte (d : Byte) (s : State) : exec (.writeByte d) s = execWriteByte d s := rfl

section WriteByte
variable {d : Byte} {a : Bool} {s : State} {caller : Frame} {below : List Frame}

/-- The ninth bit of `WRITE_BYTE` and its return (R100 steps 4 and 5). -/
theorem runs_acknowledge (h : Called .readBit ⟨some (.writeByte d), 4, 0⟩ (caller :: below) s)
    (hn : noStretch s (readBitLen (halRdScl s.halcap))) (ha : a = (driveAt s (readBitLen (halRdScl s.halcap) - 1)).2) :
    Runs s (readBitOps s.half (pollOps (halRdScl s.halcap)) a)
      { s with sclO := true, sdaO := true, ackl := !a, res := !a, seq := caller.advance :: below } := by
  refine Runs.ending (runs_readBit_free h hn (Nat.le_refl _) ha) fun e => ?_
  exact Runs.to (On.returns (On.called h.running h.busy rfl) (exec_callee_line (exec_writeByte d) (l := 5) rfl) rfl
    (.silent rfl rfl rfl rfl)) rfl

/-- `WRITE_BYTE(d)` from the cell of bit `k` on (R100 steps 2 to 5). -/
theorem runs_sendBits {k : Nat} (h : Called (.writeBit (d.getLsbD k)) ⟨some (.writeByte d), 2, 0⟩ (caller :: below) s)
    (hd : s.shreg = d) (hk : s.bitk.toNat = k)
    (hn : noStretch s ((k + 1) * writeBitLen (halRdScl s.halcap) + readBitLen (halRdScl s.halcap)))
    (ha : a = (driveAt s ((k + 1) * writeBitLen (halRdScl s.halcap) + (readBitLen (halRdScl s.halcap) - 1))).2) :
    Runs s
      ((bitsDown d k).flatMap (writeBitOps s.half (pollOps (halRdScl s.halcap))) ++ readBitOps s.half (pollOps (halRdScl s.halcap)) a)
      { s with sclO := true, sdaO := true, bitk := 0, ackl := !a, res := !a, seq := caller.advance :: below } := by
  have hi := exec_writeByte d
  induction k generalizing s with
  | zero =>
    have hzero : s.bitk = 0 := BitVec.eq_of_toNat_eq hk
    rw [Nat.zero_add, Nat.one_mul] at hn ha
    rw [bitsDown, List.flatMap_singleton]
    refine Runs.bind (runs_writeBit_free h hn (Nat.le_add_right _ _)) fun e he => ?_
    rw [length_writeBitOps] at he
    refine Runs.silently (On.runs (On.called h.running h.busy rfl)
      (calls_of_exec ((exec_callee_line hi (l := 3) rfl).trans (if_pos hzero)) rfl (.refl _))) fun e' he' => ?_
    have drive (j : Nat) := (he' j).trans (he j)
    refine Runs.to (runs_acknowledge ⟨h.running, h.busy, rfl⟩ (noStretch_later hn rfl drive (Nat.le_refl _))
      (ha.trans (congrArg Prod.snd (drive _).symm))) ?_
    rw [← hzero]
    rfl
  | succ k ih =>
    have hnext : (s.bitk - 1).toNat = k := toNat_pred hk
    have hne : s.bitk ≠ 0 := fun hz => by simp [hz] at hk
    have hlen := Nat.succ_mul (k + 1) (writeBitLen (halRdScl s.halcap))
    rw [hlen, Nat.add_comm _ (writeBitLen _), Nat.add_assoc] at hn ha
    rw [bitsDown, List.flatMap_cons, List.append_assoc]
    refine Runs.bind (runs_writeBit_free h hn (Nat.le_add_right _ _)) fun e he => ?_
    rw [length_writeBitOps] at he
    refine Runs.silently (On.runs (On.called h.running h.busy rfl)
      (calls_of_exec ((exec_callee_line hi (l := 3) rfl).trans (if_neg hne)) rfl (.silent rfl rfl rfl rfl))) fun e' he' => ?_
    have drive (j : Nat) := (he' j).trans (he j)
    have hbit : byteBit s.shreg (s.bitk - 1) = d.getLsbD k := by rw [byteBit, hnext, hd]
    refine Runs.to (ih ⟨h.running, h.busy, ?_⟩ hd hnext (noStretch_later hn rfl drive (Nat.le_refl _))
      (ha.trans (congrArg Prod.snd (drive _).symm))) rfl
    rw [← hbit]
    rfl

/-- A called `WRITE_BYTE(d)`, the clock not being stretched (R100). -/
theorem runs_writeByte (h : Called (.writeByte d) caller below s) (hn : noStretch s (writeByteLen (halRdScl s.halcap)))
    (ha : a = (driveAt s (writeByteLen (halRdScl s.halcap) - 1)).2) :
    Runs s (writeByteOps s.half (halRdScl s.halcap) d a)
      { s with sclO := true, sdaO := true, shreg := d, bitk := 0, ackl := !a, res := !a, seq := caller.advance :: below } := by
  have hpos := four_lt_readBitLen (halRdScl s.halcap)
  rw [writeByteLen_eq] at hn ha
  rw [Nat.add_sub_assoc (by omega)] at ha
  refine Runs.silently (On.runs h.on
    (calls_of_exec (exec_callee_line (exec_writeByte d) h.seq) (u := { s with shreg := d, bitk := 7 }) h.seq
      (.silent rfl rfl rfl rfl))) fun e he => ?_
  exact Runs.to (runs_sendBits (k := 7) ⟨h.running, h.busy, rfl⟩ rfl rfl
    (noStretch_same hn rfl he)
    (ha.trans (congrArg Prod.snd (he _).symm))) rfl

end WriteByte

/-- Settles O27: the called `WRITE_BYTE` is `runs_writeByte`. -/
theorem writeByteFrame : Obligations.WriteByteFrame := fun _ _ _ _ _ h hn ha => runs_writeByte h hn ha

/-! ### `READ_BYTE` -/

theorem exec_readByte (final : Bool) (s : State) : exec (.readByte final) s = execReadByte final s := rfl

section ReadByte
variable {final r : Bool} {v : Byte} {s : State} {caller : Frame} {below : List Frame}

/-- The ninth bit of `READ_BYTE`, its read-back and its return (R101 steps 4 to 6). -/
theorem runs_readBack (h : Called (.writeBit final) ⟨some (.readByte final), 4, 0⟩ (caller :: below) s)
    (hn : noStretch s (writeBitLen (halRdScl s.halcap)))
    (hr : r = (final && (driveAt s (writeBitLen (halRdScl s.halcap))).2)) :
    Runs s (writeBitOps s.half (pollOps (halRdScl s.halcap)) final ++ [.lineRead .sda r])
      { s with sclO := true, sdaO := final, flt := r != final, res := r, seq := caller.advance :: below } := by
  have hi := exec_readByte final
  refine Runs.bind (runs_writeBit_free h hn (Nat.le_refl _)) fun e he => ?_
  rw [length_writeBitOps] at he
  have hback := hr.trans (congrArg (final && ·.2) (he 0).symm)
  refine Runs.ending (On.runs (On.called h.running h.busy rfl)
    (answers_lineRead_sda hback (exec_callee_line hi (l := 5) rfl) rfl)) fun e' => ?_
  exact Runs.to (On.returns (On.called h.running h.busy rfl) (exec_callee_line hi (l := 6) rfl) rfl (.silent rfl rfl rfl rfl)) rfl

/-- The sample of bit `k` put above the bits received before it (R101 step 2). -/
theorem getLsbD_received {k : Nat} {b : BitVec 3} {d : Byte} (hk : b.toNat = k) (hup : ∀ j, k < j → d.getLsbD j = v.getLsbD j) (j : Nat)
    (hj : k ≤ j) : (setByteBit d b (v.getLsbD k)).getLsbD j = v.getLsbD j := by
  rw [getLsbD_setByteBit, hk]
  split
  next he => rw [he]
  next hne => exact hup j (by omega)

/-- `READ_BYTE(final)` from the cell of bit `k` on, the bits above it being in `SHREG` already (R101 steps 2 to 6). -/
theorem runs_receiveBits {k : Nat} (h : Called .readBit ⟨some (.readByte final), 2, 0⟩ (caller :: below) s)
    (hk : s.bitk.toNat = k) (hup : ∀ j, k < j → s.shreg.getLsbD j = v.getLsbD j)
    (hn : noStretch s ((k + 1) * readBitLen (halRdScl s.halcap) + writeBitLen (halRdScl s.halcap)))
    (hv : ∀ i ≤ k, v.getLsbD (k - i) = (driveAt s (readBitLen (halRdScl s.halcap) - 1 + readBitLen (halRdScl s.halcap) * i)).2)
    (hr : r = (final && (driveAt s ((k + 1) * readBitLen (halRdScl s.halcap) + writeBitLen (halRdScl s.halcap))).2)) :
    Runs s
      ((bitsDown v k).flatMap (readBitOps s.half (pollOps (halRdScl s.halcap))) ++
        (writeBitOps s.half (pollOps (halRdScl s.halcap)) final ++ [.lineRead .sda r]))
      { s with
        sclO := true, sdaO := final, shreg := v, bitk := 0, flt := r != final, res := r, seq := caller.advance :: below } := by
  have hi := exec_readByte final
  induction k generalizing s with
  | zero =>
    have hzero : s.bitk = 0 := BitVec.eq_of_toNat_eq hk
    have hall : setByteBit s.shreg s.bitk (v.getLsbD 0) = v :=
      BitVec.eq_of_getLsbD_eq fun j _ => getLsbD_received hk hup j (Nat.zero_le j)
    rw [Nat.zero_add, Nat.one_mul] at hn hr
    rw [bitsDown, List.flatMap_singleton]
    refine Runs.bind (runs_readBit_free h hn (Nat.le_add_right _ _) (hv 0 (Nat.zero_le _))) fun e he => ?_
    rw [length_readBitOps] at he
    refine Runs.silently (On.runs (On.called h.running h.busy rfl)
      (calls_of_exec ((exec_callee_line hi (l := 3) rfl).trans (if_pos hzero)) rfl (.silent rfl rfl rfl rfl))) fun e' he' => ?_
    have drive (j : Nat) := (he' j).trans (he j)
    refine Runs.to (runs_readBack ⟨h.running, h.busy, rfl⟩ (noStretch_later hn rfl drive (Nat.le_refl _))
      (hr.trans (congrArg (final && ·.2) (drive _).symm))) ?_
    rw [← hzero]
    conv_rhs => rw [← hall]
    rfl
  | succ k ih =>
    have hnext : (s.bitk - 1).toNat = k := toNat_pred hk
    have hne : s.bitk ≠ 0 := fun hz => by simp [hz] at hk
    have hlen := Nat.succ_mul (k + 1) (readBitLen (halRdScl s.halcap))
    rw [hlen, Nat.add_comm _ (readBitLen _), Nat.add_assoc] at hn hr
    rw [bitsDown, List.flatMap_cons, List.append_assoc]
    refine Runs.bind (runs_readBit_free h hn (Nat.le_add_right _ _) (hv 0 (Nat.zero_le _))) fun e he => ?_
    rw [length_readBitOps] at he
    refine Runs.silently (On.runs (On.called h.running h.busy rfl)
      (calls_of_exec ((exec_callee_line hi (l := 3) rfl).trans (if_neg hne)) rfl (.silent rfl rfl rfl rfl))) fun e' he' => ?_
    have drive (j : Nat) := (he' j).trans (he j)
    have hlater (i : Nat) (hle : i ≤ k) : v.getLsbD (k - i) = (driveAt s (readBitLen (halRdScl s.halcap) +
        (readBitLen (halRdScl s.halcap) - 1 + readBitLen (halRdScl s.halcap) * i))).2 := by
      rw [Nat.add_left_comm, Nat.add_comm (readBitLen _), ← Nat.mul_succ, ← hv (i + 1) (Nat.succ_le_succ hle), Nat.add_sub_add_right]
    exact Runs.to (ih ⟨h.running, h.busy, rfl⟩ hnext (fun j hj => getLsbD_received hk hup j hj)
      (noStretch_later hn rfl drive (Nat.le_refl _)) (fun i hle => (hlater i hle).trans (congrArg Prod.snd (drive _).symm))
      (hr.trans (congrArg (final && ·.2) (drive _).symm))) rfl

/-- A called `READ_BYTE(final)`, the clock not being stretched (R101). -/
theorem runs_readByte (h : Called (.readByte final) caller below s) (hn : noStretch s (readByteLen (halRdScl s.halcap)))
    (hv : ∀ i < 8, v.getLsbD (7 - i) = (driveAt s ((i + 1) * readBitLen (halRdScl s.halcap) - 1)).2)
    (hr : r = (final && (driveAt s (readByteLen (halRdScl s.halcap) - 1)).2)) :
    Runs s (readByteOps s.half (halRdScl s.halcap) v final r)
      { s with
        sclO := true, sdaO := final, shreg := v, bitk := 0, flt := r != final, res := r, seq := caller.advance :: below } := by
  have hpos := four_lt_readBitLen (halRdScl s.halcap)
  rw [readByteLen_eq] at hn hr
  refine Runs.silently (On.runs h.on
    (calls_of_exec (exec_callee_line (exec_readByte final) h.seq) (u := { s with bitk := 7 }) h.seq (.silent rfl rfl rfl rfl)))
    fun e he => ?_
  have hv' (i : Nat) (hi : i ≤ 7) : v.getLsbD (7 - i) =
      (driveAt s (readBitLen (halRdScl s.halcap) - 1 + readBitLen (halRdScl s.halcap) * i)).2 := by
    rw [hv i (Nat.lt_succ_of_le hi), Nat.succ_mul, Nat.mul_comm, Nat.add_sub_assoc (by omega), Nat.add_comm]
  rw [readByteOps, wireBits_eq, List.append_assoc]
  exact Runs.to (runs_receiveBits (k := 7) ⟨h.running, h.busy, rfl⟩ rfl (fun j hj => by
      rw [BitVec.getLsbD_of_ge _ _ hj, BitVec.getLsbD_of_ge _ _ hj])
    (noStretch_same (noStretch_mono hn (Nat.le_succ _)) rfl he)
    (fun i hi => (hv' i hi).trans (congrArg Prod.snd (he _).symm)) (hr.trans (congrArg (final && ·.2) (he _).symm))) rfl

end ReadByte

/-- Settles O28: the called `READ_BYTE` is `runs_readByte`. -/
theorem readByteFrame : Obligations.ReadByteFrame := fun _ _ _ _ _ _ h hn hv hr => runs_readByte h hn hv hr

end Sys2Proof.Machine
end

section
/-! PROOFS. `CONNECT` as a run, called and as a command. -/

namespace Sys2Proof.Machine

section Header
variable {addr : SlaveAddr} {w a : Bool} {s : State} {c : Option Instr} {l p : Nat} {rest : List Frame}

/-- Step 1 of `CONNECT`, in an open transaction, up to its last line: the header byte and its acknowledge (R113). -/
theorem runs_header (h : On (.connect addr w) c l p rest s) (hl : (l = 0 ∧ s.valid = true) ∨ l = 1) (hs : s.started = true)
    (hn : noStretch s (writeByteLen (halRdScl s.halcap))) (ha : a = (driveAt s (writeByteLen (halRdScl s.halcap) - 1)).2) :
    Runs s (writeByteOps s.half (halRdScl s.halcap) (header addr w) a)
      { s with
        sclO := true, sdaO := true, shreg := header addr w, bitk := 0, ackl := !a, res := !a, seq := ⟨c, 4, 0⟩ :: rest } := by
  have hcall : exec (.connect addr w) s = callAt 3 0 (.writeByte (header addr w)) s := by
    obtain ⟨rfl, hv⟩ | rfl := hl
    · exact exec_connect_started hs (.inl ⟨h.seq, hv⟩)
    · exact exec_connect_started hs (.inr h.seq)
  refine Runs.silently (h.runs (calls_of_exec hcall h.seq (.refl s))) fun e he => ?_
  exact Runs.to (runs_writeByte ⟨h.running, h.busy, rfl⟩ (noStretch_same hn rfl he) (ha.trans (congrArg Prod.snd (he _).symm))) rfl

/-- A called `CONNECT` in an open transaction (R113). -/
theorem runs_connect {caller : Frame} {below : List Frame} (h : Called (.connect addr w) caller below s) (hs : s.started = true)
    (hn : noStretch s (writeByteLen (halRdScl s.halcap))) (ha : a = (driveAt s (writeByteLen (halRdScl s.halcap) - 1)).2) :
    Runs s (writeByteOps s.half (halRdScl s.halcap) (header addr w) a)
      { s with
        sclO := true, sdaO := true, shreg := header addr w, bitk := 0, ackl := !a, res := !a, seq := caller.advance :: below } := by
  refine Runs.ending (runs_header h.on (.inr rfl) hs hn ha) fun e => ?_
  exact Runs.to (On.returns (On.called h.running h.busy rfl) (exec_connect_returns rfl) rfl (.refl _)) rfl

end Header

/-- The accepted command past dispatch (R130). -/
theorem Accepted.onLine {i : Instr} {s t : State} {l p : Nat} {rest : List Frame} (h : Accepted i s)
    (hq : t.seq = ⟨none, l + 1, p⟩ :: rest) (hr : t.rstIn = s.rstIn) (hb : t.busy = s.busy) (hv : latchView t = latchView s) :
    On i none (l + 1) p rest t :=
  .command (hr.trans h.running) (hb.trans h.busy) hq ((latchedCommand_congr hv).trans h.latched)

/-- The last line of a command (R136). -/
theorem On.completes {i : Instr} {s : State} {l p : Nat} {rest : List Frame} (h : On i none l p rest s) (hx : exec i s = finish s) :
    Runs s [] (completed s) :=
  h.runs ((ends_of_exec hx h.seq (.refl s)).1 rfl)

/-- Settles O37: the header is `runs_header`, the last line responds. -/
theorem connectRun : Obligations.ConnectRun := by
  intro addr w a s h hv hs hn ha
  have hop : isComposite s.opc = false := isComposite_of_latched h.latched
  refine Runs.ending (runs_header h.on (.inl ⟨rfl, hv⟩) hs hn ha) fun e => ?_
  refine Runs.to (On.completes (h.onLine rfl rfl rfl rfl) (exec_connect_returns rfl)) ?_
  have hrsp : packRsp (if isComposite s.opc = true then s.cnt else 0) (!a) s.fault .ok = packRsp 0 (!a) false .ok := by
    rw [hop, h.fault]
    rfl
  rw [← hrsp]
  rfl

end Sys2Proof.Machine
end

section
/-! PROOFS. The composite commands as whole transfers, the clock not being stretched: how the wire format of a transfer goes on, how a
stage of the command issues it, the two loops, and START and STOP around them. -/

namespace Sys2Proof.Machine

/-! ### The wire format, step by step -/

section Format
variable {half : BitVec 19} {rd : Bool} {sda : Drive} {buf : Memory}

theorem afterByte_nack {d : Byte} {p : Nat} {k : Nat → Transfer} (h : ackSample rd sda p = true) :
    afterByte half rd sda buf d p k = ⟨writeByteOps half rd d true, 0, false, false, buf⟩ := by
  simp [afterByte, h]

theorem afterByte_ack {d : Byte} {p : Nat} {k : Nat → Transfer} (h : ackSample rd sda p = false) :
    afterByte half rd sda buf d p k =
      { k (p + writeByteLen rd) with ops := writeByteOps half rd d false ++ (k (p + writeByteLen rd)).ops } := by
  simp [afterByte, h]

theorem txTransfer_nack {p i : Nat} {d : Byte} {ds : List Byte} (h : ackSample rd sda (p + 1) = true) :
    txTransfer half rd sda buf p i (d :: ds) =
      ⟨.memRead (BitVec.ofNat 16 i) d :: writeByteOps half rd d true, 0, false, false, buf⟩ := by
  simp [txTransfer, h]

theorem txTransfer_ack {p i : Nat} {d : Byte} {ds : List Byte} (h : ackSample rd sda (p + 1) = false) :
    txTransfer half rd sda buf p i (d :: ds) =
      { txTransfer half rd sda buf (p + 1 + writeByteLen rd) (i + 1) ds with
        ops := .memRead (BitVec.ofNat 16 i) d :: writeByteOps half rd d false ++
          (txTransfer half rd sda buf (p + 1 + writeByteLen rd) (i + 1) ds).ops
        count := (txTransfer half rd sda buf (p + 1 + writeByteLen rd) (i + 1) ds).count + 1 } := by
  simp [txTransfer, h]

theorem buf_afterByte {d : Byte} {p : Nat} {k : Nat → Transfer} (h : ∀ p, (k p).buf = buf) :
    (afterByte half rd sda buf d p k).buf = buf := by
  cases ha : ackSample rd sda p with
  | true => rw [afterByte_nack ha]
  | false =>
    rw [afterByte_ack ha]
    exact h _

theorem rxTransfer_fault {n p i : Nat} (h : backSample rd sda p (decide (n = 0)) ≠ decide (n = 0)) :
    rxTransfer half rd sda (n + 1) p i buf =
      ⟨readByteOps half rd (byteSample rd sda p) (decide (n = 0)) (backSample rd sda p (decide (n = 0))) ++
        [.memWrite (BitVec.ofNat 16 i) (byteSample rd sda p)], 0, true, true, Memory.write buf i (byteSample rd sda p)⟩ := by
  rw [rxTransfer]
  exact if_pos h

theorem rxTransfer_ok {n p i : Nat} (h : backSample rd sda p (decide (n = 0)) = decide (n = 0)) :
    rxTransfer half rd sda (n + 1) p i buf =
      { rxTransfer half rd sda n (p + readByteLen rd + 1) (i + 1) (Memory.write buf i (byteSample rd sda p)) with
        ops := readByteOps half rd (byteSample rd sda p) (decide (n = 0)) (backSample rd sda p (decide (n = 0))) ++
            [.memWrite (BitVec.ofNat 16 i) (byteSample rd sda p)] ++
          (rxTransfer half rd sda n (p + readByteLen rd + 1) (i + 1) (Memory.write buf i (byteSample rd sda p))).ops
        count := (rxTransfer half rd sda n (p + readByteLen rd + 1) (i + 1) (Memory.write buf i (byteSample rd sda p))).count + 1 } := by
  rw [rxTransfer]
  exact if_neg (not_not_intro h)

theorem buf_txTransfer (p i : Nat) (ds : List Byte) : (txTransfer half rd sda buf p i ds).buf = buf := by
  induction ds generalizing p i with
  | nil => rfl
  | cons d ds ih =>
    cases h : ackSample rd sda (p + 1) with
    | true => rw [txTransfer_nack h]
    | false =>
      rw [txTransfer_ack h]
      exact ih _ _

theorem length_wireBits_flatMap {f : Bool → List MicroOp} {n : Nat} (h : ∀ b, (f b).length = n) (d : Byte) :
    ((wireBits d).flatMap f).length = 8 * n := by
  simp [wireBits, h]
  omega

theorem length_writeByteOps (d : Byte) (a : Bool) : (writeByteOps half rd d a).length = writeByteLen rd := by
  rw [writeByteOps, List.length_append, length_wireBits_flatMap (fun b => length_writeBitOps half rd b), length_readBitOps,
    writeByteLen_eq]

theorem length_readByteOps (v : Byte) (final r : Bool) : (readByteOps half rd v final r).length = readByteLen rd := by
  rw [readByteOps, List.length_append, List.length_append, length_wireBits_flatMap (fun b => length_readBitOps half rd b),
    length_writeBitOps, readByteLen_eq]
  rfl

/-- The byte received has the samples as its bits (R103). -/
theorem getLsbD_byteSample (p : Nat) {k : Nat} (hk : k < 8) : (byteSample rd sda p).getLsbD k = bitSample rd sda p k := by
  have hbits : byteSample rd sda p = BitVec.ofNat 8 (Nat.ofBits fun j : Fin 8 => bitSample rd sda p j) := by
    unfold byteSample
    congr 1
    simp [Nat.ofBits, Fin.foldr_succ]
    omega
  rw [hbits, BitVec.getLsbD_ofNat, Nat.testBit_ofBits_lt _ _ hk]
  simp [hk]

end Format

/-! ### A stage of a composite command -/

/-- The working registers that no response shows. -/
structure Work where
  flt : Bool
  idx : Count
  shreg : Byte
  bitk : BitVec 3
  res : Bool
  dat : Byte

def State.work (u : State) (x : Work) : State :=
  { u with flt := x.flt, idx := x.idx, shreg := x.shreg, bitk := x.bitk, res := x.res, dat := x.dat }

/-- The command `i` is in progress, past dispatch (R130). -/
structure InCommand (i : Instr) (t : State) : Prop where
  running : t.rstIn = false
  busy : t.busy = true
  latched : latchedCommand t = some i

theorem InCommand.on {i : Instr} {t : State} {l p : Nat} {rest : List Frame} (h : InCommand i t)
    (hq : t.seq = ⟨none, l + 1, p⟩ :: rest) : On i none (l + 1) p rest t := .command h.running h.busy hq h.latched

/-- The command `i` is at its line `l` with nothing counted yet; `half`, `rd` and `buf` are what its transfer is made from. -/
structure Ready (i : Instr) (half : BitVec 19) (rd : Bool) (buf : Memory) (l : Nat) (t : State) : Prop extends InCommand i t where
  seq : t.seq = [⟨none, l, 0⟩]
  half : t.half = half
  rd : halRdScl t.halcap = rd
  buf : t.buf = buf
  started : t.started = true
  fault : t.fault = false
  cnt : t.cnt = 0

/-- The transaction is open and the last byte sent was acknowledged: where the transfer loops are (R124, R125). -/
structure Acked (t : State) : Prop where
  scl : t.sclO = true
  started : t.started = true
  ackl : t.ackl = true
  fault : t.fault = false

/-- The peer's drive of `SDA` from `t` on is `sda` from the micro-operation `p` on. -/
def Sees (sda : Drive) (p : Nat) (t : State) : Prop := ∀ j, (driveAt t j).2 = sda (p + j)

/-- `t` after the transfer `T`, `k` bytes having been counted before: `STOP` has just been called at the line `out` (R126). -/
def atStop (out k : Nat) (T : Transfer) (t : State) : State :=
  { t with
    sclO := true, sdaO := true, started := true, ackl := T.ack, fault := T.fault, cnt := BitVec.ofNat 16 (k + T.count),
    buf := T.buf, seq := [⟨some .stop, 1, 0⟩, ⟨none, out, 0⟩] }

/-- What a transfer leaves as it was: `atStop` and the working registers overwrite the rest. -/
def keptView (t : State) : State :=
  { ctrl t with
    sclO := true, sdaO := true, started := true, ackl := true, fault := false, cnt := 0, buf := [], seq := [], flt := false, idx := 0,
    shreg := 0, bitk := 0, res := false, dat := 0 }

theorem keptView_under (t : State) (e : Env) : keptView (t.under e) = keptView t := rfl

theorem ctrl_atStop {out k k' : Nat} {T T' : Transfer} {t u : State} (hkept : keptView u = keptView t)
    (hack : T'.ack = T.ack) (hfault : T'.fault = T.fault) (hbuf : T'.buf = T.buf) (hcount : k' + T'.count = k + T.count) (x : Work) :
    ctrl ((atStop out k' T' u).work x) = ctrl ((atStop out k T t).work x) := by
  have hview : ∀ v : State, ctrl ((atStop out k T v).work x) = ctrl ((atStop out k T (keptView v)).work x) := fun _ => rfl
  have hT : atStop out k' T' u = atStop out k T u := by rw [atStop, atStop, hack, hfault, hbuf, hcount]
  rw [hT, hview u, hkept, ← hview t]

/-- From `t` the command issues the transfer `T`, whatever the peer does on `SDA`, and calls `STOP` at its line `out`. -/
def Reaches (out k : Nat) (sda : Drive) (p : Nat) (t : State) (T : Transfer) : Prop :=
  noStretch t T.ops.length → Sees sda p t → ∃ x : Work, Runs t T.ops ((atStop out k T t).work x)

section Stages
variable {i : Instr} {out k k' l q p : Nat} {sda : Drive} {t u : State} {a : List MicroOp} {T T' : Transfer}

/-- A part of a transfer, and then the rest of it. -/
theorem Reaches.bind {n : Nat} (hlen : a.length = n) (hrun : noStretch t n → Sees sda p t → Runs t a u)
    (hrest : ∀ e : Env, Reaches out k' sda (p + n) (u.under e) T') (hkept : keptView u = keptView t) (hops : T.ops = a ++ T'.ops)
    (hack : T'.ack = T.ack) (hfault : T'.fault = T.fault) (hbuf : T'.buf = T.buf) (hcount : k' + T'.count = k + T.count) :
    Reaches out k sda p t T := by
  subst hlen
  intro hn hs
  rw [hops, List.length_append] at hn
  obtain ⟨e, he, hgo⟩ := (hrun (noStretch_mono hn (Nat.le_add_right _ _)) hs).goesOn
  have hsees : Sees sda (p + a.length) (u.under e) := fun j => by rw [he, hs, Nat.add_assoc]
  have hcap : u.halcap = t.halcap := (congrArg State.halcap hkept :)
  obtain ⟨x, hx⟩ := hrest e (noStretch_later hn hcap he (Nat.le_refl _)) hsees
  rw [hops]
  exact ⟨x, (hgo _ _ hx).to (ctrl_atStop ((keptView_under u e).trans hkept) hack hfault hbuf hcount x)⟩

/-- The end of a transfer: the line calls `STOP`, its register work having made `u` of `t` (R126). -/
theorem Reaches.stop (h : On i none l q [] t) (hc : Calls i none out 0 [] .stop t u) (hops : T.ops = [])
    (hend : ctrl { u with seq := [⟨some .stop, 1, 0⟩, ⟨none, out, 0⟩] } =
      ctrl ((atStop out k T t).work ⟨u.flt, u.idx, u.shreg, u.bitk, u.res, u.dat⟩)) :
    Reaches out k sda p t T := fun _ _ => by
  rw [hops]
  exact ⟨_, (h.runs hc).to hend⟩

/-- The acknowledge of a byte that begins at the micro-operation `p`. -/
theorem Sees.ackSample (hs : Sees sda p t) (rd : Bool) : ackSample rd sda p = (driveAt t (writeByteLen rd - 1)).2 := by
  have hpos : 1 ≤ writeByteLen rd := by cases rd <;> decide
  rw [hs, Machine.ackSample, Nat.add_sub_assoc hpos]

/-- What a byte sent by the command leaves: its acknowledge, and the command at its next line (R100). -/
def byteSent (d : Byte) (a : Bool) (f : Frame) (t : State) : State :=
  { t with sclO := true, sdaO := true, shreg := d, bitk := 0, ackl := !a, res := !a, seq := [f] }

theorem keptView_byteSent (d : Byte) (a : Bool) (f : Frame) (t : State) : keptView (byteSent d a f t) = keptView t := rfl

section Sends
variable {d : Byte} {b : Bool} {line loop : Nat} (h : On i none l q [] t) (hn : noStretch t (writeByteLen (halRdScl t.halcap)))
  (hb : b = (driveAt t (writeByteLen (halRdScl t.halcap) - 1)).2)
include h hn hb

theorem runs_callByte (hc : Calls i none line loop [] (.writeByte d) t t) :
    Runs t (writeByteOps t.half (halRdScl t.halcap) d b) (byteSent d b (Frame.advance ⟨none, line, loop⟩) t) := by
  refine Runs.silently (h.runs hc) fun e he => ?_
  exact Runs.to (runs_writeByte ⟨h.running, h.busy, rfl⟩ (noStretch_same hn rfl he) (hb.trans (congrArg Prod.snd (he _).symm))) rfl

theorem runs_callConnect {addr : SlaveAddr} {w : Bool} (hst : t.started = true)
    (hc : Calls i none line loop [] (.connect addr w) t t) :
    Runs t (writeByteOps t.half (halRdScl t.halcap) (header addr w) b)
      (byteSent (header addr w) b (Frame.advance ⟨none, line, loop⟩) t) := by
  refine Runs.silently (h.runs hc) fun e he => ?_
  exact Runs.to (runs_connect ⟨h.running, h.busy, rfl⟩ hst (noStretch_same hn rfl he)
    (hb.trans (congrArg Prod.snd (he _).symm))) rfl

end Sends

/-- A byte sent before the loop: a NACK ends the transfer, an ACK goes on with `next` (R120 to R123). -/
theorem reaches_afterByte {half : BitVec 19} {rd : Bool} {buf : Memory} {d : Byte} {next : Nat → Transfer} {line : Nat}
    (h : Ready i half rd buf l t)
    (hrun : ∀ b, noStretch t (writeByteLen (halRdScl t.halcap)) → b = (driveAt t (writeByteLen (halRdScl t.halcap) - 1)).2 →
      Runs t (writeByteOps t.half (halRdScl t.halcap) d b) (byteSent d b ⟨none, line + 1, 0⟩ t))
    (hnack : ∀ v : State, v.seq = [⟨none, line + 1, 0⟩] → v.res = false → Calls i none out 0 [] .stop v v)
    (hack : ∀ v : State, Ready i half rd buf (line + 1) v → Acked v → v.sdaO = true → v.res = true →
      Reaches out 0 sda (p + writeByteLen rd) v (next (p + writeByteLen rd))) :
    Reaches out 0 sda p t (afterByte half rd sda buf d p next) := by
  obtain ⟨hin, -, rfl, rfl, rfl, hst, hf, hcnt⟩ := h
  have hsent (b : Bool) (hb : ackSample (halRdScl t.halcap) sda p = b) (hn : noStretch t (writeByteLen (halRdScl t.halcap)))
      (hs : Sees sda p t) := hrun b hn (hb.symm.trans (hs.ackSample _))
  cases ha : ackSample (halRdScl t.halcap) sda p with
  | true =>
    rw [afterByte_nack ha]
    refine Reaches.bind (T' := ⟨[], 0, false, false, t.buf⟩) (length_writeByteOps d true) (hsent true ha) (fun e => ?_)
      (keptView_byteSent ..) (List.append_nil _).symm rfl rfl rfl rfl
    refine Reaches.stop (InCommand.on ⟨hin.running, hin.busy, hin.latched⟩ rfl) (hnack _ rfl rfl) rfl ?_
    simp [ctrl, atStop, State.work, State.under, byteSent, hst, hf, hcnt]
  | false =>
    rw [afterByte_ack ha]
    refine Reaches.bind (length_writeByteOps d false) (hsent false ha) (fun e => ?_) (keptView_byteSent ..) rfl rfl rfl rfl rfl
    exact hack _ ⟨⟨hin.running, hin.busy, hin.latched⟩, rfl, rfl, rfl, rfl, hst, hf, hcnt⟩ ⟨rfl, hst, rfl, hf⟩ rfl rfl

end Stages

end Sys2Proof.Machine
end

section
/-! PROOFS. The transfer loops as runs: one byte of each, then the induction over the bytes left. -/

namespace Sys2Proof.Machine

/-- The loop registers at byte `k`. -/
def atByte (k : Nat) (t : State) : State := { t with cnt := BitVec.ofNat 16 k, idx := BitVec.ofNat 16 k }

section Loops
variable {i : Instr} {out k l m p q : Nat} {n : Count} {sda : Drive} {t : State}

theorem toNat_index (hk : k + m = n.toNat) : (BitVec.ofNat 16 k).toNat = k := by
  have := n.isLt
  rw [BitVec.toNat_ofNat]
  exact Nat.mod_eq_of_lt (by omega)

theorem index_inside (hk : k + (m + 1) = n.toNat) : (BitVec.ofNat 16 k).toNat < bufSize := by
  have := n.isLt
  rw [toNat_index hk, bufSize]
  omega

theorem index_ne (hk : k + (m + 1) = n.toNat) : BitVec.ofNat 16 k ≠ n := fun he => by
  have := toNat_index hk
  rw [he] at this
  omega

theorem index_eq (hk : k + 0 = n.toNat) : BitVec.ofNat 16 k = n := BitVec.eq_of_toNat_eq ((toNat_index hk).trans hk)

theorem index_succ (k : Nat) : BitVec.ofNat 16 k + 1 = BitVec.ofNat 16 (k + 1) := (BitVec.ofNat_add k 1).symm

/-- All bytes are done: the loop calls `STOP`. -/
theorem reaches_loopEnd (h : InCommand i t) (ha : Acked t) (hsda : t.sdaO = true) (hq : t.seq = [⟨none, l + 1, q⟩])
    (hc : Calls i none out 0 [] .stop t (atByte k t)) : Reaches out k sda p t ⟨[], 0, true, false, t.buf⟩ := by
  refine Reaches.stop (h.on hq) hc rfl ?_
  simp [ctrl, atStop, State.work, atByte, ha.scl, hsda, ha.started, ha.ackl, ha.fault]

/-! ### `TXLOOP` -/

theorem four_lt_writeByteLen (rd : Bool) : 4 < writeByteLen rd := by cases rd <;> decide

/-- `t` after the byte `k` of a transmitting command was sent with the ninth bit `b`. -/
def byteTransmitted (k l : Nat) (d : Byte) (b : Bool) (t : State) : State :=
  { byteSent d b ⟨none, l, 5⟩ (atByte k t) with dat := d }

theorem keptView_byteTransmitted (k l : Nat) (d : Byte) (b : Bool) (t : State) :
    keptView (byteTransmitted k l d b t) = keptView t := rfl

/-- Step 4 of `TXLOOP` sends the byte fetched (R124). -/
theorem TxLoop.sends {line : Nat} (hloop : TxLoop i line out n) (hq : t.seq = [⟨none, line, 4⟩]) :
    Calls i none line 4 [] (.writeByte t.dat) t t := by
  obtain ⟨-, -, -, hsends, -, -⟩ := hloop t none []
  exact hsends hq

/-- Step 5 of `TXLOOP` after a NACK leaves the loop (R124). -/
theorem TxLoop.leaves {line : Nat} (hloop : TxLoop i line out n) (hq : t.seq = [⟨none, line, 5⟩]) (hr : t.res = false) :
    Calls i none out 0 [] .stop t t := by
  obtain ⟨-, -, -, -, hafter, -⟩ := hloop t none []
  exact (hafter hq).1 hr

/-- Steps 5 and 6 of `TXLOOP` after an ACK count the byte (R124). -/
theorem TxLoop.counts {line : Nat} (hloop : TxLoop i line out n) (hq : t.seq = [⟨none, line, 5⟩]) (hr : t.res = true) :
    TxTest i none line out n [] t { t with cnt := t.cnt + 1, idx := t.idx + 1 } := by
  obtain ⟨-, -, -, -, hafter, -⟩ := hloop t none []
  exact (hafter hq).2 hr

/-- One byte of `TXLOOP`: the fetch and the frame (R124 steps 3 and 4). -/
theorem runs_transmit {b : Bool} (hloop : TxLoop i (l + 1) out n) (h : InCommand i t) (hq : t.seq = [⟨none, l + 1, q⟩])
    (hk : k + (m + 1) = n.toNat) (htest : TxTest i none (l + 1) out n [] t (atByte k t))
    (hn : noStretch t (1 + writeByteLen (halRdScl t.halcap)))
    (hb : b = (driveAt t (1 + (writeByteLen (halRdScl t.halcap) - 1))).2) :
    Runs t
      (.memRead (BitVec.ofNat 16 k) (Memory.read t.buf k) :: writeByteOps t.half (halRdScl t.halcap) (Memory.read t.buf k) b)
      (byteTransmitted k (l + 1) (Memory.read t.buf k) b t) := by
  have hfetch := (htest.2 (index_ne hk)).1 (index_inside hk)
  have hidx : (atByte k t).idx.toNat = k := toNat_index hk
  rw [hidx] at hfetch
  refine Runs.bind ((h.on hq).runs hfetch) fun e he => ?_
  exact Runs.to (runs_callByte (InCommand.on ⟨h.running, h.busy, h.latched⟩ rfl) (noStretch_later hn rfl he (Nat.le_refl _))
    (hb.trans (congrArg Prod.snd (he _).symm)) (hloop.sends rfl)) rfl

/-- `TXLOOP` from its test at byte `k` on, `m` bytes being left (R124). -/
theorem reaches_txTest (hloop : TxLoop i (l + 1) out n) (h : InCommand i t) (ha : Acked t) (hsda : t.sdaO = true)
    (hq : t.seq = [⟨none, l + 1, q⟩]) (hk : k + m = n.toNat) (htest : TxTest i none (l + 1) out n [] t (atByte k t)) :
    Reaches out k sda p t
      (txTransfer t.half (halRdScl t.halcap) sda t.buf p k ((List.range' k m).map (Memory.read t.buf))) := by
  induction m generalizing k p q t with
  | zero => exact reaches_loopEnd h ha hsda hq (htest.1 (index_eq hk))
  | succ m ih =>
    rw [List.range'_succ, List.map_cons]
    have hpos : 1 ≤ writeByteLen (halRdScl t.halcap) := Nat.le_trans (by decide) (four_lt_writeByteLen _)
    have hrun (b : Bool) (hb : ackSample (halRdScl t.halcap) sda (p + 1) = b)
        (hn : noStretch t (1 + writeByteLen (halRdScl t.halcap))) (hs : Sees sda p t) :=
      runs_transmit hloop h hq hk htest hn (b := b) (by rw [← hb, hs, ackSample, Nat.add_sub_assoc hpos, Nat.add_assoc])
    have hlen (b : Bool) : (MicroOp.memRead (BitVec.ofNat 16 k) (Memory.read t.buf k) ::
        writeByteOps t.half (halRdScl t.halcap) (Memory.read t.buf k) b).length = 1 + writeByteLen (halRdScl t.halcap) := by
      rw [List.length_cons, length_writeByteOps, Nat.add_comm]
    cases hack : ackSample (halRdScl t.halcap) sda (p + 1) with
    | true =>
      rw [txTransfer_nack hack]
      refine Reaches.bind (k' := k) (T' := ⟨[], 0, false, false, t.buf⟩) (hlen true) (hrun true hack) (fun e => ?_)
        (keptView_byteTransmitted ..) (List.append_nil _).symm rfl rfl rfl rfl
      refine Reaches.stop (InCommand.on ⟨h.running, h.busy, h.latched⟩ rfl) (hloop.leaves rfl rfl) rfl ?_
      simp [ctrl, atStop, State.work, State.under, byteTransmitted, byteSent, atByte, ha.started, ha.fault]
    | false =>
      rw [txTransfer_ack hack]
      have hcount (c : Nat) : k + 1 + c = k + (c + 1) := by omega
      refine Reaches.bind (k' := k + 1) (hlen false) (hrun false hack) (fun e => ?_) (keptView_byteTransmitted ..)
        rfl rfl rfl rfl (hcount _)
      rw [← Nat.add_assoc]
      refine ih ⟨h.running, h.busy, h.latched⟩ ⟨rfl, ha.started, rfl, ha.fault⟩ rfl rfl (by omega) ?_
      rw [atByte, ← index_succ]
      exact hloop.counts rfl rfl

/-! ### `RXLOOP` -/

theorem index_last (hk : k + (m + 1) = n.toNat) : decide (BitVec.ofNat 16 k = n - 1) = decide (m = 0) := by
  have hn : n - 1 = BitVec.ofNat 16 (k + m) := by
    have hsucc : BitVec.ofNat 16 (k + m) + 1 = n := by
      rw [index_succ, Nat.add_assoc, hk]
      exact BitVec.ofNat_toNat ..
    rw [← hsucc]
    exact BitVec.add_sub_cancel _ _
  have hlast : (BitVec.ofNat 16 (k + m)).toNat = k + m := toNat_index (m := 1) (by omega)
  refine decide_eq_decide.2 ⟨fun he => ?_, fun hm => by rw [hn, hm]; rfl⟩
  have heq := congrArg BitVec.toNat (he.trans hn)
  rw [hlast, toNat_index hk] at heq
  omega

/-- `t` after the byte `k` of a receiving command, which was `v` and whose ninth bit `final` read back as `r`, was stored. -/
def byteStored (k l : Nat) (v : Byte) (final r : Bool) (t : State) : State :=
  { atByte k t with
    sclO := true, sdaO := final, shreg := v, bitk := 0, flt := r != final, res := r, buf := Memory.write t.buf k v,
    seq := [⟨none, l, 5⟩] }

theorem keptView_byteStored (k l : Nat) (v : Byte) (final r : Bool) (t : State) :
    keptView (byteStored k l v final r t) = keptView t := rfl

/-- Step 4 of `RXLOOP` stores the byte received (R125). -/
theorem RxLoop.stores {line : Nat} (hloop : RxLoop i line out n) (hq : t.seq = [⟨none, line, 4⟩]) (hin : t.idx.toNat < bufSize) :
    Answers i t [.memWrite t.idx t.shreg] { t with buf := Memory.write t.buf t.idx.toNat t.shreg, seq := [⟨none, line, 5⟩] } := by
  obtain ⟨-, -, -, hstores, -, -⟩ := hloop t none []
  exact (hstores hq).1 hin

/-- Step 5 of `RXLOOP` leaves the loop after a bus fault (R125, R144). -/
theorem RxLoop.leaves {line : Nat} (hloop : RxLoop i line out n) (hq : t.seq = [⟨none, line, 5⟩]) (hf : t.flt = true) :
    Calls i none out 0 [] .stop t { t with fault := true } := by
  obtain ⟨-, -, -, -, hafter, -⟩ := hloop t none []
  exact (hafter hq).1 hf

/-- Steps 5 and 6 of `RXLOOP` count the byte (R125). -/
theorem RxLoop.counts {line : Nat} (hloop : RxLoop i line out n) (hq : t.seq = [⟨none, line, 5⟩]) (hf : t.flt = false) :
    RxTest i none line out n [] t { t with cnt := t.cnt + 1, idx := t.idx + 1 } := by
  obtain ⟨-, -, -, -, hafter, -⟩ := hloop t none []
  exact (hafter hq).2 hf

/-- One byte of `RXLOOP`: the frame and the store (R125 steps 3 and 4). -/
theorem runs_receive {v : Byte} {r : Bool} (hloop : RxLoop i (l + 1) out n) (h : InCommand i t) (hq : t.seq = [⟨none, l + 1, q⟩])
    (hk : k + (m + 1) = n.toNat) (htest : RxTest i none (l + 1) out n [] t (atByte k t))
    (hn : noStretch t (readByteLen (halRdScl t.halcap)))
    (hv : ∀ j < 8, v.getLsbD (7 - j) = (driveAt t ((j + 1) * readBitLen (halRdScl t.halcap) - 1)).2)
    (hr : r = (decide (m = 0) && (driveAt t (readByteLen (halRdScl t.halcap) - 1)).2)) :
    Runs t (readByteOps t.half (halRdScl t.halcap) v (decide (m = 0)) r ++ [.memWrite (BitVec.ofNat 16 k) v])
      (byteStored k (l + 1) v (decide (m = 0)) r t) := by
  have hcall := htest.2 (index_ne hk)
  have hfinal : decide ((atByte k t).idx = n - 1) = decide (m = 0) := index_last hk
  rw [hfinal] at hcall
  refine Runs.silently ((h.on hq).runs hcall) fun e he => ?_
  refine Runs.bind (runs_readByte ⟨h.running, h.busy, rfl⟩ (noStretch_same hn rfl he)
    (fun j hj => (hv j hj).trans (congrArg Prod.snd (he _).symm)) (hr.trans (congrArg (decide (m = 0) && ·.2) (he _).symm)))
    fun e' _ => ?_
  refine Runs.to (On.runs (InCommand.on ⟨h.running, h.busy, h.latched⟩ rfl) (hloop.stores rfl (index_inside hk))) ?_
  exact congrArg (fun x => ctrl { byteStored k (l + 1) v (decide (m = 0)) r t with buf := Memory.write t.buf x v }) (toNat_index hk)

/-- The samples of a byte that begins at the micro-operation `p` (R101, R103). -/
theorem Sees.byteSample (hs : Sees sda p t) (rd : Bool) {j : Nat} (hj : j < 8) :
    (byteSample rd sda p).getLsbD (7 - j) = (driveAt t ((j + 1) * readBitLen rd - 1)).2 := by
  have hpos : 1 ≤ (j + 1) * readBitLen rd := Nat.mul_pos (Nat.succ_pos j) (Nat.zero_lt_of_lt (four_lt_readBitLen rd))
  have hcell : 8 - (7 - j) = j + 1 := by omega
  rw [hs, getLsbD_byteSample p (by omega), bitSample, hcell, Nat.add_sub_assoc hpos]

/-- The read-back of a byte that begins at the micro-operation `p` (R102). -/
theorem Sees.backSample (hs : Sees sda p t) (rd final : Bool) :
    backSample rd sda p final = (final && (driveAt t (readByteLen rd - 1)).2) := by
  have hpos : 1 ≤ readByteLen rd := by cases rd <;> decide
  rw [hs, Machine.backSample, Nat.add_sub_assoc hpos]

/-- `RXLOOP` from its test at byte `k` on, `m` bytes being left (R125). -/
theorem reaches_rxTest (hloop : RxLoop i (l + 1) out n) (h : InCommand i t) (ha : Acked t) (hsda : m = 0 → t.sdaO = true)
    (hq : t.seq = [⟨none, l + 1, q⟩]) (hk : k + m = n.toNat) (htest : RxTest i none (l + 1) out n [] t (atByte k t)) :
    Reaches out k sda p t (rxTransfer t.half (halRdScl t.halcap) sda m p k t.buf) := by
  induction m generalizing k p q t with
  | zero => exact reaches_loopEnd h ha (hsda rfl) hq (htest.1 (index_eq hk))
  | succ m ih =>
    have hlen (v : Byte) (r : Bool) : (readByteOps t.half (halRdScl t.halcap) v (decide (m = 0)) r ++
        [MicroOp.memWrite (BitVec.ofNat 16 k) v]).length = readByteLen (halRdScl t.halcap) + 1 := by
      rw [List.length_append, length_readByteOps, List.length_singleton]
    have hrun (hn : noStretch t (readByteLen (halRdScl t.halcap) + 1)) (hs : Sees sda p t) :=
      runs_receive hloop h hq hk htest (noStretch_mono hn (Nat.le_succ _)) (fun j hj => hs.byteSample _ hj) (hs.backSample _ _)
    by_cases hback : backSample (halRdScl t.halcap) sda p (decide (m = 0)) = decide (m = 0)
    · rw [rxTransfer_ok hback]
      have hcount (c : Nat) : k + 1 + c = k + (c + 1) := by omega
      refine Reaches.bind (k' := k + 1) (hlen _ _) hrun (fun e => ?_) (keptView_byteStored ..) rfl rfl rfl rfl (hcount _)
      have hflt : (backSample (halRdScl t.halcap) sda p (decide (m = 0)) != decide (m = 0)) = false := by rw [hback, bne_self_eq_false]
      refine ih ⟨h.running, h.busy, h.latched⟩ ⟨rfl, ha.started, ha.ackl, ha.fault⟩ (fun hm => decide_eq_true hm) rfl (by omega) ?_
      rw [atByte, ← index_succ]
      exact hloop.counts rfl hflt
    · have hlast : m = 0 := by
        by_contra hm
        simp [backSample, hm] at hback
      have hflt : (backSample (halRdScl t.halcap) sda p (decide (m = 0)) != decide (m = 0)) = true := bne_iff_ne.2 hback
      rw [rxTransfer_fault hback]
      refine Reaches.bind (k' := k) (T' := ⟨[], 0, true, true, Memory.write t.buf k (byteSample (halRdScl t.halcap) sda p)⟩)
        (hlen _ _) hrun (fun e => ?_) (keptView_byteStored ..) (List.append_nil _).symm rfl rfl rfl rfl
      refine Reaches.stop (InCommand.on ⟨h.running, h.busy, h.latched⟩ rfl) (hloop.leaves rfl hflt) rfl ?_
      simp [ctrl, atStop, State.work, State.under, byteStored, atByte, ha.started, ha.ackl, hlast]

end Loops

end Sys2Proof.Machine
end

section
/-! PROOFS. The four composite commands from the accepted word to the response, the clock not being stretched. -/

namespace Sys2Proof.Machine

/-! ### START and STOP around a transfer -/

/-- What the four composite commands have in common: START, the header byte and, after `STOP` at the line `out`, the response
(R120 to R123, R126). -/
structure Composite (i : Instr) (addr : SlaveAddr) (w : Bool) (out : Nat) : Prop where
  transfer : isTransfer i = true
  starts : ∀ s : State, s.seq = [⟨none, 0, 0⟩] → s.valid = true → Calls i none 2 0 [] .start s { s with cnt := 0 }
  connects : ∀ s : State, s.seq = [⟨none, 3, 0⟩] → Calls i none 3 0 [] (.connect addr w) s s
  responds : ∀ s : State, s.seq = [⟨none, out + 1, 0⟩] → Answers i s [] (completed s)

/-- The command after its START, at the call of `CONNECT`. -/
def opened (s : State) : State := { s with cnt := 0, sdaO := false, started := true, seq := [⟨none, 3, 0⟩] }

section Framed
variable {i : Instr} {addr : SlaveAddr} {w : Bool} {out : Nat} {s u : State} {T : Transfer}

theorem runs_opened (hi : Composite i addr w out) (h : Accepted i s) (hv : s.valid = true) : Runs s (startOps s.half) (opened s) := by
  refine Runs.silently (h.on.runs (hi.starts s h.seq hv)) fun e _ => ?_
  exact Runs.to (runs_start ⟨h.running, h.busy, rfl⟩) rfl

/-- `STOP` and the response (R126, R136). -/
theorem runs_closing (hi : Composite i addr w out) (h : InCommand i u) (hq : u.seq = [⟨some .stop, 1, 0⟩, ⟨none, out, 0⟩])
    (hn : noStretch u (stopOps u.half (pollOps (halRdScl u.halcap))).length) :
    Runs u (stopOps u.half (pollOps (halRdScl u.halcap)))
      (completed { u with sclO := true, sdaO := true, started := false, res := polledRes u, seq := [⟨none, out + 1, 0⟩] }) := by
  have hpoll : 5 < (stopOps u.half (pollOps (halRdScl u.halcap))).length := by simp [stopOps]
  refine Runs.ending (runs_stop ⟨h.running, h.busy, hq⟩ (holdsClock_of_noStretch hn hpoll)) fun e => ?_
  exact Runs.to (On.runs (InCommand.on ⟨h.running, h.busy, h.latched⟩ rfl) (hi.responds _ rfl)) rfl

theorem transfers_of_runs (hrun : Runs s T.ops u)
    (hu : visible (ctrl u) = visible (ctrl { s with
      sclO := true, sdaO := true, started := false, ackl := T.ack, fault := T.fault,
      rsp := packRsp (BitVec.ofNat 16 T.count) T.ack T.fault .ok, rspValid := true, seq := [], busy := false, buf := T.buf })) :
    Transfers s T := by
  obtain ⟨k, t, hk, hdid⟩ := hrun
  exact ⟨k, t, hk, ⟨hdid.issued, hdid.time, hdid.script, hdid.bus, rfl⟩, by rw [hdid.state, hu]⟩

/-- A composite command does its transfer between START and STOP (R126). -/
theorem transfers_framed (hi : Composite i addr w out) (h : Accepted i s) (hv : s.valid = true)
    (hn : noStretch s (framed s.half (halRdScl s.halcap) T).ops.length)
    (hT : ∀ v, Ready i s.half (halRdScl s.halcap) s.buf 3 v → Reaches out 0 (fun k => (driveAt s k).2) 4 v T) :
    Transfers s (framed s.half (halRdScl s.halcap) T) := by
  have hop : isComposite s.opc = true := (isComposite_of_latched h.latched).trans hi.transfer
  have hops : (framed s.half (halRdScl s.halcap) T).ops =
      startOps s.half ++ (T.ops ++ stopOps s.half (pollOps (halRdScl s.halcap))) := List.append_assoc ..
  rw [hops, List.length_append, List.length_append] at hn
  obtain ⟨e, he, hstarted⟩ := (runs_opened hi h hv).goesOn
  have hready : Ready i s.half (halRdScl s.halcap) s.buf 3 ((opened s).under e) :=
    ⟨⟨h.running, h.busy, h.latched⟩, rfl, rfl, rfl, rfl, rfl, h.fault, rfl⟩
  obtain ⟨x, hx⟩ := hT _ hready (noStretch_later hn rfl he (by omega)) (fun j => congrArg Prod.snd (he j))
  obtain ⟨e', he', hdone⟩ := hx.goesOn
  have hclose := runs_closing (u := ((atStop out 0 T ((opened s).under e)).work x).under e') hi
    ⟨h.running, h.busy, h.latched⟩ rfl
    (noStretch_later hn rfl (m := (startOps s.half).length + T.ops.length)
      (fun j => (he' j).trans ((he _).trans (by rw [Nat.add_assoc]))) (Nat.le_of_eq (Nat.add_assoc ..)))
  refine transfers_of_runs (u := completed _) (hops ▸ hstarted _ _ (hdone _ _ hclose)) ?_
  have hrsp : packRsp (if isComposite s.opc = true then BitVec.ofNat 16 (0 + T.count) else 0) T.ack T.fault .ok =
      packRsp (BitVec.ofNat 16 T.count) T.ack T.fault .ok := by rw [if_pos hop, Nat.zero_add]
  rw [framed, ← hrsp]
  rfl

end Framed

/-! ### The bytes before the loop -/

/-- The command after a RESTART, at `f`. -/
def restarted (f : Frame) (t : State) : State :=
  { t with sclO := true, sdaO := false, started := true, res := polledRes t, seq := [f] }

theorem keptView_restarted (f : Frame) (t : State) : keptView (restarted f t) = keptView t := rfl

section Front
variable {i : Instr} {half : BitVec 19} {rd : Bool} {buf : Memory} {out l line p : Nat} {sda : Drive} {t : State}
  {next : Nat → Transfer} (h : Ready i half rd buf (l + 1) t)
include h

theorem reaches_header {addr : SlaveAddr} {w : Bool} (hc : Calls i none line 0 [] (.connect addr w) t t)
    (hnack : ∀ v : State, v.seq = [⟨none, line + 1, 0⟩] → v.res = false → Calls i none out 0 [] .stop v v)
    (hack : ∀ v : State, Ready i half rd buf (line + 1) v → Acked v → v.sdaO = true → v.res = true →
      Reaches out 0 sda (p + writeByteLen rd) v (next (p + writeByteLen rd))) :
    Reaches out 0 sda p t (afterByte half rd sda buf (header addr w) p next) :=
  reaches_afterByte h (fun _ hn hb => runs_callConnect (h.on h.seq) hn hb h.started hc) hnack hack

theorem reaches_register {reg : Byte} (hc : Calls i none line 0 [] (.writeByte reg) t t)
    (hnack : ∀ v : State, v.seq = [⟨none, line + 1, 0⟩] → v.res = false → Calls i none out 0 [] .stop v v)
    (hack : ∀ v : State, Ready i half rd buf (line + 1) v → Acked v → v.sdaO = true → v.res = true →
      Reaches out 0 sda (p + writeByteLen rd) v (next (p + writeByteLen rd))) :
    Reaches out 0 sda p t (afterByte half rd sda buf reg p next) :=
  reaches_afterByte h (fun _ hn hb => runs_callByte (h.on h.seq) hn hb hc) hnack hack

theorem reaches_afterRestart (hc : Calls i none line 0 [] .restart t t)
    (hrest : ∀ v, Ready i half rd buf (line + 1) v → Reaches out 0 sda (p + (restartOps half (pollOps rd)).length) v
      (next (p + (restartOps half (pollOps rd)).length))) :
    Reaches out 0 sda p t (afterRestart half rd p next) := by
  obtain ⟨hin, hq, rfl, rfl, rfl, -, hf, hcnt⟩ := h
  refine Reaches.bind rfl (fun hn _ => ?_) (fun e => hrest _ ?_) (keptView_restarted ⟨none, line + 1, 0⟩ t) rfl rfl rfl rfl rfl
  · have hpoll : 5 < (restartOps t.half (pollOps (halRdScl t.halcap))).length := by simp [restartOps]
    refine Runs.silently ((hin.on hq).runs hc) fun e he => ?_
    exact Runs.to (runs_restart (m := 0) ⟨hin.running, hin.busy, rfl⟩ (holdsClock_of_noStretch (noStretch_same hn rfl he) hpoll)) rfl
  · exact ⟨⟨hin.running, hin.busy, hin.latched⟩, rfl, rfl, rfl, rfl, rfl, hf, hcnt⟩

/-- `TXLOOP` over all bytes of a transmitting command (R124). -/
theorem reaches_txLoop {n : Count} (hloop : TxLoop i (l + 1) out n) (ha : Acked t) (hsda : t.sdaO = true)
    (htest : TxTest i none (l + 1) out n [] t { t with cnt := 0, idx := 0 }) :
    Reaches out 0 sda p t (txTransfer half rd sda buf p 0 (bufBytes buf n.toNat)) := by
  obtain ⟨hin, hq, rfl, rfl, rfl, -, -, -⟩ := h
  rw [bufBytes, List.range_eq_range']
  exact reaches_txTest hloop hin ha hsda hq (Nat.zero_add _) htest

/-- `RXLOOP` over all bytes of a receiving command (R125). -/
theorem reaches_rxLoop {n : Count} (hloop : RxLoop i (l + 1) out n) (ha : Acked t) (hsda : t.sdaO = true)
    (htest : RxTest i none (l + 1) out n [] t { t with cnt := 0, idx := 0 }) :
    Reaches out 0 sda p t (rxTransfer half rd sda n.toNat p 0 buf) := by
  obtain ⟨hin, hq, rfl, rfl, rfl, -, -, -⟩ := h
  exact reaches_rxTest hloop hin ha (fun _ => hsda) hq (Nat.zero_add _) htest

end Front

/-! ### The four commands -/

theorem composite_write (a : SlaveAddr) (n : Count) : Composite (.write a n) a true 5 where
  transfer := rfl
  starts _ hq hv := calls_start (exec_write a n) (fun _ => rfl) (.inl ⟨hq, hv⟩)
  connects s hq := calls_of_exec (exec_at_line (exec_write a n) hq) hq (.refl s)
  responds _ hq := answers_completed (exec_at_line (exec_write a n) hq)

theorem composite_read (a : SlaveAddr) (n : Count) : Composite (.read a n) a false 5 where
  transfer := rfl
  starts _ hq hv := calls_start (exec_read a n) (fun _ => rfl) (.inl ⟨hq, hv⟩)
  connects s hq := calls_of_exec (exec_at_line (exec_read a n) hq) hq (.refl s)
  responds _ hq := answers_completed (exec_at_line (exec_read a n) hq)

theorem composite_writeReg (a : SlaveAddr) (r : Byte) (n : Count) : Composite (.writeReg a r n) a true 7 where
  transfer := rfl
  starts _ hq hv := calls_start (exec_writeReg a r n) (fun _ => rfl) (.inl ⟨hq, hv⟩)
  connects s hq := calls_of_exec (exec_at_line (exec_writeReg a r n) hq) hq (.refl s)
  responds _ hq := answers_completed (exec_at_line (exec_writeReg a r n) hq)

theorem composite_readReg (a : SlaveAddr) (r : Byte) (n : Count) : Composite (.readReg a r n) a true 10 where
  transfer := rfl
  starts _ hq hv := calls_start (exec_readReg a r n) (fun _ => rfl) (.inl ⟨hq, hv⟩)
  connects s hq := calls_of_exec (exec_at_line (exec_readReg a r n) hq) hq (.refl s)
  responds _ hq := answers_completed (exec_at_line (exec_readReg a r n) hq)

/-- A line that goes on by the last acknowledge, after a NACK (R120 to R123). -/
theorem calls_stop_of_nack {i : Instr} {v : State} {o : Out} {l out : Nat} (h : exec i v = if v.res then o else leaveToStop out v)
    (hq : v.seq = [⟨none, l, 0⟩]) (hr : v.res = false) : Calls i none out 0 [] .stop v v :=
  calls_of_exec (h.trans (if_neg (Bool.eq_false_iff.1 hr))) hq (.refl v)

end Sys2Proof.Machine

namespace Sys2Proof

open Machine

/-- Settles O43: START, the header, `TXLOOP` over the bytes of `BUF`, STOP. -/
theorem writeTransfer : Obligations.WriteTransfer := by
  rintro addr n s T h hv rfl hn
  have hi := exec_write addr n
  have hc := composite_write addr n
  refine ⟨buf_afterByte fun p => buf_txTransfer p 0 _, transfers_framed hc h hv hn fun v hready => ?_⟩
  refine reaches_header hready (hc.connects v hready.seq) (fun u hq hr => calls_stop_of_nack (exec_at_line hi hq) hq hr)
    fun v hready hacked hsda hres => ?_
  exact reaches_txLoop hready (writeListing addr n).1 hacked hsda
    (txTest_of_exec ((exec_at_line hi hready.seq).trans (if_pos hres)) hready.seq (.silent rfl rfl rfl rfl))

/-- Settles O44: START, the header, `RXLOOP`, STOP. -/
theorem readTransfer : Obligations.ReadTransfer := by
  rintro addr n s T h hv rfl hn
  have hi := exec_read addr n
  have hc := composite_read addr n
  refine transfers_framed hc h hv hn fun v hready => ?_
  refine reaches_header hready (hc.connects v hready.seq) (fun u hq hr => calls_stop_of_nack (exec_at_line hi hq) hq hr)
    fun v hready hacked hsda hres => ?_
  exact reaches_rxLoop hready (readListing addr n).1 hacked hsda
    (rxTest_of_exec ((exec_at_line hi hready.seq).trans (if_pos hres)) hready.seq (.silent rfl rfl rfl rfl))

/-- Settles O45: as for `WRITE`, with the register byte between the header and `TXLOOP`. -/
theorem writeRegTransfer : Obligations.WriteRegTransfer := by
  rintro addr reg n s T h hv rfl hn
  have hi := exec_writeReg addr reg n
  have hc := composite_writeReg addr reg n
  refine ⟨buf_afterByte fun _ => buf_afterByte fun p => buf_txTransfer p 0 _, transfers_framed hc h hv hn fun v hready => ?_⟩
  refine reaches_header hready (hc.connects v hready.seq) (fun u hq hr => calls_stop_of_nack (exec_at_line hi hq) hq hr)
    fun v hready hacked _ hres => ?_
  have hregister := calls_of_exec ((exec_at_line hi hready.seq).trans (if_pos hres)) hready.seq (.refl v)
  refine reaches_register hready hregister (fun u hq hr => calls_stop_of_nack (exec_at_line hi hq) hq hr)
    fun v hready hacked hsda hres => ?_
  exact reaches_txLoop hready (writeRegListing addr reg n).1 hacked hsda
    (txTest_of_exec ((exec_at_line hi hready.seq).trans (if_pos hres)) hready.seq (.silent rfl rfl rfl rfl))

/-- Settles O46: header and register byte, RESTART and the second header, then `RXLOOP`. -/
theorem readRegTransfer : Obligations.ReadRegTransfer := by
  rintro addr reg n s T h hv rfl hn
  have hi := exec_readReg addr reg n
  have hc := composite_readReg addr reg n
  refine transfers_framed hc h hv hn fun v hready => ?_
  refine reaches_header hready (hc.connects v hready.seq) (fun u hq hr => calls_stop_of_nack (exec_at_line hi hq) hq hr)
    fun v hready hacked _ hres => ?_
  have hregister := calls_of_exec ((exec_at_line hi hready.seq).trans (if_pos hres)) hready.seq (.refl v)
  refine reaches_register hready hregister (fun u hq hr => calls_stop_of_nack (exec_at_line hi hq) hq hr)
    fun v hready _ _ hres => ?_
  have hrestart := calls_of_exec ((exec_at_line hi hready.seq).trans (if_pos hres)) hready.seq (.refl v)
  refine reaches_afterRestart hready hrestart fun v hready => ?_
  have hheader := calls_of_exec (exec_at_line hi hready.seq) hready.seq (.refl v)
  refine reaches_header hready hheader (fun u hq hr => calls_stop_of_nack (exec_at_line hi hq) hq hr)
    fun v hready hacked hsda hres => ?_
  exact reaches_rxLoop hready (readRegListing addr reg n).1 hacked hsda
    (rxTest_of_exec ((exec_at_line hi hready.seq).trans (if_pos hres)) hready.seq (.silent rfl rfl rfl rfl))

end Sys2Proof
end

section
/-! PROOFS. `INIT` and `DEINIT`: the half-period, the two listings, `DEINIT` as a run, and who writes the master state. -/

namespace Sys2Proof.Machine

/-! ### The half-period -/

theorem toNat_shiftRight_one (f : BitVec 32) : (f >>> 1).toNat = f.toNat / 2 := by simp [Nat.shiftRight_eq_div_pow]

/-- The rounded quotient is the nearest integer to `500000 / F`, a tie going up. -/
theorem roundedQuotient_nearest {F : Nat} (hF : 0 < F) :
    2 * F * ((500000 + F / 2) / F) ≤ 1000000 + F ∧ 1000000 + F < 2 * F * ((500000 + F / 2) / F + 1) := by
  have hdiv := Nat.div_add_mod (500000 + F / 2) F
  have hmod := Nat.mod_lt (500000 + F / 2) hF
  rw [Nat.mul_assoc, Nat.mul_assoc, Nat.mul_succ]
  omega

/-- A tie is a frequency whose quotient `1000000 / F` is odd: the factor 64 is in `F`, and the rest of `F` divides `5 ^ 6`. -/
theorem mem_ties_of_tie {F q : Nat} (h : 2 * F * q = 1000000 + F) : F ∈ [64, 320, 1600, 8000, 40000, 200000, 1000000] := by
  obtain ⟨k, rfl⟩ : ∃ k, q = k + 1 := Nat.exists_eq_succ_of_ne_zero (by rintro rfl; omega)
  have hodd : F * (2 * k + 1) = 64 * 5 ^ 6 := by linarith
  have hcoprime : Nat.Coprime (2 ^ 6) (2 * k + 1) := Nat.Coprime.pow_left 6 (by simp)
  obtain ⟨g, rfl⟩ : 64 ∣ F := hcoprime.dvd_of_dvd_mul_right ⟨5 ^ 6, hodd⟩
  have hrest : g ∣ 5 ^ 6 := ⟨2 * k + 1, by linarith⟩
  obtain ⟨j, hj, rfl⟩ := (Nat.dvd_prime_pow Nat.prime_five).1 hrest
  interval_cases j <;> decide

theorem tie_of_mem_ties {F : Nat} (h : F ∈ [64, 320, 1600, 8000, 40000, 200000, 1000000]) :
    2 * F * ((500000 + F / 2) / F) = 1000000 + F := by
  revert F
  decide

/-! ### `INIT` -/

theorem exec_init (h : BitVec 5) (f : BitVec 32) (s : State) : exec (.init h f) s = execInit h f s := rfl

/-- The last step of `INIT` with the half-period written out (R80, R82). -/
theorem answers_init {h : BitVec 5} {f : BitVec 32} {s : State}
    (hx : exec (.init h f) s =
      .next (respond .ok { s with halcap := h, freq := f, half := halfPeriod f, started := false, valid := true })) :
    Answers (.init h f) s [] (completed { s with
      halcap := h, freq := f, half := BitVec.ofNat 19 ((500000 + f.toNat / 2) / f.toNat), started := false, valid := true }) := by
  rw [← toNat_shiftRight_one]
  exact ⟨_, hx, (did_completed _).after rfl rfl rfl rfl⟩

/-- Settles O14: the two checks of dispatch, and the step past them. -/
theorem initListing : Obligations.InitListing := by
  intro s h f c p rest
  have hcap : halComplete h = true ↔ h &&& 0b11011 = 0b11011 := decide_eq_true_iff
  refine ⟨fun hq hv => ?_, fun hq hv hbad => ?_, ?_⟩
  · have hcheck : initCheck h f s = some .stateErr := if_pos hv
    exact refused_of_exec (by rw [exec_init, execInit, hcheck]) hq (by decide)
  · have hno : ¬(halComplete h = true ∧ f ≠ 0) := by
      rw [hcap]
      tauto
    have hcheck : initCheck h f s = some .configErr := by rw [initCheck, hv, if_neg Bool.false_ne_true, if_neg hno]
    exact refused_of_exec (by rw [exec_init, execInit, hcheck]) hq (by decide)
  · rintro (⟨hq, hv, hh, hf⟩ | hq)
    · have hcheck : initCheck h f s = none := by rw [initCheck, hv, if_neg Bool.false_ne_true, if_pos ⟨hcap.2 hh, hf⟩]
      refine answers_init ?_
      rw [exec_init, execInit, hcheck]
      exact asCommand_passes hq rfl _
    · refine answers_init ?_
      rw [exec_init, execInit]
      exact asCommand_line hq Nat.one_ne_zero _ _

/-! ### `DEINIT` -/

theorem exec_deinit (s : State) : exec .deinit s = execDeinit s := rfl

/-- The state once the master is gone (R81 steps 3 and 4). -/
def withoutMaster (s : State) : State := { s with halcap := 0, freq := 0, half := 0, valid := false }

theorem answers_tearDown {s : State} (h : exec .deinit s = tearDown s) : Answers .deinit s [] (completed (withoutMaster s)) :=
  ⟨_, h, (did_completed _).after rfl rfl rfl rfl⟩

/-- Dispatch and steps 1 and 2 ask whether a transaction is open (R81). -/
theorem exec_deinit_begins {s : State} {c : Option Instr} {p : Nat} {rest : List Frame}
    (hq : (s.seq = ⟨c, 0, p⟩ :: rest ∧ s.valid = true) ∨ s.seq = ⟨c, 1, p⟩ :: rest ∨ s.seq = ⟨c, 2, p⟩ :: rest) :
    exec .deinit s = if s.started then callAt 2 0 .stop s else tearDown s := by
  obtain ⟨hq, hv⟩ | hq | hq := hq
  · have hcheck : needsMaster s = none := by simp [needsMaster, hv]
    rw [exec_deinit, execDeinit, hcheck]
    exact asCommand_passes hq rfl _
  · exact exec_at_line exec_deinit hq
  · exact exec_at_line exec_deinit hq

theorem exec_deinit_last {s : State} {c : Option Instr} {p : Nat} {rest : List Frame} (hq : s.seq = ⟨c, 3, p⟩ :: rest) :
    exec .deinit s = tearDown s := exec_at_line exec_deinit hq

/-- Settles O16: dispatch refuses without a master; the lines before the `STOP` ask for it, the last line tears down. -/
theorem deinitListing : Obligations.DeinitListing := by
  intro s c p rest
  refine ⟨refused_without_master exec_deinit, fun hq => ⟨fun hs => ?_, fun hs => ?_⟩, fun hq => ?_⟩
  · obtain ⟨l, hl⟩ : ∃ l, s.seq = ⟨c, l, p⟩ :: rest := by
      obtain ⟨hq, -⟩ | hq | hq := hq <;> exact ⟨_, hq⟩
    exact calls_of_exec ((exec_deinit_begins hq).trans (if_pos hs)) hl (.refl s)
  · exact answers_tearDown ((exec_deinit_begins hq).trans (if_neg (Bool.eq_false_iff.1 hs)))
  · exact answers_tearDown (exec_deinit_last hq)

/-- The clock's hold after a step without a micro-operation. -/
theorem holdsClock_same {s t : State} {k m : Nat} (h : holdsClock s k m) (hcap : t.halcap = s.halcap)
    (ht : ∀ j, driveAt t j = driveAt s j) : holdsClock t k m := fun hrd => by
  simpa only [ht] using h (hcap ▸ hrd)

/-- The line of an accepted `DEINIT` that tears down and responds, with the word 0 (R81, R136). -/
theorem Accepted.runs_tearDown {s t : State} {l p : Nat} {rest : List Frame} (h : Accepted .deinit s)
    (hon : On .deinit none l p rest t) (hx : exec .deinit t = tearDown t) (hopc : t.opc = s.opc) (hackl : t.ackl = s.ackl)
    (hfault : t.fault = s.fault) :
    Runs t [] { withoutMaster t with rsp := 0, rspValid := true, seq := [], busy := false } := by
  have hop : isComposite s.opc = false := isComposite_of_latched h.latched
  have hrsp : packRsp (if isComposite t.opc = true then t.cnt else 0) t.ackl t.fault .ok = 0 := by
    rw [hopc, hackl, hfault, hop, if_neg Bool.false_ne_true, h.ackl, h.fault]
    decide
  rw [← hrsp]
  exact hon.runs (answers_tearDown hx)

/-- Settles O38: dispatch calls `STOP` (`runs_stop`) and tears down after it, or tears down at once. -/
theorem deinitRun : Obligations.DeinitRun := by
  refine ⟨fun m s h hv hs hc => ?_, fun s h hv hs => ?_⟩
  · have hcall := (exec_deinit_begins (.inl ⟨h.seq, hv⟩)).trans (if_pos hs)
    refine Runs.silently (h.on.runs (calls_of_exec hcall h.seq (.refl s))) fun e he => ?_
    refine Runs.ending (runs_stop ⟨h.running, h.busy, rfl⟩ (holdsClock_same hc rfl he)) fun e' => ?_
    exact Runs.to (h.runs_tearDown (h.onLine rfl rfl rfl rfl) (exec_deinit_last rfl) rfl rfl rfl) rfl
  · have hx := (exec_deinit_begins (.inl ⟨h.seq, hv⟩)).trans (if_neg (Bool.eq_false_iff.1 hs))
    exact h.runs_tearDown h.on hx rfl rfl rfl

/-! ### Who writes the master state -/

/-- `t` has the master registers of `s` (R11 to R14). -/
def SameMaster (s t : State) : Prop := t.valid = s.valid ∧ t.halcap = s.halcap ∧ t.freq = s.freq ∧ t.half = s.half

theorem sameMaster_of_held {s u x : State} (h : heldView u = heldView x) (hx : SameMaster s x) : SameMaster s u := by
  obtain ⟨hvalid, hhalcap, hfreq, hhalf⟩ := hx
  exact ⟨(congrArg State.valid h :).trans hvalid, (congrArg State.halcap h :).trans hhalcap,
    (congrArg State.freq h :).trans hfreq, (congrArg State.half h :).trans hhalf⟩

theorem LineWork.master {s u : State} {i : Instr} (h : LineWork s u i) :
    SameMaster s u ∨ i = .deinit ∨ ∃ halcap freq, i = .init halcap freq := by
  cases h with
  | init halcap freq => exact .inr (.inr ⟨halcap, freq, rfl⟩)
  | deinit => exact .inr (.inl rfl)
  | none _ h | start h | restart h | stop h | writeByte _ h | readByte _ h | read _ _ _ h | readReg _ _ _ _ h =>
    exact .inl (sameMaster_of_held h ⟨rfl, rfl, rfl, rfl⟩)

/-- Settles O17: acceptance, idling and responses keep the master registers; the lines are `LineWork.master`. -/
theorem masterLifetime : Obligations.MasterLifetime := by
  intro s t hr h
  cases step_work hr h with
  | accepts _ _ _ h | idles _ h | refuses _ h =>
    rw [h]
    exact .inl ⟨rfl, rfl, rfl, rfl⟩
  | works i _ hf h =>
    rw [hf]
    exact h.master.imp_right (by simp)
  | responds i c u _ hf hw h =>
    rw [hf, h]
    exact hw.master.imp_right (by simp)

end Sys2Proof.Machine

namespace Sys2Proof

open Machine

/-- Settles O15: the rounded quotient of `halfPeriod_toNat`, its bounds, and its ties. -/
theorem halfPeriod : Obligations.HalfPeriod := by
  refine ⟨fun f hf => ?_, by decide, by decide, by decide, by decide, by decide, by decide, by decide⟩
  have hpos : 0 < f.toNat := Nat.pos_of_ne_zero fun h => hf (BitVec.eq_of_toNat_eq h)
  obtain ⟨hlow, hhigh⟩ := roundedQuotient_nearest hpos
  have hshift := toNat_shiftRight_one f
  have hhalf := halfPeriod_toNat hf
  rw [hshift] at hhalf
  rw [hhalf, hshift]
  refine ⟨by have := f.isLt; omega, rfl, ?_, hlow, hhigh, mem_ties_of_tie, tie_of_mem_ties⟩
  exact Nat.div_le_of_le_mul (by omega)

end Sys2Proof
end

section
/-! PROOFS. The bit engine: the listings of `WRITE_BIT` and `READ_BIT`, their bit cells, and the clock held low at a `Stretch()` line. -/

namespace Sys2Proof.Machine

/-! ### The `Stretch()` line -/

/-- A poll that finds the clock low changes nothing but the listing variable (R92). -/
theorem did_pollLow {s : State} (hl : level .scl (peerMove s) = false) :
    Did s [.lineRead .scl false] (lineRead .scl s) { s with res := false } := by
  rw [← hl]
  exact did_lineRead .scl s

/-- A line of `i` that is `Stretch()`, with the `Delay(HALF)` of the next line to skip to, goes its three ways (R92). -/
theorem stretchLine_of_exec {i : Instr} {s : State} {c : Option Instr} {line p : Nat} {rest : List Frame}
    (h : exec i s = stretch (line + 1) (fun x => .next (goto (line + 2) (delay x))) s) (hq : s.seq = ⟨c, line, p⟩ :: rest) :
    StretchLine i c line p rest s := by
  refine ⟨fun hrd hlow => ?_, fun hrd hhigh => ?_, fun hrd => ?_⟩
  · rw [← level_scl_peerMove] at hlow
    rw [← hq]
    exact ⟨_, h.trans (stretch_low hrd hlow _ _), did_pollLow hlow⟩
  · rw [← level_scl_peerMove] at hhigh
    have hread := did_lineRead_goto hq .scl (line + 1)
    rw [hhigh] at hread
    exact ⟨_, h.trans (stretch_high hrd hhigh _ _), hread⟩
  · exact answers_delay (h.trans (stretch_skip hrd _ _)) hq

/-! ### The listings -/

/-- Settles O18: every line is one shared operation. -/
theorem writeBitListing : Obligations.WriteBitListing := by
  intro v s c p rest
  have hi := exec_writeBit v
  refine ⟨fun hq => ?_, fun hq => ?_, fun hq => ?_, fun hq => ?_, fun hq => ?_, fun hq => ?_, fun hq => ?_⟩
  · exact answers_lineWrite (exec_callee_line hi hq) hq
  · exact answers_delay (exec_callee_line hi hq) hq
  · exact answers_lineWrite (exec_callee_line hi hq) hq
  · exact answers_lineWrite (exec_callee_line hi hq) hq
  · exact stretchLine_of_exec (exec_callee_line hi hq) hq
  · exact answers_delay (exec_callee_line hi hq) hq
  · exact ends_of_exec (exec_callee_line hi hq) hq (.refl s)

/-- Settles O19: every line is one shared operation. -/
theorem readBitListing : Obligations.ReadBitListing := by
  intro s c p rest
  have hi := exec_readBit
  refine ⟨fun hq => ?_, fun hq => ?_, fun hq => ?_, fun hq => ?_, fun hq => ?_, fun hq => ?_, fun hq => ?_, fun hq => ?_⟩
  · exact answers_lineWrite (exec_callee_line hi hq) hq
  · exact answers_lineWrite (exec_callee_line hi hq) hq
  · exact answers_delay (exec_callee_line hi hq) hq
  · exact answers_lineWrite (exec_callee_line hi hq) hq
  · exact stretchLine_of_exec (exec_callee_line hi hq) hq
  · exact answers_delay (exec_callee_line hi hq) hq
  · exact answers_lineRead_sda rfl (exec_callee_line hi hq) hq
  · exact ends_of_exec (exec_callee_line hi hq) hq (.refl s)

/-! ### The bit cells -/

/-- Settles O20: the called `WRITE_BIT` is `runs_writeBit`. -/
theorem writeBitCell : Obligations.WriteBitCell := fun _ _ _ _ _ h hc => runs_writeBit h hc

/-- Settles O21: the called `READ_BIT` is `runs_readBit`. -/
theorem readBitCell : Obligations.ReadBitCell := fun _ _ _ _ _ h hc hb => runs_readBit h hc hb

/-! ### The clock held low -/

/-- At a `Stretch()` line the routine of the top frame polls: `WRITE_BIT` and `READ_BIT` in line 5, `STOP` and `RESTART` in line 6. -/
theorem exec_atStretch {s : State} (h : atStretch s = true) :
    ∃ i after skip, fetch s = some i ∧ exec i s = stretch after skip s := by
  match hq : s.seq with
  | [] => simp [atStretch, hq] at h
  | ⟨c, line, p⟩ :: rest =>
    have hfetch : fetch s = frameInstr ⟨c, line, p⟩ s := by rw [fetch, hq]
    simp only [atStretch, hq] at h
    rw [hfetch]
    split at h
    next v hf =>
      obtain rfl : line = 5 := eq_of_beq h
      exact ⟨_, _, _, hf, exec_callee_line (exec_writeBit v) hq⟩
    next hf =>
      obtain rfl : line = 5 := eq_of_beq h
      exact ⟨_, _, _, hf, exec_callee_line exec_readBit hq⟩
    next hf =>
      obtain rfl : line = 6 := eq_of_beq h
      exact ⟨_, _, _, hf, exec_at_line exec_stop hq⟩
    next hf =>
      obtain rfl : line = 6 := eq_of_beq h
      exact ⟨_, _, _, hf, exec_callee_line exec_restart hq⟩
    next => exact absurd h Bool.false_ne_true

/-- A step at a `Stretch()` line whose clock reads low is one poll (R92). -/
theorem step_pollLow {s : State} (hr : s.rstIn = false) (hb : s.busy = true) (hat : atStretch s = true)
    (hrd : halRdScl s.halcap = true) (hl : level .scl (peerMove s) = false) : step s = .next (lineRead .scl s) := by
  obtain ⟨i, after, skip, hf, hx⟩ := exec_atStretch hat
  exact (step_busy hr hb hf).trans (hx.trans (stretch_low hrd hl after skip))

/-- A poll moves neither `SEQ` nor the latches. -/
theorem atStretch_lineRead (l : Line) (s : State) : atStretch (lineRead l s) = atStretch s := rfl

/-- Settles O22: by induction on the polls; one that reads low leaves the controller at the same `Stretch()` line. -/
theorem stretchHang : Obligations.StretchHang := by
  intro k
  induction k with
  | zero => exact fun s _ _ _ _ _ => ⟨s, runSteps_zero s, .refl s⟩
  | succ k ih =>
    intro s hr hb hat hrd hlow
    have hlevel : level .scl (peerMove s) = false := by
      rw [level_scl_peerMove, hlow 0 (Nat.succ_pos k), Bool.and_false]
    have hpoll := did_pollLow hlevel
    have hlater (j : Nat) (hj : j < k) : (driveAt (lineRead .scl s) j).1 = false := by
      rw [hpoll.driveAt, List.length_singleton, Nat.add_comm]
      exact hlow (j + 1) (Nat.succ_lt_succ hj)
    obtain ⟨t, hrun, hdid⟩ := ih (lineRead .scl s) hr hb ((atStretch_lineRead .scl s).trans hat) hrd hlater
    refine ⟨t, (runSteps_next (step_pollLow hr hb hat hrd hlevel) k).trans hrun, (hpoll.trans hdid).congr ?_⟩
    have hres : (if k = 0 then (lineRead .scl s).res else false) = false := by
      rw [lineRead_res, hlevel, ite_self]
    rw [hres, if_neg (Nat.succ_ne_zero k)]
    rfl

end Sys2Proof.Machine
end

section
/-! PROOFS. The byte engine: the listings of `WRITE_BYTE` and `READ_BYTE`, and the read-back of the ninth bit. -/

namespace Sys2Proof.Machine

/-! ### The listings -/

/-- The line that ends a bit of the byte, as `BITK` says: the last bit is done or the next one is due (R100, R101 steps 2 and 3). -/
theorem ifLastBit_of_exec {i : Instr} {s : State} {P Q : Prop} {a b : Out} (h : exec i s = if s.bitk = 0 then a else b)
    (ha : exec i s = a → P) (hb : s.bitk ≠ 0 → exec i s = b → Q) : (0 < s.bitk.toNat → Q) ∧ (s.bitk = 0 → P) := by
  refine ⟨fun hpos => ?_, fun hzero => ha (h.trans (if_pos hzero))⟩
  have hne : s.bitk ≠ 0 := fun hzero => by simp [hzero] at hpos
  exact hb hne (h.trans (if_neg hne))

/-- Counting `BITK` down names the bit below (R100 step 2). -/
theorem byteBit_pred {k : BitVec 3} (d : Byte) (hk : k ≠ 0) : byteBit d (k - 1) = d.getLsbD (k.toNat - 1) := by
  obtain ⟨j, hj⟩ := Nat.exists_eq_succ_of_ne_zero fun hzero => hk (BitVec.eq_of_toNat_eq hzero)
  rw [byteBit, toNat_pred hj, hj, Nat.succ_sub_one]

/-- Settles O25: the loop line goes on or leaves as `BITK` says, every other line is one shared operation. -/
theorem writeByteListing : Obligations.WriteByteListing := by
  intro d s c p rest
  have hi := exec_writeByte d
  refine ⟨fun hq => ?_, fun hq => ?_, fun hq => ?_, fun hq => ?_, fun hq => ?_, fun hq => ?_⟩
  · exact calls_of_exec (exec_callee_line hi hq) hq (.silent rfl rfl rfl rfl)
  · exact calls_of_exec (exec_callee_line hi hq) hq (.refl s)
  · refine ifLastBit_of_exec (exec_callee_line hi hq) (fun e => calls_of_exec e hq (.refl s)) fun hne e => ?_
    rw [← byteBit_pred s.shreg hne]
    exact calls_of_exec e hq (.silent rfl rfl rfl rfl)
  · exact calls_of_exec (exec_callee_line hi hq) hq (.refl s)
  · exact ends_of_exec (exec_callee_line hi hq) hq (.silent rfl rfl rfl rfl)
  · exact ends_of_exec (exec_callee_line hi hq) hq (.silent rfl rfl rfl rfl)

/-- Settles O26: the sample goes into `SHREG` as `setByteBit` says, the loop line goes on or leaves as `BITK` says, and every other line
is one shared operation. -/
theorem readByteListing : Obligations.ReadByteListing := by
  intro final s c p rest
  have hi := exec_readByte final
  refine ⟨fun hq => ?_, fun hq => ?_, fun hq => ?_, fun hq => ?_, fun hq => ?_, fun hq => ?_, fun hq => ?_⟩
  · exact calls_of_exec (exec_callee_line hi hq) hq (.silent rfl rfl rfl rfl)
  · exact calls_of_exec (exec_callee_line hi hq) hq (.refl s)
  · exact ⟨setByteBit s.shreg s.bitk s.res, getLsbD_setByteBit s.shreg s.bitk s.res,
      ifLastBit_of_exec (exec_callee_line hi hq) (fun e => calls_of_exec e hq (.silent rfl rfl rfl rfl))
        fun _ e => calls_of_exec e hq (.silent rfl rfl rfl rfl)⟩
  · exact calls_of_exec (exec_callee_line hi hq) hq (.refl s)
  · exact answers_lineRead_sda rfl (exec_callee_line hi hq) hq
  · exact ends_of_exec (exec_callee_line hi hq) hq (.silent rfl rfl rfl rfl)
  · exact ends_of_exec (exec_callee_line hi hq) hq (.refl s)

/-! ### The read-back of the ninth bit -/

/-- What the invariant says of a called routine at its line. -/
theorem inv_called {s : State} {i : Instr} {l p : Nat} {rest : List Frame} (h : inv s = true)
    (hq : s.seq = ⟨some i, l, p⟩ :: rest) : s.busy = true ∧ topOk i l p s = true ∧ callersOk s i rest = true := by
  simp only [inv, seqOk, hq, Bool.and_eq_true] at h
  obtain ⟨-, ⟨⟨⟨busy, -⟩, -⟩, top⟩, callers⟩ := h
  exact ⟨busy, top, callers⟩

/-- The controller drives an acknowledge low itself, so that it cannot have read back high (R102). -/
theorem acknowledge_reads_low {s : State} {final : Bool} {p : Nat} (h : topOk (.readByte final) 6 p s = true) :
    final = true ∨ s.res = false := by
  simp only [topOk, readByteAt, Bool.and_eq_true, Bool.or_eq_true, Bool.not_eq_true'] at h
  obtain ⟨-, -, hback⟩ := h
  exact hback

/-- Against a ninth bit that cannot read back high when it is 0, a difference is a NACK that reads low (R102). -/
theorem fltOf_eq_nackLow {sample final : Bool} (h : final = true ∨ sample = false) : fltOf sample final = (final && !sample) := by
  obtain rfl | rfl := h <;> simp [fltOf]

/-- Step 6 of a called `READ_BYTE` leaves in `FLT` whether the ninth bit read back differently (R101). -/
theorem step_readByte_flt {s t : State} {final : Bool} {p : Nat} {caller : Frame} {below : List Frame} (hr : s.rstIn = false)
    (hb : s.busy = true) (hq : s.seq = ⟨some (.readByte final), 6, p⟩ :: caller :: below) (h : step s = .next t) :
    t.flt = fltOf s.res final := by
  have hline : step s = finish { s with flt := fltOf s.res final } :=
    (step_callee hr hb hq).trans (exec_callee_line (exec_readByte final) hq)
  have hreturn := hline.trans (finish_return (s := { s with flt := fltOf s.res final }) hq)
  cases h.symm.trans hreturn
  rfl

/-- Settles O29: the step leaves the difference in `FLT`, and the invariant shuts out an acknowledge that reads high. -/
theorem ninthBitReadBack : Obligations.NinthBitReadBack := by
  intro s t final p rest hinv hr hq h
  obtain ⟨busy, top, callers⟩ := inv_called hinv hq
  obtain ⟨f, l, q, -, below, rfl, -⟩ := callers_cases callers
  exact (step_readByte_flt hr busy hq h).trans (fltOf_eq_nackLow (acknowledge_reads_low top))

end Sys2Proof.Machine
end

section
/-! PROOFS. The condition generator: the listings of `START`, `STOP` and `RESTART` and the three as runs. -/

namespace Sys2Proof.Machine

/-! ### The listings -/

/-- The first line of a command that begins with a `LineWrite`, reached at dispatch or at step 1 (R131, R132). -/
theorem answers_firstLineWrite {i : Instr} {body : State → Nat → Nat → Out}
    (hi : ∀ s, exec i s = asCommand (needsMaster s) (body s) s) {s : State} {c : Option Instr} {p : Nat} {rest : List Frame}
    {L : Line} {b : Bool} (hbody : ∀ p, body s 1 p = .next (goto 2 (lineWrite L b s)))
    (hq : (s.seq = ⟨c, 0, p⟩ :: rest ∧ s.valid = true) ∨ s.seq = ⟨c, 1, p⟩ :: rest) :
    Answers i s [.lineWrite L b] { setLatch L b s with seq := ⟨c, 2, 0⟩ :: rest } := by
  obtain ⟨hq, hv⟩ | hq := hq
  · have hcheck : needsMaster s = none := by simp [needsMaster, hv]
    refine answers_lineWrite ?_ hq
    rw [hi, hcheck, asCommand_passes hq rfl, hbody]
  · exact answers_lineWrite ((exec_at_line hi hq).trans (hbody p)) hq

/-- Settles O30: past dispatch every line is one shared operation. -/
theorem startListing : Obligations.StartListing := by
  intro s c p rest
  have hi := exec_start
  refine ⟨fun hq hv => ?_, fun hq => ?_, fun hq => ?_, fun hq => ?_, fun hq => ?_, fun hq => ?_, fun hq => ?_⟩
  · exact refused_without_master hi hq hv
  · exact answers_firstLineWrite hi (fun _ => rfl) hq
  · exact answers_delay (exec_at_line hi hq) hq
  · exact answers_lineWrite (exec_at_line hi hq) hq
  · exact answers_delay (exec_at_line hi hq) hq
  · exact ends_of_exec (exec_at_line hi hq) hq (.silent rfl rfl rfl rfl)
  · exact ends_of_exec (exec_at_line hi hq) hq (.refl s)

/-- Settles O31: past dispatch every line is one shared operation. -/
theorem stopListing : Obligations.StopListing := by
  intro s c p rest
  have hi := exec_stop
  refine ⟨fun hq hv => ?_, fun hq => ?_, fun hq => ?_, fun hq => ?_, fun hq => ?_, fun hq => ?_, fun hq => ?_, fun hq => ?_,
    fun hq => ?_, fun hq => ?_, fun hq => ?_, fun hq => ?_⟩
  · exact refused_without_master hi hq hv
  · exact answers_firstLineWrite hi (fun _ => rfl) hq
  · exact answers_delay (exec_at_line hi hq) hq
  · exact answers_lineWrite (exec_at_line hi hq) hq
  · exact answers_delay (exec_at_line hi hq) hq
  · exact answers_lineWrite (exec_at_line hi hq) hq
  · exact stretchLine_of_exec (exec_at_line hi hq) hq
  · exact answers_delay (exec_at_line hi hq) hq
  · exact answers_lineWrite (exec_at_line hi hq) hq
  · exact answers_delay (exec_at_line hi hq) hq
  · exact ends_of_exec (exec_at_line hi hq) hq (.silent rfl rfl rfl rfl)
  · exact ends_of_exec (exec_at_line hi hq) hq (.refl s)

/-- Settles O32: every line is one shared operation. -/
theorem restartListing : Obligations.RestartListing := by
  intro s c p rest
  have hi := exec_restart
  refine ⟨fun hq => ?_, fun hq => ?_, fun hq => ?_, fun hq => ?_, fun hq => ?_, fun hq => ?_, fun hq => ?_, fun hq => ?_,
    fun hq => ?_, fun hq => ?_, fun hq => ?_⟩
  · exact answers_lineWrite (exec_callee_line hi hq) hq
  · exact answers_delay (exec_callee_line hi hq) hq
  · exact answers_lineWrite (exec_callee_line hi hq) hq
  · exact answers_delay (exec_callee_line hi hq) hq
  · exact answers_lineWrite (exec_callee_line hi hq) hq
  · exact stretchLine_of_exec (exec_callee_line hi hq) hq
  · exact answers_delay (exec_callee_line hi hq) hq
  · exact answers_lineWrite (exec_callee_line hi hq) hq
  · exact answers_delay (exec_callee_line hi hq) hq
  · exact ends_of_exec (exec_callee_line hi hq) hq (.silent rfl rfl rfl rfl)
  · exact ends_of_exec (exec_callee_line hi hq) hq (.refl s)

/-! ### The commands as runs

A command past its checks does at dispatch what it does at step 1, so its run is one from step 1 on. -/

section Commands
variable {i : Instr} {s t u : State} {ops : List MicroOp}

/-- Dispatch is folded into step 1 (R131, R132; log 1). -/
theorem Accepted.step_atFirstLine (h : Accepted i s) (hc : dispatchCheck i s = none) : step (atFirstLine s) = step s := by
  have hi : i.issuable = true := issuable_of_decode h.word
  calc step (atFirstLine s) = exec i (atFirstLine s) :=
      step_command (s := atFirstLine s) h.running h.busy rfl Nat.one_ne_zero h.latched
    _ = firstLine i (atFirstLine s) := exec_firstLine rfl hi
    _ = firstLine i s := firstLine_atFirstLine h.seq i
    _ = exec i s := (exec_begins h.seq hi hc).symm
    _ = step s := (step_dispatch h.running h.busy h.seq h.word).symm

theorem Accepted.runs_of_firstLine (h : Accepted i s) (hc : dispatchCheck i s = none) (hops : ops ≠ [])
    (hrun : Runs (atFirstLine s) ops u) : Runs s ops u := by
  obtain ⟨k, t, hk, hdid⟩ := hrun
  cases k with
  | zero =>
    cases hk
    have htime := hdid.time
    exact absurd (List.eq_nil_of_length_eq_zero (by omega)) hops
  | succ k =>
    refine ⟨k + 1, t, ?_, hdid.after rfl rfl rfl rfl⟩
    rw [runSteps, h.step_atFirstLine hc] at hk
    rw [runSteps, hk]

/-- The last line of a command that carries no count, its register work having made `u` of `t`: the response word is 0 (R68, R136). -/
theorem Accepted.responds {l p : Nat} {rest : List Frame} (h : Accepted i s) (hi : isTransfer i = false)
    (hon : On i none l p rest t) (hx : exec i t = finish u) (hq : u.seq = t.seq) (hw : Did t [] u u)
    (hv : latchView u = latchView s) (hackl : u.ackl = s.ackl) (hfault : u.fault = s.fault) :
    Runs t [] { u with rsp := 0, rspValid := true, seq := [], busy := false } := by
  have hop : isComposite u.opc = false := (isComposite_of_latched ((latchedCommand_congr hv).trans h.latched)).trans hi
  have hrsp : packRsp (if isComposite u.opc = true then u.cnt else 0) u.ackl u.fault .ok = 0 := by
    rw [hop, if_neg Bool.false_ne_true, hackl, hfault, h.ackl, h.fault]
    decide
  rw [← hrsp]
  exact hon.runs ((ends_of_exec hx (hq.trans hon.seq) hw).1 rfl)

end Commands

section Lines
variable {s : State} {c : Option Instr} {rest : List Frame} {m : Nat}

/-- `START` up to its last line, called or as a command (R110). -/
theorem runs_startLines (h : On .start c 1 0 rest s) :
    Runs s (startOps s.half) { s with sdaO := false, seq := ⟨c, 5, 0⟩ :: rest } := by
  have hi := exec_start
  have lines : Straight .start c rest 1 [.write .sda true, .delay, .write .sda false, .delay] :=
    ⟨fun _ hq => exec_at_line hi hq, fun _ hq => exec_at_line hi hq, fun _ hq => exec_at_line hi hq, fun _ hq => exec_at_line hi hq,
      trivial⟩
  exact Runs.to (runs_straight _ lines h) rfl

/-- `STOP` up to its last line, called or as a command, the peer holding the clock low for `m` polls (R111, R92). -/
theorem runs_stopLines (h : On .stop c 1 0 rest s) (hc : holdsClock s 5 m) :
    Runs s (stopOps s.half (pollsOf (halRdScl s.halcap) m))
      { s with sclO := true, sdaO := true, res := polledRes s, seq := ⟨c, 10, 0⟩ :: rest } := by
  have hi := exec_stop
  have down : Straight .stop c rest 1 [.write .scl false, .delay, .write .sda false, .delay, .write .scl true] :=
    ⟨fun _ hq => exec_at_line hi hq, fun _ hq => exec_at_line hi hq, fun _ hq => exec_at_line hi hq, fun _ hq => exec_at_line hi hq,
      fun _ hq => exec_at_line hi hq, trivial⟩
  have rise : Straight .stop c rest 8 [.write .sda true, .delay] :=
    ⟨fun _ hq => exec_at_line hi hq, fun _ hq => exec_at_line hi hq, trivial⟩
  rw [stopOps, append_append_cons]
  refine Runs.bind (runs_clockHigh (next := 8) _ down rfl (fun _ hq => exec_at_line hi hq) (fun _ hq => exec_at_line hi hq) h hc)
    fun e _ => ?_
  exact Runs.to (runs_straight _ rise (h.move rfl rfl rfl rfl)) rfl

end Lines

theorem needsMaster_valid {s : State} (hv : s.valid = true) : needsMaster s = none := by simp [needsMaster, hv]

/-- Settles O34: called it is `runs_start`, as a command its lines are `runs_startLines` and the last one responds. -/
theorem startRun : Obligations.StartRun := by
  refine ⟨fun s caller below h => runs_start h, fun s h hv => ?_⟩
  refine h.runs_of_firstLine (needsMaster_valid hv) (List.cons_ne_nil _ _) ?_
  refine Runs.ending (runs_startLines (h.onLine rfl rfl rfl rfl)) fun e => ?_
  exact Runs.to (h.responds rfl (h.onLine rfl rfl rfl rfl) (exec_at_line exec_start (l := 4) rfl) rfl (.silent rfl rfl rfl rfl)
    rfl rfl rfl) rfl

/-- Settles O35: called it is `runs_stop`, as a command its lines are `runs_stopLines` and the last one responds. -/
theorem stopRun : Obligations.StopRun := by
  refine ⟨fun m s caller below h hc => runs_stop h hc, fun m s h hv hc => ?_⟩
  refine h.runs_of_firstLine (needsMaster_valid hv) (List.cons_ne_nil _ _) ?_
  refine Runs.ending (runs_stopLines (h.onLine rfl rfl rfl rfl) hc) fun e => ?_
  exact Runs.to (h.responds rfl (h.onLine rfl rfl rfl rfl) (exec_at_line exec_stop (l := 9) rfl) rfl (.silent rfl rfl rfl rfl)
    rfl rfl rfl) rfl

/-- Settles O36: the called `RESTART` is `runs_restart`. -/
theorem restartRun : Obligations.RestartRun := fun _ _ _ _ h hc => runs_restart h hc

end Sys2Proof.Machine
end

section
/-! PROOFS. Who writes the data line while the clock is released: the lines of the condition generator, and nothing else. -/

namespace Sys2Proof.Machine

/-- The lines of the condition generator that write `SDA` under a released clock: the routine, the line after it, the value written
(R110 steps 1 and 3, R111 step 8, R112 step 8). -/
inductive ConditionWrite : Instr → Nat → Bool → Prop
  | startRelease : ConditionWrite .start 2 true
  | startFall : ConditionWrite .start 4 false
  | stopRise : ConditionWrite .stop 9 true
  | restartFall : ConditionWrite .restart 9 false

/-- If `o` is a next state that a `LineWrite(SDA)` led to, it was written by a line of the condition generator. -/
structure ConditionOnly (i : Instr) (s : State) (o : Out) : Prop where
  of_next : ∀ t e b, o = .next t → t.trace = e :: s.trace → e.op = .lineWrite .sda b →
    ∃ line, ConditionWrite i line b ∧ t = goto line (lineWrite .sda b s)

/-! ### The shared operations -/

section Operations
variable {i : Instr} {s u : State}

@[simp] theorem conditionOnly_fault (r : Fault) : ConditionOnly i s (.fault r) := ⟨fun _ _ _ h => by cases h⟩

@[simp] theorem ConditionOnly.ite {c : Prop} [Decidable c] {a b : Out} (ha : ConditionOnly i s a) (hb : ConditionOnly i s b) :
    ConditionOnly i s (if c then a else b) := by
  split
  · exact ha
  · exact hb

/-- A step without a micro-operation. -/
theorem conditionOnly_silent {t : State} (htr : t.trace = s.trace) : ConditionOnly i s (.next t) := by
  constructor
  rintro _ e b ⟨⟩ h
  exact absurd (htr.symm.trans h) (List.cons_ne_self e s.trace).symm

/-- A step with a micro-operation that does not write the data line. -/
theorem conditionOnly_event {t : State} {e : Event} (htr : t.trace = e :: s.trace) (he : ∀ b, e.op ≠ .lineWrite .sda b) :
    ConditionOnly i s (.next t) := by
  constructor
  rintro _ e' b ⟨⟩ h hop
  rw [← (List.cons.inj (htr.symm.trans h)).1] at hop
  exact absurd hop (he b)

theorem conditionOnly_write {line : Nat} {b : Bool} (h : ConditionWrite i line b) :
    ConditionOnly i s (.next (goto line (lineWrite .sda b s))) := by
  constructor
  rintro _ e b' ⟨⟩ htr hop
  rw [goto_trace, lineWrite_trace] at htr
  rw [← (List.cons.inj htr).1] at hop
  cases hop
  exact ⟨line, h, rfl⟩

@[simp] theorem conditionOnly_clock (line : Nat) (b : Bool) : ConditionOnly i s (.next (goto line (lineWrite .scl b s))) :=
  conditionOnly_event (by rw [goto_trace, lineWrite_trace]) (by simp)

@[simp] theorem conditionOnly_lineRead (line : Nat) (L : Line) : ConditionOnly i s (.next (goto line (lineRead L s))) :=
  conditionOnly_event (by rw [goto_trace, lineRead_trace]) (by simp)

@[simp] theorem conditionOnly_delay (line : Nat) : ConditionOnly i s (.next (goto line (delay s))) :=
  conditionOnly_event (by rw [goto_trace, delay_trace]) (by simp)

@[simp] theorem conditionOnly_highPhase : ConditionOnly i s (highPhase s) := conditionOnly_delay 7

@[simp] theorem conditionOnly_stretch {skip : State → Out} (h : ConditionOnly i s (skip s)) (after : Nat) :
    ConditionOnly i s (stretch after skip s) :=
  .ite (.ite (conditionOnly_lineRead after .scl) (conditionOnly_event (lineRead_trace .scl s) (by simp))) h

@[simp] theorem conditionOnly_callAt (line loop : Nat) (r : Instr) (htr : u.trace = s.trace) :
    ConditionOnly i s (callAt line loop r u) :=
  conditionOnly_silent htr

@[simp] theorem conditionOnly_respond (c : Code) (htr : u.trace = s.trace) : ConditionOnly i s (.next (respond c u)) :=
  conditionOnly_silent htr

@[simp] theorem conditionOnly_finish (htr : u.trace = s.trace) : ConditionOnly i s (finish u) := by
  unfold finish
  split
  · exact conditionOnly_fault _
  · split
    · exact conditionOnly_respond .ok htr
    · split
      · exact conditionOnly_fault _
      · exact conditionOnly_silent htr

theorem conditionOnly_withPos {body : Nat → Nat → Out} (h : ∀ line loop, ConditionOnly i s (body line loop)) :
    ConditionOnly i s (withPos s body) := by
  unfold withPos
  split
  · exact conditionOnly_fault _
  · exact h _ _

theorem conditionOnly_asCommand {check : Option Code} {body : Nat → Nat → Out} (h : ∀ line loop, ConditionOnly i s (body line loop)) :
    ConditionOnly i s (asCommand check body s) := by
  refine conditionOnly_withPos fun line loop => ?_
  cases line with
  | zero =>
    cases check with
    | none => exact h 1 0
    | some c => exact conditionOnly_respond c rfl
  | succ k => exact h (k + 1) loop

@[simp] theorem conditionOnly_connectNotStarted : ConditionOnly i s (connectNotStarted s) := by
  unfold connectNotStarted
  split
  · exact conditionOnly_respond .notStarted rfl
  · exact conditionOnly_finish rfl

@[simp] theorem conditionOnly_tearDown : ConditionOnly i s (tearDown s) := conditionOnly_silent rfl

@[simp] theorem conditionOnly_sendBit (htr : u.trace = s.trace) : ConditionOnly i s (sendBit u) := conditionOnly_callAt 2 0 _ htr

/-! The transfer loops. -/

@[simp] theorem conditionOnly_leaveToStop (out : Nat) (htr : u.trace = s.trace) : ConditionOnly i s (leaveToStop out u) :=
  conditionOnly_callAt out 0 .stop htr

@[simp] theorem conditionOnly_txFetch (line : Nat) (htr : u.trace = s.trace) : ConditionOnly i s (txFetch line u) :=
  .ite (conditionOnly_event (congrArg (List.cons _) htr) (by simp)) (conditionOnly_fault _)

@[simp] theorem conditionOnly_txTest (line out : Nat) (n : Count) (htr : u.trace = s.trace) :
    ConditionOnly i s (txTest line out n u) :=
  .ite (conditionOnly_leaveToStop out htr) (conditionOnly_txFetch line htr)

@[simp] theorem conditionOnly_txLoop (line out : Nat) (n : Count) (loop : Nat) : ConditionOnly i s (txLoop line out n loop s) := by
  unfold txLoop
  split
  · exact conditionOnly_txTest line out n rfl
  · exact conditionOnly_txTest line out n rfl
  · exact conditionOnly_txFetch line rfl
  · exact conditionOnly_callAt line 4 _ rfl
  · exact .ite (conditionOnly_txTest line out n rfl) (conditionOnly_leaveToStop out rfl)
  · exact conditionOnly_txTest line out n rfl
  · exact conditionOnly_fault _

@[simp] theorem conditionOnly_rxStore (v : Byte) (line loop : Nat) :
    ConditionOnly i s (memWrite v s fun x => .next (setPos line loop x)) :=
  .ite (conditionOnly_event rfl (by simp)) (conditionOnly_fault _)

@[simp] theorem conditionOnly_rxTest (line out : Nat) (n : Count) (htr : u.trace = s.trace) :
    ConditionOnly i s (rxTest line out n u) :=
  .ite (conditionOnly_leaveToStop out htr) (conditionOnly_callAt line 3 _ htr)

@[simp] theorem conditionOnly_rxLoop (line out : Nat) (n : Count) (loop : Nat) : ConditionOnly i s (rxLoop line out n loop s) := by
  unfold rxLoop
  split
  · exact conditionOnly_rxTest line out n rfl
  · exact conditionOnly_rxTest line out n rfl
  · exact conditionOnly_callAt line 3 _ rfl
  · exact conditionOnly_rxStore _ line 5
  · exact .ite (conditionOnly_leaveToStop out rfl) (conditionOnly_rxTest line out n rfl)
  · exact conditionOnly_rxTest line out n rfl
  · exact conditionOnly_fault _

end Operations

/-! ### The listings -/

/-- The routines that write a line themselves (R90, R91, R110 to R112). -/
def writesLines : Instr → Bool
  | .start | .stop | .restart | .writeBit _ | .readBit => true
  | _ => false

/-- `CNT` is cleared as a composite command calls `START` (R120 to R123). -/
theorem conditionOnly_callStart (i : Instr) (s : State) : ConditionOnly i s (callAt 2 0 .start { s with cnt := 0 }) :=
  conditionOnly_callAt 2 0 .start rfl

/-- The line of a composite command that runs its transfer loop after an acknowledge. -/
theorem conditionOnly_loopLine {i : Instr} {s : State} {loopAt : Nat → State → Out} (h : ∀ loop, ConditionOnly i s (loopAt loop s))
    (loop out : Nat) : ConditionOnly i s (if loop = 0 then (if s.res then loopAt 1 s else leaveToStop out s) else loopAt loop s) :=
  .ite (.ite (h 1) (conditionOnly_leaveToStop out rfl)) (h loop)

theorem conditionOnly_execWrite (a : SlaveAddr) (n : Count) (s : State) : ConditionOnly (.write a n) s (execWrite a n s) :=
  conditionOnly_asCommand fun line loop => by
    split
    case h_1 => exact conditionOnly_callStart _ s
    case h_4 => exact conditionOnly_loopLine (conditionOnly_txLoop 4 5 n) loop 5
    all_goals simp

theorem conditionOnly_execRead (a : SlaveAddr) (n : Count) (s : State) : ConditionOnly (.read a n) s (execRead a n s) :=
  conditionOnly_asCommand fun line loop => by
    split
    case h_1 => exact conditionOnly_callStart _ s
    case h_4 => exact conditionOnly_loopLine (conditionOnly_rxLoop 4 5 n) loop 5
    all_goals simp

theorem conditionOnly_execWriteReg (a : SlaveAddr) (r : Byte) (n : Count) (s : State) :
    ConditionOnly (.writeReg a r n) s (execWriteReg a r n s) :=
  conditionOnly_asCommand fun line loop => by
    split
    case h_1 => exact conditionOnly_callStart _ s
    case h_6 => exact conditionOnly_loopLine (conditionOnly_txLoop 6 7 n) loop 7
    all_goals simp

theorem conditionOnly_execReadReg (a : SlaveAddr) (r : Byte) (n : Count) (s : State) :
    ConditionOnly (.readReg a r n) s (execReadReg a r n s) :=
  conditionOnly_asCommand fun line loop => by
    split
    case h_1 => exact conditionOnly_callStart _ s
    case h_9 => exact conditionOnly_loopLine (conditionOnly_rxLoop 9 10 n) loop 10
    all_goals simp

/-- The other routines issue no `LineWrite`. -/
theorem conditionOnly_exec_noLineWrite {i : Instr} (hi : writesLines i = false) (s : State) : ConditionOnly i s (exec i s) := by
  cases i with
  | start | stop | restart | writeBit _ | readBit => cases hi
  | init h f => exact (conditionOnly_asCommand fun line _ => by split <;> simp : ConditionOnly _ s (execInit h f s))
  | deinit => exact (conditionOnly_asCommand fun line _ => by split <;> simp : ConditionOnly _ s (execDeinit s))
  | connect a w => exact (conditionOnly_asCommand fun line _ => by split <;> simp : ConditionOnly _ s (execConnect a w s))
  | write a n => exact conditionOnly_execWrite a n s
  | read a n => exact conditionOnly_execRead a n s
  | writeReg a r n => exact conditionOnly_execWriteReg a r n s
  | readReg a r n => exact conditionOnly_execReadReg a r n s
  | writeByte d => exact (conditionOnly_withPos fun line _ => by split <;> simp : ConditionOnly _ s (execWriteByte d s))
  | readByte f => exact (conditionOnly_withPos fun line _ => by split <;> simp [storeBit] : ConditionOnly _ s (execReadByte f s))

section Listings
variable {s : State} {l p : Nat} {rest : List Frame}

theorem conditionOnly_execStart (s : State) : ConditionOnly .start s (execStart s) :=
  conditionOnly_asCommand fun line _ => by
    split
    case h_1 => exact conditionOnly_write .startRelease
    case h_3 => exact conditionOnly_write .startFall
    all_goals simp

/-- `STOP` step 3 writes the data line too, the clock being low (R111). -/
theorem conditionOnly_execStop (h : At s .stop l p rest) (ht : topOk .stop l p s = true) (hscl : s.sclO = true) :
    ConditionOnly .stop s (execStop s) := by
  rw [execStop, asCommand_top h ht]
  simp only [topOk, Bool.and_eq_true] at ht
  split
  case h_3 => simp [stopAt, hscl] at ht
  case h_8 => exact conditionOnly_write .stopRise
  all_goals simp

/-- `RESTART` step 3 writes the data line too, the clock being low (R112). -/
theorem conditionOnly_execRestart (h : At s .restart l p rest) (ht : topOk .restart l p s = true) (hscl : s.sclO = true) :
    ConditionOnly .restart s (execRestart s) := by
  obtain ⟨c, hc⟩ := at_cons h
  rw [execRestart, withPos_cons hc]
  dsimp only
  simp only [topOk, Bool.and_eq_true] at ht
  split
  case h_3 => simp [restartAt, hscl] at ht
  case h_8 => exact conditionOnly_write .restartFall
  all_goals simp

/-- `WRITE_BIT` writes the data line at step 3 alone, the clock being low (R90). -/
theorem conditionOnly_execWriteBit {v : Bool} (h : At s (.writeBit v) l p rest) (ht : topOk (.writeBit v) l p s = true)
    (hscl : s.sclO = true) : ConditionOnly (.writeBit v) s (execWriteBit v s) := by
  obtain ⟨c, hc⟩ := at_cons h
  rw [execWriteBit, withPos_cons hc]
  dsimp only
  simp only [topOk, Bool.and_eq_true] at ht
  split
  case h_3 => simp [writeBitAt, hscl] at ht
  all_goals simp

/-- `READ_BIT` writes the data line at step 2 alone, the clock being low (R91). -/
theorem conditionOnly_execReadBit (h : At s .readBit l p rest) (ht : topOk .readBit l p s = true) (hscl : s.sclO = true) :
    ConditionOnly .readBit s (execReadBit s) := by
  obtain ⟨c, hc⟩ := at_cons h
  rw [execReadBit, withPos_cons hc]
  dsimp only
  simp only [topOk, Bool.and_eq_true] at ht
  split
  case h_2 => simp [readBitAt, hscl] at ht
  all_goals simp

theorem conditionOnly_exec {i : Instr} (h : At s i l p rest) (ht : topOk i l p s = true) (hscl : s.sclO = true) :
    ConditionOnly i s (exec i s) := by
  cases i with
  | start => exact conditionOnly_execStart s
  | stop => exact conditionOnly_execStop h ht hscl
  | restart => exact conditionOnly_execRestart h ht hscl
  | writeBit v => exact conditionOnly_execWriteBit h ht hscl
  | readBit => exact conditionOnly_execReadBit h ht hscl
  | _ => exact conditionOnly_exec_noLineWrite rfl s

end Listings

/-- Step 1 of a command: `STOP` begins with the clock, `START` is the only one to begin with the data line. -/
theorem conditionOnly_firstLine (i : Instr) (s : State) : ConditionOnly i s (firstLine i s) := by
  cases i with
  | init _ _ => exact conditionOnly_respond .ok rfl
  | deinit => exact .ite (conditionOnly_callAt 2 0 .stop rfl) conditionOnly_tearDown
  | start => exact conditionOnly_write .startRelease
  | stop => exact conditionOnly_clock 2 false
  | connect _ _ => exact .ite (conditionOnly_callAt 3 0 _ rfl) conditionOnly_connectNotStarted
  | _ => exact conditionOnly_callStart _ s

/-! ### Every step -/

/-- What a step that writes the data line under a released clock is: the routine `i` at a line of its listing in `u`, which is `s` or, at
dispatch, `s` at step 1 (log 1). -/
theorem step_conditionWrite {s t : State} {e : Event} {b : Bool} (hs : inv s = true) (hr : s.rstIn = false) (hscl : s.sclO = true)
    (h : step s = .next t) (htr : t.trace = e :: s.trace) (hop : e.op = .lineWrite .sda b) :
    ∃ i line u l p rest, fetch s = some i ∧ ConditionWrite i line b ∧ At u i l p rest ∧ u.busy = true ∧
      t = goto line (lineWrite .sda b u) := by
  have silent (hsilent : t.trace = s.trace) : False := List.cons_ne_self e s.trace (htr.symm.trans hsilent)
  obtain ⟨hb, -, -⟩ | hw | ⟨i, l, p, rest, hat, hrun, ht⟩ := inv_cases hs
  · rw [step_idle hr hb, idleStep] at h
    split at h
    · cases h
      exact (silent rfl).elim
    · cases h
      exact (silent rfl).elim
  · cases hd : decode s.cmd with
    | error _ =>
      cases h.symm.trans (hw.step_illegal hr hd)
      exact (silent rfl).elim
    | ok i =>
      have hi := issuable_of_decode hd
      have hx := (step_dispatch hr hw.busy hw.seq hd).symm.trans h
      cases hc : dispatchCheck i s with
      | some c =>
        cases hx.symm.trans (exec_refused hw.seq hi hc)
        exact (silent rfl).elim
      | none =>
        obtain ⟨line, hwrite, ht⟩ := (conditionOnly_firstLine i s).of_next t e b ((exec_begins hw.seq hi hc).symm.trans hx) htr hop
        refine ⟨i, line, atFirstLine s, 1, 0, [], ?_, hwrite, hw.at_firstLine hd, hw.busy, ?_⟩
        · simp [fetch, hw.seq, frameInstr, dispatchedCommand, hd]
        · rw [ht, goto_lineWrite_atFirstLine hw.seq]
  · have hx := (step_busy hr hrun.busy hat.fetch).symm.trans h
    obtain ⟨line, hwrite, ht⟩ := (conditionOnly_exec hat ht hscl).of_next t e b hx htr hop
    exact ⟨i, line, s, l, p, rest, hat.fetch, hwrite, hat, hrun.busy, ht⟩

/-- A line that moves on stays in its routine. -/
theorem At.fetch_goto {s t : State} {i : Instr} {l p line : Nat} {rest : List Frame} (h : At s i l p rest) (hq : t.seq = s.seq)
    (hv : latchView t = latchView s) (hl : line ≠ 0) : Machine.fetch (goto line t) = some i := by
  obtain ⟨hs, -⟩ | ⟨hs, -, -, hi⟩ := h
  · rw [goto_eq, setPos_cons (hq.trans hs)]
    rfl
  · rw [goto_eq, setPos_cons (hq.trans hs)]
    exact (if_neg hl).trans ((latchedCommand_congr hv).trans hi)

/-- The line after each of these is `Delay(HALF)` (R114). -/
theorem ConditionWrite.delays {i : Instr} {line : Nat} {b : Bool} (h : ConditionWrite i line b) {t : State} {c : Option Instr}
    {rest : List Frame} (hq : t.seq = ⟨c, line, 0⟩ :: rest) : exec i t = .next (goto (line + 1) (delay t)) := by
  cases h with
  | startRelease | startFall => exact exec_at_line exec_start hq
  | stopRise => exact exec_at_line exec_stop hq
  | restartFall => exact exec_callee_line exec_restart hq

/-- Settles O24: the step is a line of the condition generator (`step_conditionWrite`), and the line after it is `Delay(HALF)`. -/
theorem dataWrittenWhileClockHigh : Obligations.DataWrittenWhileClockHigh := by
  intro s t e b hs hr hscl h htr hop
  obtain ⟨i, line, u, l, p, rest, hf, hwrite, hat, hb, rfl⟩ := step_conditionWrite hs hr hscl h htr hop
  obtain ⟨c, hc⟩ := at_cons hat
  have hq : (goto line (lineWrite .sda b u)).seq = ⟨c, line, 0⟩ :: rest := by
    rw [goto_eq, setPos_cons ((lineWrite_seq .sda b u).trans hc)]
  refine ⟨⟨c, rest, ?_⟩, fun hrt => ?_⟩
  · cases hwrite with
    | startRelease => exact .inl ⟨hf, .inl ⟨hq, rfl⟩⟩
    | startFall => exact .inl ⟨hf, .inr ⟨hq, rfl⟩⟩
    | stopRise => exact .inr (.inl ⟨hf, hq, rfl⟩)
    | restartFall => exact .inr (.inr ⟨hf, hq, rfl⟩)
  · have hline : line ≠ 0 := by cases hwrite <;> decide
    have hfetch := hat.fetch_goto (t := lineWrite .sda b u) rfl rfl hline
    refine ⟨_, (step_busy hrt hb hfetch).trans (hwrite.delays hq), ?_⟩
    have hnext := goto_seq_cons (line + 1) (delay (goto line (lineWrite .sda b u))) _ _ hq
    rw [hnext]
    exact did_delay_goto hq (line + 1)

end Sys2Proof.Machine
end

section
/-! PROOFS. How a composite command ends: of the lines where the invariant can hold, only its last one responds, and there the invariant
says how the bus, the count and the fault stand. -/

namespace Sys2Proof.Machine

/-- If `o` is a next state, the command is still in progress there. -/
structure StillBusy (o : Out) : Prop where
  of_next : ∀ t, o = .next t → t.busy = true

/-! ### The shared operations that do not respond -/

section Operations
variable {s u : State}

@[simp] theorem stillBusy_fault (r : Fault) : StillBusy (.fault r) := ⟨fun _ h => by cases h⟩

theorem stillBusy_next (h : s.busy = true) : StillBusy (.next s) :=
  ⟨fun _ e => by
    cases e
    exact h⟩

@[simp] theorem StillBusy.ite {c : Prop} [Decidable c] {a b : Out} (ha : StillBusy a) (hb : StillBusy b) :
    StillBusy (if c then a else b) := by
  split
  · exact ha
  · exact hb

@[simp] theorem stillBusy_callAt (h : u.busy = true) (line loop : Nat) (r : Instr) : StillBusy (callAt line loop r u) :=
  stillBusy_next h

@[simp] theorem stillBusy_sendBit (h : u.busy = true) : StillBusy (sendBit u) := stillBusy_callAt h 2 0 _

@[simp] theorem stillBusy_leaveToStop (h : u.busy = true) (out : Nat) : StillBusy (leaveToStop out u) :=
  stillBusy_callAt h out 0 .stop

@[simp] theorem stillBusy_lineWrite (h : s.busy = true) (line : Nat) (L : Line) (b : Bool) :
    StillBusy (.next (goto line (lineWrite L b s))) :=
  stillBusy_next (by simp [h])

@[simp] theorem stillBusy_lineRead (h : s.busy = true) (line : Nat) (L : Line) : StillBusy (.next (goto line (lineRead L s))) :=
  stillBusy_next h

@[simp] theorem stillBusy_delay (h : s.busy = true) (line : Nat) : StillBusy (.next (goto line (delay s))) := stillBusy_next h

@[simp] theorem stillBusy_highPhase (h : s.busy = true) : StillBusy (highPhase s) := stillBusy_delay h 7

@[simp] theorem stillBusy_stretch (h : s.busy = true) {skip : State → Out} (hskip : StillBusy (skip s)) (after : Nat) :
    StillBusy (stretch after skip s) :=
  .ite (.ite (stillBusy_lineRead h after .scl) (stillBusy_next h)) hskip

@[simp] theorem stillBusy_txFetch (h : u.busy = true) (line : Nat) : StillBusy (txFetch line u) :=
  .ite (stillBusy_next h) (stillBusy_fault _)

@[simp] theorem stillBusy_rxStore (h : s.busy = true) (v : Byte) (line loop : Nat) :
    StillBusy (memWrite v s fun x => .next (setPos line loop x)) :=
  .ite (stillBusy_next h) (stillBusy_fault _)

@[simp] theorem stillBusy_txTest (h : u.busy = true) (line out : Nat) (n : Count) : StillBusy (txTest line out n u) :=
  .ite (stillBusy_leaveToStop h out) (stillBusy_txFetch h line)

@[simp] theorem stillBusy_rxReceive (h : u.busy = true) (line : Nat) (n : Count) : StillBusy (rxReceive line n u) :=
  stillBusy_callAt h line 3 _

@[simp] theorem stillBusy_rxTest (h : u.busy = true) (line out : Nat) (n : Count) : StillBusy (rxTest line out n u) :=
  .ite (stillBusy_leaveToStop h out) (stillBusy_rxReceive h line n)

@[simp] theorem stillBusy_txLoop (h : s.busy = true) (line out : Nat) (n : Count) (loop : Nat) :
    StillBusy (txLoop line out n loop s) := by
  unfold txLoop
  split <;> simp [h]

@[simp] theorem stillBusy_rxLoop (h : s.busy = true) (line out : Nat) (n : Count) (loop : Nat) :
    StillBusy (rxLoop line out n loop s) := by
  unfold rxLoop
  split <;> simp [h]

end Operations

/-! ### A called routine never responds -/

section Called
variable {s u : State} {i r : Instr} {l p : Nat} {rest : List Frame}

/-- Its last line returns to the caller (R133). -/
theorem stillBusy_finish (hq : u.seq = ⟨some r, l, p⟩ :: rest) (h : u.busy = true) : StillBusy (finish u) := by
  cases rest with
  | nil => simp [finish, hq]
  | cons c below =>
    rw [finish_return hq]
    exact stillBusy_next h

theorem stillBusy_connectNotStarted (hq : s.seq = ⟨some r, l, p⟩ :: rest) (h : s.busy = true) :
    StillBusy (connectNotStarted s) := by
  simp only [connectNotStarted, hq]
  exact stillBusy_finish rfl h

/-- The commands that stand only at the bottom of `SEQ` are not called; every other routine returns at its last line (R133). -/
theorem stillBusy_exec_called (hq : s.seq = ⟨some i, l, p⟩ :: rest) (hc : callersOk s i rest = true) (ht : topOk i l p s = true)
    (hb : s.busy = true) : StillBusy (exec i s) := by
  have hat : At s i l p rest := .inl ⟨hq, hc⟩
  have hfinish : ∀ {u : State}, u.seq = s.seq → u.busy = s.busy → StillBusy (finish u) := fun hs hu =>
    stillBusy_finish (hs.trans hq) (hu.trans hb)
  cases i with
  | init _ _ | deinit | write _ _ | read _ _ | writeReg _ _ _ | readReg _ _ _ =>
    rw [callersOk_bottom rfl] at hc
    cases hc
  | start =>
    rw [exec_start, execStart, asCommand_top hat ht]
    split <;> simp [hb, hfinish]
  | stop =>
    rw [exec_stop, execStop, asCommand_top hat ht]
    split <;> simp [hb, hfinish]
  | connect a w =>
    rw [exec_connect, execConnect, asCommand_top hat ht]
    split <;> simp [hb, hfinish, stillBusy_connectNotStarted hq]
  | restart =>
    rw [exec_restart, execRestart, withPos_cons hq]
    split <;> simp [hb, hfinish]
  | writeByte d =>
    rw [exec_writeByte, execWriteByte, withPos_cons hq]
    split <;> simp [hb, hfinish]
  | readByte f =>
    rw [exec_readByte, execReadByte, withPos_cons hq]
    split <;> simp [hb, hfinish, storeBit]
  | writeBit v =>
    rw [exec_writeBit, execWriteBit, withPos_cons hq]
    split <;> simp [hb, hfinish]
  | readBit =>
    rw [exec_readBit, execReadBit, withPos_cons hq]
    split <;> simp [hb, hfinish]

end Called

/-! ### A composite command responds at its last line -/

section Composites
variable {s : State} {i : Instr} {l p : Nat} {rest : List Frame}

/-- The line that holds the transfer loop enters it, or leaves it for `STOP`, and goes on in it (R124, R125). -/
theorem stillBusy_loopLine {loopAt : Nat → State → Out} (h : s.busy = true) (hloop : ∀ k, StillBusy (loopAt k s)) (out k : Nat) :
    StillBusy (if k = 0 then (if s.res then loopAt 1 s else leaveToStop out s) else loopAt k s) :=
  .ite (.ite (hloop 1) (stillBusy_leaveToStop h out)) (hloop k)

/-- Before it the listing calls, moves on in its loop, or accesses `BUF` (R120 to R125). -/
theorem stillBusy_exec_beforeLast (h : At s i l p rest) (hi : isTransfer i = true) (ht : topOk i l p s = true)
    (hl : l ≠ lastLine i) (hb : s.busy = true) : StillBusy (exec i s) := by
  cases i with
  | write a n =>
    rw [exec_write, execWrite, asCommand_top h ht]
    split
    case h_4 => exact stillBusy_loopLine hb (stillBusy_txLoop hb 4 5 n) _ p
    case h_6 => exact absurd rfl hl
    all_goals simp [hb]
  | read a n =>
    rw [exec_read, execRead, asCommand_top h ht]
    split
    case h_4 => exact stillBusy_loopLine hb (stillBusy_rxLoop hb 4 5 n) _ p
    case h_6 => exact absurd rfl hl
    all_goals simp [hb]
  | writeReg a r n =>
    rw [exec_writeReg, execWriteReg, asCommand_top h ht]
    split
    case h_6 => exact stillBusy_loopLine hb (stillBusy_txLoop hb 6 7 n) _ p
    case h_8 => exact absurd rfl hl
    all_goals simp [hb]
  | readReg a r n =>
    rw [exec_readReg, execReadReg, asCommand_top h ht]
    split
    case h_9 => exact stillBusy_loopLine hb (stillBusy_rxLoop hb 9 10 n) _ p
    case h_11 => exact absurd rfl hl
    all_goals simp [hb]
  | _ => cases hi

/-- The last line is the response (R126, R136). -/
theorem exec_lastLine {c : Option Instr} (hi : isTransfer i = true) (hq : s.seq = ⟨c, lastLine i, p⟩ :: rest) :
    exec i s = .next (respond .ok s) := by
  cases i with
  | write a n => exact exec_at_line (exec_write a n) hq
  | read a n => exact exec_at_line (exec_read a n) hq
  | writeReg a r n => exact exec_at_line (exec_writeReg a r n) hq
  | readReg a r n => exact exec_at_line (exec_readReg a r n) hq
  | _ => cases hi

end Composites

/-! ### What holds at the last line -/

/-- The transaction is closed, the bus released, the count in bounds, and a bus fault is on the last byte of a receiving command
(R126, R142, R149). -/
structure Closed (s : State) : Prop where
  started : s.started = false
  sclO : s.sclO = true
  sdaO : s.sdaO = true
  count : s.cnt.toNat ≤ s.len.toNat
  fault : s.fault = true → (s.opc = 6 ∨ s.opc = 8) ∧ s.cnt.toNat + 1 = s.len.toNat

section Last
variable {s : State}

theorem closed_of_sentAt (h : sentAt s.len s = true) : Closed s := by
  simp only [sentAt, Bool.and_eq_true, Bool.not_eq_true', decide_eq_true_eq] at h
  obtain ⟨⟨⟨⟨hscl, hsda⟩, hst⟩, hf⟩, hcnt⟩ := h
  exact ⟨hst, hscl, hsda, hcnt, fun hfault => by simp [hf] at hfault⟩

theorem closed_of_receivedAt (hop : s.opc = 6 ∨ s.opc = 8) (h : receivedAt s.len s = true) : Closed s := by
  simp only [receivedAt, afterLoop, Bool.and_eq_true, Bool.or_eq_true, Bool.not_eq_true', decide_eq_true_eq] at h
  obtain ⟨⟨⟨hscl, hsda⟩, hst⟩, hcnt, hf⟩ := h
  exact ⟨hst, hscl, hsda, hcnt, fun hfault => ⟨hop, hf.resolve_left (by simp [hfault])⟩⟩

theorem closed_of_lastLine {i : Instr} {p : Nat} (hi : latchedCommand s = some i) (htr : isTransfer i = true)
    (ht : topOk i (lastLine i) p s = true) : Closed s := by
  have hop := opc_of_latched hi
  cases i with
  | write a n =>
    obtain rfl := len_of_latched hi rfl
    exact closed_of_sentAt (Bool.and_eq_true_iff.1 ht).2
  | writeReg a r n =>
    obtain rfl := len_of_latched hi rfl
    exact closed_of_sentAt (Bool.and_eq_true_iff.1 ht).2
  | read a n =>
    obtain rfl := len_of_latched hi rfl
    exact closed_of_receivedAt (.inl hop) (Bool.and_eq_true_iff.1 ht).2
  | readReg a r n =>
    obtain rfl := len_of_latched hi rfl
    exact closed_of_receivedAt (.inr hop) (Bool.and_eq_true_iff.1 ht).2
  | _ => cases htr

end Last

/-! ### The step that ends a composite command -/

section Step
variable {s t : State}

/-- A step at dispatch refuses a composite command with an error code, or begins it (R131). -/
theorem Waiting.composite_notEnded (h : Waiting s) (hr : s.rstIn = false) (hs : step s = .next t)
    (hc : isComposite s.opc = true) : t.busy = true ∨ rspCode t.rsp ≠ 0 := by
  cases hd : decode s.cmd with
  | error e =>
    cases hs.symm.trans (h.step_illegal hr hd)
    exact .inr (by simp [codeNum])
  | ok i =>
    have htr : isTransfer i = true := (isComposite_of_latched (latchedCommand_of_decode h.latches hd)).symm.trans hc
    have hi := isTransfer_issuable i htr
    rw [step_dispatch hr h.busy h.seq hd] at hs
    cases hcheck : dispatchCheck i s with
    | some c =>
      cases hs.symm.trans (exec_refused h.seq hi hcheck)
      refine .inr fun hcode => dispatchCheck_ne_ok hcheck ?_
      exact codeNum_eq_zero.1 ((rspCode_packRsp _ _ _ c).symm.trans hcode)
    | none =>
      rw [exec_begins h.seq hi hcheck] at hs
      cases i with
      | write _ _ | read _ _ | writeReg _ _ _ | readReg _ _ _ =>
        exact .inl ((stillBusy_callAt (u := { s with cnt := 0 }) h.busy 2 0 .start).of_next t hs)
      | _ => cases htr

/-- So a composite command that ends `OK` ends at its last line, with the response of that line. -/
theorem composite_ends_closed (hinv : inv s = true) (hr : s.rstIn = false) (hb : s.busy = true) (hs : step s = .next t)
    (ht : t.busy = false) (hc : isComposite s.opc = true) (hcode : rspCode t.rsp = 0) :
    t = respond .ok s ∧ Running s ∧ Closed s := by
  obtain ⟨hidle, -⟩ | hw | ⟨i, l, p, rest, hat, hrun, htop⟩ := inv_cases hinv
  · rw [hidle] at hb
    cases hb
  · obtain hbusy | hne := hw.composite_notEnded hr hs hc
    · rw [hbusy] at ht
      cases ht
    · exact absurd hcode hne
  · rw [step_busy hr hb hat.fetch] at hs
    have hresponds : ¬StillBusy (exec i s) := fun h => by simp [h.of_next t hs] at ht
    have hposition := hat
    obtain ⟨hq, callers⟩ | ⟨hq, -, -, latched⟩ := hposition
    · exact absurd (stillBusy_exec_called hq callers htop hb) hresponds
    · have htr : isTransfer i = true := (isComposite_of_latched latched).symm.trans hc
      obtain rfl : l = lastLine i := by
        by_contra hne
        exact hresponds (stillBusy_exec_beforeLast hat htr htop hne hb)
      cases hs.symm.trans (exec_lastLine htr hq)
      exact ⟨rfl, hrun, closed_of_lastLine latched htr htop⟩

end Step

/-- Settles O47: the command ends with the response of its last line (`composite_ends_closed`), which takes `COUNT`, `ACK` and `FAULT`
from the registers. -/
theorem compositeEnds : Obligations.CompositeEnds := by
  intro s t hinv hr hb hs ht hlo hhi hcode
  have hc : isComposite s.opc = true := by
    simp only [isComposite, Bool.or_eq_true, decide_eq_true_eq]
    omega
  obtain ⟨rfl, hrun, closed⟩ := composite_ends_closed hinv hr hb hs ht hc hcode
  have hcount : countOf .ok s = s.cnt := if_pos ⟨rfl, hc⟩
  have hack : s.fault = true → s.ackl = true := fun hf => by
    have hrsp := hrun.rsp
    simp only [rspOk, hf, Bool.and_eq_true] at hrsp
    exact hrsp.2
  simp only [respond_started, respond_sclO, respond_sdaO, respond_rsp, rspCount_packRsp, rspAck_packRsp, rspFault_packRsp, hcount]
  exact ⟨closed.started, closed.sclO, closed.sdaO, closed.count, fun hf => ⟨hack hf, closed.fault hf⟩⟩

end Sys2Proof.Machine
end

section
/-! PROOFS. The dispatch of an accepted command: its checks in their order, and step 1 of its listing in the same step. -/

namespace Sys2Proof.Machine

/-- A command whose check fails leaves the response and nothing else (R131, R150). -/
theorem steps_refusedWith {s : State} {i : Instr} {c : Code} (hr : s.rstIn = false) (hb : s.busy = true)
    (hq : s.seq = [⟨none, 0, 0⟩]) (hd : decode s.cmd = .ok i) (hc : dispatchCheck i s = some c) :
    Steps s [] (refusedWith c s) :=
  ⟨_, step_refused hr hb hq hd hc, did_refused (dispatchCheck_ne_ok hc) s⟩

/-- `REQ` as the mask of R72. -/
theorem halComplete_iff_mask {h : BitVec 5} : halComplete h = true ↔ h &&& 0b11011 = 0b11011 := decide_eq_true_iff

/-- Check (3) of `INIT`, on the mask (R80, R141). -/
theorem initCheck_configErr {s : State} {h : BitVec 5} {f : BitVec 32} (hv : s.valid = false)
    (hbad : h &&& 0b11011 ≠ 0b11011 ∨ f = 0) : initCheck h f s = some .configErr := by
  have hno : ¬(halComplete h = true ∧ f ≠ 0) := by
    rw [halComplete_iff_mask]
    tauto
  rw [initCheck, hv, if_neg Bool.false_ne_true, if_neg hno]

/-- `INIT` passes its checks with no master there, a complete HAL and a frequency (R80). -/
theorem initCheck_passes {s : State} {h : BitVec 5} {f : BitVec 32} (hv : s.valid = false) (hh : h &&& 0b11011 = 0b11011)
    (hf : f ≠ 0) : initCheck h f s = none := by
  rw [initCheck, hv, if_neg Bool.false_ne_true, if_pos ⟨halComplete_iff_mask.2 hh, hf⟩]

/-- Every other command passes its checks with a master there, `CONNECT` with an open transaction too (R131). -/
theorem dispatchCheck_passes {s : State} {i : Instr} (hi : i.code ≠ 0) (hv : s.valid = true) (hs : i.code = 4 → s.started = true) :
    dispatchCheck i s = none := by
  cases i with
  | init _ _ => exact absurd rfl hi
  | connect _ _ => simp [dispatchCheck, connectCheck, hv, hs rfl]
  | _ => exact needsMaster_valid hv

/-- Past its checks a command does at dispatch what it does at step 1 (R131, R132; log 1). -/
theorem step_passes {s : State} {i : Instr} (hr : s.rstIn = false) (hb : s.busy = true) (hq : s.seq = [⟨none, 0, 0⟩])
    (hd : decode s.cmd = .ok i) (hc : dispatchCheck i s = none) : step s = exec i (atFirstLine s) := by
  have hi : i.issuable = true := issuable_of_decode hd
  calc step s = exec i s := step_dispatch hr hb hq hd
    _ = firstLine i s := exec_begins hq hi hc
    _ = firstLine i (atFirstLine s) := (firstLine_atFirstLine hq i).symm
    _ = exec i (atFirstLine s) := (exec_firstLine rfl hi).symm

/-- Settles O11: each clause is one value of the dispatch check. -/
theorem dispatchOrder : Obligations.DispatchOrder := by
  intro s hr hb hq
  refine ⟨fun e he => ⟨_, step_illegal hr hb hq he, did_refused (by decide) s⟩, fun i hd => ⟨fun hc => ?_, ?_, ?_, ?_⟩⟩
  · exact steps_refusedWith hr hb hq hd (dispatchCheck_stateErr hc)
  · rintro h f rfl hv hbad
    exact steps_refusedWith hr hb hq hd (initCheck_configErr hv hbad)
  · rintro a w rfl hv hs
    exact steps_refusedWith hr hb hq hd (dispatchCheck_notStarted hv hs)
  · rintro (⟨⟨h, f, rfl, hh, hf⟩, hv⟩ | ⟨hi, hv, hs⟩)
    · exact step_passes hr hb hq hd (initCheck_passes hv hh hf)
    · exact step_passes hr hb hq hd (dispatchCheck_passes hi hv hs)

end Sys2Proof.Machine
end

section
/-! PROOFS. Every command ends when its clock is never held low: a bound on the steps it may still take, read off the positions in `SEQ`,
which every step lowers. -/

namespace Sys2Proof.Machine

/-! ### How many steps a command may still take

The bounds are generous where that keeps them uniform: a byte routine counts 90 steps, a line of a composite command 100, a byte of a
transfer 200. -/

/-- A byte routine at `line`, with `BITK` at `k`: every bit left is a call, a cell and a return (R100, R101). -/
def byteLeft (k : BitVec 3) (line : Nat) : Nat :=
  if line ≤ 1 then 90 else if line ≤ 3 then 9 * k.toNat + 11 else 7 - line

/-- A composite command of `n` bytes whose transfer loop is in its line `loopAt`, at `line` and `loop`, with `IDX` at `idx`: the lines up to
the loop and all its bytes, then the bytes from `idx` on and the `STOP`; past its call of `STOP` it only has to respond (R120 to R126). -/
def transferLeft (loopAt : Nat) (n : Count) (line loop : Nat) (idx : Count) : Nat :=
  if loopAt < line then 1
  else if loop = 0 then 200 * n.toNat + 210 + 100 * (loopAt - line)
  else 200 * (n.toNat - idx.toNat) + if loop = 4 then 110 else 12

/-- At most so many steps from the line `line` (loop line `loop`) of `i` to its end, the routines it still calls included. -/
def stepsLeft (s : State) (i : Instr) (line loop : Nat) : Nat :=
  match i with
  | .init _ _ => 1
  | .deinit => if line ≤ 2 then 12 else 1
  | .start => 6 - line
  | .stop | .restart => 11 - line
  | .connect _ _ => if line ≤ 1 then 92 else 1
  | .write _ n | .read _ n => transferLeft 4 n line loop s.idx
  | .writeReg _ _ n => transferLeft 6 n line loop s.idx
  | .readReg _ _ n => transferLeft 9 n line loop s.idx
  | .writeByte _ | .readByte _ => byteLeft s.bitk line
  | .writeBit _ => 8 - line
  | .readBit => 9 - line

/-- The same for a frame of `SEQ`. -/
def frameLeft (s : State) (f : Frame) : Nat :=
  match f.callee.or (latchedCommand s) with
  | some i => stepsLeft s i f.line f.loop
  | none => 0

/-- What the waiting callers still have to do when they go on (R133). -/
def waitingLeft (s : State) (rest : List Frame) : Nat := (rest.map fun f => frameLeft s f.advance).sum

/-- What all of `SEQ` still has to do. -/
def seqLeft (s : State) : Nat :=
  match s.seq with
  | [] => 0
  | f :: rest => frameLeft s f + waitingLeft s rest

/-! ### What the bound looks at -/

theorem stepsLeft_congr {s t : State} (hk : t.bitk = s.bitk) (hx : t.idx = s.idx) (i : Instr) (line loop : Nat) :
    stepsLeft t i line loop = stepsLeft s i line loop := by
  unfold stepsLeft
  rw [hk, hx]

/-- Only a byte routine reads `BITK`, and it waits for bit routines alone. -/
theorem stepsLeft_of_wait {s t : State} {i c : Instr} {l p : Nat} (hw : waitOk i l p c s = true) (hc : callRank c ≠ 2)
    (hx : t.idx = s.idx) (line loop : Nat) : stepsLeft t i line loop = stepsLeft s i line loop := by
  cases i with
  | writeByte _ | readByte _ =>
    cases c with
    | writeBit _ | readBit => exact absurd rfl hc
    | _ => exact absurd hw Bool.false_ne_true
  | _ => simp only [stepsLeft, hx]

theorem frameLeft_eq {s : State} {f : Option Instr} {i : Instr} (h : f.or (latchedCommand s) = some i) (l p : Nat) :
    frameLeft s ⟨f, l, p⟩ = stepsLeft s i l p := by
  simp [frameLeft, h]

theorem frameLeft_congr {s t : State} (hl : latchView t = latchView s) (hk : t.bitk = s.bitk) (hx : t.idx = s.idx) (f : Frame) :
    frameLeft t f = frameLeft s f := by
  unfold frameLeft
  simp only [latchedCommand_congr hl, stepsLeft_congr hk hx]

theorem waitingLeft_congr {s t : State} (hl : latchView t = latchView s) (hk : t.bitk = s.bitk) (hx : t.idx = s.idx)
    (rest : List Frame) : waitingLeft t rest = waitingLeft s rest := by
  simp only [waitingLeft, frameLeft_congr hl hk hx]

/-- The frame of a waiting caller, once it goes on (R133). -/
theorem frameLeft_advance {s : State} {f : Option Instr} {i : Instr} (h : f.or (latchedCommand s) = some i) (l p : Nat) :
    frameLeft s (Frame.advance ⟨f, l, p⟩) =
      stepsLeft s i (Frame.advance ⟨none, l, p⟩).line (Frame.advance ⟨none, l, p⟩).loop := by
  cases p <;> exact frameLeft_eq h _ _

/-- The callers under a routine that is no bit routine do not look at `BITK`. -/
theorem waitingLeft_noBit {s t : State} (hl : latchView t = latchView s) (hx : t.idx = s.idx) {c : Instr} (hc : callRank c ≠ 2)
    {rest : List Frame} (callers : callersOk s c rest = true) : waitingLeft t rest = waitingLeft s rest := by
  induction rest generalizing c with
  | nil => rfl
  | cons f below ih =>
    obtain ⟨k, l, p, i, rest, hrest, hw, hk⟩ := callers_cases callers
    cases hrest
    have hs : k.or (latchedCommand s) = some i := by
      obtain ⟨rfl, -⟩ | ⟨rfl, -, -, hi⟩ := hk
      · rfl
      · exact hi
    have ht : k.or (latchedCommand t) = some i := by rwa [latchedCommand_congr hl]
    have hbelow : waitingLeft t below = waitingLeft s below := by
      obtain ⟨-, callers⟩ | ⟨-, -, rfl, -⟩ := hk
      · exact ih (waitOk_rank hw) callers
      · rfl
    simp only [waitingLeft, List.map_cons, List.sum_cons] at hbelow ⊢
    rw [frameLeft_advance hs, frameLeft_advance ht, stepsLeft_of_wait hw hc hx, hbelow]

/-- The top frame and the routine it stands for. -/
theorem At.frame {s : State} {i : Instr} {l p : Nat} {rest : List Frame} (h : At s i l p rest) :
    ∃ f, s.seq = ⟨f, l, p⟩ :: rest ∧ f.or (latchedCommand s) = some i := by
  obtain ⟨hq, -⟩ | ⟨hq, -, -, hi⟩ := h
  · exact ⟨_, hq, rfl⟩
  · exact ⟨_, hq, hi⟩

theorem At.seqLeft_eq {s : State} {i : Instr} {l p : Nat} {rest : List Frame} (h : At s i l p rest) :
    seqLeft s = stepsLeft s i l p + waitingLeft s rest := by
  obtain ⟨f, hq, hf⟩ := h.frame
  simp only [seqLeft, hq, frameLeft_eq hf]

/-! ### The shared operations bring a command nearer to its end -/

/-- If `o` is a next state, the command has ended there or has less to do than in `s`, by the same HAL and with no reset. -/
structure Nearer (s : State) (o : Out) : Prop where
  of_next : ∀ t, o = .next t → t.busy = true → seqLeft t < seqLeft s ∧ t.halcap = s.halcap ∧ t.rstIn = s.rstIn

/-- What the register work of a line leaves alone: the command, its position, the HAL and the reset input. -/
def paceView (s : State) : State :=
  { State.reset with
    opc := s.opc, addr := s.addr, w := s.w, reg := s.reg, len := s.len, cmd := s.cmd, seq := s.seq, halcap := s.halcap,
    rstIn := s.rstIn }

/-- The register work of a line has made `t` of `s`, and the callers `rest` have as much to do as before. -/
structure Paced (rest : List Frame) (s t : State) : Prop where
  pace : paceView t = paceView s
  waiting : waitingLeft t rest = waitingLeft s rest

section Operations
variable {s t : State} {i : Instr} {l p : Nat} {rest : List Frame}

theorem latchView_of_pace (h : paceView t = paceView s) : latchView t = latchView s := by
  simp only [paceView, latchView, State.mk.injEq] at h ⊢
  tauto

theorem Paced.same (h : paceView t = paceView s) (hk : t.bitk = s.bitk) (hx : t.idx = s.idx) : Paced rest s t :=
  ⟨h, waitingLeft_congr (latchView_of_pace h) hk hx rest⟩

/-- `BITK` is a byte routine's own. -/
theorem Paced.bit (hat : At s i l p rest) (hi : callRank i ≠ 2) (h : paceView t = paceView s) (hx : t.idx = s.idx) : Paced rest s t := by
  refine ⟨h, ?_⟩
  obtain ⟨-, callers⟩ | ⟨-, -, rfl, -⟩ := hat
  · exact waitingLeft_noBit (latchView_of_pace h) hx hi callers
  · rfl

/-- `IDX` is a composite command's own. -/
theorem Paced.transfer (hat : At s i l p rest) (hi : isTransfer i = true) (h : paceView t = paceView s) : Paced rest s t := by
  obtain ⟨rfl, -⟩ := hat.transfer hi
  exact ⟨h, rfl⟩

theorem nearer_fault (r : Fault) : Nearer s (.fault r) := ⟨fun _ e => by cases e⟩

theorem nearer_next (h : t.busy = true → seqLeft t < seqLeft s ∧ t.halcap = s.halcap ∧ t.rstIn = s.rstIn) : Nearer s (.next t) :=
  ⟨fun _ e => by
    cases e
    exact h⟩

theorem Nearer.ite {c : Prop} [Decidable c] {a b : Out} (ha : c → Nearer s a) (hb : ¬c → Nearer s b) :
    Nearer s (if c then a else b) := by
  split
  · exact ha ‹_›
  · exact hb ‹_›

theorem nearer_respond (c : Code) : Nearer s (.next (respond c t)) := nearer_next fun h => absurd h Bool.false_ne_true

/-- The register work kept the position and the command. -/
theorem Paced.frame (hp : Paced rest s t) (h : At s i l p rest) :
    ∃ f, t.seq = ⟨f, l, p⟩ :: rest ∧ f.or (latchedCommand t) = some i := by
  obtain ⟨f, hq, hf⟩ := h.frame
  exact ⟨f, (congrArg State.seq hp.pace :).trans hq, by rwa [latchedCommand_congr (latchView_of_pace hp.pace)]⟩

/-- A line after which `SEQ` has less to do above the callers than its top frame had. -/
theorem nearer_of_seqLeft (h : At s i l p rest) (hp : Paced rest s t) {u : State} {n : Nat}
    (hu : seqLeft u = n + waitingLeft t rest) (hcap : u.halcap = t.halcap) (hrst : u.rstIn = t.rstIn)
    (hlt : n < stepsLeft s i l p) : Nearer s (.next u) := by
  refine nearer_next fun _ => ⟨?_, hcap.trans (congrArg State.halcap hp.pace :), hrst.trans (congrArg State.rstIn hp.pace :)⟩
  rw [hu, hp.waiting, h.seqLeft_eq]
  omega

/-- A line that moves on. -/
theorem nearer_setPos (h : At s i l p rest) (hp : Paced rest s t) {line loop : Nat}
    (hlt : stepsLeft t i line loop < stepsLeft s i l p) : Nearer s (.next (setPos line loop t)) := by
  obtain ⟨f, hq, hf⟩ := hp.frame h
  rw [setPos_cons hq]
  exact nearer_of_seqLeft h hp (congrArg (· + waitingLeft t rest) (frameLeft_eq hf line loop)) rfl rfl hlt

/-- A line that calls `c` (R133). -/
theorem nearer_callAt (h : At s i l p rest) (hp : Paced rest s t) {line loop : Nat} {c : Instr}
    (hlt : stepsLeft t c 1 0 + stepsLeft t i (Frame.advance ⟨none, line, loop⟩).line (Frame.advance ⟨none, line, loop⟩).loop <
      stepsLeft s i l p) : Nearer s (callAt line loop c t) := by
  obtain ⟨f, hq, hf⟩ := hp.frame h
  rw [callAt_cons hq]
  refine nearer_of_seqLeft h hp ?_ rfl rfl hlt
  rw [← frameLeft_advance hf, Nat.add_assoc]
  rfl

/-- The last line of a listing: a command responds, a called routine goes back to its caller (R133, R136). -/
theorem nearer_finish (h : At s i l p rest) (hp : Paced rest s t) (hpos : 0 < stepsLeft s i l p) : Nearer s (finish t) := by
  have hq : t.seq = s.seq := (congrArg State.seq hp.pace :)
  have hposition := h
  obtain ⟨hs, callers⟩ | ⟨hs, -⟩ := hposition
  · obtain ⟨f, l', p', j, below, rfl, -⟩ := callers_cases callers
    rw [finish_return (hq.trans hs)]
    exact nearer_of_seqLeft h hp (Nat.zero_add _).symm rfl rfl hpos
  · rw [finish_command (hq.trans hs)]
    exact nearer_respond .ok

theorem nearer_lineWrite (h : At s i l p rest) (L : Line) (b : Bool) {line : Nat}
    (hlt : stepsLeft s i line 0 < stepsLeft s i l p := by simp [stepsLeft]) : Nearer s (.next (goto line (lineWrite L b s))) :=
  nearer_setPos h (.same (by cases L <;> rfl) (lineWrite_bitk L b s) (lineWrite_idx L b s))
    (by rwa [stepsLeft_congr (lineWrite_bitk L b s) (lineWrite_idx L b s)])

theorem nearer_lineRead (h : At s i l p rest) (L : Line) {line : Nat}
    (hlt : stepsLeft s i line 0 < stepsLeft s i l p := by simp [stepsLeft]) : Nearer s (.next (goto line (lineRead L s))) :=
  nearer_setPos (t := lineRead L s) h (.same rfl rfl rfl) hlt

theorem nearer_delay (h : At s i l p rest) {line : Nat} (hlt : stepsLeft s i line 0 < stepsLeft s i l p := by simp [stepsLeft]) :
    Nearer s (.next (goto line (delay s))) :=
  nearer_setPos (t := delay s) h (.same rfl rfl rfl) hlt

/-- The peer never holds the clock low, or the HAL cannot read it (R92, R143). -/
def ClockFree (s : State) : Prop := halRdScl s.halcap = true → ∀ j, (driveAt s j).1 = true

/-- Then the poll of a released clock reads high, and the line moves on (R92). -/
theorem nearer_stretch (h : At s i l p rest) (hfree : ClockFree s) (hscl : s.sclO = true) {after : Nat} {skip : State → Out}
    (hskip : Nearer s (skip s)) (hlt : stepsLeft s i after 0 < stepsLeft s i l p := by simp [stepsLeft]) :
    Nearer s (stretch after skip s) := by
  cases hrd : halRdScl s.halcap with
  | false => rwa [stretch_skip hrd]
  | true =>
    have hlevel : level .scl (peerMove s) = true := by rw [level_scl_peerMove, hscl, hfree hrd 0]; rfl
    rw [stretch_high hrd hlevel]
    exact nearer_lineRead h .scl hlt

end Operations

/-! ### The bit engine, the conditions and the byte engine -/

section Listings
variable {s : State} {l p : Nat} {rest : List Frame}

theorem nearer_execWriteBit {v : Bool} (h : At s (.writeBit v) l p rest) (ht : topOk (.writeBit v) l p s = true) (hfree : ClockFree s) :
    Nearer s (execWriteBit v s) := by
  obtain ⟨c, hc⟩ := at_cons h
  simp only [topOk, Bool.and_eq_true, beq_iff_eq] at ht
  obtain ⟨rfl, ht⟩ := ht
  rw [execWriteBit, withPos_cons hc]
  unfold writeBitAt at ht
  split at ht
  case h_1 => exact nearer_lineWrite h .scl false
  case h_2 => exact nearer_delay h
  case h_3 => exact nearer_lineWrite h .sda v
  case h_4 => exact nearer_lineWrite h .scl true
  case h_5 => exact nearer_stretch h hfree (Bool.and_eq_true_iff.1 ht).1 (nearer_delay h)
  case h_6 => exact nearer_delay h
  case h_7 => exact nearer_finish h (.same rfl rfl rfl) (by simp [stepsLeft])
  case h_8 => cases ht

theorem nearer_execReadBit (h : At s .readBit l p rest) (ht : topOk .readBit l p s = true) (hfree : ClockFree s) :
    Nearer s (execReadBit s) := by
  obtain ⟨c, hc⟩ := at_cons h
  simp only [topOk, Bool.and_eq_true, beq_iff_eq] at ht
  obtain ⟨rfl, ht⟩ := ht
  rw [execReadBit, withPos_cons hc]
  unfold readBitAt at ht
  split at ht
  case h_1 => exact nearer_lineWrite h .scl false
  case h_2 => exact nearer_lineWrite h .sda true
  case h_3 => exact nearer_delay h
  case h_4 => exact nearer_lineWrite h .scl true
  case h_5 => exact nearer_stretch h hfree (Bool.and_eq_true_iff.1 ht).1 (nearer_delay h)
  case h_6 => exact nearer_delay h
  case h_7 => exact nearer_lineRead h .sda
  case h_8 => exact nearer_finish h (.same rfl rfl rfl) (by simp [stepsLeft])
  case h_9 => cases ht

theorem nearer_execStart (h : At s .start l p rest) (ht : topOk .start l p s = true) : Nearer s (execStart s) := by
  rw [execStart, asCommand_top h ht]
  simp only [topOk, Bool.and_eq_true, beq_iff_eq] at ht
  obtain ⟨rfl, ht⟩ := ht
  unfold startAt at ht
  split at ht
  case h_1 => exact nearer_lineWrite h .sda true
  case h_2 => exact nearer_delay h
  case h_3 => exact nearer_lineWrite h .sda false
  case h_4 => exact nearer_delay h
  case h_5 => exact nearer_finish h (.same rfl rfl rfl) (by simp [stepsLeft])
  case h_6 => cases ht

theorem nearer_execStop (h : At s .stop l p rest) (ht : topOk .stop l p s = true) (hfree : ClockFree s) : Nearer s (execStop s) := by
  rw [execStop, asCommand_top h ht]
  simp only [topOk, Bool.and_eq_true, beq_iff_eq] at ht
  obtain ⟨rfl, ht⟩ := ht
  unfold stopAt at ht
  split at ht
  case h_1 => exact nearer_lineWrite h .scl false
  case h_2 => exact nearer_delay h
  case h_3 => exact nearer_lineWrite h .sda false
  case h_4 => exact nearer_delay h
  case h_5 => exact nearer_lineWrite h .scl true
  case h_6 => exact nearer_stretch h hfree (Bool.and_eq_true_iff.1 ht).1 (nearer_delay h)
  case h_7 => exact nearer_delay h
  case h_8 => exact nearer_lineWrite h .sda true
  case h_9 => exact nearer_delay h
  case h_10 => exact nearer_finish h (.same rfl rfl rfl) (by simp [stepsLeft])
  case h_11 => cases ht

theorem nearer_execRestart (h : At s .restart l p rest) (ht : topOk .restart l p s = true) (hfree : ClockFree s) :
    Nearer s (execRestart s) := by
  obtain ⟨c, hc⟩ := at_cons h
  simp only [topOk, Bool.and_eq_true, beq_iff_eq] at ht
  obtain ⟨rfl, ht⟩ := ht
  rw [execRestart, withPos_cons hc]
  unfold restartAt at ht
  split at ht
  case h_1 => exact nearer_lineWrite h .scl false
  case h_2 => exact nearer_delay h
  case h_3 => exact nearer_lineWrite h .sda true
  case h_4 => exact nearer_delay h
  case h_5 => exact nearer_lineWrite h .scl true
  case h_6 => exact nearer_stretch h hfree (Bool.and_eq_true_iff.1 ht).1 (nearer_delay h)
  case h_7 => exact nearer_delay h
  case h_8 => exact nearer_lineWrite h .sda false
  case h_9 => exact nearer_delay h
  case h_10 => exact nearer_finish h (.same rfl rfl rfl) (by simp [stepsLeft])
  case h_11 => cases ht

theorem nearer_execConnect {a : SlaveAddr} {w : Bool} (h : At s (.connect a w) l p rest) (ht : topOk (.connect a w) l p s = true) :
    Nearer s (execConnect a w s) := by
  rw [execConnect, asCommand_top h ht]
  simp only [topOk, Bool.and_eq_true, beq_iff_eq] at ht
  obtain ⟨rfl, ht⟩ := ht
  unfold connectAt at ht
  split at ht
  case h_1 =>
    simp only [Bool.and_eq_true] at ht
    simp only [ht, if_true]
    exact nearer_callAt h (.same rfl rfl rfl) (by simp [stepsLeft, byteLeft])
  case h_2 => exact nearer_finish h (.same rfl rfl rfl) (by simp [stepsLeft])
  case h_3 => cases ht

/-- A byte routine calls a bit cell, whatever it makes of `SHREG` and `BITK` before (R100, R101). -/
theorem nearer_callBit {i c : Instr} (h : At s i l p rest) (hi : callRank i ≠ 2) (hc : callRank c = 2) (line : Nat) (d : Byte)
    (k : BitVec 3) (hlt : 8 + stepsLeft { s with bitk := k } i (line + 1) 0 < stepsLeft s i l p) :
    Nearer s (callAt line 0 c { s with shreg := d, bitk := k }) := by
  have hcell : stepsLeft { s with shreg := d, bitk := k } c 1 0 ≤ 8 := by
    cases c with
    | writeBit _ | readBit => simp [stepsLeft]
    | _ => cases hc
  refine nearer_callAt h ?_ (lt_of_le_of_lt (Nat.add_le_add_right hcell _) ?_)
  · exact .bit h hi rfl rfl
  · exact hlt

/-- `BITK` counts down, and with it what is left of the byte (R100, R101). -/
theorem byteLeft_pred {k : BitVec 3} (hk : k ≠ 0) : 8 + byteLeft (k - 1) 3 < byteLeft k 3 := by
  have hdown : (k - 1).toNat + 1 = k.toNat := by bv_omega
  change 8 + (9 * (k - 1).toNat + 11) < 9 * k.toNat + 11
  omega

theorem nearer_execWriteByte {d : Byte} (h : At s (.writeByte d) l p rest) (ht : topOk (.writeByte d) l p s = true) :
    Nearer s (execWriteByte d s) := by
  obtain ⟨c, hc⟩ := at_cons h
  have hi : callRank (.writeByte d) ≠ 2 := by simp [callRank]
  simp only [topOk, Bool.and_eq_true, beq_iff_eq] at ht
  obtain ⟨rfl, ht⟩ := ht
  rw [execWriteByte, withPos_cons hc]
  unfold writeByteAt at ht
  split at ht
  case h_1 => exact nearer_callBit h hi rfl 2 d 7 (by simp [stepsLeft, byteLeft])
  case h_2 =>
    exact .ite (fun _ => nearer_callBit h hi rfl 4 s.shreg s.bitk (by simp [stepsLeft, byteLeft])) fun hk =>
      nearer_callBit h hi rfl 2 s.shreg (s.bitk - 1) (byteLeft_pred hk)
  case h_3 => exact nearer_finish h (.same rfl rfl rfl) (by simp [stepsLeft, byteLeft])
  case h_4 => cases ht

theorem nearer_execReadByte {f : Bool} (h : At s (.readByte f) l p rest) (ht : topOk (.readByte f) l p s = true) :
    Nearer s (execReadByte f s) := by
  obtain ⟨c, hc⟩ := at_cons h
  have hi : callRank (.readByte f) ≠ 2 := by simp [callRank]
  simp only [topOk, Bool.and_eq_true, beq_iff_eq] at ht
  obtain ⟨rfl, ht⟩ := ht
  rw [execReadByte, withPos_cons hc]
  unfold readByteAt at ht
  split at ht
  case h_1 => exact nearer_callBit h hi rfl 2 s.shreg 7 (by simp [stepsLeft, byteLeft])
  case h_2 =>
    exact .ite (fun _ => nearer_callBit h hi rfl 4 _ s.bitk (by simp [stepsLeft, byteLeft])) fun hk =>
      nearer_callBit h hi rfl 2 _ (s.bitk - 1) (byteLeft_pred hk)
  case h_3 => exact nearer_lineRead h .sda (by simp [stepsLeft, byteLeft])
  case h_4 => exact nearer_finish h (.same rfl rfl rfl) (by simp [stepsLeft, byteLeft])
  case h_5 => cases ht

end Listings

/-! ### The transfer loops -/

/-- `i` runs the transfer loop over `n` bytes in its line `line` and calls `STOP` at its line `out` (R120 to R123). -/
structure Transferring (i : Instr) (line out : Nat) (n : Count) : Prop where
  transfer : isTransfer i = true
  left : ∀ (s : State) (l p : Nat), stepsLeft s i l p = transferLeft line n l p s.idx
  out_gt : line < out

theorem transferring_write (a : SlaveAddr) (n : Count) : Transferring (.write a n) 4 5 n := ⟨rfl, fun _ _ _ => rfl, by decide⟩
theorem transferring_read (a : SlaveAddr) (n : Count) : Transferring (.read a n) 4 5 n := ⟨rfl, fun _ _ _ => rfl, by decide⟩
theorem transferring_writeReg (a : SlaveAddr) (r : Byte) (n : Count) : Transferring (.writeReg a r n) 6 7 n :=
  ⟨rfl, fun _ _ _ => rfl, by decide⟩
theorem transferring_readReg (a : SlaveAddr) (r : Byte) (n : Count) : Transferring (.readReg a r n) 9 10 n :=
  ⟨rfl, fun _ _ _ => rfl, by decide⟩

theorem transferLeft_after {line l : Nat} (h : line < l) (n : Count) (p : Nat) (k : Count) : transferLeft line n l p k = 1 :=
  if_pos h

/-- Before the first byte. -/
theorem transferLeft_front {line l : Nat} (h : l ≤ line) (n k : Count) :
    transferLeft line n l 0 k = 200 * n.toNat + 210 + 100 * (line - l) := by
  simp [transferLeft, h]

/-- A byte is to be sent, or has been received and is to be stored. -/
theorem transferLeft_four (line : Nat) (n k : Count) : transferLeft line n line 4 k = 200 * (n.toNat - k.toNat) + 110 := by
  simp [transferLeft]

/-- A byte has been sent, or stored. -/
theorem transferLeft_five (line : Nat) (n k : Count) : transferLeft line n line 5 k = 200 * (n.toNat - k.toNat) + 12 := by
  simp [transferLeft]

/-- A byte less is left (R124, R125 step 6). -/
theorem toNat_left_succ {k n : Count} (hk : k.toNat < n.toNat) : n.toNat - (k + 1).toNat + 1 = n.toNat - k.toNat := by
  have := n.isLt
  rw [BitVec.toNat_add_of_lt] <;> simp <;> omega

theorem nearer_leaveToStop {s : State} {i : Instr} {l p line out : Nat} {n : Count} {rest : List Frame}
    (hi : Transferring i line out n) (h : At s i l p rest) (c k : Count) (f : Bool) (hlt : 11 < transferLeft line n l p s.idx) :
    Nearer s (leaveToStop out { s with cnt := c, idx := k, fault := f }) := by
  refine nearer_callAt h ?_ ?_
  · exact .transfer h hi.transfer rfl
  · rw [hi.left, hi.left, advance_line, transferLeft_after (Nat.lt_succ_of_lt hi.out_gt)]
    exact hlt

section Loops
variable {s : State} {i : Instr} {p line out : Nat} {n : Count} {rest : List Frame} (hi : Transferring i line out n)
  (h : At s i line p rest)
include hi h

/-- The transmit loop, with byte `k` next (R124). -/
theorem nearer_txTest (k : Count) (hlt : 200 * (n.toNat - k.toNat) + 110 < transferLeft line n line p s.idx) :
    Nearer s (txTest line out n { s with cnt := k, idx := k }) := by
  refine .ite (fun _ => nearer_leaveToStop hi h k k s.fault (by omega)) fun _ => .ite (fun _ => nearer_setPos h ?_ ?_) fun _ => ?_
  · exact .transfer h hi.transfer rfl
  · rw [hi.left, hi.left, transferLeft_four]
    exact hlt
  · exact nearer_fault _

/-- The receive loop, with byte `k` next (R125). -/
theorem nearer_rxTest (k : Count) (hlt : 200 * (n.toNat - k.toNat) + 200 < transferLeft line n line p s.idx) :
    Nearer s (rxTest line out n { s with cnt := k, idx := k }) := by
  refine .ite (fun _ => nearer_leaveToStop hi h k k s.fault (by omega)) fun _ => nearer_callAt h ?_ ?_
  · exact .transfer h hi.transfer rfl
  · rw [hi.left, hi.left, advance_loop, transferLeft_four]
    change 90 + (200 * (n.toNat - k.toNat) + 110) < _
    omega

theorem nearer_txLoop (ht : txAt n p s = true) : Nearer s (txLoop line out n p s) := by
  simp only [txAt, inLoop, Bool.and_eq_true, Bool.or_eq_true, beq_iff_eq, decide_eq_true_eq] at ht
  obtain ⟨⟨⟨⟨rfl | rfl, -⟩, -⟩, -⟩, hlt, hcnt⟩ := ht
  · refine nearer_callAt h (.same rfl rfl rfl) ?_
    rw [hi.left, hi.left, advance_loop, transferLeft_four, transferLeft_five]
    change 90 + (200 * (n.toNat - s.idx.toNat) + 12) < _
    omega
  · have hleft := toNat_left_succ hlt
    refine .ite (fun _ => ?_) fun _ => nearer_leaveToStop hi h s.cnt s.idx s.fault (by rw [transferLeft_five]; omega)
    rw [countByte, hcnt]
    exact nearer_txTest hi h _ (by rw [transferLeft_five]; omega)

theorem nearer_rxLoop (ht : rxAt n p s = true) : Nearer s (rxLoop line out n p s) := by
  simp only [rxAt, inLoop, Bool.and_eq_true, Bool.or_eq_true (_ == _), beq_iff_eq, decide_eq_true_eq] at ht
  obtain ⟨⟨⟨⟨⟨⟨rfl | rfl, -⟩, -⟩, -⟩, -⟩, hlt, hcnt⟩, -⟩ := ht
  · refine .ite (fun _ => nearer_setPos h ?_ ?_) fun _ => nearer_fault _
    · exact .transfer h hi.transfer rfl
    · rw [hi.left, hi.left, transferLeft_four, transferLeft_five]
      exact Nat.add_lt_add_left (by decide) _
  · have hleft := toNat_left_succ hlt
    refine .ite (fun _ => nearer_leaveToStop hi h s.cnt s.idx true (by rw [transferLeft_five]; omega)) fun _ => ?_
    rw [countByte, hcnt]
    exact nearer_rxTest hi h _ (by rw [transferLeft_five]; omega)

/-- The line of a transfer loop: it is entered or left for `STOP`, later it goes on. -/
theorem nearer_loopLine {loopAt : Nat → State → Out} (henter : p = 0 → Nearer s (loopAt 1 s))
    (hloop : p ≠ 0 → Nearer s (loopAt p s)) :
    Nearer s (if p = 0 then (if s.res then loopAt 1 s else leaveToStop out s) else loopAt p s) := by
  refine .ite (fun hp => ?_) hloop
  subst hp
  exact .ite (fun _ => henter rfl) fun _ =>
    nearer_leaveToStop hi h s.cnt s.idx s.fault (by rw [transferLeft_front (Nat.le_refl _)]; omega)

theorem nearer_txLine (ht : (if p = 0 then openAt s else txAt n p s) = true) :
    Nearer s (if p = 0 then (if s.res then txLoop line out n 1 s else leaveToStop out s) else txLoop line out n p s) := by
  refine nearer_loopLine (loopAt := txLoop line out n) hi h (fun hp => ?_) fun hp => nearer_txLoop hi h (by rwa [if_neg hp] at ht)
  subst hp
  exact nearer_txTest hi h 0 (by rw [transferLeft_front (Nat.le_refl _)]; simp)

theorem nearer_rxLine {b : Bool} (ht : (if p = 0 then b else rxAt n p s) = true) :
    Nearer s (if p = 0 then (if s.res then rxLoop line out n 1 s else leaveToStop out s) else rxLoop line out n p s) := by
  refine nearer_loopLine (loopAt := rxLoop line out n) hi h (fun hp => ?_) fun hp => nearer_rxLoop hi h (by rwa [if_neg hp] at ht)
  subst hp
  exact nearer_rxTest hi h 0 (by rw [transferLeft_front (Nat.le_refl _)]; simp)

end Loops

/-! ### The composite commands and every other routine -/

section Commands
variable {s : State} {l p : Nat} {rest : List Frame}

section Front
variable {i c : Instr} {line out : Nat} {n : Count} {b : Bool} (hi : Transferring i line out n) (h : At s i l p rest)
  (ht : (p == 0 && b) = true) (next : Nat)
include hi h ht

/-- Before its loop a composite command calls routines that each take less than a line's share. -/
theorem nearer_frontCall (hc : stepsLeft s c 1 0 < 100 := by simp [stepsLeft, byteLeft]) (hnext : l ≤ next := by decide)
    (hline : next < line := by decide) : Nearer s (callAt next 0 c s) := by
  obtain ⟨rfl, -⟩ : p = 0 ∧ b = true := by simpa using ht
  refine nearer_callAt h (.same rfl rfl rfl) ?_
  change stepsLeft s c 1 0 + stepsLeft s i (next + 1) 0 < stepsLeft s i l 0
  rw [hi.left, hi.left, transferLeft_front hline, transferLeft_front (hnext.trans hline.le)]
  omega

/-- Or it goes to its `STOP` when the byte before was not acknowledged. -/
theorem nearer_ifAcked (hc : stepsLeft s c 1 0 < 100 := by simp [stepsLeft, byteLeft]) (hnext : l ≤ next := by decide)
    (hline : next < line := by decide) : Nearer s (if s.res then callAt next 0 c s else leaveToStop out s) := by
  refine .ite (fun _ => nearer_frontCall hi h ht next hc hnext hline) fun _ => nearer_leaveToStop hi h s.cnt s.idx s.fault ?_
  obtain ⟨rfl, -⟩ : p = 0 ∧ b = true := by simpa using ht
  rw [transferLeft_front (hnext.trans hline.le)]
  omega

end Front

theorem nearer_execWrite {a : SlaveAddr} {n : Count} (h : At s (.write a n) l p rest) (ht : topOk (.write a n) l p s = true) :
    Nearer s (execWrite a n s) := by
  have hi := transferring_write a n
  rw [execWrite, asCommand_top h ht]
  simp only [topOk] at ht
  unfold writeAt at ht
  split at ht
  case h_1 => exact nearer_frontCall hi h ht 3
  case h_2 => exact nearer_txLine hi h ht
  case h_3 => exact nearer_respond .ok
  case h_4 => cases ht

theorem nearer_execRead {a : SlaveAddr} {n : Count} (h : At s (.read a n) l p rest) (ht : topOk (.read a n) l p s = true) :
    Nearer s (execRead a n s) := by
  have hi := transferring_read a n
  rw [execRead, asCommand_top h ht]
  simp only [topOk] at ht
  unfold readAt at ht
  split at ht
  case h_1 => exact nearer_frontCall hi h ht 3
  case h_2 => exact nearer_rxLine hi h ht
  case h_3 => exact nearer_respond .ok
  case h_4 => cases ht

theorem nearer_execWriteReg {a : SlaveAddr} {r : Byte} {n : Count} (h : At s (.writeReg a r n) l p rest)
    (ht : topOk (.writeReg a r n) l p s = true) : Nearer s (execWriteReg a r n s) := by
  have hi := transferring_writeReg a r n
  rw [execWriteReg, asCommand_top h ht]
  simp only [topOk] at ht
  unfold writeRegAt at ht
  split at ht
  case h_1 => exact nearer_frontCall hi h ht 3
  case h_2 => exact nearer_ifAcked hi h ht 5
  case h_3 => exact nearer_txLine hi h ht
  case h_4 => exact nearer_respond .ok
  case h_5 => cases ht

theorem nearer_execReadReg {a : SlaveAddr} {r : Byte} {n : Count} (h : At s (.readReg a r n) l p rest)
    (ht : topOk (.readReg a r n) l p s = true) : Nearer s (execReadReg a r n s) := by
  have hi := transferring_readReg a r n
  rw [execReadReg, asCommand_top h ht]
  simp only [topOk] at ht
  unfold readRegAt at ht
  split at ht
  case h_1 => exact nearer_frontCall hi h ht 3
  case h_2 => exact nearer_ifAcked hi h ht 5
  case h_3 => exact nearer_ifAcked hi h ht 7
  case h_4 => exact nearer_frontCall hi h ht 8
  case h_5 => exact nearer_rxLine hi h ht
  case h_6 => exact nearer_respond .ok
  case h_7 => cases ht

theorem nearer_execDeinit (h : At s .deinit l p rest) (ht : topOk .deinit l p s = true) : Nearer s (execDeinit s) := by
  rw [execDeinit, asCommand_top h ht]
  simp only [topOk, Bool.and_eq_true, beq_iff_eq] at ht
  obtain ⟨⟨⟨⟨rfl, rfl⟩, -⟩, -⟩, -⟩ := ht
  exact nearer_respond .ok

/-- At every line where the invariant can hold, the routine there brings its command nearer to its end. -/
theorem nearer_exec {i : Instr} (h : At s i l p rest) (ht : topOk i l p s = true) (hfree : ClockFree s) : Nearer s (exec i s) := by
  cases i with
  | init halcap freq => cases ht
  | deinit => exact nearer_execDeinit h ht
  | start => exact nearer_execStart h ht
  | stop => exact nearer_execStop h ht hfree
  | connect a w => exact nearer_execConnect h ht
  | write a n => exact nearer_execWrite h ht
  | read a n => exact nearer_execRead h ht
  | writeReg a r n => exact nearer_execWriteReg h ht
  | readReg a r n => exact nearer_execReadReg h ht
  | restart => exact nearer_execRestart h ht hfree
  | writeByte d => exact nearer_execWriteByte h ht
  | readByte f => exact nearer_execReadByte h ht
  | writeBit v => exact nearer_execWriteBit h ht hfree
  | readBit => exact nearer_execReadBit h ht hfree

/-! ### Dispatch -/

/-- A composite command calls `START` (R120 to R123, step 1). -/
theorem nearer_callStart {i : Instr} {line out : Nat} {n : Count} (hi : Transferring i line out n) (h : At s i 1 0 rest)
    (hline : 2 < line := by decide) : Nearer s (callAt 2 0 .start { s with cnt := 0 }) := by
  refine nearer_callAt h ?_ ?_
  · exact .same rfl rfl rfl
  · change 5 + stepsLeft s i 3 0 < stepsLeft s i 1 0
    rw [hi.left, hi.left, transferLeft_front hline, transferLeft_front (by omega)]
    omega

/-- Step 1 of a command past its checks. -/
theorem nearer_firstLine {i : Instr} (hi : i.issuable = true) (h : At s i 1 0 rest) (hst : ∀ a w, i = .connect a w → s.started = true) :
    Nearer s (firstLine i s) := by
  cases i with
  | restart | writeByte _ | readByte _ | writeBit _ | readBit => cases hi
  | init halcap freq => exact nearer_respond .ok
  | deinit => exact .ite (fun _ => nearer_callAt h (.same rfl rfl rfl) (by simp [stepsLeft])) fun _ => nearer_respond .ok
  | start => exact nearer_lineWrite h .sda true
  | stop => exact nearer_lineWrite h .scl false
  | connect a w =>
    exact .ite (fun _ => nearer_callAt h (.same rfl rfl rfl) (by simp [stepsLeft, byteLeft])) fun hno => absurd (hst a w rfl) hno
  | write a n => exact nearer_callStart (transferring_write a n) h
  | read a n => exact nearer_callStart (transferring_read a n) h
  | writeReg a r n => exact nearer_callStart (transferring_writeReg a r n) h
  | readReg a r n => exact nearer_callStart (transferring_readReg a r n) h

end Commands

section Steps
variable {s t : State}

/-- At dispatch a command has no less to do than at step 1. -/
theorem stepsLeft_dispatch (s : State) (i : Instr) : stepsLeft s i 1 0 ≤ stepsLeft s i 0 0 := by
  cases i <;> simp [stepsLeft, byteLeft, transferLeft]

theorem Waiting.seqLeft_atFirstLine (h : Waiting s) {i : Instr} (hd : decode s.cmd = .ok i) : seqLeft (atFirstLine s) ≤ seqLeft s := by
  have hi : latchedCommand s = some i := latchedCommand_of_decode h.latches hd
  calc seqLeft (atFirstLine s) = stepsLeft s i 1 0 := (h.at_firstLine hd).seqLeft_eq
    _ ≤ stepsLeft s i 0 0 := stepsLeft_dispatch s i
    _ = seqLeft s := by rw [seqLeft, h.seq, ← frameLeft_eq (f := none) hi]; rfl

/-- A step at dispatch ends the command or begins its listing (R131). -/
theorem Waiting.nearer_step (h : Waiting s) (hr : s.rstIn = false) : Nearer s (step s) := by
  cases hd : decode s.cmd with
  | error e =>
    rw [h.step_illegal hr hd]
    exact nearer_respond .illegalCmd
  | ok i =>
    cases hc : dispatchCheck i s with
    | some c =>
      rw [step_refused hr h.busy h.seq hd hc]
      exact nearer_respond c
    | none =>
      have hi : i.issuable = true := issuable_of_decode hd
      have hst : ∀ a w, i = .connect a w → s.started = true := by
        rintro a w rfl
        by_contra hno
        simp only [dispatchCheck, connectCheck, if_neg hno] at hc
        split at hc <;> cases hc
      rw [step_passes hr h.busy h.seq hd hc, exec_firstLine rfl hi]
      refine ⟨fun t ht hb => ?_⟩
      obtain ⟨hlt, hheld⟩ := (nearer_firstLine hi (h.at_firstLine hd) hst).of_next t ht hb
      exact ⟨hlt.trans_le (h.seqLeft_atFirstLine hd), hheld⟩

/-- So does every step of a command. -/
theorem nearer_step (hs : inv s = true) (hr : s.rstIn = false) (hb : s.busy = true) (hfree : ClockFree s) : Nearer s (step s) := by
  obtain ⟨hidle, -⟩ | hw | ⟨i, l, p, rest, hat, -, ht⟩ := inv_cases hs
  · rw [hidle] at hb
    cases hb
  · exact hw.nearer_step hr
  · rw [step_busy hr hb hat.fetch]
    exact nearer_exec hat ht hfree

/-! ### The run to the response -/

/-- What the peer will do is what it was going to do, from the next micro-operation on if there was one (R48). -/
theorem AtMostOneOp.driveAt (h : AtMostOneOp s t) : ∃ m, ∀ j, driveAt t j = driveAt s (m + j) := by
  have hview : ∀ {x : State}, busView t = busView x → ∀ j, Machine.driveAt t j = Machine.driveAt x j := fun {x} hx j => by
    change Machine.driveAt (busView t) j = Machine.driveAt (busView x) j
    rw [hx]
  have hmove : ∀ {x : State}, busView t = busView x → (∀ j, Machine.driveAt x j = Machine.driveAt (peerMove s) j) →
      ∃ m, ∀ j, Machine.driveAt t j = Machine.driveAt s (m + j) := fun hx hop =>
    ⟨1, fun j => by rw [hview hx, hop, driveAt_peerMove, Nat.add_comm]⟩
  cases h with
  | rest h => exact ⟨0, fun j => by rw [hview h, driveAt_peerRest, Nat.zero_add]⟩
  | lineWrite l b h => exact hmove h fun _ => by cases l <;> rfl
  | lineRead l h => exact hmove h fun _ => rfl
  | delay h => exact hmove h fun _ => rfl
  | memRead i h => exact hmove h fun _ => rfl
  | memWrite i v h => exact hmove h fun _ => rfl

theorem ClockFree.step (hfree : ClockFree s) (hr : s.rstIn = false) (h : step s = .next t) (hcap : t.halcap = s.halcap) :
    ClockFree t := by
  obtain ⟨m, hm⟩ := (step_atMostOneOp hr h).driveAt
  intro hrd j
  rw [hm]
  exact hfree (hcap ▸ hrd) (m + j)

/-- By induction on what `SEQ` still has to do. -/
theorem runs_to_response (hs : inv s = true) (hr : s.rstIn = false) (hfree : ClockFree s) :
    ∃ k t, runSteps k s = .next t ∧ t.busy = false := by
  induction hn : seqLeft s using Nat.strong_induction_on generalizing s with
  | _ n ih =>
    subst hn
    cases hb : s.busy with
    | false => exact ⟨0, s, rfl, hb⟩
    | true =>
      obtain ⟨t, ht, hinv⟩ := kept_step hs
      cases hbt : t.busy with
      | false => exact ⟨1, t, runSteps_next ht 0, hbt⟩
      | true =>
        obtain ⟨hlt, hcap, hrst⟩ := (nearer_step hs hr hb hfree).of_next t ht hbt
        obtain ⟨k, u, hk, hu⟩ := ih _ hlt hinv (hrst.trans hr) (hfree.step hr ht hcap) rfl
        exact ⟨k + 1, u, (runSteps_next ht k).trans hk, hu⟩

end Steps

/-- Settles O59: every step of a command lowers what `SEQ` still has to do (`nearer_step`). -/
theorem commandsEnd : Obligations.CommandsEnd := fun _ hs hr hfree => runs_to_response hs hr hfree

end Sys2Proof.Machine
end

section
/-! PROOFS. A step while `BUSY = 0`: idling, and what acceptance does to the ports. -/

namespace Sys2Proof.Machine

section Idle

variable {s : State}

theorem step_noWord (hr : s.rstIn = false) (hb : s.busy = false) (hw : s.cmdIn = none) : step s = .next (peerRest s) := by
  rw [step_idle hr hb, idleStep, hw]

theorem step_accept (hr : s.rstIn = false) (hb : s.busy = false) {w : CmdWord} (hw : s.cmdIn = some w) :
    step s = .next (accept w s) := by
  rw [step_idle hr hb, idleStep, hw]

end Idle

/-- Settles O9: an idle step is the peer's move at rest (`step_noWord`), and acceptance is `accept` (`step_accept`). -/
theorem idlePort : Obligations.IdlePort := by
  intro s hr hb
  constructor
  · intro hw
    exact ⟨peerRest s, step_noWord hr hb hw, Did.rest s⟩
  · intro w hw
    exact ⟨accept w s, step_accept hr hb hw, accept_cmd w s, accept_cmdIn w s, accept_rspValid w s⟩

end Sys2Proof.Machine
end
